-- ==== Sys2Proof/Word.lean ====
section
/-!
DEFINITION. The words of the LQ24: a byte of a message or frame, and the fields of two and four bytes
(spec/10_message_and_frame_formats.md).
-/

namespace Sys2Proof

/-- One byte of a host link message or of a ring frame. -/
abbrev Byte := BitVec 8

/-- A field of two bytes: a counter, a delivery sequence, a check. -/
abbrev Half := BitVec 16

/-- A field of four bytes: a cycle number, a period. -/
abbrev Word := BitVec 32

end Sys2Proof
end

