-- ==== Sys2Proof/Syntax.lean ====
section
/-!
DEFINITION. The commands of the LQ24: one constructor for each row of spec/opcode_table.json.

A request of the host carries the tag of its message and the fields of its payload, in the order and with the widths
of spec/10_message_and_frame_formats.md, section 10.3. A field holds whatever the host sends: whether a value is in
range is judged by the owner of the request.
-/

namespace Sys2Proof

/-- The level of RXD: idle (the stop-bit level) or the break level (R152). -/
inductive LineLevel where
  | idle
  | brk
  deriving DecidableEq, Repr

/-- The steps of the part. -/
inductive Instr where
  -- Requests to the Ring Supervisor
  | configureRing (tag bitRate : Byte) (returnTimeout : Half) (retryLimit missLimit : Byte) (probeInterval : Half)
  | startRing (tag : Byte)
  | stopRing (tag : Byte)
  | census (tag : Byte)
  -- Requests to Plan Memory
  | clearPlan (tag : Byte)
  | addEntry (tag target operation object outLength inLength : Byte)
  | setEnable (tag index setting : Byte)
  | writeOutput (tag index : Byte) (data : List Byte)
  | readInput (tag index : Byte)
  -- Requests to the Cycle Engine
  | configureCycle (tag mode : Byte) (period : Word) (policy budget window overrun : Byte)
  | startCycle (tag : Byte)
  | stopCycle (tag choice : Byte)
  | triggerCycle (tag : Byte)
  -- Requests to the Urgent Queue and the Report Window Unit
  | urgent (tag station operation object inLength retry : Byte) (deadline : Half) (outData : List Byte)
  | cancel (tag urgentTag : Byte)
  | openWindow (tag : Byte)
  -- Requests to the Delivery Store
  | grant (tag credits : Byte)
  | ackDeliveries (tag : Byte) (sequence : Half)
  | rewind (tag : Byte) (sequence : Half)
  -- Queries and the request for a soft reset
  | queryStatus (tag : Byte)
  | queryStation (tag address : Byte)
  | queryCounters (tag clear : Byte)
  | reset (tag : Byte)
  -- The reset pin. The release finds the straps and RXD at these levels (high is true)
  | hardReset
  | hardResetRelease (rate1 rate0 : Bool) (rxd : LineLevel)
  -- The host link line
  | linkMessageComplete (character : Byte)
  | gapTimerExpiry
  | characterError
  | linkReset
  | breakEnd
  | transmissionEnd
  -- The ring
  | ringFrameComplete (bytes : List Byte)
  | attemptFrameSent
  | returnTimerExpiry
  | probeTimerExpiry
  -- Reports between blocks, and the timers of the Cycle Engine and the Urgent Queue
  | cycleRingReport
  | urgentRingReport
  | windowRingReport
  | arbiterRingReport
  | periodTimerExpiry
  | spaceReleaseNotice
  | deadlineTimerExpiry (tag : Byte)
  | rxdCharacterReceived (character : Byte)
  deriving DecidableEq, Repr

end Sys2Proof
end

