-- ==== Sys2Proof/Decode.lean ====
section
/-!
DEFINITION. spec/opcode_table.json gives none of its 43 rows any bits: no word spells a command. A request reaches the
part as a host link message; the Request Handler reads its body in Machine/Handler.lean.
-/

namespace Sys2Proof

/-- The command a word of the opcode table spells: none, since no row of the table has bits. -/
def decodeTableWord (_nbits _w : Nat) : Option Instr := none

end Sys2Proof
end

