-- ==== Sys2Proof/Config.lean ====
section
/-!
DEFINITION. What is fixed for the part the data book describes, and the inputs the model fixes for its one reset state.
-/

namespace Sys2Proof.Config

/-- The part code STARTED carries, 4C24h (spec/10, section 10.4). -/
def partCode : Half := 0x4C24#16

/-- The revision STARTED carries, 01h for the part the data book describes (spec/10, section 10.4). -/
def revision : Byte := 0x01#8

/-- DESIGN CHOICE (log 1), unsafe: the rate code of State.reset, straps low and low (R152).
The straps are input pins; HARD_RESET_RELEASE takes their levels as operands. -/
def resetRateCode : BitVec 2 := 0#2

end Sys2Proof.Config
end

