-- ==== Sys2Proof/Machine/State.lean ====
section
/-!
DEFINITION. The state of the LQ24, block by block, as spec/ gives it (INVENTORY.md lists every piece with its rule).

The default value of each field is the value it takes after a hard and after a soft reset, so a block's reset value is
the structure with no field given. Values the spec sends as codes are inductive types here; their codes are in
Machine/Operands.lean.
-/

namespace Sys2Proof.Machine

/-! ### Names the spec gives to states, outcomes, causes and reasons -/

/-- Ring state (R103, R106). -/
inductive RingState where
  | off | probing | up | down | fault
  deriving DecidableEq, Repr

/-- Ring bit rate in Mbit/s (R104). -/
inductive BitRate where
  | r2_5 | r5 | r10 | r20
  deriving DecidableEq, Repr

/-- Ring Port state (R8). -/
inductive PortState where
  | disabled | idle | sending | awaiting
  deriving DecidableEq, Repr

/-- Who asked for a circulation (R9, R65). -/
inductive Requester where
  | census | cycle | urgent | window
  deriving DecidableEq, Repr

/-- What a CALL asks of a station (R3). -/
inductive Operation where
  | read | write | swap
  deriving DecidableEq, Repr

/-- The status a serving station writes (R4). -/
inductive ReplyStatus where
  | ok | noObject | busy | denied | size
  deriving DecidableEq, Repr

/-- Outcome of a plan entry or of an urgent request (R50, R52, R79, R80). -/
inductive ExchangeOutcome where
  | done | busy | refusedByStation | missed | failedCheck | skippedDisabled | skippedStation
  | noOutput | ringDown | ringStopped | expired
  deriving DecidableEq, Repr

/-- A station's health (R89). -/
inductive StationState where
  | active | silent | lost | absent
  deriving DecidableEq, Repr

/-- Cycle state (R41). -/
inductive CycleState where
  | stopped | armed | held | running | closing
  deriving DecidableEq, Repr

/-- Hold reason (R41). -/
inductive HoldReason where
  | none | ring | space
  deriving DecidableEq, Repr

/-- Cycle mode (R40). -/
inductive CycleMode where
  | timed | free | triggered
  deriving DecidableEq, Repr

/-- Interruption policy (R40, R55). -/
inductive InterruptionPolicy where
  | resume | restart
  deriving DecidableEq, Repr

/-- Overrun policy (R40, R59). -/
inductive OverrunPolicy where
  | skip | lateStart
  deriving DecidableEq, Repr

/-- Cause of a ring state change (R116). -/
inductive RingCause where
  | hostStart | probeTimer | censusValid | tooManyStations | invalidAddress | duplicateAddress
  | censusFailed | lostReturn | hostStop
  deriving DecidableEq, Repr

/-- Reason of a cycle's abandonment (R60). -/
inductive AbandonReason where
  | ringDown | ringFault | stopped | ringStopped
  deriving DecidableEq, Repr

/-- Cause of a STATION_STATE event (R97). -/
inductive StationCause where
  | served | missed | report
  deriving DecidableEq, Repr

/-- Reason of a refused request (spec/10, section 10.5). -/
inductive Reason where
  | unknownType | badLength | range | badState | noSpace | queueFull | tagInUse | unknownStation
  | noSuchEntry | lengthMismatch | notFound | inFlight | inboxFull | ringOff
  deriving DecidableEq, Repr

/-- Receiver state of the Link Controller (R153); `brk` is BREAK. -/
inductive RxState where
  | hunt | length | body | check | brk
  deriving DecidableEq, Repr

/-- Cause of a STARTED announcement (R165). -/
inductive ResetCause where
  | hard | soft
  deriving DecidableEq, Repr

/-- Kind of the window in flight (R120). -/
inductive WindowKind where
  | cycleWindow | hostWindow
  deriving DecidableEq, Repr

/-- Region of a committed record (R143). -/
inductive Region where
  | unsent | sentUnacknowledged
  deriving DecidableEq, Repr

/-! ### Ring frames and the circulation record -/

/-- A pair of the owed-acknowledgement list: station address and report sequence (R119). -/
structure AckPair where
  address  : Byte
  sequence : Byte
  deriving DecidableEq, Repr

/-- The body of a CALL as its requester gives it; the out length is the number of out data bytes. -/
structure CallBody where
  target    : Byte
  operation : Operation
  object    : Byte
  outData   : List Byte
  capacity  : Nat
  deriving DecidableEq, Repr

/-- The kind and body of the frame of a claim (R9). CENSUS and WINDOW are sent with counts zero and capacity 96. -/
inductive FrameBody where
  | call (body : CallBody)
  | census
  | window (acks : List AckPair)
  deriving DecidableEq, Repr

/-- The circulation record (R9, R11). -/
structure Circulation where
  requester : Requester
  frame     : FrameBody
  attempts  : Nat
  allowance : Nat
  tag       : Option Byte
  deriving DecidableEq, Repr

/-- The six ring counters (R21). -/
structure RingCounters where
  attemptsStarted : Half := 0#16
  corruptReturns  : Half := 0#16
  lostReturns     : Half := 0#16
  strayFrames     : Half := 0#16
  retries         : Half := 0#16
  hopMismatches   : Half := 0#16
  deriving DecidableEq, Repr

/-- The Ring Port (R8 to R21). The return timer, when it runs, holds the timeout it was started with, in µs. -/
structure RingPort where
  state       : PortState := .disabled
  record      : Option Circulation := none
  tagCounter  : Byte := 0#8
  returnTimer : Option Half := none
  counters    : RingCounters := {}
  deriving DecidableEq, Repr

/-! ### Ring Supervisor -/

/-- The ring configuration (R104): return timeout in µs, probe interval in ms. -/
structure RingConfig where
  bitRate       : BitRate := .r10
  returnTimeout : Half := 500#16
  retryLimit    : Nat := 2
  missLimit     : Nat := 3
  probeInterval : Half := 100#16
  deriving DecidableEq, Repr

/-- The Ring Supervisor (R103). The probe timer, when it runs, holds the interval it was started with. -/
structure Supervisor where
  state         : RingState := .off
  config        : RingConfig := {}
  probeTimer    : Option Half := none
  censusPending : Bool := false
  deriving DecidableEq, Repr

/-! ### Station Table -/

/-- An entry of the Station Table (R87). -/
structure StationEntry where
  address      : Byte
  position     : Option Nat
  kind         : Byte
  state        : StationState
  missCount    : Nat
  lastAccepted : Option Byte
  callsServed  : Half
  misses       : Half
  deriving DecidableEq, Repr

/-! ### Plan Memory -/

/-- An entry of the cycle plan with its process image (R22). An output is empty when its list is `[]`. -/
structure PlanEntry where
  target          : Byte
  operation       : Operation
  object          : Byte
  outLength       : Nat
  inLength        : Nat
  pendingEnable   : Bool
  latchedEnable   : Bool
  pendingOutput   : List Byte
  latchedOutput   : List Byte
  writtenSinceLatch : Bool
  lastGoodData    : List Byte
  lastGoodCycle   : Word
  lastGoodValid   : Bool
  deriving DecidableEq, Repr

/-! ### Cycle Engine -/

/-- The cycle configuration (R40): period in µs. -/
structure CycleConfig where
  mode    : CycleMode := .timed
  period  : Word := 10000#32
  policy  : InterruptionPolicy := .resume
  budget  : Nat := 2
  window  : Bool := true
  overrun : OverrunPolicy := .skip
  deriving DecidableEq, Repr

/-- The outcome of one plan entry in one pass of the walk (R50, R52). `status` none is NONE. -/
structure EntryOutcome where
  outcome : ExchangeOutcome
  status  : Option ReplyStatus
  data    : List Byte
  deriving DecidableEq, Repr

/-- The five cycle counters (R64). -/
structure CycleCounters where
  completed     : Half := 0#16
  abandoned     : Half := 0#16
  overruns      : Half := 0#16
  skippedStarts : Half := 0#16
  restarts      : Half := 0#16
  deriving DecidableEq, Repr

/-- The Cycle Engine (R40 to R64). The period timer, when it runs, holds the period it runs with.
`heldMark` is the late-start mark of the start cause an attempt was last made for, which a held start keeps (R48). -/
structure CycleEngine where
  config          : CycleConfig := {}
  state           : CycleState := .stopped
  holdReason      : HoldReason := .none
  cycleNumber     : Word := 0#32
  pointer         : Nat := 0
  outcomes        : List EntryOutcome := []
  awaiting        : Option Nat := none
  restarts        : Nat := 0
  interleaved     : Nat := 0
  windowDone      : Bool := false
  windowFailed    : Bool := false
  reportsAccepted : Nat := 0
  reportsDeferred : Nat := 0
  lateMark        : Bool := false
  heldMark        : Bool := false
  lateFlag        : Bool := false
  overrunReported : Bool := false
  stopAtEnd       : Bool := false
  periodTimer     : Option Word := none
  counters        : CycleCounters := {}
  deriving DecidableEq, Repr

/-! ### Urgent Queue -/

/-- An accepted urgent request (R71): deadline in ms, 0 for none. -/
structure UrgentRequest where
  tag          : Byte
  station      : Byte
  operation    : Operation
  object       : Byte
  outData      : List Byte
  inLength     : Nat
  retry        : Bool
  deadline     : Half
  timerRunning : Bool
  deriving DecidableEq, Repr

/-- The Urgent Queue, head first, and the in-flight place (R71). -/
structure UrgentQueue where
  queue    : List UrgentRequest := []
  inFlight : Option UrgentRequest := none
  deriving DecidableEq, Repr

/-! ### Report Window Unit -/

/-- The window record (R120). -/
structure WindowRecord where
  kind        : WindowKind
  cycleNumber : Word
  deriving DecidableEq, Repr

/-- The five report counters (R132). -/
structure ReportCounters where
  accepted        : Half := 0#16
  duplicates      : Half := 0#16
  refusedForSpace : Half := 0#16
  unknownReporter : Half := 0#16
  deferred        : Half := 0#16
  deriving DecidableEq, Repr

/-- The Report Window Unit (R118). -/
structure WindowUnit where
  owed        : List AckPair := []
  hostPending : Bool := false
  record      : Option WindowRecord := none
  counters    : ReportCounters := {}
  deriving DecidableEq, Repr

/-! ### Delivery Store -/

/-- The contents of an EVENT record (spec/10, section 10.6). -/
inductive Event where
  | ringState (previous new : RingState) (cause : RingCause) (present : Nat) (faultAddress : Byte)
  | stationState (address : Byte) (position : Nat) (previous new : StationState) (missCount : Nat)
      (cause : StationCause)
  | topology (present new absent : Nat)
  | cycleOverrun (cycleNumber : Word)
  | cycleAbandoned (cycleNumber : Word) (reason : AbandonReason) (settled : Nat)
  | cycleStopped (cycleNumber : Word)
  | eventsLost (count : Half)
  deriving DecidableEq, Repr

/-- The contents of a SNAPSHOT record (R58); the entry count is the number of outcomes. -/
structure Snapshot where
  cycleNumber     : Word
  restarts        : Nat
  interleaved     : Nat
  reportsAccepted : Nat
  reportsDeferred : Nat
  windowDone      : Bool
  windowFailed    : Bool
  lateStart       : Bool
  entries         : List EntryOutcome
  deriving DecidableEq, Repr

/-- The contents of an URGENT_RESULT record (R80). -/
structure UrgentResult where
  tag      : Byte
  outcome  : ExchangeOutcome
  status   : Option ReplyStatus
  attempts : Nat
  data     : List Byte
  deriving DecidableEq, Repr

/-- A report as a station appended it to a window (R7). -/
structure ReportItem where
  address  : Byte
  sequence : Byte
  code     : Byte
  data     : List Byte
  deriving DecidableEq, Repr

/-- The four kinds of record with their contents (R134). A REPORT adds the report cycle number of its window. -/
inductive RecordContent where
  | snapshot (contents : Snapshot)
  | urgentResult (contents : UrgentResult)
  | report (cycleNumber : Word) (item : ReportItem)
  | event (contents : Event)
  deriving DecidableEq, Repr

/-- A committed record (R133). Its bytes and size follow from its contents and sequence (R177). -/
structure Record where
  content  : RecordContent
  sequence : Half
  region   : Region
  deriving DecidableEq, Repr

/-- The owner of a reservation (R133). -/
inductive ReservationOwner where
  | cycle
  | urgent (tag : Byte)
  deriving DecidableEq, Repr

/-- A reservation (R133, R137). -/
structure Reservation where
  owner : ReservationOwner
  size  : Nat
  deriving DecidableEq, Repr

/-- The Delivery Store (R133). `releasedInEvent` is the model's own: it records that the event in progress has released
space, so that several releases in one event give one notice (R140); it is clear between commands. -/
structure Store where
  records         : List Record := []
  reservations    : List Reservation := []
  credits         : Nat := 0
  nextSequence    : Half := 0#16
  lostEvents      : Half := 0#16
  releasedInEvent : Bool := false
  deriving DecidableEq, Repr

/-! ### Host link -/

/-- Who placed a reply: the Request Handler for RESET, the Request Handler for any other request, or the Link
Controller for a message that met a full inbox (R158, R162, R168). -/
inductive ReplySource where
  | handler | handlerReset | inboxFull
  deriving DecidableEq, Repr

/-- A reply (spec/10, section 10.4). `reason` none is the result ACCEPTED with reason NONE. -/
structure Reply where
  tag     : Byte
  reason  : Option Reason
  payload : List Byte
  source  : ReplySource
  deriving DecidableEq, Repr

/-- An announcement (R165). -/
inductive Announcement where
  | started (cause : ResetCause) (rateCode : BitVec 2)
  | linkRestarted
  deriving DecidableEq, Repr

/-- The Link Controller's own copy of the message on TXD (R164). -/
inductive TxMessage where
  | announcement (a : Announcement)
  | reply (r : Reply)
  | delivery (r : Record)
  deriving DecidableEq, Repr

/-- The seven link counters (R170). -/
structure LinkCounters where
  requestsReceived : Half := 0#16
  checkErrors      : Half := 0#16
  gapDiscards      : Half := 0#16
  characterErrors  : Half := 0#16
  inboxFull        : Half := 0#16
  dropped          : Half := 0#16
  linkResets       : Half := 0#16
  deriving DecidableEq, Repr

/-- The Link Controller (R152 to R170). The inbox holds bodies of good messages: type, tag, payload. -/
structure Link where
  receiver         : RxState := .hunt
  retained         : List Byte := []
  gapTimer         : Bool := false
  rxd              : LineLevel := .idle
  inbox            : List (List Byte) := []
  replies          : List Reply := []
  announcements    : List Announcement := []
  tx               : Option TxMessage := none
  softResetPending : Bool := false
  rateCode         : BitVec 2 := Config.resetRateCode
  counters         : LinkCounters := {}
  deriving DecidableEq, Repr

/-! ### What the blocks have told each other and not yet taken -/

/-- Ring state reports and release-of-space notices given and not yet taken, oldest first (R117, R140). -/
structure Notices where
  cycle   : List RingState := []
  urgent  : List RingState := []
  window  : List RingState := []
  arbiter : List RingState := []
  space   : Nat := 0
  deriving DecidableEq, Repr

/-! ### The machine -/

/-- The whole part, and the queue of commands waiting, first in first out. The circulation slot of the Exchange
Arbiter is the requester of the Ring Port's record (R65), and the pins ATTN, TXD and RING_OUT are computed in
Machine/Flags.lean and Machine/Formats.lean. -/
structure State where
  resetAsserted : Bool := false
  link          : Link := {}
  port          : RingPort := {}
  supervisor    : Supervisor := {}
  table         : List StationEntry := []
  plan          : List PlanEntry := []
  cycle         : CycleEngine := {}
  urgent        : UrgentQueue := {}
  window        : WindowUnit := {}
  store         : Store := {}
  notices       : Notices := {}
  pending       : List Instr := []
  deriving DecidableEq, Repr

/-- The spec names no event that stops the part: a request it turns away is answered, a damaged frame or message is
counted and discarded (log 19). No command raises a fault. -/
inductive Fault where
  deriving DecidableEq, Repr

/-- Why a command has no meaning in the model. -/
inductive Refusal where
  /-- Raised by no command: every row of the opcode table has its meaning. Safe. -/
  | notModelled (mnemonic : String)
  deriving DecidableEq, Repr

/-- The part right after a hard reset has ended: every block at its hard-reset values, and STARTED with cause HARD, the
first message the part sends, on TXD (R163, R165, R169). DESIGN CHOICE (log 1), unsafe: RESET_N released, the straps
both low and RXD idle. -/
def State.reset : State :=
  { link := { tx := some (.announcement (.started .hard Config.resetRateCode)) } }

end Sys2Proof.Machine
end

