-- ==== Sys2Proof/Machine/Operands.lean ====
section
/-!
DEFINITION. The code values of spec/10_message_and_frame_formats.md, sections 10.3 and 10.5: the code each name is sent
as, and the name a received code stands for (none where the code is outside the table).
-/

namespace Sys2Proof.Machine

/-- Operation codes of ADD_ENTRY, URGENT and the CALL frame. -/
def Operation.code : Operation → Byte
  | .read => 0x01#8
  | .write => 0x02#8
  | .swap => 0x03#8

def operationOfCode (b : Byte) : Option Operation :=
  if b = 0x01#8 then some .read else if b = 0x02#8 then some .write
  else if b = 0x03#8 then some .swap else none

def RingState.code : RingState → Byte
  | .off => 0x00#8 | .probing => 0x01#8 | .up => 0x02#8 | .down => 0x03#8 | .fault => 0x04#8

def CycleState.code : CycleState → Byte
  | .stopped => 0x00#8 | .armed => 0x01#8 | .held => 0x02#8 | .running => 0x03#8 | .closing => 0x04#8

def StationState.code : StationState → Byte
  | .active => 0x00#8 | .silent => 0x01#8 | .lost => 0x02#8 | .absent => 0x03#8

def ReplyStatus.code : ReplyStatus → Byte
  | .ok => 0x00#8 | .noObject => 0x01#8 | .busy => 0x02#8 | .denied => 0x03#8 | .size => 0x04#8

def statusOfCode (b : Byte) : Option ReplyStatus :=
  if b = 0x00#8 then some .ok else if b = 0x01#8 then some .noObject
  else if b = 0x02#8 then some .busy else if b = 0x03#8 then some .denied
  else if b = 0x04#8 then some .size else none

/-- A station status of NONE is sent as FFh (R175). -/
def statusByte : Option ReplyStatus → Byte
  | some st => st.code
  | none => 0xFF#8

def ExchangeOutcome.code : ExchangeOutcome → Byte
  | .done => 0x00#8 | .busy => 0x01#8 | .refusedByStation => 0x02#8 | .missed => 0x03#8
  | .failedCheck => 0x04#8 | .skippedDisabled => 0x05#8 | .skippedStation => 0x06#8
  | .noOutput => 0x07#8 | .ringDown => 0x08#8 | .ringStopped => 0x09#8 | .expired => 0x0A#8

def Reason.code : Reason → Byte
  | .unknownType => 0x01#8 | .badLength => 0x02#8 | .range => 0x03#8 | .badState => 0x04#8
  | .noSpace => 0x05#8 | .queueFull => 0x06#8 | .tagInUse => 0x07#8 | .unknownStation => 0x08#8
  | .noSuchEntry => 0x09#8 | .lengthMismatch => 0x0A#8 | .notFound => 0x0B#8 | .inFlight => 0x0C#8
  | .inboxFull => 0x0D#8 | .ringOff => 0x0E#8

def RingCause.code : RingCause → Byte
  | .hostStart => 0x00#8 | .probeTimer => 0x01#8 | .censusValid => 0x02#8
  | .tooManyStations => 0x03#8 | .invalidAddress => 0x04#8 | .duplicateAddress => 0x05#8
  | .censusFailed => 0x06#8 | .lostReturn => 0x07#8 | .hostStop => 0x08#8

def AbandonReason.code : AbandonReason → Byte
  | .ringDown => 0x00#8 | .ringFault => 0x01#8 | .stopped => 0x02#8 | .ringStopped => 0x03#8

def StationCause.code : StationCause → Byte
  | .served => 0x00#8 | .missed => 0x01#8 | .report => 0x02#8

def HoldReason.code : HoldReason → Byte
  | .none => 0x00#8 | .ring => 0x01#8 | .space => 0x02#8

/-- The in-flight requester of QUERY_STATUS: NONE when the record is empty. -/
def requesterByte : Option Requester → Byte
  | none => 0x00#8
  | some .census => 0x01#8
  | some .cycle => 0x02#8
  | some .urgent => 0x03#8
  | some .window => 0x04#8

def bitRateOfCode (b : Byte) : Option BitRate :=
  if b = 0x00#8 then some .r2_5 else if b = 0x01#8 then some .r5
  else if b = 0x02#8 then some .r10 else if b = 0x03#8 then some .r20 else none

def modeOfCode (b : Byte) : Option CycleMode :=
  if b = 0x00#8 then some .timed else if b = 0x01#8 then some .free
  else if b = 0x02#8 then some .triggered else none

def policyOfCode (b : Byte) : Option InterruptionPolicy :=
  if b = 0x00#8 then some .resume else if b = 0x01#8 then some .restart else none

def overrunOfCode (b : Byte) : Option OverrunPolicy :=
  if b = 0x00#8 then some .skip else if b = 0x01#8 then some .lateStart else none

/-- A setting of off (00h) or on (01h), and a flag of clear (00h) or set (01h). -/
def settingOfCode (b : Byte) : Option Bool :=
  if b = 0x00#8 then some false else if b = 0x01#8 then some true else none

def ResetCause.code : ResetCause → Byte
  | .hard => 0x00#8 | .soft => 0x01#8

def flagByte (b : Bool) : Byte := if b then 0x01#8 else 0x00#8

/-- The types of the host's requests (spec/10, section 10.3). -/
inductive RequestType where
  | configureRing | startRing | stopRing | census | clearPlan | addEntry | setEnable | writeOutput
  | readInput | configureCycle | startCycle | stopCycle | triggerCycle | urgent | cancel | openWindow
  | grant | ackDeliveries | rewind | queryStatus | queryStation | queryCounters | reset
  deriving DecidableEq, Repr

def RequestType.code : RequestType → Byte
  | .configureRing => 0x01#8 | .startRing => 0x02#8 | .stopRing => 0x03#8 | .census => 0x04#8
  | .clearPlan => 0x10#8 | .addEntry => 0x11#8 | .setEnable => 0x12#8 | .writeOutput => 0x13#8
  | .readInput => 0x14#8 | .configureCycle => 0x20#8 | .startCycle => 0x21#8 | .stopCycle => 0x22#8
  | .triggerCycle => 0x23#8 | .urgent => 0x30#8 | .cancel => 0x31#8 | .openWindow => 0x38#8
  | .grant => 0x40#8 | .ackDeliveries => 0x41#8 | .rewind => 0x42#8 | .queryStatus => 0x50#8
  | .queryStation => 0x51#8 | .queryCounters => 0x52#8 | .reset => 0x5F#8

/-- Every request type, for reading a type byte. -/
def requestTypes : List RequestType :=
  [.configureRing, .startRing, .stopRing, .census, .clearPlan, .addEntry, .setEnable, .writeOutput,
   .readInput, .configureCycle, .startCycle, .stopCycle, .triggerCycle, .urgent, .cancel, .openWindow,
   .grant, .ackDeliveries, .rewind, .queryStatus, .queryStation, .queryCounters, .reset]

/-- The request a type byte stands for; none for every other value (R161). -/
def requestTypeOfCode (b : Byte) : Option RequestType := requestTypes.find? (fun t => t.code == b)

end Sys2Proof.Machine
end

