-- ==== Sys2Proof/WellFormed.lean ====
section
/-!
DEFINITION. Which commands can come about at all. A request's body is at most 1400 bytes, or it is no message (R154);
a frame at RING_IN is completed with at least its first byte and at most 153 bytes received (R12, R174).
-/

namespace Sys2Proof

/-- The longest body of a host link message (spec/09, section 9.2). -/
def maxBody : Nat := 1400

/-- The longest ring frame of any kind (spec/10, section 10.2). -/
def maxFrame : Nat := 153

/-- A command that can come about. -/
def Instr.wf : Instr → Bool
  | .writeOutput _ _ data => decide (3 + data.length ≤ maxBody)
  | .urgent _ _ _ _ _ _ _ outData => decide (9 + outData.length ≤ maxBody)
  | .ringFrameComplete bytes => decide (1 ≤ bytes.length) && decide (bytes.length ≤ maxFrame)
  | .configureRing _ _ _ _ _ _ | .startRing _ | .stopRing _ | .census _ | .clearPlan _
  | .addEntry _ _ _ _ _ _ | .setEnable _ _ _ | .readInput _ _ | .configureCycle _ _ _ _ _ _ _
  | .startCycle _ | .stopCycle _ _ | .triggerCycle _ | .cancel _ _ | .openWindow _ | .grant _ _
  | .ackDeliveries _ _ | .rewind _ _ | .queryStatus _ | .queryStation _ _ | .queryCounters _ _
  | .reset _ | .hardReset | .hardResetRelease _ _ _ | .linkMessageComplete _ | .gapTimerExpiry
  | .characterError | .linkReset | .breakEnd | .transmissionEnd | .attemptFrameSent
  | .returnTimerExpiry | .probeTimerExpiry | .cycleRingReport | .urgentRingReport
  | .windowRingReport | .arbiterRingReport | .periodTimerExpiry | .spaceReleaseNotice
  | .deadlineTimerExpiry _ | .rxdCharacterReceived _ => true

end Sys2Proof
end

