-- ==== Sys2Proof/Machine/Formats.lean ====
section
/-!
DEFINITION. Bytes: the check, byte order, ring frames, record bodies and host link messages
(spec/10_message_and_frame_formats.md), the finding of a frame's extent and check (R12, R173, R174), and what the pins
RING_OUT and TXD send.
-/

namespace Sys2Proof.Machine

/-! ### Byte order: most significant byte first (R175) -/

def halfOf (hi lo : Byte) : Half := hi ++ lo

def wordOf (b3 b2 b1 b0 : Byte) : Word := b3 ++ b2 ++ b1 ++ b0

def halfBytes (h : Half) : List Byte := [h.extractLsb' 8 8, h.extractLsb' 0 8]

def wordBytes (w : Word) : List Byte :=
  [w.extractLsb' 24 8, w.extractLsb' 16 8, w.extractLsb' 8 8, w.extractLsb' 0 8]

/-- A count sent in one byte; every count the part sends is in the byte's range. -/
def natByte (n : Nat) : Byte := BitVec.ofNat 8 n

/-- A count sent in two bytes. -/
def natHalf (n : Nat) : Half := BitVec.ofNat 16 n

/-! ### The check (section 10.1, R173) -/

/-- One bit of the CRC-16 with polynomial 1021h. -/
def crcBit (c : Half) : Half :=
  if c.msb then (c <<< (1 : Nat)) ^^^ 0x1021#16 else c <<< (1 : Nat)

/-- n bits shifted out of the CRC. -/
def crcBits : Nat → Half → Half
  | 0, c => c
  | n + 1, c => crcBits n (crcBit c)

/-- One byte into the CRC, most significant bit first. -/
def crcByte (c : Half) (b : Byte) : Half := crcBits 8 (c ^^^ (b.setWidth 16 <<< (8 : Nat)))

/-- The CRC-16 of the covered bytes: initial value FFFFh, no reflection, no inversion. -/
def crc16 (bytes : List Byte) : Half := bytes.foldl crcByte 0xFFFF#16

/-! ### Ring frames as the LQ24 sends them (section 10.2) -/

def kindCall : Byte := 0x01#8
def kindCensus : Byte := 0x02#8
def kindWindow : Byte := 0x03#8

/-- The remaining capacity a WINDOW is sent with (R7, R121). -/
def windowCapacity : Nat := 96

def ackBytes (acks : List AckPair) : List Byte := acks.flatMap (fun p => [p.address, p.sequence])

def FrameBody.kind : FrameBody → Byte
  | .call _ => kindCall
  | .census => kindCensus
  | .window _ => kindWindow

/-- The body of a frame as it is sent: served flag clear, counts zero, capacity 96 (R11). -/
def FrameBody.bodyBytes : FrameBody → List Byte
  | .call b =>
    [b.target, b.operation.code, b.object, natByte b.outData.length] ++ b.outData ++
      [natByte b.capacity, 0x00#8, ReplyStatus.ok.code, 0x00#8]
  | .census => [0x00#8, 0x00#8]
  | .window acks =>
    natByte acks.length :: ackBytes acks ++ [natByte windowCapacity, 0x00#8, 0x00#8]

/-- The covered bytes of a frame sent with a tag, hop count 0 (R11, R173). -/
def FrameBody.covered (f : FrameBody) (tag : Byte) : List Byte :=
  f.kind :: tag :: 0x00#8 :: f.bodyBytes

/-- A whole frame with its check. -/
def FrameBody.frame (f : FrameBody) (tag : Byte) : List Byte :=
  f.covered tag ++ halfBytes (crc16 (f.covered tag))

/-- What RING_OUT sends, at a bit rate: idle fill or a frame (R1, R8). -/
inductive RingOut where
  | idleFill (rate : BitRate)
  | frame (rate : BitRate) (bytes : List Byte)
  deriving DecidableEq, Repr

/-- RING_OUT: the frame of the attempt being sent, else idle fill, both at the bit rate of the ring configuration (R1,
R105). -/
def State.ringOut (s : State) : RingOut :=
  match s.port.state, s.port.record with
  | .sending, some c => .frame s.supervisor.config.bitRate (c.frame.frame (c.tag.getD 0#8))
  | _, _ => .idleFill s.supervisor.config.bitRate

/-! ### Frames completed at RING_IN (R12, R174) -/

/-- The bytes of the report records that a report count calls for, if enough bytes have come to tell. -/
def reportsExtent : Nat → List Byte → Option Nat
  | 0, _ => some 0
  | n + 1, bs =>
    match bs[3]? with
    | none => none
    | some len =>
      match reportsExtent n (bs.drop (4 + len.toNat)) with
      | none => none
      | some rest => some (4 + len.toNat + rest)

def callExtent (bs : List Byte) : Option Nat :=
  match bs[6]? with
  | none => none
  | some outLen =>
    match bs[10 + outLen.toNat]? with
    | none => none
    | some replyLen => some (13 + outLen.toNat + replyLen.toNat)

def censusExtent (bs : List Byte) : Option Nat :=
  match bs[3]? with
  | none => none
  | some n => some (7 + 2 * n.toNat)

def windowExtent (bs : List Byte) : Option Nat :=
  match bs[3]? with
  | none => none
  | some acks =>
    match bs[5 + 2 * acks.toNat]? with
    | none => none
    | some reports =>
      match reportsExtent reports.toNat (bs.drop (7 + 2 * acks.toNat)) with
      | none => none
      | some n => some (9 + 2 * acks.toNat + n)

/-- The longest frame of a kind (section 10.2, R174). -/
def longestFrame (kind : Byte) : Nat :=
  if kind = kindCall then 77 else if kind = kindCensus then 55 else maxFrame

/-- The extent of a frame from its kind and length fields; for a kind that is not known, the bytes up to the next
idle fill, at most 153. None when reception was broken off before the fields were known. -/
def frameExtent (kind : Byte) (bs : List Byte) : Option Nat :=
  if kind = kindCall then callExtent bs
  else if kind = kindCensus then censusExtent bs
  else if kind = kindWindow then windowExtent bs
  else some (min bs.length maxFrame)

/-- The covered bytes of a completed frame whose check is good; none for a bad check: broken off, longer than the
longest frame of its kind, or a check that differs (R12). A frame needs at least its kind and its check. -/
def goodFrame (bs : List Byte) : Option (List Byte) :=
  match bs with
  | [] => none
  | kind :: _ =>
    match frameExtent kind bs with
    | none => none
    | some n =>
      if n < 3 ∨ longestFrame kind < n ∨ bs.length < n then none
      else if halfBytes (crc16 (bs.take (n - 2))) = (bs.take n).drop (n - 2) then some (bs.take (n - 2))
      else none

/-- The report records of a returned WINDOW, read one after another. -/
def readReports : Nat → List Byte → List ReportItem
  | 0, _ => []
  | n + 1, bs =>
    match bs with
    | addr :: seq :: code :: len :: rest =>
      ⟨addr, seq, code, rest.take len.toNat⟩ :: readReports n (rest.drop len.toNat)
    | _ => []

/-- Station address and kind code of each entry of a returned CENSUS, in ring order. -/
def readEntries : List Byte → List (Byte × Byte)
  | addr :: kind :: rest => (addr, kind) :: readEntries rest
  | _ => []

/-- The sum of the sizes of report records on the ring (R7). -/
def reportsSize (items : List ReportItem) : Nat := (items.map (fun r => 4 + r.data.length)).sum

/-! ### Record bodies (section 10.6) -/

/-- The size of a record in bytes (R134). -/
def RecordContent.size : RecordContent → Nat
  | .snapshot c => 14 + 3 * c.entries.length + (c.entries.map (fun e => e.data.length)).sum
  | .urgentResult c => 8 + c.data.length
  | .report _ item => 11 + item.data.length
  | .event _ => 16

def Record.size (r : Record) : Nat := r.content.size

def Event.kindCode : Event → Byte
  | .ringState _ _ _ _ _ => 0x01#8
  | .stationState _ _ _ _ _ _ => 0x02#8
  | .topology _ _ _ => 0x03#8
  | .cycleOverrun _ => 0x04#8
  | .cycleAbandoned _ _ _ => 0x05#8
  | .cycleStopped _ => 0x06#8
  | .eventsLost _ => 0x07#8

def Event.fields : Event → List Byte
  | .ringState p n c present addr => [p.code, n.code, c.code, natByte present, addr]
  | .stationState a pos p n m c => [a, natByte pos, p.code, n.code, natByte m, c.code]
  | .topology p n a => [natByte p, natByte n, natByte a]
  | .cycleOverrun n => wordBytes n
  | .cycleAbandoned n r k => wordBytes n ++ [r.code, natByte k]
  | .cycleStopped n => wordBytes n
  | .eventsLost n => halfBytes n

/-- The 12 content bytes of an event, the rest 00h. -/
def Event.contentBytes (e : Event) : List Byte :=
  e.fields ++ List.replicate (12 - e.fields.length) 0x00#8

/-- The SNAPSHOT flags byte: window done, window failed, late start, from the least significant bit. -/
def Snapshot.flags (c : Snapshot) : Byte :=
  natByte ((if c.windowDone then 1 else 0) + (if c.windowFailed then 2 else 0) + (if c.lateStart then 4 else 0))

def EntryOutcome.bytes (e : EntryOutcome) : List Byte :=
  [e.outcome.code, statusByte e.status, natByte e.data.length] ++ e.data

def RecordContent.typeCode : RecordContent → Byte
  | .snapshot _ => 0xA0#8
  | .urgentResult _ => 0xA1#8
  | .report _ _ => 0xA2#8
  | .event _ => 0xA3#8

def RecordContent.tagByte : RecordContent → Byte
  | .snapshot _ => 0x00#8
  | .urgentResult c => c.tag
  | .report _ item => item.address
  | .event e => e.kindCode

def RecordContent.fields : RecordContent → List Byte
  | .snapshot c =>
    wordBytes c.cycleNumber ++
      [natByte c.restarts, natByte c.interleaved, natByte c.reportsAccepted, natByte c.reportsDeferred,
       natByte c.entries.length, c.flags] ++ c.entries.flatMap EntryOutcome.bytes
  | .urgentResult c =>
    [c.outcome.code, statusByte c.status, natByte c.attempts, natByte c.data.length] ++ c.data
  | .report n item => wordBytes n ++ [item.sequence, item.code, natByte item.data.length] ++ item.data
  | .event e => e.contentBytes

/-- The bytes of a record, which are the body of the delivery that carries it (R133, R177). -/
def Record.body (r : Record) : List Byte :=
  r.content.typeCode :: r.content.tagByte :: halfBytes r.sequence ++ r.content.fields

/-! ### Host link messages (sections 10.3 and 10.4) -/

def startCode : Byte := 0xA5#8

/-- REPLY 80h: tag, result, reason, payload (R176). -/
def Reply.body (r : Reply) : List Byte :=
  match r.reason with
  | none => [0x80#8, r.tag, 0x00#8, 0x00#8] ++ r.payload
  | some reason => [0x80#8, r.tag, 0x01#8, reason.code] ++ r.payload

/-- STARTED 90h and LINK_RESTARTED 91h, both with tag 0 (R165). -/
def Announcement.body : Announcement → List Byte
  | .started cause rate =>
    [0x90#8, 0x00#8, cause.code] ++ halfBytes Config.partCode ++ [Config.revision, rate.setWidth 8]
  | .linkRestarted => [0x91#8, 0x00#8]

def TxMessage.body : TxMessage → List Byte
  | .announcement a => a.body
  | .reply r => r.body
  | .delivery r => r.body

/-- A body framed with start code, length and check; the start code is not covered (R173). -/
def frameMessage (body : List Byte) : List Byte :=
  let covered := halfBytes (natHalf body.length) ++ body
  startCode :: covered ++ halfBytes (crc16 covered)

/-! ### The line of the host link (R152) -/

/-- One bit of an asynchronous character: the start bit is at the break level, the stop bit at the idle level, and a data
bit has a value (log 25). -/
inductive LineBit where
  | start
  | data (value : Bool)
  | stop
  deriving DecidableEq, Repr

/-- A character: one start bit, 8 data bits sent least significant bit first, one stop bit, no parity. -/
def characterBits (b : Byte) : List LineBit :=
  .start :: (List.range 8).map (fun i => .data (b.getLsbD i)) ++ [.stop]

/-- The bit rate of both directions, in bit/s, by the rate code the straps select. -/
def lineBitRate (code : BitVec 2) : Nat :=
  if code = 0#2 then 115200 else if code = 1#2 then 460800 else if code = 2#2 then 1000000 else 3000000

/-- What TXD sends: the idle level, or characters at a bit rate. -/
inductive TxdOut where
  | idle
  | characters (bitRate : Nat) (bits : List LineBit)
  deriving DecidableEq, Repr

/-- TXD: the message on it as consecutive characters at the link rate (R152, R164); idle with no message, and while
RESET_N is asserted. -/
def State.txd (s : State) : TxdOut :=
  if s.resetAsserted then .idle
  else
    match s.link.tx with
    | some m => .characters (lineBitRate s.link.rateCode) ((frameMessage m.body).flatMap characterBits)
    | none => .idle

end Sys2Proof.Machine
end

