-- ==== Sys2Proof/Machine/Flags.lean ====
section
/-!
DEFINITION. Counters, which are 16 bits wide and saturating (spec/00_scope.md, section 4), the room of the Delivery
Store (R136), and the flags computed from the state: ATTN (R148), the slot (R65), the handler's being free (R160).
-/

namespace Sys2Proof.Machine

/-- A counter advanced by 1: it stops at 65 535. -/
def satInc (c : Half) : Half := if c = 0xFFFF#16 then c else c + 1#16

/-- A counter advanced by n: it stops at 65 535. -/
def satAdd (c : Half) (n : Nat) : Half := if c.toNat + n ≤ 65535 then c + natHalf n else 0xFFFF#16

/-! ### Delivery Store accounting (R136) -/

def storeBytes : Nat := 4096
def storeRecords : Nat := 32

/-- The event margin: 64 bytes and 4 records. -/
def marginBytes : Nat := 64
def marginRecords : Nat := 4

def Store.committedBytes (st : Store) : Nat := (st.records.map Record.size).sum
def Store.reservedBytes (st : Store) : Nat := (st.reservations.map (fun r => r.size)).sum
def Store.unusedBytes (st : Store) : Nat := storeBytes - st.committedBytes - st.reservedBytes
def Store.unusedRecords (st : Store) : Nat := storeRecords - st.records.length - st.reservations.length

/-- A reservation or a REPORT of s bytes leaves the margin free. -/
def Store.roomBesideMargin (st : Store) (size : Nat) : Bool :=
  decide (size + marginBytes ≤ st.unusedBytes) && decide (1 + marginRecords ≤ st.unusedRecords)

/-- Room for events of 16 bytes each, to the last byte and the last record. -/
def Store.roomForEvents (st : Store) (n : Nat) : Bool :=
  decide (16 * n ≤ st.unusedBytes) && decide (n ≤ st.unusedRecords)

def Record.isUnsent (r : Record) : Bool := r.region == .unsent

def Store.unsentCount (st : Store) : Nat := st.records.countP Record.isUnsent
def Store.sentCount (st : Store) : Nat := st.records.countP (fun r => !r.isUnsent)

/-- ATTN (R148). -/
def State.attn (s : State) : Bool := s.store.records.any Record.isUnsent && s.store.credits == 0

/-! ### The slot, the ring, the handler -/

/-- The circulation slot: occupied exactly while the circulation record is full, by its requester (R65). -/
def State.slot (s : State) : Option Requester := s.port.record.map (fun c => c.requester)

/-- The ring state is PROBING or UP, where circulations may run (R9, R66). -/
def State.ringCarries (s : State) : Bool := s.supervisor.state == .probing || s.supervisor.state == .up

def Reply.fromHandler (r : Reply) : Bool := r.source != .inboxFull

def TxMessage.fromHandler : TxMessage → Bool
  | .reply r => r.fromHandler
  | .announcement _ => false
  | .delivery _ => false

/-- The message carries the reply to RESET. -/
def TxMessage.isResetReply : TxMessage → Bool
  | .reply r => r.source == .handlerReset
  | .announcement _ => false
  | .delivery _ => false

/-- A reply of the Request Handler waits in the reply queue or is being transmitted (R160). -/
def Link.handlerWaiting (l : Link) : Bool := l.replies.any Reply.fromHandler || l.tx.any TxMessage.fromHandler

/-- The receiver can take characters: RESET_N is not asserted and the receiver is not in BREAK (R153, R169). RXD found
at the break level at the end of a reset is the start bit of a character like any other (R179, log 14). -/
def State.receiving (s : State) : Bool := !s.resetAsserted && s.link.receiver != .brk

end Sys2Proof.Machine
end

