-- ==== Sys2Proof/Machine/Store.lean ====
section
/-!
DEFINITION. The Delivery Store's own operations (spec/08_the_delivery_store.md): commits, reservations, regions,
credits.
-/

namespace Sys2Proof.Machine

/-- A record joins the list at its tail, unsent, with the next delivery sequence (R135). -/
def Store.append (st : Store) (c : RecordContent) : Store :=
  { st with
    records := st.records ++ [⟨c, st.nextSequence, .unsent⟩]
    nextSequence := st.nextSequence + 1#16 }

/-- An event finds no room: it is counted as lost (R141). -/
def Store.loseEvent (st : Store) : Store := { st with lostEvents := satInc st.lostEvents }

/-- A block hands the store an event (R141). While events are counted as lost, the event is decided as a pair with the
EVENTS_LOST summary that precedes it (R142). -/
def Store.commitEvent (st : Store) (e : Event) : Store :=
  if st.lostEvents = 0#16 then
    if st.roomForEvents 1 then st.append (.event e) else st.loseEvent
  else
    if st.roomForEvents 2 then
      { (st.append (.event (.eventsLost st.lostEvents))).append (.event e) with lostEvents := 0#16 }
    else st.loseEvent

/-- A claim for a reservation, granted or refused against the margin (R136, R137). -/
def Store.reserve (st : Store) (owner : ReservationOwner) (size : Nat) : Option Store :=
  if st.roomBesideMargin size then some { st with reservations := st.reservations ++ [⟨owner, size⟩] }
  else none

/-- A REPORT's direct commit, granted or refused against the margin (R136). -/
def Store.commitReport (st : Store) (n : Word) (item : ReportItem) : Option Store :=
  if st.roomBesideMargin (RecordContent.report n item).size then some (st.append (.report n item)) else none

/-- The size reserved for an owner; 0 when it holds no reservation. -/
def Store.reservedFor (st : Store) (owner : ReservationOwner) : Nat :=
  match st.reservations.find? (fun r => r.owner == owner) with
  | some r => r.size
  | none => 0

/-- The owner's reservation ends. -/
def Store.endReservation (st : Store) (owner : ReservationOwner) : Store :=
  { st with reservations := st.reservations.eraseP (fun r => r.owner == owner) }

/-- A reservation becomes its record; bytes it does not use are released (R138). -/
def Store.convert (st : Store) (owner : ReservationOwner) (c : RecordContent) : Store :=
  { (st.endReservation owner).append c with
    releasedInEvent := st.releasedInEvent || decide (c.size < st.reservedFor owner) }

/-- A reservation is released whole, with no record (R139). -/
def Store.release (st : Store) (owner : ReservationOwner) : Store :=
  { st.endReservation owner with
    releasedInEvent := st.releasedInEvent || st.reservations.any (fun r => r.owner == owner) }

/-- The oldest unsent record, offered while the credit count is above 0 (R143). -/
def Store.offer (st : Store) : Option Record :=
  if st.credits = 0 then none else st.records.find? Record.isUnsent

/-- The oldest unsent record of a list becomes sent-unacknowledged. -/
def sendOldest : List Record → List Record
  | [] => []
  | r :: rest => if r.isUnsent then { r with region := .sentUnacknowledged } :: rest else r :: sendOldest rest

/-- The transmit arbiter takes the offer: the record is sent and one credit is used (R143). -/
def Store.beginTransmission (st : Store) : Store :=
  { st with records := sendOldest st.records, credits := st.credits - 1 }

/-- Credits after a grant of n, at most 255 (R144). -/
def Store.grantCredits (st : Store) (n : Nat) : Store := { st with credits := min 255 (st.credits + n) }

/-- The place of the sent-unacknowledged record with a sequence, if there is one (R145, R146). -/
def Store.sentPlace (st : Store) (sequence : Half) : Option Nat :=
  st.records.findIdx? (fun r => r.sequence == sequence && !r.isUnsent)

/-- The records before a place and the one at it are released (R145). -/
def Store.releaseThrough (st : Store) (place : Nat) : Store :=
  { st with records := st.records.drop (place + 1), releasedInEvent := true }

def Record.unsend (r : Record) : Record := { r with region := .unsent }

/-- The records from a place on are unsent again (R146). -/
def Store.unsendFrom (st : Store) (place : Nat) : Store :=
  { st with records := st.records.take place ++ (st.records.drop place).map Record.unsend }

/-- How many records a rewind to a place makes unsent (R146). -/
def Store.sentFrom (st : Store) (place : Nat) : Nat :=
  (st.records.drop place).countP (fun r => !r.isUnsent)

/-- The link reset at the store: no credit, the whole list unsent (R149). -/
def Store.linkReset (st : Store) : Store :=
  { st with records := st.records.map Record.unsend, credits := 0 }

/-- The delivery sequence of the oldest sent-unacknowledged record, or 0 (R151). -/
def Store.oldestSent (st : Store) : Half :=
  match st.records.find? (fun r => !r.isUnsent) with
  | some r => r.sequence
  | none => 0#16

end Sys2Proof.Machine
end

