-- ==== Sys2Proof/Machine/Ops.lean ====
section
/-!
DEFINITION. The operations several blocks share: handing an event or a conversion to the Delivery Store, giving a ring
state report, starting an attempt and a circulation at the Ring Port, and handing TXD to the next message.
-/

namespace Sys2Proof.Machine

/-! ### Delivery Store, from any block -/

/-- A block hands the store an event (R141, R142). -/
def commitEvent (e : Event) (s : State) : State := { s with store := s.store.commitEvent e }

/-- An owner commits the record its reservation was held for (R138). -/
def convertReservation (owner : ReservationOwner) (c : RecordContent) (s : State) : State :=
  { s with store := s.store.convert owner c }

/-- An owner's reservation is released whole (R139). -/
def releaseReservation (owner : ReservationOwner) (s : State) : State :=
  { s with store := s.store.release owner }

/-! ### Ring state reports (R117) -/

/-- The Ring Supervisor's report of a new ring state, waiting at the Cycle Engine, the Urgent Queue and the Report
Window Unit; each takes it in its own event (log 5). -/
def giveBlockReports (r : RingState) (s : State) : State :=
  { s with notices :=
      { s.notices with
        cycle := s.notices.cycle ++ [r]
        urgent := s.notices.urgent ++ [r]
        window := s.notices.window ++ [r] } }

/-- The report waiting at the Exchange Arbiter. -/
def giveArbiterReport (r : RingState) (s : State) : State :=
  { s with notices := { s.notices with arbiter := s.notices.arbiter ++ [r] } }

/-- A report given to all four blocks. -/
def giveReports (r : RingState) (s : State) : State := giveArbiterReport r (giveBlockReports r s)

/-! ### Ring Port (R9, R10, R11) -/

/-- An attempt starts: attempts made +1, the tag counter's value taken as tag, the frame going out (R10, R11). -/
def RingPort.startAttempt (c : Circulation) (p : RingPort) : RingPort :=
  { p with
    state := .sending
    record := some { c with attempts := c.attempts + 1, tag := some p.tagCounter }
    tagCounter := p.tagCounter + 1#8
    returnTimer := none
    counters := { p.counters with attemptsStarted := satInc p.counters.attemptsStarted } }

/-- A claim is handed to the Ring Port: the circulation record is written and the first attempt starts (R9). -/
def startCirculation (requester : Requester) (frame : FrameBody) (allowance : Nat) (s : State) : State :=
  { s with port := s.port.startAttempt ⟨requester, frame, 0, allowance, none⟩ }

/-! ### TXD (R163, R164) -/

/-- The transmit arbiter at a message boundary: the oldest announcement, else the oldest reply, else the delivery the
store offers; the message is taken from its place as its transmission begins. -/
def arbitrate (s : State) : State :=
  match s.link.tx with
  | some _ => s
  | none =>
    match s.link.announcements with
    | a :: rest => { s with link := { s.link with announcements := rest, tx := some (.announcement a) } }
    | [] =>
      match s.link.replies with
      | r :: rest => { s with link := { s.link with replies := rest, tx := some (.reply r) } }
      | [] =>
        match s.store.offer with
        | some r =>
          { s with link := { s.link with tx := some (.delivery r) }, store := s.store.beginTransmission }
        | none => s

/-- Releases of space in the event in progress give the Cycle Engine one notice (R140). -/
def noteRelease (s : State) : State :=
  if s.store.releasedInEvent then
    { s with
      store := { s.store with releasedInEvent := false }
      notices := { s.notices with space := s.notices.space + 1 } }
  else s

/-- The end of an event: the notice of its releases, and the boundary on TXD if TXD is free and a message waits. -/
def finish (s : State) : State := arbitrate (noteRelease s)

end Sys2Proof.Machine
end

