-- ==== Sys2Proof/Machine/Table.lean ====
section
/-!
DEFINITION. The Station Table (spec/05_the_station_table.md): lookups, updates from exchange outcomes and reports, and
the census replacement.
-/

namespace Sys2Proof.Machine

/-- The most entries the table holds (R88). -/
def tableCapacity : Nat := 24

/-- The entry with an address, if there is one. -/
def findStation (table : List StationEntry) (address : Byte) : Option StationEntry :=
  table.find? (fun e => e.address == address)

/-- The entry with an address changed by f. -/
def updateStation (table : List StationEntry) (address : Byte) (f : StationEntry → StationEntry) :
    List StationEntry :=
  table.map (fun e => if e.address = address then f e else e)

/-- Entries that hold a ring position (R18, R88). -/
def StationEntry.isPresent (e : StationEntry) : Bool := e.position.isSome

def presentCount (table : List StationEntry) : Nat := table.countP StationEntry.isPresent
def absentCount (table : List StationEntry) : Nat := table.countP (fun e => !e.isPresent)

/-- Addresses of the present entries, in ring order. -/
def presentAddresses (table : List StationEntry) : List Byte :=
  (table.filter StationEntry.isPresent).map (fun e => e.address)

/-- May the station be called for cycle work? (R50, R98) -/
def callableForCycle (table : List StationEntry) (address : Byte) : Bool :=
  match findStation table address with
  | some e => e.state == .active || e.state == .silent
  | none => false

/-- May an urgent CALL be accepted for, or made to, the station? (R73, R78, R98) -/
def callableForUrgent (table : List StationEntry) (address : Byte) : Bool :=
  match findStation table address with
  | some e => e.state != .absent
  | none => false

/-- Commits STATION_STATE for an entry that changes from its old health to the new one (R97). -/
def commitStationState (e : StationEntry) (new : StationState) (missCount : Nat) (cause : StationCause)
    (s : State) : State :=
  commitEvent (.stationState e.address (e.position.getD 0) e.state new missCount cause) s

/-- A SERVED outcome for an address (R94); no effect on an ABSENT entry or without an entry (R96). -/
def stationServed (address : Byte) (s : State) : State :=
  match findStation s.table address with
  | none => s
  | some e =>
    if e.state = .absent then s
    else
      let t := { s with table := updateStation s.table address (fun x =>
        { x with state := .active, missCount := 0, callsServed := satInc x.callsServed }) }
      if e.state = .active then t else commitStationState e .active 0 .served t

/-- The health after a MISSED that leaves a miss count, under a miss limit (R95). -/
def healthAfterMiss (before : StationState) (missCount limit : Nat) : StationState :=
  if before = .lost then .lost else if missCount < limit then .silent else .lost

/-- A MISSED outcome for an address (R95); no effect on an ABSENT entry or without an entry (R96). -/
def stationMissed (address : Byte) (s : State) : State :=
  match findStation s.table address with
  | none => s
  | some e =>
    if e.state = .absent then s
    else
      let count := min 7 (e.missCount + 1)
      let health := healthAfterMiss e.state count s.supervisor.config.missLimit
      let t := { s with table := updateStation s.table address (fun x =>
        { x with state := health, missCount := count, misses := satInc x.misses }) }
      if e.state = health then t else commitStationState e health count .missed t

/-- A report from an address in a good window return (R100). -/
def stationReported (address : Byte) (s : State) : State :=
  match findStation s.table address with
  | none => s
  | some e =>
    if e.state = .lost ∨ e.state = .silent then
      commitStationState e .active 0 .report
        { s with table := updateStation s.table address (fun x => { x with state := .active, missCount := 0 }) }
    else s

/-- The last accepted sequence is set when a REPORT is committed (R99). -/
def setLastAccepted (address sequence : Byte) (s : State) : State :=
  { s with table := updateStation s.table address (fun x => { x with lastAccepted := some sequence }) }

/-- Both per-station counters of every entry set to 0 (R101). -/
def clearStationCounters (table : List StationEntry) : List StationEntry :=
  table.map (fun e => { e with callsServed := 0#16, misses := 0#16 })

/-! ### Census replacement (R90, R91, R92) -/

/-- The present entry a census entry becomes at a ring position (R90). -/
def presentEntry (old : List StationEntry) (position : Nat) (address kind : Byte) : StationEntry :=
  match findStation old address with
  | some e => { e with position := some position, kind := kind, state := .active, missCount := 0 }
  | none =>
    { address := address, position := some position, kind := kind, state := .active, missCount := 0,
      lastAccepted := none, callsServed := 0#16, misses := 0#16 }

/-- The present part of the new table, from a position on. -/
def presentPart (old : List StationEntry) : Nat → List (Byte × Byte) → List StationEntry
  | _, [] => []
  | position, (address, kind) :: rest =>
    presentEntry old position address kind :: presentPart old (position + 1) rest

def StationEntry.makeAbsent (e : StationEntry) : StationEntry := { e with position := none, state := .absent }

/-- The candidates for the ABSENT part, oldest first: old ABSENT entries, then stations this census lost (R91). -/
def absentCandidates (old : List StationEntry) (census : List (Byte × Byte)) : List StationEntry :=
  let missing := old.filter (fun e => !(census.map Prod.fst).contains e.address)
  missing.filter (fun e => !e.isPresent) ++
    (missing.filter StationEntry.isPresent).map StationEntry.makeAbsent

/-- The new table: candidates dropped from the front until 24 entries remain (R91). -/
def replaceTable (old : List StationEntry) (census : List (Byte × Byte)) : List StationEntry :=
  let candidates := absentCandidates old census
  presentPart old 1 census ++ candidates.drop (census.length + candidates.length - tableCapacity)

/-- The number of present addresses that were not present before (R92). -/
def newCount (old new : List StationEntry) : Nat :=
  (presentAddresses new).countP (fun a => !(presentAddresses old).contains a)

/-- The census replacement, with the TOPOLOGY event when the list of present addresses changed (R90, R92). -/
def replaceCensus (census : List (Byte × Byte)) (s : State) : State :=
  let new := replaceTable s.table census
  let t := { s with table := new }
  if presentAddresses new = presentAddresses s.table then t
  else commitEvent (.topology (presentCount new) (newCount s.table new) (absentCount new)) t

end Sys2Proof.Machine
end

