-- ==== Sys2Proof/Machine/Plan.lean ====
section
/-!
DEFINITION. Plan Memory (spec/02_the_cycle_plan_and_process_image.md): well-formed entries and capacity, latch,
publication, and what the walk and the CALL take from an entry.
-/

namespace Sys2Proof.Machine

def planEntries : Nat := 64
def planBytes : Nat := 1024

/-- Lengths that agree with an operation (R23; the same for an urgent request, R72). -/
def lengthsAgree (op : Operation) (outLength inLength : Nat) : Bool :=
  match op with
  | .read => outLength == 0 && decide (1 ≤ inLength) && decide (inLength ≤ 32)
  | .write => decide (1 ≤ outLength) && decide (outLength ≤ 32) && inLength == 0
  | .swap => decide (1 ≤ outLength) && decide (outLength ≤ 32) && decide (1 ≤ inLength) && decide (inLength ≤ 32)

/-- A station address is 1..254. -/
def isStationAddress (a : Byte) : Bool := a != 0x00#8 && a != 0xFF#8

def outSum (plan : List PlanEntry) : Nat := (plan.map (fun e => e.outLength)).sum
def inSum (plan : List PlanEntry) : Nat := (plan.map (fun e => e.inLength)).sum

/-- The three limits of R24 with one more entry. -/
def planHasRoom (plan : List PlanEntry) (outLength inLength : Nat) : Bool :=
  decide (plan.length + 1 ≤ planEntries) && decide (outSum plan + outLength ≤ planBytes) &&
    decide (inSum plan + inLength ≤ planBytes)

/-- A new entry with the values R22 gives for ADD_ENTRY. -/
def newEntry (target : Byte) (op : Operation) (object : Byte) (outLength inLength : Nat) : PlanEntry :=
  { target := target, operation := op, object := object, outLength := outLength, inLength := inLength
    pendingEnable := true, latchedEnable := false, pendingOutput := [], latchedOutput := []
    writtenSinceLatch := false, lastGoodData := List.replicate inLength 0#8, lastGoodCycle := 0#32
    lastGoodValid := false }

/-- The latch of one entry (R32). -/
def PlanEntry.latch (e : PlanEntry) : PlanEntry :=
  { e with
    latchedEnable := e.pendingEnable
    latchedOutput := if e.writtenSinceLatch then e.pendingOutput else e.latchedOutput
    writtenSinceLatch := false }

/-- One entry published from its outcome in the snapshot of a cycle (R38). -/
def PlanEntry.publish (e : PlanEntry) (o : EntryOutcome) (n : Word) : PlanEntry :=
  if o.outcome = .done ∧ 0 < e.inLength then
    { e with lastGoodData := o.data, lastGoodCycle := n, lastGoodValid := true }
  else e

/-- The inputs of a snapshot published entry by entry (R38). -/
def publishPlan (n : Word) : List PlanEntry → List EntryOutcome → List PlanEntry
  | e :: plan, o :: outcomes => e.publish o n :: publishPlan n plan outcomes
  | plan, _ => plan

/-- The CALL body of an entry (R34). -/
def PlanEntry.callBody (e : PlanEntry) : CallBody :=
  { target := e.target, operation := e.operation, object := e.object,
    outData := if e.operation = .read then [] else e.latchedOutput, capacity := e.inLength }

/-- The outcome of an entry settled without a circulation, by the tests of R50 in order; none if it is callable. -/
def settledOutcome (table : List StationEntry) (e : PlanEntry) : Option ExchangeOutcome :=
  if !e.latchedEnable then some .skippedDisabled
  else if !callableForCycle table e.target then some .skippedStation
  else if e.operation ≠ .read ∧ e.latchedOutput = [] then some .noOutput
  else none

/-- The walk over the entries from the pointer on: the outcomes it settles, and the first callable entry (R50). -/
def walk (table : List StationEntry) : List PlanEntry → List EntryOutcome × Option PlanEntry
  | [] => ([], none)
  | e :: rest =>
    match settledOutcome table e with
    | some o => (⟨o, none, []⟩ :: (walk table rest).1, (walk table rest).2)
    | none => ([], some e)

/-- The snapshot reservation of a plan, in bytes (R47). -/
def snapshotReservation (plan : List PlanEntry) : Nat := 14 + 3 * plan.length + inSum plan

end Sys2Proof.Machine
end

