-- ==== Sys2Proof/Machine/Cycle.lean ====
section
/-!
DEFINITION. The Cycle Engine (spec/03_the_cycle_engine.md): start causes and attempts, the walk's end, completion,
abandonment, stopping, and what an urgent dispatch or a ring state report does to a cycle. Notices to the Exchange
Arbiter are given by the events that call these operations (Machine/Arbiter.lean).
-/

namespace Sys2Proof.Machine

/-! ### Starting (R46, R47, R48, R59) -/

/-- A failed start attempt: HELD with its reason, and the mark of the cause that is held (R47, R48 step 5, log 15). -/
def holdStart (reason : HoldReason) (mark : Bool) (s : State) : State :=
  { s with cycle := { s.cycle with state := .held, holdReason := reason, heldMark := mark } }

/-- The start actions (R48): cycle number, latch, walk state, window result, marks, RUNNING. -/
def startActions (mark : Bool) (s : State) : State :=
  { s with
    plan := s.plan.map PlanEntry.latch
    cycle :=
      { s.cycle with
        cycleNumber := s.cycle.cycleNumber + 1#32
        pointer := 0, outcomes := [], awaiting := none
        restarts := 0, interleaved := 0
        windowDone := false, windowFailed := false, reportsAccepted := 0, reportsDeferred := 0
        overrunReported := false
        lateMark := mark, heldMark := false
        state := .running, holdReason := .none } }

/-- A start attempt tests the ring and then the store (R47). -/
def startAttempt (mark : Bool) (s : State) : State :=
  if s.supervisor.state ≠ .up then holdStart .ring mark s
  else
    match s.store.reserve .cycle (snapshotReservation s.plan) with
    | none => holdStart .space mark s
    | some st => startActions mark { s with store := st }

/-- A start cause in RUNNING or CLOSING (R59). -/
def overrun (s : State) : State :=
  let counted :=
    { s with cycle :=
      { s.cycle with counters := { s.cycle.counters with overruns := satInc s.cycle.counters.overruns } } }
  let told :=
    if s.cycle.overrunReported then counted
    else commitEvent (.cycleOverrun s.cycle.cycleNumber)
      { counted with cycle := { counted.cycle with overrunReported := true } }
  if s.cycle.config.overrun = .lateStart then { told with cycle := { told.cycle with lateFlag := true } }
  else told

/-- A start cause is taken according to the cycle state (R46); `mark` says that the late flag raised it (R57). -/
def startCause (mark : Bool) (s : State) : State :=
  match s.cycle.state with
  | .stopped => s
  | .armed => startAttempt mark s
  | .held =>
    { s with cycle :=
      { s.cycle with counters := { s.cycle.counters with skippedStarts := satInc s.cycle.counters.skippedStarts } } }
  | .running => overrun s
  | .closing => overrun s

/-- In HELD a notice makes a new start attempt with the held mark (R49). -/
def retryHeldStart (s : State) : State :=
  if s.cycle.state = .held then startAttempt s.cycle.heldMark s else s

/-! ### Stopping, completion, abandonment (R57, R58, R61, R63) -/

/-- Entry into STOPPED: the period timer stops, late flag and stop-at-end are cleared, CYCLE_STOPPED is committed. -/
def enterStopped (s : State) : State :=
  commitEvent (.cycleStopped s.cycle.cycleNumber)
    { s with cycle :=
      { s.cycle with
        state := .stopped, holdReason := .none, heldMark := false, lateFlag := false, stopAtEnd := false
        periodTimer := none } }

/-- The snapshot of the running cycle (R58). -/
def CycleEngine.snapshot (c : CycleEngine) : Snapshot :=
  { cycleNumber := c.cycleNumber, restarts := c.restarts, interleaved := c.interleaved
    reportsAccepted := c.reportsAccepted, reportsDeferred := c.reportsDeferred
    windowDone := c.windowDone, windowFailed := c.windowFailed, lateStart := c.lateMark
    entries := c.outcomes }

/-- ARMED after a cycle's end, with a start cause raised at once where the mode or the late flag asks for one. -/
def armAfterCycle (raise mark : Bool) (s : State) : State :=
  let armed :=
    { s with cycle := { s.cycle with state := .armed, holdReason := .none, lateFlag := false } }
  if raise then startCause mark armed else armed

/-- Steps 1 to 4 of completion: the snapshot into its reservation, publication, the counter, the walk state (R57). -/
def settleCycle (s : State) : State :=
  let committed := convertReservation .cycle (.snapshot s.cycle.snapshot) s
  { committed with
    plan := publishPlan s.cycle.cycleNumber s.plan s.cycle.outcomes
    cycle :=
      { s.cycle with
        outcomes := [], pointer := 0, lateMark := false
        counters := { s.cycle.counters with completed := satInc s.cycle.counters.completed } } }

/-- A cycle completes (R57). -/
def completeCycle (s : State) : State :=
  if s.cycle.stopAtEnd then enterStopped (settleCycle s)
  else
    armAfterCycle (s.cycle.config.mode == .free || s.cycle.lateFlag) s.cycle.lateFlag (settleCycle s)

/-- Steps 1 to 4 of abandonment: the reservation, CYCLE_ABANDONED, the counter, the walk state (R61). -/
def dropCycle (reason : AbandonReason) (s : State) : State :=
  let told := commitEvent (.cycleAbandoned s.cycle.cycleNumber reason s.cycle.outcomes.length)
    (releaseReservation .cycle s)
  { told with cycle :=
    { s.cycle with
      outcomes := [], pointer := 0, awaiting := none, lateFlag := false
      counters := { s.cycle.counters with abandoned := satInc s.cycle.counters.abandoned } } }

/-- A cycle is abandoned (R61). -/
def abandonCycle (reason : AbandonReason) (s : State) : State :=
  if reason = .stopped then enterStopped (dropCycle reason s)
  else armAfterCycle (s.cycle.config.mode == .free) false (dropCycle reason s)

def CycleEngine.inCycle (c : CycleEngine) : Bool := c.state == .running || c.state == .closing

/-! ### The walk's outcomes and end (R52, R53, R56) -/

/-- The walk has ended: CLOSING with the window on, completion with it off (R53). -/
def endWalk (s : State) : State :=
  if s.cycle.config.window then { s with cycle := { s.cycle with state := .closing } } else completeCycle s

/-- The outcome of a CYCLE circulation applied to the awaiting entry, or dropped (R52, R62). -/
def takeEntryOutcome (o : EntryOutcome) (s : State) : State :=
  if s.cycle.state = .running ∧ s.cycle.awaiting ≠ none then
    let t := { s with cycle :=
      { s.cycle with
        outcomes := s.cycle.outcomes ++ [o], pointer := s.cycle.pointer + 1, awaiting := none } }
    if t.cycle.pointer = t.plan.length then endWalk t else t
  else s

/-- How a window's circulation ended, as the Report Window Unit reports it (R56, R129, R130, R131). -/
inductive WindowEnd where
  | good (accepted deferred : Nat)
  | failedCheck
  | lost
  deriving DecidableEq, Repr

/-- The end of a cycle window with its report cycle number (R56): dropped outside CLOSING or for another number. -/
def takeWindowEnd (n : Word) (e : WindowEnd) (s : State) : State :=
  if s.cycle.state = .closing ∧ n = s.cycle.cycleNumber then
    match e with
    | .good accepted deferred =>
      completeCycle { s with cycle :=
        { s.cycle with windowDone := true, reportsAccepted := accepted, reportsDeferred := deferred } }
    | .failedCheck =>
      completeCycle { s with cycle :=
        { s.cycle with windowFailed := true, reportsAccepted := 0, reportsDeferred := 0 } }
    | .lost => s
  else s

/-! ### Urgent dispatches and ring state reports (R54, R55, R60, R49) -/

/-- A restart of the walk under RESTART (R55). -/
def restartWalk (s : State) : State :=
  { s with cycle :=
    { s.cycle with
      outcomes := [], pointer := 0, restarts := s.cycle.restarts + 1
      counters := { s.cycle.counters with restarts := satInc s.cycle.counters.restarts } } }

/-- The Cycle Engine is notified of an urgent dispatch: counted in RUNNING and CLOSING, and the policy applied. -/
def countDispatch (s : State) : State :=
  if s.cycle.inCycle then
    let t := { s with cycle := { s.cycle with interleaved := s.cycle.interleaved + 1 } }
    if s.cycle.state = .running ∧ s.cycle.config.policy = .restart ∧ s.cycle.outcomes ≠ [] then restartWalk t
    else t
  else s

/-- The reason a new ring state abandons a cycle for (R60). -/
def abandonReasonFor : RingState → Option AbandonReason
  | .down => some .ringDown
  | .fault => some .ringFault
  | .off => some .ringStopped
  | .probing => none
  | .up => none

/-- A report that abandons the cycle waits at the Cycle Engine (R60, R117). -/
def State.abandonmentWaits (s : State) : Bool := s.notices.cycle.any (fun r => (abandonReasonFor r).isSome)

/-- The Cycle Engine takes a ring state report (R49, R60). DESIGN CHOICE (log 28), safe: a report of DOWN, FAULT or OFF
taken only once the ring is UP again abandons whatever cycle then stands, one started since included, and the start cause
of FREE mode (R61) then meets a ring that is UP. -/
def cycleTakesReport (r : RingState) (s : State) : State :=
  if r = .up then retryHeldStart s
  else
    match abandonReasonFor r with
    | some reason => if s.cycle.inCycle then abandonCycle reason s else s
    | none => s

end Sys2Proof.Machine
end

