-- ==== Sys2Proof/Machine/Urgent.lean ====
section
/-!
DEFINITION. The Urgent Queue (spec/04_urgent_exchanges_and_ring_arbitration.md, sections 4.3 to 4.8): how a request
ends, and what a ring state report does to the queue. Acceptance is in Machine/Decisions.lean, dispatch in
Machine/Arbiter.lean.
-/

namespace Sys2Proof.Machine

def urgentPlaces : Nat := 6

/-- The reservation of an urgent request (R73 test 6, R76). -/
def urgentReservation (inLength : Nat) : Nat := 8 + inLength

/-- The CALL of a request (R78). -/
def UrgentRequest.callBody (r : UrgentRequest) : CallBody :=
  { target := r.station, operation := r.operation, object := r.object, outData := r.outData
    capacity := r.inLength }

/-- A request ends with a result, committed into its reservation (R80). -/
def commitResult (r : UrgentRequest) (outcome : ExchangeOutcome) (status : Option ReplyStatus) (attempts : Nat)
    (data : List Byte) (s : State) : State :=
  convertReservation (.urgent r.tag) (.urgentResult ⟨r.tag, outcome, status, attempts, data⟩) s

/-- The request in flight is given its outcome and leaves its place (R79, R80). DESIGN CHOICE (log 30), safe: an outcome
that finds the place empty is dropped; no run leads there, since no request is dispatched before a report of OFF that
waits has been taken. -/
def endInFlight (outcome : ExchangeOutcome) (status : Option ReplyStatus) (attempts : Nat) (data : List Byte)
    (s : State) : State :=
  match s.urgent.inFlight with
  | none => s
  | some r =>
    commitResult r outcome status attempts data { s with urgent := { s.urgent with inFlight := none } }

/-- The queued request with a tag, if there is one. -/
def queuedWith (q : UrgentQueue) (tag : Byte) : Option UrgentRequest := q.queue.find? (fun r => r.tag == tag)

/-- A queued request leaves from wherever it stands, the others keeping their order (R71). -/
def UrgentQueue.remove (q : UrgentQueue) (tag : Byte) : UrgentQueue :=
  { q with queue := q.queue.eraseP (fun r => r.tag == tag) }

/-- The tag is that of the request at the head. -/
def UrgentQueue.isHead (q : UrgentQueue) (tag : Byte) : Bool :=
  match q.queue with
  | r :: _ => r.tag == tag
  | [] => false

/-- Every request of a list ended with RING_STOPPED, in order (R85). -/
def stopRequests : List UrgentRequest → State → State
  | [], s => s
  | r :: rest, s => stopRequests rest (commitResult r .ringStopped none 0 [] s)

/-- The Urgent Queue takes a ring state report: on OFF the request in flight ends first, then the queue in order (R85).
DESIGN CHOICE (log 30), safe: a report of OFF taken late ends every request it finds, one accepted since the ring was
started again included. -/
def urgentTakesReport (r : RingState) (s : State) : State :=
  if r = .off then
    stopRequests (s.urgent.inFlight.toList ++ s.urgent.queue) { s with urgent := {} }
  else s

/-- The head may be dispatched (R77): between cycles, or within the budget, with the in-flight place empty (log 16).
DESIGN CHOICE (log 30), safe: not while a report of OFF waits at the Urgent Queue, which ends the requests queued (R85). -/
def headDispatchable (s : State) : Bool :=
  !s.urgent.queue.isEmpty && s.urgent.inFlight.isNone && !s.notices.urgent.contains .off &&
    (!s.cycle.inCycle || decide (s.cycle.interleaved < s.cycle.config.budget))

end Sys2Proof.Machine
end

