-- ==== Sys2Proof/Machine/Window.lean ====
section
/-!
DEFINITION. The Report Window Unit (spec/07_the_report_window.md): building a window, deciding the reports of a good
return, and the end of a window.
-/

namespace Sys2Proof.Machine

/-! ### Building (R120, R121) -/

/-- The Unit answers a claim: the window record is written, and a WINDOW with the owed list starts (R121). -/
def claimWindow (kind : WindowKind) (n : Word) (s : State) : State :=
  startCirculation .window (.window s.window.owed) s.supervisor.config.retryLimit
    { s with window := { s.window with record := some ⟨kind, n⟩ } }

/-! ### Deciding reports (R124 to R128) -/

/-- A pair joins the owed list, in the place of a pair with its address if there is one (R119). -/
def owePair (p : AckPair) (owed : List AckPair) : List AckPair :=
  if owed.any (fun q => q.address == p.address) then
    owed.map (fun q => if q.address = p.address then p else q)
  else owed ++ [p]

def owe (item : ReportItem) (s : State) : State :=
  { s with window := { s.window with owed := owePair ⟨item.address, item.sequence⟩ s.window.owed } }

/-- The Unit's counters changed by f. -/
def countReport (f : ReportCounters → ReportCounters) (s : State) : State :=
  { s with window := { s.window with counters := f s.window.counters } }

/-- The report's sequence equals the last accepted sequence of its station's entry (R99). -/
def isDuplicate (table : List StationEntry) (item : ReportItem) : Bool :=
  match findStation table item.address with
  | some e => e.lastAccepted == some item.sequence
  | none => false

/-- A new report of a known address, granted or refused by the store (R127). -/
def takeReport (n : Word) (item : ReportItem) (s : State) : State :=
  match s.store.commitReport n item with
  | some st =>
    owe item (setLastAccepted item.address item.sequence
      (countReport (fun c => { c with accepted := satInc c.accepted }) { s with store := st }))
  | none => countReport (fun c => { c with refusedForSpace := satInc c.refusedForSpace }) s

/-- One report record decided (R125, R126, R127). -/
def decideReport (n : Word) (item : ReportItem) (s : State) : State :=
  if (findStation s.table item.address).isNone then
    countReport (fun c => { c with unknownReporter := satInc c.unknownReporter }) s
  else
    let revived := stationReported item.address s
    if isDuplicate revived.table item then
      owe item (countReport (fun c => { c with duplicates := satInc c.duplicates }) revived)
    else takeReport n item revived

/-- The store's answer to a report: 1 if a REPORT record is committed for it, else 0. -/
def reportGranted (n : Word) (item : ReportItem) (s : State) : Nat :=
  if (findStation s.table item.address).isNone then 0
  else
    let revived := stationReported item.address s
    if isDuplicate revived.table item then 0
    else if (revived.store.commitReport n item).isSome then 1 else 0

/-- The report list decided in order; the number of REPORT records committed, and the state (R124 step 2). -/
def decideReports (n : Word) : List ReportItem → State → Nat × State
  | [], s => (0, s)
  | item :: rest, s =>
    let later := decideReports n rest (decideReport n item s)
    (reportGranted n item s + later.1, later.2)

/-! ### The end of a window (R129, R130, R131) -/

/-- The end handed on by kind, and the record emptied. -/
def endWindow (e : WindowEnd) (s : State) : State :=
  match s.window.record with
  | none => s
  | some ⟨.cycleWindow, n⟩ => takeWindowEnd n e { s with window := { s.window with record := none } }
  | some ⟨.hostWindow, _⟩ => { s with window := { s.window with record := none, hostPending := false } }

/-- The good return of a window (R124), its reports decided under the report cycle number of the record (R120). A
window in flight has its record; without one no return is decided. -/
def windowGoodReturn (reports : List ReportItem) (deferred : Nat) (s : State) : State :=
  match s.window.record with
  | none => s
  | some r =>
    let decided := decideReports r.cycleNumber reports { s with window := { s.window with owed := [] } }
    endWindow (.good decided.1 deferred)
      (countReport (fun c => { c with deferred := satAdd c.deferred deferred }) decided.2)

/-- The window record while a window is in flight. -/
def State.windowInFlight (s : State) : Option WindowRecord :=
  if s.slot = some .window then s.window.record else none

/-- The Report Window Unit takes a ring state report (R123): OFF empties the record and clears host-window-pending.
DESIGN CHOICE (log 22), safe: a report of OFF taken late leaves a cycle window in flight its record, which ends with its
circulation (R120). -/
def windowTakesReport (r : RingState) (s : State) : State :=
  if r = .off then { s with window := { s.window with record := s.windowInFlight, hostPending := false } } else s

end Sys2Proof.Machine
end

