-- ==== Sys2Proof/Machine/Arbiter.lean ====
section
/-!
DEFINITION. The Exchange Arbiter (spec/04_urgent_exchanges_and_ring_arbitration.md, sections 4.1, 4.2 and 4.4): the
choice at a boundary, the claims of its four orders, and the choice made again after a claim that settles without a
circulation.
-/

namespace Sys2Proof.Machine

/-- The census claim (R69): in UP, census-pending is cleared before the circulation starts. -/
def claimCensus (s : State) : State :=
  startCirculation .census .census s.supervisor.config.retryLimit
    { s with supervisor := { s.supervisor with censusPending := false } }

/-- The retry allowance of an urgent request (R9, R78). -/
def urgentAllowance (r : UrgentRequest) (s : State) : Nat :=
  if r.retry then s.supervisor.config.retryLimit else 0

/-- Dispatch of the urgent head (R78): the in-flight place, the Cycle Engine's count, then the CALL, or
SKIPPED_STATION with no circulation. -/
def dispatchUrgent (r : UrgentRequest) (rest : List UrgentRequest) (s : State) : State :=
  let counted := countDispatch
    { s with urgent := ⟨rest, some { r with timerRunning := false }⟩ }
  if callableForUrgent counted.table r.station then
    startCirculation .urgent (.call r.callBody) (urgentAllowance r counted) counted
  else endInFlight .skippedStation none 0 [] counted

/-- A cycle step (R50, R51, R53): the entries not to be called settle; the first callable entry is claimed as a CALL,
or the walk ends, with the cycle window claimed in the same choice when the window is on. -/
def cycleStep (s : State) : State :=
  let settled := walk s.table (s.plan.drop s.cycle.pointer)
  let t := { s with cycle :=
    { s.cycle with
      outcomes := s.cycle.outcomes ++ settled.1, pointer := s.cycle.pointer + settled.1.length } }
  match settled.2 with
  | some e =>
    startCirculation .cycle (.call e.callBody) s.supervisor.config.retryLimit
      { t with cycle := { t.cycle with awaiting := some t.cycle.pointer } }
  | none =>
    if t.cycle.config.window then claimWindow .cycleWindow t.cycle.cycleNumber (endWalk t) else endWalk t

/-- A host window is claimed: pending, and no window in flight (R67, R70, R120). DESIGN CHOICE (log 22), safe: not while
a report of OFF waits at the Report Window Unit; one pending when the ring entered OFF never circulates (R123). -/
def hostWindowClaimed (s : State) : Bool :=
  s.window.hostPending && s.window.record.isNone && !s.notices.window.contains .off

/-- The cycle's claim waits with a cycle standing: an entry is awaited (R51), or, DESIGN CHOICE (log 29), safe, a report
that abandons the cycle is still to be taken (R60). So a cycle window is claimed once for an entry into CLOSING (R121):
only STOP_RING takes one from a cycle that stands, and its report of OFF waits until the cycle is abandoned. -/
def cycleClaimWaits (s : State) : Bool :=
  (s.cycle.state == .running && s.cycle.awaiting.isSome) || (s.cycle.inCycle && s.abandonmentWaits)

/-- No claim of order 3 or 4 is taken while the window record is full (R120), nor while the cycle's claim waits: a host
window goes after the cycle (R67, R123). -/
def lowerOrdersWait (s : State) : Bool := s.window.record.isSome || cycleClaimWaits s

/-- The claims in the order of R67. Each step is one choice; the choice is made again, from order 1, while a claim
settled without a circulation leaves the slot free (R68). -/
def chooseWithin : Nat → State → State
  | 0, s => s
  | fuel + 1, s =>
    if s.port.record.isSome then s
    else if s.supervisor.state = .probing then claimCensus s
    else if s.supervisor.state ≠ .up then s
    else if s.supervisor.censusPending then claimCensus s
    else if headDispatchable s then
      match s.urgent.queue with
      | r :: rest => chooseWithin fuel (dispatchUrgent r rest s)
      | [] => s
    else if lowerOrdersWait s then s
    else if s.cycle.state = .running then chooseWithin fuel (cycleStep s)
    else if s.cycle.state = .closing then claimWindow .cycleWindow s.cycle.cycleNumber s
    else if hostWindowClaimed s then claimWindow .hostWindow 0#32 s
    else s

/-- More choices than can follow one another: each dispatch that settles takes a request from the queue, and each
completion that starts a cycle needs a record slot more (R136, log 18). -/
def choiceBound (s : State) : Nat := s.urgent.queue.length + 36

/-- The Exchange Arbiter takes a notice: a choice if it is a boundary (R66). With the slot occupied or the ring out of
PROBING and UP, there is no choice. -/
def boundary (s : State) : State := chooseWithin (choiceBound s) s

/-- A notice given only if a condition holds. -/
def boundaryIf (b : Bool) (s : State) : State := if b then boundary s else s

/-- The notice of a cycle start (R48 step 7), for an operation that may have started a cycle. -/
def boundaryIfStarted (before after : State) : State :=
  boundaryIf (before.cycle.state != .running && after.cycle.state == .running) after

/-- The Exchange Arbiter takes a ring state report: entering PROBING or UP is a boundary (R66, R117). -/
def arbiterTakesReport (r : RingState) (s : State) : State :=
  boundaryIf (r == .probing || r == .up) s

end Sys2Proof.Machine
end

