-- ==== Sys2Proof/Machine/Supervisor.lean ====
section
/-!
DEFINITION. The Ring Supervisor (spec/06_ring_supervision_and_census.md): the transitions of the ring state, the
judgment of a census, and the final LOST of a circulation.
-/

namespace Sys2Proof.Machine

/-- The change of ring state with its RING_STATE event, after the entry actions (R116). -/
def changeRing (new : RingState) (cause : RingCause) (faultAddress : Byte) (s : State) : State :=
  commitEvent (.ringState s.supervisor.state new cause (presentCount s.table) faultAddress)
    { s with supervisor := { s.supervisor with state := new } }

/-- The Ring Port leaves DISABLED for IDLE with its receiver on (R8, R107). -/
def RingPort.enable (p : RingPort) : RingPort :=
  if p.state = .disabled then { p with state := .idle } else p

/-- Entry into PROBING (R107, R112): the census is claimed at the arbiter's choice in the same event, so the arbiter
takes its report there; the other blocks take theirs in their own events (log 6). -/
def enterProbing (cause : RingCause) (s : State) : State :=
  boundary (giveBlockReports .probing (changeRing .probing cause 0#8
    { s with port := s.port.enable, supervisor := { s.supervisor with probeTimer := none } }))

/-- Entry into UP (R109). -/
def enterUp (s : State) : State := giveReports .up (changeRing .up .censusValid 0#8 s)

/-- Entry into DOWN (R112): census-pending cleared, the probe timer started, RING_STATE, reports. -/
def enterDown (cause : RingCause) (s : State) : State :=
  giveReports .down (changeRing .down cause 0#8
    { s with supervisor :=
      { s.supervisor with censusPending := false, probeTimer := some s.supervisor.config.probeInterval } })

/-- Entry into FAULT (R103, R110). -/
def enterFault (cause : RingCause) (faultAddress : Byte) (s : State) : State :=
  giveReports .fault (changeRing .fault cause faultAddress
    { s with supervisor := { s.supervisor with censusPending := false } })

/-- The circulation in flight is abandoned and the Ring Port enters DISABLED (R20). -/
def RingPort.abandon (p : RingPort) : RingPort :=
  { p with state := .disabled, record := none, returnTimer := none }

/-- Entry into OFF on STOP_RING (R115). -/
def enterOff (s : State) : State :=
  giveReports .off (changeRing .off .hostStop 0#8
    { s with
      port := s.port.abandon
      supervisor := { s.supervisor with censusPending := false, probeTimer := none } })

/-! ### Judging a census (R108) -/

/-- The address of the first entry in list order whose address an earlier entry already holds. -/
def firstDuplicate : List Byte → List Byte → Option Byte
  | _, [] => none
  | seen, a :: rest => if seen.contains a then some a else firstDuplicate (seen ++ [a]) rest

/-- The fault cause and fault address of a census; none for a valid one. -/
def censusFault (overflow : Bool) (entries : List (Byte × Byte)) : Option (RingCause × Byte) :=
  if overflow then some (.tooManyStations, 0#8)
  else
    match (entries.map Prod.fst).find? (fun a => !isStationAddress a) with
    | some a => some (.invalidAddress, a)
    | none =>
      match firstDuplicate [] (entries.map Prod.fst) with
      | some a => some (.duplicateAddress, a)
      | none => none

/-- A census with a good return is judged and acted on (R109, R110). -/
def takeCensus (overflow : Bool) (entries : List (Byte × Byte)) (s : State) : State :=
  match censusFault overflow entries with
  | some (cause, address) => enterFault cause address s
  | none =>
    let t := replaceCensus entries s
    if t.supervisor.state = .probing then enterUp t else t

/-! ### The final LOST of a circulation that is not a census (R113, R117) -/

/-- Reports taken one after another, oldest first. -/
def takeAll (take : RingState → State → State) : List RingState → State → State
  | [], s => s
  | r :: rest, s => takeAll take rest (take r s)

/-- Every block takes the reports waiting for it, oldest first, within the event in progress (R117, log 9). -/
def takeWaitingReports (s : State) : State :=
  takeAll arbiterTakesReport s.notices.arbiter
    (takeAll windowTakesReport s.notices.window
      (takeAll urgentTakesReport s.notices.urgent
        (takeAll cycleTakesReport s.notices.cycle
          { s with notices := { s.notices with cycle := [], urgent := [], window := [], arbiter := [] } })))

/-- The Ring Supervisor takes a final LOST at step 3 of R19: UP goes DOWN with cause LOST_RETURN, and every block
takes the report before the requester is handed the LOST (R113, R117). -/
def takeLostReturn (s : State) : State :=
  if s.supervisor.state = .up then takeWaitingReports (enterDown .lostReturn s) else s

end Sys2Proof.Machine
end

