-- ==== Sys2Proof/Machine/RingPort.lean ====
section
/-!
DEFINITION. The Ring Port (spec/01_circulations_on_the_ring.md, sections 1.6 and 1.7): judging what comes back,
retries, and the end of a circulation with its result handed on.
-/

namespace Sys2Proof.Machine

/-- The result of a circulation (R16, R17). -/
inductive CirculationResult where
  | served (status : ReplyStatus) (data : List Byte)
  | missed
  | census (overflow : Bool) (entries : List (Byte × Byte))
  | window (reports : List ReportItem) (deferred : Nat)
  | failedCheck
  | lost
  deriving DecidableEq, Repr

/-! ### Well-formed returns (R14, R174) -/

/-- The result of a returned CALL body for the CALL sent; none if it is not well formed. DESIGN CHOICE (log 32), unsafe:
the out data equal those sent, as R14 says, although R174 says that the bytes of out data are not tested. -/
def readCall (sent : CallBody) (body : List Byte) : Option CirculationResult :=
  match body with
  | target :: op :: object :: outLen :: rest =>
    if target = sent.target ∧ op = sent.operation.code ∧ object = sent.object ∧
        outLen = natByte sent.outData.length ∧ rest.take sent.outData.length = sent.outData then
      match rest.drop sent.outData.length with
      | capacity :: served :: status :: replyLen :: data =>
        if capacity ≠ natByte sent.capacity then none
        else
          match settingOfCode served, statusOfCode status with
          | some false, some _ => if replyLen = 0#8 then some .missed else none
          | some true, some .ok =>
            if replyLen = capacity then some (.served .ok data) else none
          | some true, some st => if replyLen = 0#8 then some (.served st data) else none
          | _, _ => none
      | _ => none
    else none
  | _ => none

/-- The result of a returned CENSUS body. -/
def readCensus (body : List Byte) : Option CirculationResult :=
  match body with
  | count :: flag :: rest =>
    match settingOfCode flag with
    | some overflow => if count.toNat ≤ 24 then some (.census overflow (readEntries rest)) else none
    | none => none
  | _ => none

/-- The result of a returned WINDOW body for the acknowledgement list sent. -/
def readWindow (acks : List AckPair) (body : List Byte) : Option CirculationResult :=
  match body with
  | count :: rest =>
    if count = natByte acks.length ∧ rest.take (2 * acks.length) = ackBytes acks then
      match rest.drop (2 * acks.length) with
      | remaining :: reportCount :: deferred :: records =>
        let items := readReports reportCount.toNat records
        if items.length = reportCount.toNat ∧
            items.all (fun r => decide (r.sequence.toNat ≤ 7) && decide (r.data.length ≤ 16)) ∧
            remaining.toNat + reportsSize items = windowCapacity then
          some (.window items deferred.toNat)
        else none
      | _ => none
    else none
  | _ => none

/-- The result of a good return for the frame sent: the kind equals the kind sent and the body is well formed. -/
def readReturn (sent : FrameBody) (kind : Byte) (body : List Byte) : Option CirculationResult :=
  if kind ≠ sent.kind then none
  else
    match sent with
    | .call b => readCall b body
    | .census => readCensus body
    | .window acks => readWindow acks body

/-! ### The end of a circulation (R18, R19) -/

/-- The hop comparison of a good CALL or WINDOW return (R18). -/
def compareHops (hop : Byte) (s : State) : State :=
  if hop.toNat = presentCount s.table then s
  else
    { s with
      port :=
        { s.port with counters := { s.port.counters with hopMismatches := satInc s.port.counters.hopMismatches } }
      supervisor := { s.supervisor with censusPending := true } }

/-- Step 1: for a good return of a CALL or a WINDOW. -/
def handHops (frame : FrameBody) (hop : Option Byte) (s : State) : State :=
  match frame, hop with
  | .census, _ => s
  | _, none => s
  | _, some h => compareHops h s

/-- Step 2: a CALL's outcome to the Station Table (R94, R95, R96). -/
def handTable (frame : FrameBody) (res : CirculationResult) (s : State) : State :=
  match frame, res with
  | .call b, .served _ _ => stationServed b.target s
  | .call b, .missed => stationMissed b.target s
  | _, _ => s

/-- Step 3: a final LOST to the Ring Supervisor; a census LOST is taken once, at step 4 (R111, log 8). -/
def handLost (requester : Requester) (res : CirculationResult) (s : State) : State :=
  if res = .lost ∧ requester ≠ .census then takeLostReturn s else s

/-- Outcome, station status and data that a CALL's result gives (R52, R79); none for a final LOST. -/
def callOutcome : CirculationResult → Option EntryOutcome
  | .served .ok data => some ⟨.done, some .ok, data⟩
  | .served .busy _ => some ⟨.busy, some .busy, []⟩
  | .served st _ => some ⟨.refusedByStation, some st, []⟩
  | .missed => some ⟨.missed, none, []⟩
  | .failedCheck => some ⟨.failedCheck, none, []⟩
  | .lost => none
  | .census _ _ => none
  | .window _ _ => none

/-- The outcome of an URGENT circulation (R79): a final LOST is RING_DOWN. -/
def handUrgent (res : CirculationResult) (attempts : Nat) (s : State) : State :=
  match callOutcome res with
  | some o => endInFlight o.outcome o.status attempts o.data s
  | none => endInFlight .ringDown none attempts [] s

/-- The outcome of a CYCLE circulation (R52); a final LOST finds the cycle abandoned and is dropped (R62). -/
def handCycle (res : CirculationResult) (s : State) : State :=
  match callOutcome res with
  | some o => takeEntryOutcome o s
  | none => s

/-- The outcome of a WINDOW circulation (R124, R130, R131). -/
def handWindow (res : CirculationResult) (s : State) : State :=
  match res with
  | .window reports deferred => windowGoodReturn reports deferred s
  | .failedCheck => endWindow .failedCheck s
  | .lost => endWindow .lost s
  | .served _ _ => s
  | .missed => s
  | .census _ _ => s

/-- The outcome of a CENSUS circulation (R109, R110, R111). -/
def handCensus (res : CirculationResult) (s : State) : State :=
  match res with
  | .census overflow entries => takeCensus overflow entries s
  | .failedCheck => enterDown .censusFailed s
  | .lost => enterDown .censusFailed s
  | .served _ _ => s
  | .missed => s
  | .window _ _ => s

/-- Step 4: the outcome to the requester. -/
def handRequester (requester : Requester) (res : CirculationResult) (attempts : Nat) (s : State) : State :=
  match requester with
  | .census => handCensus res s
  | .cycle => handCycle res s
  | .urgent => handUrgent res attempts s
  | .window => handWindow res s

/-- The circulation record is emptied and the Ring Port enters IDLE (R19). -/
def RingPort.finish (p : RingPort) : RingPort := { p with state := .idle, record := none, returnTimer := none }

/-- The end of a circulation: the result handed on in the order of R19, within one event. A notice of the end that
finds the ring newly UP is taken with the arbiter's report of UP (log 7). -/
def endCirculation (c : Circulation) (res : CirculationResult) (hop : Option Byte) (s : State) : State :=
  let before := handLost c.requester res
    (handTable c.frame res (handHops c.frame hop { s with port := s.port.finish }))
  let after := handRequester c.requester res c.attempts before
  boundaryIf (!(before.supervisor.state == .probing && after.supervisor.state == .up)) after

/-- A retry, or the end with a final failure, after a CORRUPT or LOST attempt (R16). -/
def retryOrEnd (c : Circulation) (failure : CirculationResult) (s : State) : State :=
  if c.attempts < 1 + c.allowance then
    { s with port :=
      { s.port with counters := { s.port.counters with retries := satInc s.port.counters.retries } }.startAttempt c }
  else endCirculation c failure none s

/-! ### Judging a completed frame (R13) -/

def countCorrupt (s : State) : State :=
  { s with port :=
    { s.port with counters := { s.port.counters with corruptReturns := satInc s.port.counters.corruptReturns } } }

def countStray (s : State) : State :=
  { s with port :=
    { s.port with counters := { s.port.counters with strayFrames := satInc s.port.counters.strayFrames } } }

/-- The awaiting attempt is CORRUPT: counted, its return timer stopped, and a retry decided. -/
def corruptReturn (c : Circulation) (s : State) : State := retryOrEnd c .failedCheck (countCorrupt s)

/-- A frame completed while an attempt is awaiting its return. -/
def judgeAwaited (c : Circulation) (bytes : List Byte) (s : State) : State :=
  match goodFrame bytes with
  | none => corruptReturn c s
  | some covered =>
    if covered[1]? ≠ c.tag then countStray s
    else
      match covered with
      | kind :: _ :: hop :: body =>
        match readReturn c.frame kind body with
        | some res => endCirculation c res (some hop) s
        | none => corruptReturn c s
      | _ => corruptReturn c s

/-- A frame completed with no attempt awaiting: discarded and counted. -/
def judgeUnawaited (bytes : List Byte) (s : State) : State :=
  match goodFrame bytes with
  | none => countCorrupt s
  | some _ => countStray s

/-- A frame completed at RING_IN is judged at once (R13); in DISABLED it is ignored and not counted (R8). -/
def judgeFrame (bytes : List Byte) (s : State) : State :=
  match s.port.state with
  | .disabled => s
  | .idle => judgeUnawaited bytes s
  | .sending => judgeUnawaited bytes s
  | .awaiting =>
    match s.port.record with
    | some c => judgeAwaited c bytes s
    | none => judgeUnawaited bytes s

/-- The return timer of the awaiting attempt expires: LOST (R15). -/
def loseAttempt (c : Circulation) (s : State) : State :=
  retryOrEnd c .lost
    { s with port :=
      { s.port with counters := { s.port.counters with lostReturns := satInc s.port.counters.lostReturns } } }

end Sys2Proof.Machine
end

