-- ==== Sys2Proof/Machine/Decisions.lean ====
section
/-!
DEFINITION. The decision each block makes on a request it owns, by the rule the index of
spec/09_the_host_link.md names: ACCEPTED with a payload and the action, or REFUSED with a reason and no change.
The fields are those of spec/10_message_and_frame_formats.md, section 10.3.
-/

namespace Sys2Proof.Machine

/-- An owner's decision (R162): `reason` none is ACCEPTED; a refused request carries no payload. -/
structure Decision where
  reason  : Option Reason
  payload : List Byte
  state   : State
  deriving DecidableEq, Repr

def accept (payload : List Byte) (s : State) : Decision := ⟨none, payload, s⟩

def refuse (reason : Reason) (s : State) : Decision := ⟨some reason, [], s⟩

/-! ### Ring Supervisor -/

/-- The five items of a CONFIGURE_RING; none when one is out of its range (R104). -/
def ringConfigOf (bitRate : Byte) (timeout : Half) (retry miss : Byte) (probe : Half) : Option RingConfig :=
  match bitRateOfCode bitRate with
  | none => none
  | some rate =>
    if 20 ≤ timeout.toNat ∧ timeout.toNat ≤ 5000 ∧ retry.toNat ≤ 3 ∧ 1 ≤ miss.toNat ∧ miss.toNat ≤ 7 ∧
        10 ≤ probe.toNat ∧ probe.toNat ≤ 1000 then
      some ⟨rate, timeout, retry.toNat, miss.toNat, probe⟩
    else none

/-- CONFIGURE_RING (R104). -/
def decideConfigureRing (bitRate : Byte) (timeout : Half) (retry miss : Byte) (probe : Half) (s : State) :
    Decision :=
  if s.supervisor.state ≠ .off then refuse .badState s
  else
    match ringConfigOf bitRate timeout retry miss probe with
    | none => refuse .range s
    | some config => accept [] { s with supervisor := { s.supervisor with config := config } }

/-- START_RING (R107). -/
def decideStartRing (s : State) : Decision :=
  if s.supervisor.state = .off ∨ s.supervisor.state = .fault then accept [] (enterProbing .hostStart s)
  else refuse .badState s

/-- STOP_RING (R115). -/
def decideStopRing (s : State) : Decision :=
  if s.supervisor.state = .off then refuse .badState s else accept [] (enterOff s)

/-- CENSUS (R114). -/
def decideCensus (s : State) : Decision :=
  if s.supervisor.state = .up then
    accept [] (boundary { s with supervisor := { s.supervisor with censusPending := true } })
  else refuse .badState s

/-! ### Plan Memory -/

/-- CLEAR_PLAN (R26). -/
def decideClearPlan (s : State) : Decision :=
  if s.cycle.state = .stopped then accept [] { s with plan := [] } else refuse .badState s

/-- The new entry of an ADD_ENTRY; none when it is not well formed (R23). -/
def entryOf (target op object outLength inLength : Byte) : Option PlanEntry :=
  match operationOfCode op with
  | none => none
  | some o =>
    if isStationAddress target = true ∧ lengthsAgree o outLength.toNat inLength.toNat = true then
      some (newEntry target o object outLength.toNat inLength.toNat)
    else none

/-- ADD_ENTRY (R25): the reply carries the new index. -/
def decideAddEntry (target op object outLength inLength : Byte) (s : State) : Decision :=
  if s.cycle.state ≠ .stopped then refuse .badState s
  else
    match entryOf target op object outLength inLength with
    | none => refuse .range s
    | some e =>
      if planHasRoom s.plan e.outLength e.inLength then
        accept [natByte s.plan.length] { s with plan := s.plan ++ [e] }
      else refuse .noSpace s

/-- SET_ENABLE (R31). -/
def decideSetEnable (index setting : Byte) (s : State) : Decision :=
  match s.plan[index.toNat]? with
  | none => refuse .noSuchEntry s
  | some e =>
    match settingOfCode setting with
    | none => refuse .range s
    | some enable =>
      accept [] { s with plan := s.plan.set index.toNat { e with pendingEnable := enable } }

/-- The pending output replaced (R30). -/
def PlanEntry.write (e : PlanEntry) (data : List Byte) : PlanEntry :=
  { e with pendingOutput := data, writtenSinceLatch := true }

/-- WRITE_OUTPUT (R30). -/
def decideWriteOutput (index : Byte) (data : List Byte) (s : State) : Decision :=
  match s.plan[index.toNat]? with
  | none => refuse .noSuchEntry s
  | some e =>
    if e.operation = .read then refuse .range s
    else if data.length ≠ e.outLength then refuse .lengthMismatch s
    else
      accept [] { s with plan := s.plan.set index.toNat (e.write data) }

/-- READ_INPUT (R39): valid flag, last-good cycle number, in length bytes of data. -/
def decideReadInput (index : Byte) (s : State) : Decision :=
  match s.plan[index.toNat]? with
  | none => refuse .noSuchEntry s
  | some e =>
    if e.inLength = 0 then refuse .range s
    else accept (flagByte e.lastGoodValid :: wordBytes e.lastGoodCycle ++ e.lastGoodData) s

/-! ### Cycle Engine -/

/-- The six items of a CONFIGURE_CYCLE; none when one is out of its range, or for FREE with a budget of 0 (R40). -/
def cycleConfigOf (mode : Byte) (period : Word) (policy budget window overrun : Byte) : Option CycleConfig :=
  match modeOfCode mode, policyOfCode policy, settingOfCode window, overrunOfCode overrun with
  | some m, some p, some w, some o =>
    if 500 ≤ period.toNat ∧ period.toNat ≤ 1000000 ∧ period.toNat % 50 = 0 ∧ budget.toNat ≤ 15 ∧
        ¬(m = .free ∧ budget.toNat = 0) then
      some ⟨m, period, p, budget.toNat, w, o⟩
    else none
  | _, _, _, _ => none

/-- CONFIGURE_CYCLE (R40). -/
def decideConfigureCycle (mode : Byte) (period : Word) (policy budget window overrun : Byte) (s : State) :
    Decision :=
  if s.cycle.state ≠ .stopped then refuse .badState s
  else
    match cycleConfigOf mode period policy budget window overrun with
    | none => refuse .range s
    | some config => accept [] { s with cycle := { s.cycle with config := config } }

/-- The engine ARMED by START_CYCLE, with the period timer started in TIMED mode (R43). -/
def armFromStopped (s : State) : State :=
  { s with cycle :=
    { s.cycle with
      state := .armed, lateFlag := false, stopAtEnd := false
      periodTimer := if s.cycle.config.mode = .timed then some s.cycle.config.period else none } }

/-- START_CYCLE (R43): in TIMED and FREE modes a start cause is raised at once. -/
def decideStartCycle (s : State) : Decision :=
  if s.cycle.state ≠ .stopped then refuse .badState s
  else if s.plan = [] then refuse .noSuchEntry s
  else if s.cycle.config.mode = .triggered then accept [] (armFromStopped s)
  else accept [] (boundaryIfStarted s (startCause false (armFromStopped s)))

/-- STOP_CYCLE (R63): code 00h is NOW, 01h is AT_END. -/
def decideStopCycle (choice : Byte) (s : State) : Decision :=
  match settingOfCode choice with
  | none => refuse .range s
  | some atEnd =>
    match s.cycle.state with
    | .stopped => refuse .badState s
    | .armed => accept [] (enterStopped s)
    | .held => accept [] (enterStopped s)
    | .running =>
      if atEnd then accept [] { s with cycle := { s.cycle with stopAtEnd := true } }
      else accept [] (boundary (abandonCycle .stopped s))
    | .closing =>
      if atEnd then accept [] { s with cycle := { s.cycle with stopAtEnd := true } }
      else accept [] (boundary (abandonCycle .stopped s))

/-- TRIGGER_CYCLE (R44). -/
def decideTriggerCycle (s : State) : Decision :=
  if s.cycle.state = .armed ∧ s.cycle.config.mode = .triggered then
    accept [] (boundaryIfStarted s (startCause false s))
  else refuse .badState s

/-! ### Urgent Queue -/

/-- The request of an URGENT; none when a field is out of range (R72). -/
def urgentOf (tag station op object inLength retry : Byte) (deadline : Half) (outData : List Byte) :
    Option UrgentRequest :=
  match operationOfCode op, settingOfCode retry with
  | some o, some r =>
    if deadline.toNat ≤ 60000 ∧ lengthsAgree o outData.length inLength.toNat = true then
      some ⟨tag, station, o, object, outData, inLength.toNat, r, deadline, deadline != 0#16⟩
    else none
  | _, _ => none

/-- The tag of a request queued or in flight (R75). -/
def tagInUse (q : UrgentQueue) (tag : Byte) : Bool :=
  (q.inFlight.toList ++ q.queue).any (fun r => r.tag == tag)

/-- URGENT (R73, R74): the six tests in order, then the request joins the queue and the arbiter has notice. -/
def decideUrgent (tag station op object inLength retry : Byte) (deadline : Half) (outData : List Byte) (s : State) :
    Decision :=
  if s.supervisor.state = .off ∨ s.supervisor.state = .fault then refuse .ringOff s
  else if urgentPlaces ≤ s.urgent.queue.length then refuse .queueFull s
  else if tagInUse s.urgent tag then refuse .tagInUse s
  else if !callableForUrgent s.table station then refuse .unknownStation s
  else
    match urgentOf tag station op object inLength retry deadline outData with
    | none => refuse .range s
    | some r =>
      match s.store.reserve (.urgent tag) (urgentReservation r.inLength) with
      | none => refuse .noSpace s
      | some st =>
        accept [] (boundary
          { s with store := st, urgent := { s.urgent with queue := s.urgent.queue ++ [r] } })

/-- CANCEL (R82). -/
def decideCancel (urgentTag : Byte) (s : State) : Decision :=
  match queuedWith s.urgent urgentTag with
  | some _ =>
    accept [] (boundaryIf (s.urgent.isHead urgentTag)
      (releaseReservation (.urgent urgentTag) { s with urgent := s.urgent.remove urgentTag }))
  | none =>
    if s.urgent.inFlight.any (fun r => r.tag == urgentTag) then refuse .inFlight s else refuse .notFound s

/-! ### Report Window Unit -/

/-- OPEN_WINDOW (R122). -/
def decideOpenWindow (s : State) : Decision :=
  if s.supervisor.state = .off ∨ s.supervisor.state = .fault then refuse .ringOff s
  else if s.supervisor.state = .probing ∨ s.supervisor.state = .down then refuse .badState s
  else if s.window.hostPending then refuse .badState s
  else if s.cycle.state = .held ∨ s.cycle.inCycle = true then refuse .badState s
  else accept [] (boundary { s with window := { s.window with hostPending := true } })

/-! ### Delivery Store -/

/-- GRANT (R144): the reply carries the credit count after the grant. -/
def decideGrant (n : Byte) (s : State) : Decision :=
  if n = 0#8 then refuse .range s
  else
    let st := s.store.grantCredits n.toNat
    accept [natByte st.credits] { s with store := st }

/-- ACK_DELIVERIES (R145): the reply carries the number of records released. -/
def decideAckDeliveries (sequence : Half) (s : State) : Decision :=
  match s.store.sentPlace sequence with
  | none => refuse .range s
  | some place => accept [natByte (place + 1)] { s with store := s.store.releaseThrough place }

/-- REWIND (R146): the reply carries the number of records made unsent. -/
def decideRewind (sequence : Half) (s : State) : Decision :=
  match s.store.sentPlace sequence with
  | none => refuse .range s
  | some place =>
    accept [natByte (s.store.sentFrom place)] { s with store := s.store.unsendFrom place }

/-! ### Queries and RESET -/

/-- The payload of QUERY_STATUS (R171, R151). -/
def statusPayload (s : State) : List Byte :=
  [s.supervisor.state.code, natByte (presentCount s.table), natByte (absentCount s.table), s.cycle.state.code,
   s.cycle.holdReason.code] ++ wordBytes s.cycle.cycleNumber ++
  [natByte s.plan.length, natByte s.urgent.queue.length, requesterByte s.slot, natByte s.store.credits] ++
  halfBytes (natHalf s.store.unusedBytes) ++
  [natByte s.store.unusedRecords, natByte s.store.unsentCount, natByte s.store.sentCount] ++
  halfBytes s.store.oldestSent ++ halfBytes s.store.lostEvents

/-- QUERY_STATUS (R171). -/
def decideQueryStatus (s : State) : Decision := accept (statusPayload s) s

/-- The payload of QUERY_STATION (R102, R175): a position of none is 0, a sequence of none is FFh. -/
def StationEntry.payload (e : StationEntry) : List Byte :=
  [e.address, natByte (e.position.getD 0), e.kind, e.state.code, natByte e.missCount,
   e.lastAccepted.getD 0xFF#8] ++ halfBytes e.callsServed ++ halfBytes e.misses

/-- QUERY_STATION (R102). -/
def decideQueryStation (address : Byte) (s : State) : Decision :=
  match findStation s.table address with
  | some e => accept e.payload s
  | none => refuse .notFound s

def RingCounters.list (c : RingCounters) : List Half :=
  [c.attemptsStarted, c.corruptReturns, c.lostReturns, c.strayFrames, c.retries, c.hopMismatches]

def CycleCounters.list (c : CycleCounters) : List Half :=
  [c.completed, c.abandoned, c.overruns, c.skippedStarts, c.restarts]

def ReportCounters.list (c : ReportCounters) : List Half :=
  [c.accepted, c.duplicates, c.refusedForSpace, c.unknownReporter, c.deferred]

def LinkCounters.list (c : LinkCounters) : List Half :=
  [c.requestsReceived, c.checkErrors, c.gapDiscards, c.characterErrors, c.inboxFull, c.dropped, c.linkResets]

/-- The 23 block counters in the order of R172. -/
def blockCounters (s : State) : List Half :=
  s.port.counters.list ++ s.cycle.counters.list ++ s.window.counters.list ++ s.link.counters.list

/-- Every block counter and every per-station counter set to 0 (R172, R101). -/
def clearCounters (s : State) : State :=
  { s with
    port := { s.port with counters := {} }
    cycle := { s.cycle with counters := {} }
    window := { s.window with counters := {} }
    link := { s.link with counters := {} }
    table := clearStationCounters s.table }

/-- QUERY_COUNTERS (R172): flag 00h keeps the counters, 01h clears them. -/
def decideQueryCounters (clear : Byte) (s : State) : Decision :=
  match settingOfCode clear with
  | none => refuse .range s
  | some c =>
    accept ((blockCounters s).flatMap halfBytes) (if c then clearCounters s else s)

/-- RESET (R168): a soft reset becomes pending. -/
def decideReset (s : State) : Decision :=
  accept [] { s with link := { s.link with softResetPending := true } }

end Sys2Proof.Machine
end

