-- ==== Sys2Proof/Machine/Handler.lean ====
section
/-!
DEFINITION. The Request Handler and the inbox (spec/09_the_host_link.md, sections 9.3 and 9.4): the form checks of
R161, the reply of R162, the taking of a request (R160) and of a good message (R158).
-/

namespace Sys2Proof.Machine

/-! ### The form of a request and its owner (R161, R162) -/

/-- A request of a known type: BAD_LENGTH for a payload of a length the type does not allow, else its owner's
decision. -/
def decideRequest (type : RequestType) (tag : Byte) (payload : List Byte) (s : State) : Decision :=
  match type with
  | .configureRing =>
    match payload with
    | [rate, t1, t0, retry, miss, p1, p0] =>
      decideConfigureRing rate (halfOf t1 t0) retry miss (halfOf p1 p0) s
    | _ => refuse .badLength s
  | .startRing => match payload with | [] => decideStartRing s | _ => refuse .badLength s
  | .stopRing => match payload with | [] => decideStopRing s | _ => refuse .badLength s
  | .census => match payload with | [] => decideCensus s | _ => refuse .badLength s
  | .clearPlan => match payload with | [] => decideClearPlan s | _ => refuse .badLength s
  | .addEntry =>
    match payload with
    | [target, op, object, outLength, inLength] => decideAddEntry target op object outLength inLength s
    | _ => refuse .badLength s
  | .setEnable =>
    match payload with
    | [index, setting] => decideSetEnable index setting s
    | _ => refuse .badLength s
  | .writeOutput =>
    match payload with
    | index :: data => if data.length ≤ 32 then decideWriteOutput index data s else refuse .badLength s
    | [] => refuse .badLength s
  | .readInput => match payload with | [index] => decideReadInput index s | _ => refuse .badLength s
  | .configureCycle =>
    match payload with
    | [mode, b3, b2, b1, b0, policy, budget, window, overrun] =>
      decideConfigureCycle mode (wordOf b3 b2 b1 b0) policy budget window overrun s
    | _ => refuse .badLength s
  | .startCycle => match payload with | [] => decideStartCycle s | _ => refuse .badLength s
  | .stopCycle => match payload with | [choice] => decideStopCycle choice s | _ => refuse .badLength s
  | .triggerCycle => match payload with | [] => decideTriggerCycle s | _ => refuse .badLength s
  | .urgent =>
    match payload with
    | station :: op :: object :: inLength :: retry :: d1 :: d0 :: outData =>
      if outData.length ≤ 32 then
        decideUrgent tag station op object inLength retry (halfOf d1 d0) outData s
      else refuse .badLength s
    | _ => refuse .badLength s
  | .cancel => match payload with | [urgentTag] => decideCancel urgentTag s | _ => refuse .badLength s
  | .openWindow => match payload with | [] => decideOpenWindow s | _ => refuse .badLength s
  | .grant => match payload with | [n] => decideGrant n s | _ => refuse .badLength s
  | .ackDeliveries =>
    match payload with
    | [s1, s0] => decideAckDeliveries (halfOf s1 s0) s
    | _ => refuse .badLength s
  | .rewind => match payload with | [s1, s0] => decideRewind (halfOf s1 s0) s | _ => refuse .badLength s
  | .queryStatus => match payload with | [] => decideQueryStatus s | _ => refuse .badLength s
  | .queryStation =>
    match payload with
    | [address] => decideQueryStation address s
    | _ => refuse .badLength s
  | .queryCounters =>
    match payload with
    | [clear] => decideQueryCounters clear s
    | _ => refuse .badLength s
  | .reset => match payload with | [] => decideReset s | _ => refuse .badLength s

/-- A reply joins the reply queue at its tail (R159, R162). -/
def placeReply (r : Reply) (s : State) : State :=
  { s with link := { s.link with replies := s.link.replies ++ [r] } }

/-- Who placed the reply: the reply to an accepted RESET starts the soft reset when it has been sent (R168). -/
def replySource (type : RequestType) (reason : Option Reason) : ReplySource :=
  if type = .reset ∧ reason = none then .handlerReset else .handler

/-- A decision answered: the reply is placed after the decision's effects (R162). -/
def answer (type : RequestType) (tag : Byte) (d : Decision) : State :=
  placeReply ⟨tag, d.reason, d.payload, replySource type d.reason⟩ d.state

/-- A request handled (R161, R162). A good message has at least a type and a tag (R154). -/
def handleRequest (body : List Byte) (s : State) : State :=
  match body with
  | code :: tag :: payload =>
    match requestTypeOfCode code with
    | none => placeReply ⟨tag, some .unknownType, [], .handler⟩ s
    | some type => answer type tag (decideRequest type tag payload s)
  | _ => s

/-! ### The inbox (R158, R159, R160) -/

def inboxPlaces : Nat := 4
def inboxFullPlaces : Nat := 7

/-- The Request Handler may take a request (R160). -/
def Link.handlerFree (l : Link) : Bool := !l.handlerWaiting && !l.softResetPending

/-- The Request Handler takes the request at the head of the inbox when the conditions of R160 hold. -/
def handlerTake (s : State) : State :=
  match s.link.inbox with
  | [] => s
  | body :: rest =>
    if s.link.handlerFree then handleRequest body { s with link := { s.link with inbox := rest } } else s

/-- The link counters changed by f (R170). -/
def countLink (f : LinkCounters → LinkCounters) (s : State) : State :=
  { s with link := { s.link with counters := f s.link.counters } }

def Reply.isInboxFull (r : Reply) : Bool := !r.fromHandler

/-- The INBOX_FULL reply to a message. -/
def inboxFullReply (body : List Byte) : Reply := ⟨body[1]?.getD 0#8, some .inboxFull, [], .inboxFull⟩

/-- A good message is taken (R158): into the inbox, answered INBOX_FULL, or dropped. -/
def takeGood (body : List Byte) (s : State) : State :=
  let t := countLink (fun c => { c with requestsReceived := satInc c.requestsReceived }) s
  if t.link.inbox.length < inboxPlaces then
    handlerTake { t with link := { t.link with inbox := t.link.inbox ++ [body] } }
  else if t.link.replies.countP Reply.isInboxFull < inboxFullPlaces then
    placeReply (inboxFullReply body) (countLink (fun c => { c with inboxFull := satInc c.inboxFull }) t)
  else countLink (fun c => { c with dropped := satInc c.dropped }) t

end Sys2Proof.Machine
end

