-- ==== Sys2Proof/Machine/Resets.lean ====
section
/-!
DEFINITION. The hard reset (R169) and the soft reset (R168). Every block takes the values the fields of
Machine/State.lean have as defaults; the queue of commands waiting is not the part's and stays.
-/

namespace Sys2Proof.Machine

/-- A soft reset (R168): every block at its soft-reset values, STARTED with cause SOFT waiting, the link rate kept. The
receiver enters HUNT whatever level RXD holds, and the level stays (R179). The pin RESET_N is no block's state. DESIGN
CHOICE (log 31), safe: reports and notices of released space that no block has taken yet are dropped. -/
def softReset (s : State) : State :=
  { pending := s.pending, resetAsserted := s.resetAsserted
    link :=
      { rateCode := s.link.rateCode, rxd := s.link.rxd
        announcements := [.started .soft s.link.rateCode] } }

/-- RESET_N asserted (R169): every block at its hard-reset values, nothing sent or received. The link rate selected
holds until the end of the reset (R152). Reports and notices not yet taken are dropped (log 31). -/
def hardReset (s : State) : State :=
  { pending := s.pending, resetAsserted := true
    link := { rateCode := s.link.rateCode, rxd := s.link.rxd } }

/-- The rate code the straps select (R152). -/
def rateCodeOf (rate1 rate0 : Bool) : BitVec 2 := BitVec.ofBool rate1 ++ BitVec.ofBool rate0

/-- RESET_N released (R169, R179): the straps sampled, the receiver in HUNT at whatever level RXD holds, STARTED with
cause HARD waiting. -/
def hardResetRelease (rate1 rate0 : Bool) (rxd : LineLevel) (s : State) : State :=
  { s with
    resetAsserted := false
    link :=
      { s.link with
        receiver := .hunt, rxd := rxd, rateCode := rateCodeOf rate1 rate0
        announcements := [.started .hard (rateCodeOf rate1 rate0)] } }

end Sys2Proof.Machine
end

