-- ==== Sys2Proof/Machine/Link.lean ====
section
/-!
DEFINITION. The Link Controller (spec/09_the_host_link.md, sections 9.2, 9.5 and 9.6): the receiver, the rescan after
a discard, the link reset, and the end of a transmission.
-/

namespace Sys2Proof.Machine

/-! ### What the retained bytes show (R153, R154) -/

/-- What the bytes from a start code on show: a message in progress, one to be discarded, or a good one. -/
inductive Reading where
  | inProgress (state : RxState)
  | bad
  | good (body : List Byte)
  deriving DecidableEq, Repr

/-- The length field is tested (R154). -/
def goodLength (n : Nat) : Bool := decide (2 ≤ n) && decide (n ≤ maxBody)

/-- The bytes after a start code, read as length, body and check; later bytes are not read. -/
def readMessage (bytes : List Byte) : Reading :=
  match bytes with
  | l1 :: l0 :: rest =>
    let n := (halfOf l1 l0).toNat
    if !goodLength n then .bad
    else if rest.length < n then .inProgress .body
    else if rest.length < n + 2 then .inProgress .check
    else if halfBytes (crc16 (l1 :: l0 :: rest.take n)) = (rest.drop n).take 2 then .good (rest.take n)
    else .bad
  | _ => .inProgress .length

/-- The receiver in HUNT with no retained bytes and the gap timer stopped. -/
def Link.hunt (l : Link) : Link := { l with receiver := .hunt, retained := [], gapTimer := false }

/-- The receiver going on with a message in progress, its gap timer started. -/
def Link.goOn (l : Link) (state : RxState) (retained : List Byte) : Link :=
  { l with receiver := state, retained := retained, gapTimer := true }

def countCheckError (s : State) : State :=
  countLink (fun c => { c with checkErrors := satInc c.checkErrors }) s

/-- The rescan of R155: the bytes after a discarded start code taken as if they were arriving anew, after `skip` bytes
of a message already found good. After a gap, a message left incomplete is discarded uncounted (R156). -/
def rescan (afterGap : Bool) : Nat → List Byte → State → State
  | _, [], s => { s with link := s.link.hunt }
  | skip + 1, _ :: rest, s => rescan afterGap skip rest s
  | 0, b :: rest, s =>
    if b ≠ startCode then rescan afterGap 0 rest s
    else
      match readMessage rest with
      | .inProgress state =>
        if afterGap then rescan afterGap 0 rest s else { s with link := s.link.goOn state (b :: rest) }
      | .bad => rescan afterGap 0 rest (countCheckError s)
      | .good body => rescan afterGap (body.length + 4) rest (takeGood body s)

/-- The receiver resumes at the byte after the discarded start code (R155). -/
def resume (afterGap : Bool) (retained : List Byte) (s : State) : State := rescan afterGap 0 retained.tail s

/-- A character joins the message in progress (R153, R154). -/
def joinMessage (c : Byte) (s : State) : State :=
  let retained := s.link.retained ++ [c]
  match readMessage retained.tail with
  | .inProgress state => { s with link := s.link.goOn state retained }
  | .bad => resume false retained (countCheckError s)
  | .good body => takeGood body { s with link := s.link.hunt }

/-- RXD found at the idle level: the stop bit of a character, or the end of the break level. -/
def lineIdle (s : State) : State := { s with link := { s.link with rxd := .idle } }

/-- A character completed on RXD is taken in the receiver's state (R153). -/
def takeCharacter (c : Byte) (s : State) : State :=
  match s.link.receiver with
  | .hunt => if c = startCode then { s with link := s.link.goOn .length [c] } else s
  | .length => joinMessage c s
  | .body => joinMessage c s
  | .check => joinMessage c s
  | .brk => s

/-- The message in progress is discarded by the gap timer (R156). -/
def gapDiscard (s : State) : State :=
  resume true s.link.retained (countLink (fun c => { c with gapDiscards := satInc c.gapDiscards }) s)

/-- A character error (R157): RXD has returned to idle within 1 ms of the break level. -/
def takeCharacterError (s : State) : State :=
  let t := countLink (fun c => { c with characterErrors := satInc c.characterErrors }) (lineIdle s)
  if s.link.receiver = .hunt then t else resume false s.link.retained t

/-! ### Link reset (R166) -/

/-- LINK_RESTARTED joins the announcement list unless one is in it (R165). -/
def addRestarted (l : List Announcement) : List Announcement :=
  if l.contains .linkRestarted then l else l ++ [.linkRestarted]

/-- The six steps of a link reset; a pending soft reset is withdrawn unless its reply is on TXD (R168). -/
def linkReset (s : State) : State :=
  { s with
    store := s.store.linkReset
    link :=
      { s.link with
        receiver := .brk, retained := [], gapTimer := false, rxd := .brk
        inbox := [], replies := []
        softResetPending := s.link.softResetPending && s.link.tx.any TxMessage.isResetReply
        announcements := addRestarted s.link.announcements
        counters := { s.link.counters with linkResets := satInc s.link.counters.linkResets } } }

/-- The end of a break: HUNT when RXD returns to idle (R166). -/
def endBreak (s : State) : State := lineIdle { s with link := { s.link with receiver := .hunt } }

/-! ### The end of a transmission (R164) -/

/-- TXD is free again: a pending soft reset takes place if the message was RESET's reply (R168), else the Request
Handler takes the next request if the message freed it (R160, log 11). -/
def endTransmission (m : TxMessage) (s : State) : State :=
  let t := { s with link := { s.link with tx := none } }
  if m.isResetReply = true ∧ s.link.softResetPending = true then softReset t else handlerTake t

/-! ### A request of the host -/

/-- The body of a request's message (spec/10_message_and_frame_formats.md, section 10.3). -/
def requestBody (type : RequestType) (tag : Byte) (payload : List Byte) : List Byte :=
  type.code :: tag :: payload

/-- The arrival of a request's message, found good at its last check byte (R154): the receiver in HUNT, the message
taken by R158. While no character can be received, nothing arrives (R153, R169; log 2). -/
def receiveRequest (type : RequestType) (tag : Byte) (payload : List Byte) (s : State) : State :=
  if s.receiving then
    finish (takeGood (requestBody type tag payload) (lineIdle { s with link := s.link.hunt }))
  else s

end Sys2Proof.Machine
end

