-- ==== Sys2Proof/Machine/CycleEvents.lean ====
section
/-!
DEFINITION. The meanings of the events between blocks and of the timers of the Cycle Engine and the Urgent Queue: a
block takes the oldest ring state report waiting for it (R117), the Cycle Engine takes a notice of released space
(R140), the period timer and a deadline timer expire. An event that cannot take place changes nothing (log 3).
-/

namespace Sys2Proof.Machine

open Host (Outcome)

/-- A report abandons the cycle that stands (R60). -/
def abandonsCycle (r : RingState) (s : State) : Bool := (abandonReasonFor r).isSome && s.cycle.inCycle

/-- The Cycle Engine acts on a report and gives the arbiter notice of an abandonment (R61) or a cycle start (R48). -/
def cycleActsOnReport (r : RingState) (s : State) : State :=
  let t := cycleTakesReport r s
  if abandonsCycle r s then boundary t else boundaryIfStarted s t

/-- The Cycle Engine takes a ring state report (R49, R60). -/
def execCycleRingReport (s : State) : Outcome State Fault Refusal :=
  .next (match s.notices.cycle with
    | [] => s
    | r :: rest => finish (cycleActsOnReport r { s with notices := { s.notices with cycle := rest } }))

/-- The Urgent Queue takes a ring state report (R85). -/
def execUrgentRingReport (s : State) : Outcome State Fault Refusal :=
  .next (match s.notices.urgent with
    | [] => s
    | r :: rest => finish (urgentTakesReport r { s with notices := { s.notices with urgent := rest } }))

/-- The Report Window Unit takes a ring state report (R123). -/
def execWindowRingReport (s : State) : Outcome State Fault Refusal :=
  .next (match s.notices.window with
    | [] => s
    | r :: rest => finish (windowTakesReport r { s with notices := { s.notices with window := rest } }))

/-- The Exchange Arbiter takes a ring state report (R66, R117). -/
def execArbiterRingReport (s : State) : Outcome State Fault Refusal :=
  .next (match s.notices.arbiter with
    | [] => s
    | r :: rest => finish (arbiterTakesReport r { s with notices := { s.notices with arbiter := rest } }))

/-- The period timer expires and runs again for one period: a start cause (R45, R46). -/
def execPeriodTimerExpiry (s : State) : Outcome State Fault Refusal :=
  .next (if s.cycle.periodTimer.isSome then finish (boundaryIfStarted s (startCause false s)) else s)

/-- The Cycle Engine takes one notice of released space (R140, R49). -/
def execSpaceReleaseNotice (s : State) : Outcome State Fault Refusal :=
  .next (match s.notices.space with
    | 0 => s
    | n + 1 =>
      let t := { s with notices := { s.notices with space := n } }
      finish (boundaryIfStarted t (retryHeldStart t)))

/-- A queued request ends with EXPIRED, and the arbiter has notice if it was the head (R81). -/
def expireRequest (r : UrgentRequest) (s : State) : State :=
  boundaryIf (s.urgent.isHead r.tag)
    (commitResult r .expired none 0 [] { s with urgent := s.urgent.remove r.tag })

/-- The queued request with a tag whose deadline timer runs. -/
def UrgentQueue.timed (q : UrgentQueue) (tag : Byte) : Option UrgentRequest :=
  match queuedWith q tag with
  | some r => if r.timerRunning then some r else none
  | none => none

/-- The deadline timer of the request with a tag expires (R81). -/
def execDeadlineTimerExpiry (tag : Byte) (s : State) : Outcome State Fault Refusal :=
  .next (match s.urgent.timed tag with
    | some r => finish (expireRequest r s)
    | none => s)

end Sys2Proof.Machine
end

