-- ==== Sys2Proof/Machine/LinkEvents.lean ====
section
/-!
DEFINITION. The meanings of the events of the reset pin and of the host link line. An event that cannot take place in
a state (a timer that is stopped, an empty TXD) changes nothing there (log 3).
-/

namespace Sys2Proof.Machine

open Host (Outcome)

/-- RESET_N is asserted, or power fails (R169). -/
def execHardReset (s : State) : Outcome State Fault Refusal := .next (hardReset s)

/-- RESET_N is released, or power-up ends (R169, R152, R179). The release of a pin that is not asserted does not take
place. -/
def execHardResetRelease (rate1 rate0 : Bool) (rxd : LineLevel) (s : State) : Outcome State Fault Refusal :=
  .next (if s.resetAsserted then finish (hardResetRelease rate1 rate0 rxd s) else s)

/-- A character completes on RXD (R153); where it is the last of a length or of a check, R154 follows (log 13). -/
def execRxdCharacterReceived (character : Byte) (s : State) : Outcome State Fault Refusal :=
  .next (if s.receiving then finish (takeCharacter character (lineIdle s)) else s)

/-- The second length byte or the second check byte of a message completes on RXD (R154, R155, R158; log 13). -/
def execLinkMessageComplete (character : Byte) (s : State) : Outcome State Fault Refusal :=
  .next (if s.receiving then finish (takeCharacter character (lineIdle s)) else s)

/-- The gap timer expires (R156). -/
def execGapTimerExpiry (s : State) : Outcome State Fault Refusal :=
  .next (if s.link.gapTimer then finish (gapDiscard s) else s)

/-- A character whose stop bit was at the break level, RXD back at idle within 1 ms (R157). -/
def execCharacterError (s : State) : Outcome State Fault Refusal :=
  .next (if s.resetAsserted ∨ s.link.receiver = .brk then s else finish (takeCharacterError s))

/-- RXD has been at the break level for 1 ms (R166). One break gives one link reset. -/
def execLinkReset (s : State) : Outcome State Fault Refusal :=
  .next (if s.resetAsserted ∨ s.link.receiver = .brk then s else finish (linkReset s))

/-- RXD returns to idle after a break (R166). -/
def execBreakEnd (s : State) : Outcome State Fault Refusal :=
  .next (if s.link.receiver = .brk then endBreak s else s)

/-- The last bit of the message on TXD has been sent (R164). -/
def execTransmissionEnd (s : State) : Outcome State Fault Refusal :=
  .next (match s.link.tx with
    | some m => finish (endTransmission m s)
    | none => s)

end Sys2Proof.Machine
end

