-- ==== Sys2Proof/Machine/Requests.lean ====
section
/-!
DEFINITION. The meanings of the host's requests: each is the arrival of its message, whole and good, at the Link
Controller (log 2). The payload is laid out as spec/10_message_and_frame_formats.md, section 10.3, gives it; the block
that owns the request decides it by the rule named at its definition.
-/

namespace Sys2Proof.Machine

open Host (Outcome)

/-! ### Ring Supervisor -/

/-- CONFIGURE_RING (R104). -/
def execConfigureRing (tag bitRate : Byte) (returnTimeout : Half) (retryLimit missLimit : Byte)
    (probeInterval : Half) (s : State) : Outcome State Fault Refusal :=
  .next (receiveRequest .configureRing tag
    (bitRate :: halfBytes returnTimeout ++ [retryLimit, missLimit] ++ halfBytes probeInterval) s)

/-- START_RING (R107). -/
def execStartRing (tag : Byte) (s : State) : Outcome State Fault Refusal :=
  .next (receiveRequest .startRing tag [] s)

/-- STOP_RING (R115). -/
def execStopRing (tag : Byte) (s : State) : Outcome State Fault Refusal :=
  .next (receiveRequest .stopRing tag [] s)

/-- CENSUS (R114). -/
def execCensus (tag : Byte) (s : State) : Outcome State Fault Refusal :=
  .next (receiveRequest .census tag [] s)

/-! ### Plan Memory -/

/-- CLEAR_PLAN (R26). -/
def execClearPlan (tag : Byte) (s : State) : Outcome State Fault Refusal :=
  .next (receiveRequest .clearPlan tag [] s)

/-- ADD_ENTRY (R25). -/
def execAddEntry (tag target operation object outLength inLength : Byte) (s : State) :
    Outcome State Fault Refusal :=
  .next (receiveRequest .addEntry tag [target, operation, object, outLength, inLength] s)

/-- SET_ENABLE (R31). -/
def execSetEnable (tag index setting : Byte) (s : State) : Outcome State Fault Refusal :=
  .next (receiveRequest .setEnable tag [index, setting] s)

/-- WRITE_OUTPUT (R30). -/
def execWriteOutput (tag index : Byte) (data : List Byte) (s : State) : Outcome State Fault Refusal :=
  .next (receiveRequest .writeOutput tag (index :: data) s)

/-- READ_INPUT (R39). -/
def execReadInput (tag index : Byte) (s : State) : Outcome State Fault Refusal :=
  .next (receiveRequest .readInput tag [index] s)

/-! ### Cycle Engine -/

/-- CONFIGURE_CYCLE (R40). -/
def execConfigureCycle (tag mode : Byte) (period : Word) (policy budget window overrun : Byte) (s : State) :
    Outcome State Fault Refusal :=
  .next (receiveRequest .configureCycle tag (mode :: wordBytes period ++ [policy, budget, window, overrun]) s)

/-- START_CYCLE (R43). -/
def execStartCycle (tag : Byte) (s : State) : Outcome State Fault Refusal :=
  .next (receiveRequest .startCycle tag [] s)

/-- STOP_CYCLE (R63). -/
def execStopCycle (tag choice : Byte) (s : State) : Outcome State Fault Refusal :=
  .next (receiveRequest .stopCycle tag [choice] s)

/-- TRIGGER_CYCLE (R44). -/
def execTriggerCycle (tag : Byte) (s : State) : Outcome State Fault Refusal :=
  .next (receiveRequest .triggerCycle tag [] s)

/-! ### Urgent Queue and Report Window Unit -/

/-- URGENT (R73, R74). -/
def execUrgent (tag station operation object inLength retry : Byte) (deadline : Half) (outData : List Byte)
    (s : State) : Outcome State Fault Refusal :=
  .next (receiveRequest .urgent tag
    ([station, operation, object, inLength, retry] ++ halfBytes deadline ++ outData) s)

/-- CANCEL (R82). -/
def execCancel (tag urgentTag : Byte) (s : State) : Outcome State Fault Refusal :=
  .next (receiveRequest .cancel tag [urgentTag] s)

/-- OPEN_WINDOW (R122). -/
def execOpenWindow (tag : Byte) (s : State) : Outcome State Fault Refusal :=
  .next (receiveRequest .openWindow tag [] s)

/-! ### Delivery Store -/

/-- GRANT (R144). -/
def execGrant (tag credits : Byte) (s : State) : Outcome State Fault Refusal :=
  .next (receiveRequest .grant tag [credits] s)

/-- ACK_DELIVERIES (R145). -/
def execAckDeliveries (tag : Byte) (sequence : Half) (s : State) : Outcome State Fault Refusal :=
  .next (receiveRequest .ackDeliveries tag (halfBytes sequence) s)

/-- REWIND (R146). -/
def execRewind (tag : Byte) (sequence : Half) (s : State) : Outcome State Fault Refusal :=
  .next (receiveRequest .rewind tag (halfBytes sequence) s)

/-! ### Queries and RESET -/

/-- QUERY_STATUS (R171). -/
def execQueryStatus (tag : Byte) (s : State) : Outcome State Fault Refusal :=
  .next (receiveRequest .queryStatus tag [] s)

/-- QUERY_STATION (R102). -/
def execQueryStation (tag address : Byte) (s : State) : Outcome State Fault Refusal :=
  .next (receiveRequest .queryStation tag [address] s)

/-- QUERY_COUNTERS (R172). -/
def execQueryCounters (tag clear : Byte) (s : State) : Outcome State Fault Refusal :=
  .next (receiveRequest .queryCounters tag [clear] s)

/-- RESET (R168). -/
def execReset (tag : Byte) (s : State) : Outcome State Fault Refusal :=
  .next (receiveRequest .reset tag [] s)

end Sys2Proof.Machine
end

