-- ==== Sys2Proof/Machine/RingEvents.lean ====
section
/-!
DEFINITION. The meanings of the events of the ring: the end of a sending, a frame at RING_IN, the return timer and the
probe timer. An event that cannot take place in a state changes nothing there (log 3).
-/

namespace Sys2Proof.Machine

open Host (Outcome)

/-- A frame is completed, or broken off, at RING_IN (R12, R13). -/
def execRingFrameComplete (bytes : List Byte) (s : State) : Outcome State Fault Refusal :=
  .next (finish (judgeFrame bytes s))

/-- The last byte of an attempt's frame has been sent: the return timer starts (R11, R8). -/
def frameSent (s : State) : State :=
  { s with port :=
    { s.port with state := .awaiting, returnTimer := some s.supervisor.config.returnTimeout } }

/-- The frame of the attempt in flight has been sent whole (R11). -/
def execAttemptFrameSent (s : State) : Outcome State Fault Refusal :=
  .next (if s.port.state = .sending then frameSent s else s)

/-- The circulation whose attempt awaits its return with the return timer running. -/
def RingPort.timedCirculation (p : RingPort) : Option Circulation :=
  if p.state = .awaiting ∧ p.returnTimer.isSome = true then p.record else none

/-- The return timer expires (R15). -/
def execReturnTimerExpiry (s : State) : Outcome State Fault Refusal :=
  .next (match s.port.timedCirculation with
    | some c => finish (loseAttempt c s)
    | none => s)

/-- The probe timer expires (R112): the ring enters PROBING. -/
def execProbeTimerExpiry (s : State) : Outcome State Fault Refusal :=
  .next (if s.supervisor.probeTimer.isSome then finish (enterProbing .probeTimer s) else s)

end Sys2Proof.Machine
end

