-- ==== Sys2Proof/Machine/Dispatch.lean ====
section
/-!
DEFINITION. The meaning of each command: one arm per constructor of Instr.
-/

namespace Sys2Proof.Machine

def exec (i : Instr) (s : State) : Host.Outcome State Fault Refusal :=
  match i with
  | .configureRing tag bitRate returnTimeout retryLimit missLimit probeInterval => Sys2Proof.Machine.execConfigureRing tag bitRate returnTimeout retryLimit missLimit probeInterval s
  | .startRing tag => Sys2Proof.Machine.execStartRing tag s
  | .stopRing tag => Sys2Proof.Machine.execStopRing tag s
  | .census tag => Sys2Proof.Machine.execCensus tag s
  | .clearPlan tag => Sys2Proof.Machine.execClearPlan tag s
  | .addEntry tag target operation object outLength inLength => Sys2Proof.Machine.execAddEntry tag target operation object outLength inLength s
  | .setEnable tag index setting => Sys2Proof.Machine.execSetEnable tag index setting s
  | .writeOutput tag index data => Sys2Proof.Machine.execWriteOutput tag index data s
  | .readInput tag index => Sys2Proof.Machine.execReadInput tag index s
  | .configureCycle tag mode period policy budget window overrun => Sys2Proof.Machine.execConfigureCycle tag mode period policy budget window overrun s
  | .startCycle tag => Sys2Proof.Machine.execStartCycle tag s
  | .stopCycle tag choice => Sys2Proof.Machine.execStopCycle tag choice s
  | .triggerCycle tag => Sys2Proof.Machine.execTriggerCycle tag s
  | .urgent tag station operation object inLength retry deadline outData => Sys2Proof.Machine.execUrgent tag station operation object inLength retry deadline outData s
  | .cancel tag urgentTag => Sys2Proof.Machine.execCancel tag urgentTag s
  | .openWindow tag => Sys2Proof.Machine.execOpenWindow tag s
  | .grant tag credits => Sys2Proof.Machine.execGrant tag credits s
  | .ackDeliveries tag sequence => Sys2Proof.Machine.execAckDeliveries tag sequence s
  | .rewind tag sequence => Sys2Proof.Machine.execRewind tag sequence s
  | .queryStatus tag => Sys2Proof.Machine.execQueryStatus tag s
  | .queryStation tag address => Sys2Proof.Machine.execQueryStation tag address s
  | .queryCounters tag clear => Sys2Proof.Machine.execQueryCounters tag clear s
  | .reset tag => Sys2Proof.Machine.execReset tag s
  | .hardReset => Sys2Proof.Machine.execHardReset s
  | .hardResetRelease rate1 rate0 rxd => Sys2Proof.Machine.execHardResetRelease rate1 rate0 rxd s
  | .linkMessageComplete character => Sys2Proof.Machine.execLinkMessageComplete character s
  | .gapTimerExpiry => Sys2Proof.Machine.execGapTimerExpiry s
  | .characterError => Sys2Proof.Machine.execCharacterError s
  | .linkReset => Sys2Proof.Machine.execLinkReset s
  | .breakEnd => Sys2Proof.Machine.execBreakEnd s
  | .transmissionEnd => Sys2Proof.Machine.execTransmissionEnd s
  | .ringFrameComplete bytes => Sys2Proof.Machine.execRingFrameComplete bytes s
  | .attemptFrameSent => Sys2Proof.Machine.execAttemptFrameSent s
  | .returnTimerExpiry => Sys2Proof.Machine.execReturnTimerExpiry s
  | .probeTimerExpiry => Sys2Proof.Machine.execProbeTimerExpiry s
  | .cycleRingReport => Sys2Proof.Machine.execCycleRingReport s
  | .urgentRingReport => Sys2Proof.Machine.execUrgentRingReport s
  | .windowRingReport => Sys2Proof.Machine.execWindowRingReport s
  | .arbiterRingReport => Sys2Proof.Machine.execArbiterRingReport s
  | .periodTimerExpiry => Sys2Proof.Machine.execPeriodTimerExpiry s
  | .spaceReleaseNotice => Sys2Proof.Machine.execSpaceReleaseNotice s
  | .deadlineTimerExpiry tag => Sys2Proof.Machine.execDeadlineTimerExpiry tag s
  | .rxdCharacterReceived character => Sys2Proof.Machine.execRxdCharacterReceived character s

end Sys2Proof.Machine
end

