-- ==== Sys2Proof/Safety.lean ====
section
/-!
DEFINITION. What holds of the part between commands, block by block: the bounds and agreements spec/ states of its
state, in the terms the statements use.
-/

namespace Sys2Proof.Machine

/-! ### The arrival of a request -/

/-- A request that arrives now is taken at once: characters come in (R152, R153), the inbox is empty and the Request
Handler is free (R160). -/
def State.ready (s : State) : Bool := s.receiving && s.link.inbox.isEmpty && s.link.handlerFree

/-- The state an arriving request is decided in: its message counted, the receiver in HUNT, RXD at the idle level of its
last stop bit (R154, R158). -/
def State.arrived (s : State) : State :=
  countLink (fun c => { c with requestsReceived := satInc c.requestsReceived }) (lineIdle { s with link := s.link.hunt })

/-- The reply of the Request Handler to an accepted request. -/
def acceptedReply (tag : Byte) (payload : List Byte) : Reply := ⟨tag, none, payload, .handler⟩

/-- The reply of the Request Handler to a refused request. -/
def refusedReply (tag : Byte) (reason : Reason) : Reply := ⟨tag, some reason, [], .handler⟩

/-- The end of a request's event: the reply placed, and TXD handed to the next message (R162, R163). -/
def State.accepting (t : State) (tag : Byte) (payload : List Byte) : State :=
  finish (placeReply (acceptedReply tag payload) t)

/-- A request refused on arrival: nothing but the reply (R176). -/
def State.refusing (s : State) (tag : Byte) (reason : Reason) : State :=
  finish (placeReply (refusedReply tag reason) s.arrived)

/-- The least and the greatest payload of each request type (the table of R161). -/
def payloadRange : RequestType → Nat × Nat
  | .configureRing => (7, 7) | .startRing => (0, 0) | .stopRing => (0, 0) | .census => (0, 0)
  | .clearPlan => (0, 0) | .addEntry => (5, 5) | .setEnable => (2, 2) | .writeOutput => (1, 33)
  | .readInput => (1, 1) | .configureCycle => (9, 9) | .startCycle => (0, 0) | .stopCycle => (1, 1)
  | .triggerCycle => (0, 0) | .urgent => (7, 39) | .cancel => (1, 1) | .openWindow => (0, 0)
  | .grant => (1, 1) | .ackDeliveries => (2, 2) | .rewind => (2, 2) | .queryStatus => (0, 0)
  | .queryStation => (1, 1) | .queryCounters => (1, 1) | .reset => (0, 0)

/-- A payload of a length the table of R161 allows. -/
def payloadFits (type : RequestType) (payload : List Byte) : Bool :=
  decide ((payloadRange type).1 ≤ payload.length) && decide (payload.length ≤ (payloadRange type).2)

/-- The message of a command that is a request of the host (spec/10, section 10.3). -/
def requestOf : Instr → Option (RequestType × Byte × List Byte)
  | .configureRing tag bitRate timeout retry miss probe =>
    some (.configureRing, tag, bitRate :: halfBytes timeout ++ [retry, miss] ++ halfBytes probe)
  | .startRing tag => some (.startRing, tag, [])
  | .stopRing tag => some (.stopRing, tag, [])
  | .census tag => some (.census, tag, [])
  | .clearPlan tag => some (.clearPlan, tag, [])
  | .addEntry tag target op object outLength inLength =>
    some (.addEntry, tag, [target, op, object, outLength, inLength])
  | .setEnable tag index setting => some (.setEnable, tag, [index, setting])
  | .writeOutput tag index data => some (.writeOutput, tag, index :: data)
  | .readInput tag index => some (.readInput, tag, [index])
  | .configureCycle tag mode period policy budget window overrun =>
    some (.configureCycle, tag, mode :: wordBytes period ++ [policy, budget, window, overrun])
  | .startCycle tag => some (.startCycle, tag, [])
  | .stopCycle tag choice => some (.stopCycle, tag, [choice])
  | .triggerCycle tag => some (.triggerCycle, tag, [])
  | .urgent tag station op object inLength retry deadline outData =>
    some (.urgent, tag, [station, op, object, inLength, retry] ++ halfBytes deadline ++ outData)
  | .cancel tag urgentTag => some (.cancel, tag, [urgentTag])
  | .openWindow tag => some (.openWindow, tag, [])
  | .grant tag credits => some (.grant, tag, [credits])
  | .ackDeliveries tag sequence => some (.ackDeliveries, tag, halfBytes sequence)
  | .rewind tag sequence => some (.rewind, tag, halfBytes sequence)
  | .queryStatus tag => some (.queryStatus, tag, [])
  | .queryStation tag address => some (.queryStation, tag, [address])
  | .queryCounters tag clear => some (.queryCounters, tag, [clear])
  | .reset tag => some (.reset, tag, [])
  | .hardReset | .hardResetRelease _ _ _ | .linkMessageComplete _ | .gapTimerExpiry | .characterError
  | .linkReset | .breakEnd | .transmissionEnd | .ringFrameComplete _ | .attemptFrameSent
  | .returnTimerExpiry | .probeTimerExpiry | .cycleRingReport | .urgentRingReport | .windowRingReport
  | .arbiterRingReport | .periodTimerExpiry | .spaceReleaseNotice | .deadlineTimerExpiry _
  | .rxdCharacterReceived _ => none

/-! ### Link Controller and Request Handler -/

/-- Replies of the Request Handler waiting in the reply queue or on TXD. -/
def Link.handlerReplies (l : Link) : Nat :=
  l.replies.countP Reply.fromHandler + (if l.tx.any TxMessage.fromHandler then 1 else 0)

def Announcement.isStarted : Announcement → Bool
  | .started _ _ => true
  | .linkRestarted => false

/-- The inbox, the reply queue and the announcement list within their places (R159, R160, R165), and a soft reset
pending exactly while RESET's reply waits or is being sent (R168). -/
structure Link.Bounded (l : Link) : Prop where
  inbox       : l.inbox.length ≤ inboxPlaces
  handler     : l.handlerReplies ≤ 1
  inboxFull   : l.replies.countP Reply.isInboxFull ≤ inboxFullPlaces
  started     : l.announcements.countP Announcement.isStarted ≤ 1
  restarted   : l.announcements.countP (fun a => !a.isStarted) ≤ 1
  softReset   : l.softResetPending =
    (l.replies.any (fun r => r.source == .handlerReset) || l.tx.any TxMessage.isResetReply)

/-- Nothing waits for TXD: no announcement, no reply, and no delivery offered (R163). -/
def State.nothingWaits (s : State) : Prop :=
  s.link.announcements = [] ∧ s.link.replies = [] ∧ s.store.offer = none

/-- TXD is idle only while nothing waits (R163). -/
def State.TxdBusy (s : State) : Prop := s.link.tx = none → s.nothingWaits

/-! ### Ring Supervisor, Ring Port, Exchange Arbiter -/

/-- The ring configuration in the ranges of R104. -/
structure RingConfig.InRange (c : RingConfig) : Prop where
  timeout : 20 ≤ c.returnTimeout.toNat ∧ c.returnTimeout.toNat ≤ 5000
  retry   : c.retryLimit ≤ 3
  miss    : 1 ≤ c.missLimit ∧ c.missLimit ≤ 7
  probe   : 10 ≤ c.probeInterval.toNat ∧ c.probeInterval.toNat ≤ 1000

/-- A circulation record as the arbiter and the Ring Port write it: a CENSUS frame exactly for a CENSUS claim, and
attempts within 1 + the retry allowance, which is at most 3 (R9, R16). -/
structure Circulation.Sound (c : Circulation) : Prop where
  frame     : c.requester = .census ↔ c.frame = .census
  attempts  : 1 ≤ c.attempts ∧ c.attempts ≤ 1 + c.allowance
  allowance : c.allowance ≤ 3

/-- The ring state, the Ring Port, the slot and the timers agree (R8, R65, R103, R106). -/
structure State.RingSound (s : State) : Prop where
  config    : s.supervisor.config.InRange
  disabled  : s.port.state = .disabled ↔ s.supervisor.state = .off
  record    : s.port.record.isSome = true ↔ s.port.state = .sending ∨ s.port.state = .awaiting
  timer     : s.port.returnTimer.isSome = true ↔ s.port.state = .awaiting
  carries   : s.port.record.isSome = true → s.ringCarries = true
  probing   : s.supervisor.state = .probing → s.slot = some .census
  probe     : s.supervisor.probeTimer.isSome = true ↔ s.supervisor.state = .down
  pending   : s.supervisor.censusPending = true → s.supervisor.state = .up
  claim     : ∀ c, s.port.record = some c → c.Sound

/-! ### Station Table -/

/-- The order and the limits of the table (R87, R88, R89). -/
structure TableSound (table : List StationEntry) : Prop where
  size      : table.length ≤ tableCapacity
  addresses : (table.map (fun e => e.address)).Nodup
  positions : table.map (fun e => e.position) =
    (List.range' 1 (presentCount table)).map some ++ List.replicate (absentCount table) none
  absent    : ∀ e ∈ table, e.state = .absent ↔ e.position = none
  inRange   : ∀ e ∈ table, isStationAddress e.address = true ∧ e.missCount ≤ 7

/-! ### Plan Memory -/

/-- A plan entry is well formed (R23), and its output stands in one of the four conditions of R29; a READ entry stays
unwritten. -/
structure PlanEntry.Sound (e : PlanEntry) : Prop where
  target  : isStationAddress e.target = true
  lengths : lengthsAgree e.operation e.outLength e.inLength = true
  pending : e.pendingOutput = [] ∨ e.pendingOutput.length = e.outLength
  latched : e.latchedOutput = [] ∨ e.latchedOutput.length = e.outLength
  flag    : if e.writtenSinceLatch then e.pendingOutput ≠ [] else e.latchedOutput = e.pendingOutput
  read    : e.operation = .read → e.pendingOutput = [] ∧ e.latchedOutput = []

/-- The plan within the three limits of R24, every entry sound. -/
structure PlanSound (plan : List PlanEntry) : Prop where
  count   : plan.length ≤ planEntries
  outs    : outSum plan ≤ planBytes
  ins     : inSum plan ≤ planBytes
  entries : ∀ e ∈ plan, e.Sound

/-! ### Cycle Engine -/

/-- The engine's state, hold reason, timer, walk and budget agree, for a plan of a number of entries (R41, R42, R45,
R51, R53, R54, R55). -/
structure CycleEngine.Sound (c : CycleEngine) (entries : Nat) : Prop where
  hold      : c.holdReason = .none ↔ c.state ≠ .held
  timer     : c.periodTimer.isSome = true ↔ c.config.mode = .timed ∧ c.state ≠ .stopped
  pointer   : c.pointer = c.outcomes.length
  between   : c.inCycle = false → c.outcomes = []
  awaiting  : c.awaiting ≠ none → c.state = .running ∧ c.pointer < entries
  settled   : c.outcomes.length ≤ entries
  closing   : c.state = .closing → c.outcomes.length = entries
  stopAtEnd : c.stopAtEnd = true → c.state ≠ .stopped
  budget    : c.inCycle = true → c.interleaved ≤ c.config.budget
  restarts  : c.restarts ≤ c.interleaved

/-- The Cycle Engine is sound for the plan it walks. -/
def State.CycleSound (s : State) : Prop := s.cycle.Sound s.plan.length

/-! ### Delivery Store -/

/-- The list is the sent region followed by the unsent region (R133, R143), its sequences end just before the counter
and are consecutive modulo 65 536 (R135), and the credits are at most 255 (R144). -/
structure Store.Sound (st : Store) : Prop where
  regions   : st.records.map Record.isUnsent =
    List.replicate st.sentCount false ++ List.replicate st.unsentCount true
  sequences : ∀ i r, st.records[i]? = some r →
    r.sequence + BitVec.ofNat 16 (st.records.length - i) = st.nextSequence
  credits   : st.credits ≤ 255

/-- The store within its capacity of 4096 bytes and 32 records (R133), its reservations those its owners hold. -/
structure Store.Holds (st : Store) (held : List Reservation) : Prop where
  bytes   : st.committedBytes + st.reservedBytes ≤ storeBytes
  records : st.records.length + st.reservations.length ≤ storeRecords
  owners  : st.reservations.Perm held

/-! ### Urgent Queue -/

/-- The requests in flight and queued, oldest first (R71). -/
def UrgentQueue.all (q : UrgentQueue) : List UrgentRequest := q.inFlight.toList ++ q.queue

/-- At most 6 requests queued, no tag twice, the one in flight included (R71), each within the lengths of R72. -/
structure UrgentQueue.Sound (q : UrgentQueue) : Prop where
  places : q.queue.length ≤ urgentPlaces
  tags   : (q.all.map (fun r => r.tag)).Nodup
  sizes  : ∀ r ∈ q.all, r.outData.length ≤ 32 ∧ r.inLength ≤ 32

/-! ### The owners of the store's room -/

/-- The reservations the owners hold: the cycle's in RUNNING and CLOSING, of the size R47 gives, and one for each urgent
request, queued or in flight, of the size R73 gives (R76, R137). -/
def State.reservationsHeld (s : State) : List Reservation :=
  (if s.cycle.inCycle then [⟨.cycle, 14 + 3 * s.plan.length + inSum s.plan⟩] else []) ++
    s.urgent.all.map (fun r => ⟨.urgent r.tag, 8 + r.inLength⟩)

/-- The circulation in flight answers to its owner: a CALL keeps within the lengths of R3; a CALL of the cycle calls for
the in length of the awaiting entry, one of the Urgent Queue for that of the request in flight; and a WINDOW has its
window record (R120). An owner that no longer waits for the outcome is bound to nothing (R62). -/
structure State.InFlight (s : State) (c : Circulation) : Prop where
  lengths : ∀ b, c.frame = .call b → b.outData.length ≤ 32 ∧ b.capacity ≤ 32
  cycle   : c.requester = .cycle → s.cycle.awaiting ≠ none → ∀ e, s.plan[s.cycle.pointer]? = some e →
    ∃ b, c.frame = .call b ∧ b.capacity = e.inLength
  urgent  : c.requester = .urgent → ∀ r, s.urgent.inFlight = some r →
    ∃ b, c.frame = .call b ∧ b.capacity = r.inLength
  window  : c.requester = .window → s.window.record ≠ none

/-- The data of every outcome of the walk fits the in length of its entry (R52). -/
def OutcomesFit (outcomes : List EntryOutcome) (plan : List PlanEntry) : Prop :=
  ∀ (i : Nat) (o : EntryOutcome) (e : PlanEntry), outcomes[i]? = some o → plan[i]? = some e →
    o.data.length ≤ e.inLength

/-- The store keeps its capacity and the reservations of its owners (R133, R137), the Urgent Queue its places and tags
(R71), and what the owners will commit fits what they reserved (R138). -/
structure State.RoomSound (s : State) : Prop where
  store    : s.store.Holds s.reservationsHeld
  urgent   : s.urgent.Sound
  outcomes : OutcomesFit s.cycle.outcomes s.plan
  flight   : ∀ c, s.port.record = some c → s.InFlight c

/-! ### Report Window Unit -/

/-- The owed list: at most 24 pairs, one for each address, of sequences 0 to 7 (R119). -/
structure OwedSound (owed : List AckPair) : Prop where
  size      : owed.length ≤ 24
  addresses : (owed.map (fun p => p.address)).Nodup
  sequences : ∀ p ∈ owed, p.sequence.toNat ≤ 7

end Sys2Proof.Machine
end

