-- ==== Sys2Proof/Certificates/Slice0/Obligations.lean ====
section
/-!
DEFINITION. The statements about the LQ24. `s.ready` is the state in which an arriving request is taken at once (R160);
`s.arrived` is that state with the message counted and the receiver in HUNT (R154, R158); `t.accepting tag payload` and
`s.refusing tag reason` end the event with the reply (R162, R163). A record update names everything a command changes,
so what it leaves as it was is part of the statement.
-/

open Sys2Proof Sys2Proof.Machine Host

/-! ### The queue of commands -/

/-- A step takes the command at the front of the queue, with the queue's rest; with an empty queue the part idles
(log 4, the model's choice). -/
def Obligations.StepTakesTheFrontCommand : Prop :=
  (∀ (c : Instr) (s : State), step { s with pending := c :: s.pending } = exec c s) ∧
  ∀ s : State, s.pending = [] → step s = .next s

/-- Every command answers a next state, leaves the queue alone, and leaves RESET_N alone unless it is its edge. That no
command ends in a fault or a refusal is the model's reading (log 19); that the queue of commands is none of the part's
state, a reset's included, is its choice (logs 20 and 21). -/
def Obligations.EveryCommandCompletes : Prop :=
  ∀ (c : Instr) (s : State), ∃ t, exec c s = .next t ∧ t.pending = s.pending ∧
    (c ≠ .hardReset → (∀ a b l, c ≠ .hardResetRelease a b l) → t.resetAsserted = s.resetAsserted)

/-! ### Resets -/

/-- The part with every block at the values the spec gives for a hard and for a soft reset (heldMark, releasedInEvent
and pending are the model's own), for a level of RESET_N and of RXD, a rate code and a message on TXD. -/
def atReset (asserted : Bool) (rxd : LineLevel) (rate : BitVec 2) (tx : Option TxMessage) (pending : List Instr) :
    State where
  resetAsserted := asserted
  link :=
    { receiver := .hunt, retained := [], gapTimer := false, rxd := rxd, inbox := [], replies := []
      announcements := [], tx := tx, softResetPending := false, rateCode := rate
      counters := ⟨0#16, 0#16, 0#16, 0#16, 0#16, 0#16, 0#16⟩ }
  port :=
    { state := .disabled, record := none, tagCounter := 0#8, returnTimer := none
      counters := ⟨0#16, 0#16, 0#16, 0#16, 0#16, 0#16⟩ }
  supervisor :=
    { state := .off, config := ⟨.r10, 500#16, 2, 3, 100#16⟩, probeTimer := none, censusPending := false }
  table := []
  plan := []
  cycle :=
    { config := ⟨.timed, 10000#32, .resume, 2, true, .skip⟩
      state := .stopped, holdReason := .none, cycleNumber := 0#32, pointer := 0, outcomes := [], awaiting := none
      restarts := 0, interleaved := 0, windowDone := false, windowFailed := false, reportsAccepted := 0
      reportsDeferred := 0, lateMark := false, heldMark := false, lateFlag := false, overrunReported := false
      stopAtEnd := false, periodTimer := none, counters := ⟨0#16, 0#16, 0#16, 0#16, 0#16⟩ }
  urgent := { queue := [], inFlight := none }
  window :=
    { owed := [], hostPending := false, record := none, counters := ⟨0#16, 0#16, 0#16, 0#16, 0#16⟩ }
  store :=
    { records := [], reservations := [], credits := 0, nextSequence := 0#16, lostEvents := 0#16
      releasedInEvent := false }
  notices := { cycle := [], urgent := [], window := [], arbiter := [], space := 0 }
  pending := pending

/-- State.reset holds the values the spec gives for a hard reset, with the slot free, ATTN deasserted and idle fill on
RING_OUT; the straps, the level of RXD and STARTED on TXD are the model's choice (log 1). -/
def Obligations.ResetValues : Prop :=
  State.reset = atReset false .idle 0#2 (some (.announcement (.started .hard 0#2))) [] ∧
  State.reset.slot = none ∧ State.reset.attn = false ∧ State.reset.ringOut = .idleFill .r10

/-- RESET_N asserted returns every block to its hard-reset values, with TXD idle and ATTN deasserted; until its release
no other command changes anything (R169). That the rate code and the level of RXD are kept is the model's reading
(log 21), and that reports and notices not yet taken are dropped its choice (log 31). -/
def Obligations.HardResetHoldsEveryBlock : Prop :=
  (∀ s : State, exec .hardReset s = .next (atReset true s.link.rxd s.link.rateCode none s.pending)) ∧
  (∀ s : State, (hardReset s).txd = .idle ∧ (hardReset s).attn = false) ∧
  ∀ (c : Instr) (s : State), (∀ a b l, c ≠ .hardResetRelease a b l) →
    exec c (hardReset s) = .next (hardReset s)

/-- The release of RESET_N samples the straps and sends STARTED with cause HARD, the receiver in HUNT (R152, R169). That
the release of a pin that is not asserted changes nothing is the model's reading (log 3). -/
def Obligations.ReleaseSendsStarted : Prop :=
  (∀ (rate1 rate0 : Bool) (rxd : LineLevel) (s : State),
    let rate := BitVec.ofBool rate1 ++ BitVec.ofBool rate0
    exec (.hardResetRelease rate1 rate0 rxd) (hardReset s) = .next
      (atReset false rxd rate (some (.announcement (.started .hard rate))) s.pending)) ∧
  (∀ s : State, s.pending = [] →
    exec (.hardResetRelease false false .idle) (hardReset s) = .next State.reset) ∧
  ∀ (rate1 rate0 : Bool) (rxd : LineLevel) (s : State), s.resetAsserted = false →
    exec (.hardResetRelease rate1 rate0 rxd) s = .next s

/-- RESET is accepted and makes a soft reset pending; it takes place when the reply has been sent, and STARTED with
cause SOFT is then on TXD (R168). That it drops the reports and notices not yet taken is the model's choice (log 31), and
that it changes no pin its reading (log 21). -/
def Obligations.ResetRequestAndSoftReset : Prop :=
  (∀ (tag : Byte) (s : State), s.ready = true →
    exec (.reset tag) s = .next (finish (placeReply ⟨tag, none, [], .handlerReset⟩
      { s.arrived with link := { s.arrived.link with softResetPending := true } }))) ∧
  ∀ (m : TxMessage) (s : State), s.link.tx = some m → m.isResetReply = true → s.link.softResetPending = true →
    exec .transmissionEnd s = .next
      (atReset s.resetAsserted s.link.rxd s.link.rateCode
        (some (.announcement (.started .soft s.link.rateCode))) s.pending)

/-! ### Requests to the Ring Supervisor -/

/-- CONFIGURE_RING replaces the five items in OFF, when every item is in its range (R104). CONFIGURE_CYCLE replaces the
six items in STOPPED after the range tests; FREE with a budget of 0 is out of range (R40). -/
def Obligations.ConfigurationsAreReplaced : Prop :=
  (∀ (tag rate : Byte) (timeout : Half) (retry miss : Byte) (probe : Half) (s : State), s.ready = true →
    (s.supervisor.state ≠ .off →
      exec (.configureRing tag rate timeout retry miss probe) s = .next (s.refusing tag .badState)) ∧
    (s.supervisor.state = .off →
      ¬(rate.toNat ≤ 3 ∧ (20 ≤ timeout.toNat ∧ timeout.toNat ≤ 5000) ∧ retry.toNat ≤ 3 ∧
        (1 ≤ miss.toNat ∧ miss.toNat ≤ 7) ∧ 10 ≤ probe.toNat ∧ probe.toNat ≤ 1000) →
      exec (.configureRing tag rate timeout retry miss probe) s = .next (s.refusing tag .range)) ∧
    ∀ r, s.supervisor.state = .off → bitRateOfCode rate = some r →
      (20 ≤ timeout.toNat ∧ timeout.toNat ≤ 5000) ∧ retry.toNat ≤ 3 ∧
        (1 ≤ miss.toNat ∧ miss.toNat ≤ 7) ∧ 10 ≤ probe.toNat ∧ probe.toNat ≤ 1000 →
      exec (.configureRing tag rate timeout retry miss probe) s = .next (State.accepting
        { s.arrived with supervisor :=
          { s.supervisor with config := ⟨r, timeout, retry.toNat, miss.toNat, probe⟩ } } tag [])) ∧
  ∀ (tag mode : Byte) (period : Word) (policy budget window overrun : Byte) (s : State), s.ready = true →
    (s.cycle.state ≠ .stopped →
      exec (.configureCycle tag mode period policy budget window overrun) s =
        .next (s.refusing tag .badState)) ∧
    (s.cycle.state = .stopped →
      ¬(mode.toNat ≤ 2 ∧ (500 ≤ period.toNat ∧ period.toNat ≤ 1000000 ∧ 50 ∣ period.toNat) ∧
        policy.toNat ≤ 1 ∧ budget.toNat ≤ 15 ∧ window.toNat ≤ 1 ∧ overrun.toNat ≤ 1 ∧
        ¬(mode = 1#8 ∧ budget = 0#8)) →
      exec (.configureCycle tag mode period policy budget window overrun) s = .next (s.refusing tag .range)) ∧
    ∀ m p o, s.cycle.state = .stopped → modeOfCode mode = some m → policyOfCode policy = some p →
      overrunOfCode overrun = some o → window.toNat ≤ 1 →
      (500 ≤ period.toNat ∧ period.toNat ≤ 1000000 ∧ 50 ∣ period.toNat) → budget.toNat ≤ 15 →
      ¬(m = .free ∧ budget = 0#8) →
      exec (.configureCycle tag mode period policy budget window overrun) s = .next (State.accepting
        { s.arrived with cycle :=
          { s.cycle with config := ⟨m, period, p, budget.toNat, window == 1#8, o⟩ } } tag [])

/-- The circulation of a census as its first attempt leaves the port (R9, R11, R69). -/
def censusStarted (s : State) : RingPort :=
  { s.port with
    state := .sending
    record := some ⟨.census, .census, 1, s.supervisor.config.retryLimit, some s.port.tagCounter⟩
    tagCounter := s.port.tagCounter + 1#8
    returnTimer := none
    counters := { s.port.counters with attemptsStarted := satInc s.port.counters.attemptsStarted } }

/-- A ring state report added to the reports waiting at the blocks named (R117). -/
def reported (n : Notices) (r : RingState) (arbiter : Bool) : Notices :=
  { n with
    cycle := n.cycle ++ [r], urgent := n.urgent ++ [r], window := n.window ++ [r]
    arbiter := if arbiter then n.arbiter ++ [r] else n.arbiter }

/-- START_RING takes OFF or FAULT to PROBING with its RING_STATE event, and the census goes out in the same event
(R107, R116); the arbiter's report is taken there (log 6). In the other states it is refused with BAD_STATE. -/
def Obligations.StartRingProbesTheRing : Prop :=
  ∀ (tag : Byte) (s : State), s.ready = true →
    ((s.supervisor.state = .probing ∨ s.supervisor.state = .up ∨ s.supervisor.state = .down) →
      exec (.startRing tag) s = .next (s.refusing tag .badState)) ∧
    (s.supervisor.state = .off ∨ s.supervisor.state = .fault → s.port.record = none →
      exec (.startRing tag) s = .next (State.accepting
        { s.arrived with
          supervisor := { s.supervisor with state := .probing, probeTimer := none, censusPending := false }
          port := censusStarted s
          store := s.store.commitEvent
            (.ringState s.supervisor.state .probing .hostStart (presentCount s.table) 0#8)
          notices := reported s.notices .probing false } tag []))

/-- STOP_RING takes every state but OFF to OFF: the circulation abandoned, the port DISABLED, the probe timer stopped,
census-pending cleared, RING_STATE committed and every block reported to (R115, R20). -/
def Obligations.StopRingEndsTheRing : Prop :=
  ∀ (tag : Byte) (s : State), s.ready = true →
    (s.supervisor.state = .off → exec (.stopRing tag) s = .next (s.refusing tag .badState)) ∧
    (s.supervisor.state ≠ .off →
      exec (.stopRing tag) s = .next (State.accepting
        { s.arrived with
          supervisor := { s.supervisor with state := .off, probeTimer := none, censusPending := false }
          port := { s.port with state := .disabled, record := none, returnTimer := none }
          store := s.store.commitEvent
            (.ringState s.supervisor.state .off .hostStop (presentCount s.table) 0#8)
          notices := reported s.notices .off true } tag []))

/-- CENSUS in UP: claimed at once with the slot free, else pending until a later boundary; refused out of UP
(R114, R69). -/
def Obligations.CensusOnRequest : Prop :=
  ∀ (tag : Byte) (s : State), s.ready = true →
    (s.supervisor.state ≠ .up → exec (.census tag) s = .next (s.refusing tag .badState)) ∧
    (s.supervisor.state = .up → s.port.record = none →
      exec (.census tag) s = .next (State.accepting
        { s.arrived with
          supervisor := { s.supervisor with censusPending := false }
          port := censusStarted s } tag [])) ∧
    (s.supervisor.state = .up → s.port.record ≠ none →
      exec (.census tag) s = .next (State.accepting
        { s.arrived with supervisor := { s.supervisor with censusPending := true } } tag []))

/-! ### Requests to Plan Memory -/

/-- CLEAR_PLAN empties the plan in STOPPED and is refused with BAD_STATE in every other state (R26). ADD_ENTRY tests the
state, the form and the limits in this order, and appends the entry with the index it had (R23, R24, R25). -/
def Obligations.ClearPlanAndAddEntry : Prop :=
  (∀ (tag : Byte) (s : State), s.ready = true →
    (s.cycle.state = .stopped →
      exec (.clearPlan tag) s = .next (State.accepting { s.arrived with plan := [] } tag [])) ∧
    (s.cycle.state ≠ .stopped → exec (.clearPlan tag) s = .next (s.refusing tag .badState))) ∧
  ∀ (tag target op object outLength inLength : Byte) (s : State), s.ready = true →
    (s.cycle.state ≠ .stopped →
      exec (.addEntry tag target op object outLength inLength) s = .next (s.refusing tag .badState)) ∧
    (s.cycle.state = .stopped → operationOfCode op = none →
      exec (.addEntry tag target op object outLength inLength) s = .next (s.refusing tag .range)) ∧
    (∀ o, s.cycle.state = .stopped → operationOfCode op = some o →
      (target = 0#8 ∨ target = 255#8 ∨ lengthsAgree o outLength.toNat inLength.toNat = false) →
      exec (.addEntry tag target op object outLength inLength) s = .next (s.refusing tag .range)) ∧
    ∀ o, s.cycle.state = .stopped → operationOfCode op = some o → target ≠ 0#8 → target ≠ 255#8 →
      lengthsAgree o outLength.toNat inLength.toNat = true →
      ((64 ≤ s.plan.length ∨ 1024 < outSum s.plan + outLength.toNat ∨ 1024 < inSum s.plan + inLength.toNat) →
        exec (.addEntry tag target op object outLength inLength) s = .next (s.refusing tag .noSpace)) ∧
      (s.plan.length < 64 → outSum s.plan + outLength.toNat ≤ 1024 → inSum s.plan + inLength.toNat ≤ 1024 →
        exec (.addEntry tag target op object outLength inLength) s = .next (State.accepting
          { s.arrived with plan := s.plan ++
            [{ target := target, operation := o, object := object, outLength := outLength.toNat,
               inLength := inLength.toNat, pendingEnable := true, latchedEnable := false, pendingOutput := [],
               latchedOutput := [], writtenSinceLatch := false,
               lastGoodData := List.replicate inLength.toNat 0#8, lastGoodCycle := 0#32,
               lastGoodValid := false }] }
          tag [natByte s.plan.length]))

/-- SET_ENABLE in any cycle state: the index, then the setting, then the pending enable alone (R31). WRITE_OUTPUT: the
index, the operation and the length in order, then the pending output and its flag, the latched output untouched (R30).
READ_INPUT reports the last-good input whole and changes nothing (R39). -/
def Obligations.EntriesAreEnabledWrittenAndRead : Prop :=
  (∀ (tag index setting : Byte) (s : State), s.ready = true →
    (s.plan[index.toNat]? = none →
      exec (.setEnable tag index setting) s = .next (s.refusing tag .noSuchEntry)) ∧
    ∀ e, s.plan[index.toNat]? = some e →
      (setting ≠ 0#8 → setting ≠ 1#8 →
        exec (.setEnable tag index setting) s = .next (s.refusing tag .range)) ∧
      ∀ b : Bool, setting = (if b then 1#8 else 0#8) →
        exec (.setEnable tag index setting) s = .next (State.accepting
          { s.arrived with plan := s.plan.set index.toNat { e with pendingEnable := b } } tag [])) ∧
  (∀ (tag index : Byte) (data : List Byte) (s : State), s.ready = true →
    (32 < data.length → exec (.writeOutput tag index data) s = .next (s.refusing tag .badLength)) ∧
    (data.length ≤ 32 →
      (s.plan[index.toNat]? = none →
        exec (.writeOutput tag index data) s = .next (s.refusing tag .noSuchEntry)) ∧
      ∀ e, s.plan[index.toNat]? = some e →
        (e.operation = .read → exec (.writeOutput tag index data) s = .next (s.refusing tag .range)) ∧
        (e.operation ≠ .read → data.length ≠ e.outLength →
          exec (.writeOutput tag index data) s = .next (s.refusing tag .lengthMismatch)) ∧
        (e.operation ≠ .read → data.length = e.outLength →
          exec (.writeOutput tag index data) s = .next (State.accepting
            { s.arrived with plan :=
              (s.plan.set index.toNat { e with pendingOutput := data, writtenSinceLatch := true }) } tag [])))) ∧
  ∀ (tag index : Byte) (s : State), s.ready = true →
    (s.plan[index.toNat]? = none →
      exec (.readInput tag index) s = .next (s.refusing tag .noSuchEntry)) ∧
    ∀ e, s.plan[index.toNat]? = some e →
      (e.inLength = 0 → exec (.readInput tag index) s = .next (s.refusing tag .range)) ∧
      (e.inLength ≠ 0 →
        exec (.readInput tag index) s = .next (State.accepting s.arrived tag
          ((if e.lastGoodValid then 1#8 else 0#8) :: wordBytes e.lastGoodCycle ++ e.lastGoodData)))

/-! ### Requests to the Cycle Engine -/

/-- The engine with START_CYCLE accepted (R43). -/
def armed (s : State) : CycleEngine :=
  { s.cycle with
    state := .armed, lateFlag := false, stopAtEnd := false
    periodTimer := if s.cycle.config.mode = .timed then some s.cycle.config.period else none }

/-- A cycle started: the number advanced, the walk, the window result and the marks cleared, RUNNING (R48). -/
def started (c : CycleEngine) (late : Bool) : CycleEngine :=
  { c with
    cycleNumber := c.cycleNumber + 1#32
    pointer := 0, outcomes := [], awaiting := none, restarts := 0, interleaved := 0
    windowDone := false, windowFailed := false, reportsAccepted := 0, reportsDeferred := 0
    overrunReported := false, lateMark := late, heldMark := false
    state := .running, holdReason := .none }

/-- START_CYCLE: refused out of STOPPED and on an empty plan; ARMED in TRIGGERED mode; in TIMED and FREE modes one start
attempt, HELD on RING, HELD on SPACE, or a cycle started with its reservation and its latch (R43, R46, R47, R48).
TRIGGER_CYCLE: accepted in ARMED with the mode TRIGGERED, where it makes one such attempt; refused with BAD_STATE
everywhere else (R44). -/
def Obligations.CyclesStartOnRequest : Prop :=
  (∀ (tag : Byte) (s : State), s.ready = true →
    (s.cycle.state ≠ .stopped → exec (.startCycle tag) s = .next (s.refusing tag .badState)) ∧
    (s.cycle.state = .stopped → s.plan = [] →
      exec (.startCycle tag) s = .next (s.refusing tag .noSuchEntry)) ∧
    (s.cycle.state = .stopped → s.plan ≠ [] →
      (s.cycle.config.mode = .triggered →
        exec (.startCycle tag) s = .next (State.accepting { s.arrived with cycle := armed s } tag [])) ∧
      (s.cycle.config.mode ≠ .triggered →
        (s.supervisor.state ≠ .up →
          exec (.startCycle tag) s = .next (State.accepting
            { s.arrived with cycle :=
              { armed s with state := .held, holdReason := .ring, heldMark := false } } tag [])) ∧
        (s.supervisor.state = .up → s.store.reserve .cycle (14 + 3 * s.plan.length + inSum s.plan) = none →
          exec (.startCycle tag) s = .next (State.accepting
            { s.arrived with cycle :=
              { armed s with state := .held, holdReason := .space, heldMark := false } } tag [])) ∧
        (∀ st, s.supervisor.state = .up →
          s.store.reserve .cycle (14 + 3 * s.plan.length + inSum s.plan) = some st →
          exec (.startCycle tag) s = .next (State.accepting
            (boundary { s.arrived with
              store := st, plan := s.plan.map PlanEntry.latch, cycle := started (armed s) false }) tag []))))) ∧
  ∀ (tag : Byte) (s : State), s.ready = true →
    (s.cycle.state ≠ .armed ∨ s.cycle.config.mode ≠ .triggered →
      exec (.triggerCycle tag) s = .next (s.refusing tag .badState)) ∧
    (s.cycle.state = .armed → s.cycle.config.mode = .triggered →
      (s.supervisor.state ≠ .up →
        exec (.triggerCycle tag) s = .next (State.accepting
          { s.arrived with cycle := { s.cycle with state := .held, holdReason := .ring, heldMark := false } }
          tag [])) ∧
      (s.supervisor.state = .up → s.store.reserve .cycle (14 + 3 * s.plan.length + inSum s.plan) = none →
        exec (.triggerCycle tag) s = .next (State.accepting
          { s.arrived with cycle := { s.cycle with state := .held, holdReason := .space, heldMark := false } }
          tag [])) ∧
      ∀ st, s.supervisor.state = .up →
        s.store.reserve .cycle (14 + 3 * s.plan.length + inSum s.plan) = some st →
        exec (.triggerCycle tag) s = .next (State.accepting
          (boundary { s.arrived with
            store := st, plan := s.plan.map PlanEntry.latch, cycle := started s.cycle false }) tag []))

/-- The engine stopped at once (R57, R61, R63). -/
def stopped (c : CycleEngine) : CycleEngine :=
  { c with
    state := .stopped, holdReason := .none, heldMark := false, lateFlag := false, stopAtEnd := false
    periodTimer := none }

/-- STOP_CYCLE by its choice and the cycle state (R63): STOPPED at once with CYCLE_STOPPED, the cycle abandoned with
CYCLE_ABANDONED then CYCLE_STOPPED (R61), or stop-at-end set. -/
def Obligations.StopCycleByStateAndChoice : Prop :=
  ∀ (tag choice : Byte) (s : State), s.ready = true →
    (choice ≠ 0#8 → choice ≠ 1#8 → exec (.stopCycle tag choice) s = .next (s.refusing tag .range)) ∧
    (choice = 0#8 ∨ choice = 1#8 →
      (s.cycle.state = .stopped → exec (.stopCycle tag choice) s = .next (s.refusing tag .badState)) ∧
      (s.cycle.state = .armed ∨ s.cycle.state = .held →
        exec (.stopCycle tag choice) s = .next (State.accepting
          { s.arrived with
            cycle := stopped s.cycle
            store := s.store.commitEvent (.cycleStopped s.cycle.cycleNumber) } tag []))) ∧
    (choice = 1#8 → s.cycle.state = .running ∨ s.cycle.state = .closing →
      exec (.stopCycle tag choice) s = .next (State.accepting
        { s.arrived with cycle := { s.cycle with stopAtEnd := true } } tag [])) ∧
    (choice = 0#8 → s.cycle.state = .running ∨ s.cycle.state = .closing →
      exec (.stopCycle tag choice) s = .next (State.accepting
        (boundary { s.arrived with
          store := ((s.store.release .cycle).commitEvent
            (.cycleAbandoned s.cycle.cycleNumber .stopped s.cycle.outcomes.length)).commitEvent
            (.cycleStopped s.cycle.cycleNumber)
          cycle := stopped
            { s.cycle with
              outcomes := [], pointer := 0, awaiting := none
              counters := { s.cycle.counters with abandoned := satInc s.cycle.counters.abandoned } } }) tag []))

/-! ### Requests to the Urgent Queue and the Report Window Unit -/

/-- URGENT passes its form check and six tests in order; then its reservation is held, the request joins the tail with
its deadline timer, and the arbiter has notice (R72, R73, R74, R161). -/
def Obligations.UrgentPassesSixTests : Prop :=
  ∀ (tag station op object inLength retry : Byte) (deadline : Half) (outData : List Byte) (s : State),
    s.ready = true →
    let i := Instr.urgent tag station op object inLength retry deadline outData
    (32 < outData.length → exec i s = .next (s.refusing tag .badLength)) ∧
    (outData.length ≤ 32 →
      let off := s.supervisor.state = .off ∨ s.supervisor.state = .fault
      let full := 6 ≤ s.urgent.queue.length
      let used := ∃ r, (r ∈ s.urgent.queue ∨ s.urgent.inFlight = some r) ∧ r.tag = tag
      let unknown := callableForUrgent s.table station = false
      (off → exec i s = .next (s.refusing tag .ringOff)) ∧
      (¬off → full → exec i s = .next (s.refusing tag .queueFull)) ∧
      (¬off → ¬full → used → exec i s = .next (s.refusing tag .tagInUse)) ∧
      (¬off → ¬full → ¬used → unknown → exec i s = .next (s.refusing tag .unknownStation)) ∧
      (¬off → ¬full → ¬used → ¬unknown →
        (operationOfCode op = none ∨ 1 < retry.toNat ∨ 60000 < deadline.toNat →
          exec i s = .next (s.refusing tag .range)) ∧
        ∀ o, operationOfCode op = some o → retry.toNat ≤ 1 → deadline.toNat ≤ 60000 →
          (lengthsAgree o outData.length inLength.toNat = false → exec i s = .next (s.refusing tag .range)) ∧
          (lengthsAgree o outData.length inLength.toNat = true →
            (s.store.reserve (.urgent tag) (8 + inLength.toNat) = none →
              exec i s = .next (s.refusing tag .noSpace)) ∧
            ∀ st, s.store.reserve (.urgent tag) (8 + inLength.toNat) = some st →
              exec i s = .next (State.accepting
                (boundary { s.arrived with
                  store := st
                  urgent := ⟨s.urgent.queue ++
                    [⟨tag, station, o, object, outData, inLength.toNat, retry == 1#8, deadline,
                      deadline != 0#16⟩], s.urgent.inFlight⟩ }) tag []))))

/-- CANCEL removes a queued request with its reservation, answers IN_FLIGHT for the request in flight, and NOT_FOUND
for any other tag (R82); the arbiter has notice when the head was removed. -/
def Obligations.CancelByWhereTheTagStands : Prop :=
  ∀ (tag named : Byte) (s : State), s.ready = true →
    (∀ r, queuedWith s.urgent named = some r →
      exec (.cancel tag named) s = .next (State.accepting
        (boundaryIf (s.urgent.isHead named)
          { s.arrived with
            urgent := ⟨s.urgent.queue.eraseP (fun r => r.tag == named), s.urgent.inFlight⟩
            store := s.store.release (.urgent named) }) tag [])) ∧
    (queuedWith s.urgent named = none → ∀ r, s.urgent.inFlight = some r → r.tag = named →
      exec (.cancel tag named) s = .next (s.refusing tag .inFlight)) ∧
    (queuedWith s.urgent named = none → (∀ r, s.urgent.inFlight = some r → r.tag ≠ named) →
      exec (.cancel tag named) s = .next (s.refusing tag .notFound))

/-- OPEN_WINDOW passes four tests in order and sets host-window-pending, with notice to the arbiter (R122). -/
def Obligations.OpenWindowSetsHostWindowPending : Prop :=
  ∀ (tag : Byte) (s : State), s.ready = true →
    (s.supervisor.state = .off ∨ s.supervisor.state = .fault →
      exec (.openWindow tag) s = .next (s.refusing tag .ringOff)) ∧
    (s.supervisor.state = .probing ∨ s.supervisor.state = .down →
      exec (.openWindow tag) s = .next (s.refusing tag .badState)) ∧
    (s.supervisor.state = .up →
      (s.window.hostPending = true ∨ s.cycle.state = .held ∨ s.cycle.state = .running ∨
          s.cycle.state = .closing →
        exec (.openWindow tag) s = .next (s.refusing tag .badState)) ∧
      (s.window.hostPending = false → s.cycle.state = .stopped ∨ s.cycle.state = .armed →
        exec (.openWindow tag) s = .next (State.accepting
          (boundary { s.arrived with window := { s.window with hostPending := true } }) tag [])))

/-! ### Requests to the Delivery Store -/

/-- The sent-unacknowledged record with a sequence stands at a place of the list, and no such record before it. -/
def sentAt (s : State) (q : Half) (place : Nat) : Prop :=
  (∃ r, s.store.records[place]? = some r ∧ r.sequence = q ∧ r.region = .sentUnacknowledged) ∧
  ∀ i r, i < place → s.store.records[i]? = some r → ¬(r.sequence = q ∧ r.region = .sentUnacknowledged)

/-- No sent-unacknowledged record carries a sequence. -/
def notSent (s : State) (q : Half) : Prop :=
  ∀ r ∈ s.store.records, ¬(r.sequence = q ∧ r.region = .sentUnacknowledged)

/-- GRANT adds credits up to 255 and replies with the count; 0 is refused with RANGE (R144). ACK_DELIVERIES releases the
record named and every older one, and replies with their number (R145). REWIND makes the record named and every younger
sent record unsent again and replies with their number (R146). The last two refuse with RANGE a sequence that no
sent-unacknowledged record carries. -/
def Obligations.CreditsAcknowledgementsAndRewinds : Prop :=
  (∀ (tag n : Byte) (s : State), s.ready = true →
    (n = 0#8 → exec (.grant tag n) s = .next (s.refusing tag .range)) ∧
    (n ≠ 0#8 →
      exec (.grant tag n) s = .next (State.accepting
        { s.arrived with store := { s.store with credits := min 255 (s.store.credits + n.toNat) } }
        tag [BitVec.ofNat 8 (min 255 (s.store.credits + n.toNat))]))) ∧
  (∀ (tag : Byte) (q : Half) (s : State), s.ready = true →
    (notSent s q → exec (.ackDeliveries tag q) s = .next (s.refusing tag .range)) ∧
    ∀ place, sentAt s q place →
      exec (.ackDeliveries tag q) s = .next (State.accepting
        { s.arrived with store :=
          { s.store with records := s.store.records.drop (place + 1), releasedInEvent := true } }
        tag [BitVec.ofNat 8 (place + 1)])) ∧
  ∀ (tag : Byte) (q : Half) (s : State), s.ready = true →
    (notSent s q → exec (.rewind tag q) s = .next (s.refusing tag .range)) ∧
    ∀ place, sentAt s q place →
      exec (.rewind tag q) s = .next (State.accepting
        { s.arrived with store :=
          { s.store with records :=
            s.store.records.take place ++
              (s.store.records.drop place).map (fun r => { r with region := .unsent }) } }
        tag [BitVec.ofNat 8
          ((s.store.records.drop place).countP (fun r => r.region == .sentUnacknowledged))])

/-! ### Queries -/

/-- QUERY_STATUS replies with the 22 bytes of the items as they stand (R171, R151); QUERY_STATION with the whole entry,
or NOT_FOUND (R102); neither changes anything. QUERY_COUNTERS replies with the 23 counters in order as they stood; flag 1
then sets every one, and both counters of every station, to 0; another flag is refused with RANGE (R172, R101). -/
def Obligations.QueriesReport : Prop :=
  (∀ (tag : Byte) (s : State), s.ready = true →
    exec (.queryStatus tag) s = .next (State.accepting s.arrived tag
      ([s.supervisor.state.code, natByte (presentCount s.table), natByte (absentCount s.table),
        s.cycle.state.code, s.cycle.holdReason.code] ++ wordBytes s.cycle.cycleNumber ++
       [natByte s.plan.length, natByte s.urgent.queue.length,
        requesterByte (s.port.record.map (fun c => c.requester)), natByte s.store.credits] ++
       halfBytes (natHalf (4096 - (s.store.records.map Record.size).sum -
         (s.store.reservations.map (fun r => r.size)).sum)) ++
       [natByte (32 - s.store.records.length - s.store.reservations.length),
        natByte (s.store.records.countP Record.isUnsent),
        natByte (s.store.records.countP (fun r => !r.isUnsent))] ++
       halfBytes s.store.oldestSent ++ halfBytes s.store.lostEvents))) ∧
  (∀ (tag address : Byte) (s : State), s.ready = true →
    ((∀ e ∈ s.table, e.address ≠ address) →
      exec (.queryStation tag address) s = .next (s.refusing tag .notFound)) ∧
    ∀ e, s.table.find? (fun e => e.address == address) = some e →
      exec (.queryStation tag address) s = .next (State.accepting s.arrived tag
        ([e.address, natByte (e.position.getD 0), e.kind, e.state.code, natByte e.missCount,
          e.lastAccepted.getD 255#8] ++ halfBytes e.callsServed ++ halfBytes e.misses))) ∧
  ∀ (tag clear : Byte) (s : State), s.ready = true →
    let ring := s.port.counters
    let cycle := s.cycle.counters
    let report := s.window.counters
    let link := s.arrived.link.counters
    let values := [ring.attemptsStarted, ring.corruptReturns, ring.lostReturns, ring.strayFrames, ring.retries,
      ring.hopMismatches, cycle.completed, cycle.abandoned, cycle.overruns, cycle.skippedStarts, cycle.restarts,
      report.accepted, report.duplicates, report.refusedForSpace, report.unknownReporter, report.deferred,
      link.requestsReceived, link.checkErrors, link.gapDiscards, link.characterErrors, link.inboxFull, link.dropped,
      link.linkResets].flatMap halfBytes
    (clear ≠ 0#8 → clear ≠ 1#8 → exec (.queryCounters tag clear) s = .next (s.refusing tag .range)) ∧
    (clear = 0#8 → exec (.queryCounters tag clear) s = .next (State.accepting s.arrived tag values)) ∧
    (clear = 1#8 → exec (.queryCounters tag clear) s = .next (State.accepting
      { s.arrived with
        port := { s.port with counters := ⟨0#16, 0#16, 0#16, 0#16, 0#16, 0#16⟩ }
        cycle := { s.cycle with counters := ⟨0#16, 0#16, 0#16, 0#16, 0#16⟩ }
        window := { s.window with counters := ⟨0#16, 0#16, 0#16, 0#16, 0#16⟩ }
        link := { s.arrived.link with counters := ⟨0#16, 0#16, 0#16, 0#16, 0#16, 0#16, 0#16⟩ }
        table := s.table.map (fun e => { e with callsServed := 0#16, misses := 0#16 }) } tag values))

/-! ### The arrival of requests -/

/-- What becomes of a request on its arrival (R158, R160): decided at once; waiting in the inbox; answered INBOX_FULL;
dropped. That a request command is the arrival of its message, that it leaves RXD at idle, and that nothing changes while
nothing is received, is the model's reading (logs 2 and 14). -/
def Obligations.RequestsAreTakenInOrder : Prop :=
  ∀ (c : Instr) (type : RequestType) (tag : Byte) (payload : List Byte) (s : State),
    requestOf c = some (type, tag, payload) →
    (s.receiving = false → exec c s = .next s) ∧
    (s.ready = true → exec c s = .next (finish (answer type tag (decideRequest type tag payload s.arrived)))) ∧
    (s.receiving = true → s.link.handlerFree = false → s.link.inbox.length < 4 →
      exec c s = .next (finish { s.arrived with link :=
        { s.arrived.link with inbox := s.link.inbox ++ [type.code :: tag :: payload] } })) ∧
    (s.receiving = true → 4 ≤ s.link.inbox.length → s.link.replies.countP Reply.isInboxFull < 7 →
      exec c s = .next (finish { s.arrived with link :=
        { s.arrived.link with
          replies := s.link.replies ++ [⟨tag, some .inboxFull, [], .inboxFull⟩]
          counters :=
            { s.arrived.link.counters with inboxFull := satInc s.link.counters.inboxFull } } })) ∧
    (s.receiving = true → 4 ≤ s.link.inbox.length → 7 ≤ s.link.replies.countP Reply.isInboxFull →
      exec c s = .next (finish { s.arrived with link :=
        { s.arrived.link with
          counters := { s.arrived.link.counters with dropped := satInc s.link.counters.dropped } } }))

/-- The form checks of R161, in order: UNKNOWN_TYPE for a type that is no request's, BAD_LENGTH for a payload the table
does not allow, both with no payload and no change of state; a request that passes both goes to its owner. No request
body above 41 bytes passes. -/
def Obligations.FormChecksOfEveryRequest : Prop :=
  (∀ (code tag : Byte) (payload : List Byte) (s : State), (∀ t : RequestType, t.code ≠ code) →
    handleRequest (code :: tag :: payload) s = placeReply (refusedReply tag .unknownType) s) ∧
  (∀ (type : RequestType) (tag : Byte) (payload : List Byte) (s : State), payloadFits type payload = false →
    handleRequest (type.code :: tag :: payload) s = placeReply (refusedReply tag .badLength) s) ∧
  (∀ (type : RequestType) (tag : Byte) (payload : List Byte) (s : State), payloadFits type payload = true →
    handleRequest (type.code :: tag :: payload) s = answer type tag (decideRequest type tag payload s) ∧
    (decideRequest type tag payload s).reason ≠ some .badLength) ∧
  ∀ (type : RequestType) (tag : Byte) (payload : List Byte), payloadFits type payload = true →
    (type.code :: tag :: payload).length ≤ 41

/-! ### The host link line -/

/-- The state with RXD found at the idle level, the stop bit of the character that is taken (R157, R179, log 14). -/
def heard (s : State) : State := { s with link := { s.link with rxd := .idle } }

/-- A character on RXD (R153): a start code begins a message in HUNT, any other value is discarded there; in a message
in progress it is retained and restarts the gap timer. That a character changes nothing while nothing is received is the
model's reading (log 3), and that RXD is then at idle too (log 14). -/
def Obligations.CharactersBuildMessages : Prop :=
  ∀ (c : Byte) (s : State),
    let h := heard s
    (s.receiving = false → exec (.rxdCharacterReceived c) s = .next s) ∧
    (s.receiving = true → s.link.receiver = .hunt →
      (c = 0xA5#8 → exec (.rxdCharacterReceived c) s = .next (finish { h with link :=
        { h.link with receiver := .length, retained := [0xA5#8], gapTimer := true } })) ∧
      (c ≠ 0xA5#8 → exec (.rxdCharacterReceived c) s = .next (finish h))) ∧
    (s.receiving = true → s.link.receiver = .length → s.link.retained = [0xA5#8] →
      exec (.rxdCharacterReceived c) s = .next (finish { h with link :=
        { h.link with retained := [0xA5#8, c], gapTimer := true } })) ∧
    (∀ l1 l0 body, s.receiving = true → s.link.receiver = .body → 2 ≤ (l1 ++ l0).toNat → (l1 ++ l0).toNat ≤ 1400 →
      s.link.retained = 0xA5#8 :: l1 :: l0 :: body → body.length + 1 ≤ (l1 ++ l0).toNat →
      exec (.rxdCharacterReceived c) s = .next (finish { h with link :=
        { h.link with
          receiver := if body.length + 1 = (l1 ++ l0).toNat then .check else .body
          retained := s.link.retained ++ [c], gapTimer := true } })) ∧
    (∀ l1 l0 body, s.receiving = true → s.link.receiver = .check → 2 ≤ (l1 ++ l0).toNat → (l1 ++ l0).toNat ≤ 1400 →
      s.link.retained = 0xA5#8 :: l1 :: l0 :: body → body.length = (l1 ++ l0).toNat →
      exec (.rxdCharacterReceived c) s = .next (finish { h with link :=
        { h.link with retained := s.link.retained ++ [c], gapTimer := true } }))

/-- The state with the check-errors counter advanced (R154, R170). -/
def checkErrorCounted (s : State) : State :=
  { s with link :=
    { s.link with counters := { s.link.counters with checkErrors := satInc s.link.counters.checkErrors } } }

/-- The tests of a message (R154): at the second length byte a length outside 2..1400, and at the second check byte a
check that differs, discard the message with the check-errors counter advanced and a rescan from the byte after its
start code (R155); a length in range goes on to BODY, and a check that agrees gives a good message, taken by R158. That
RXD is at idle then is the model's reading (log 14). -/
def Obligations.MessageCompleteIsTested : Prop :=
  ∀ (c l1 : Byte) (s : State), s.receiving = true →
    let h := heard s
    (s.link.receiver = .length → s.link.retained = [0xA5#8, l1] →
      ((l1 ++ c).toNat < 2 ∨ 1400 < (l1 ++ c).toNat →
        exec (.linkMessageComplete c) s = .next (finish (rescan false 0 [l1, c] (checkErrorCounted h)))) ∧
      (2 ≤ (l1 ++ c).toNat → (l1 ++ c).toNat ≤ 1400 →
        exec (.linkMessageComplete c) s = .next (finish { h with link :=
          { h.link with receiver := .body, retained := [0xA5#8, l1, c], gapTimer := true } }))) ∧
    ∀ l0 body k1, s.link.receiver = .check → s.link.retained = 0xA5#8 :: l1 :: l0 :: body ++ [k1] →
      body.length = (l1 ++ l0).toNat → 2 ≤ body.length → body.length ≤ 1400 →
      ([k1, c] = halfBytes (crc16 (l1 :: l0 :: body)) →
        exec (.linkMessageComplete c) s = .next (finish (takeGood body { h with link :=
          { h.link with receiver := .hunt, retained := [], gapTimer := false } }))) ∧
      ([k1, c] ≠ halfBytes (crc16 (l1 :: l0 :: body)) →
        exec (.linkMessageComplete c) s = .next (finish
          (rescan false 0 (l1 :: l0 :: body ++ [k1, c]) (checkErrorCounted h))))

/-- The bytes after a start code leave a message incomplete, in a state of the receiver (R153). -/
def unfinished (bytes : List Byte) (st : RxState) : Prop :=
  (bytes.length < 2 ∧ st = .length) ∨
  ∃ l1 l0 rest, bytes = l1 :: l0 :: rest ∧ 2 ≤ (l1 ++ l0).toNat ∧ (l1 ++ l0).toNat ≤ 1400 ∧
    ((rest.length < (l1 ++ l0).toNat ∧ st = .body) ∨
      ((l1 ++ l0).toNat ≤ rest.length ∧ rest.length < (l1 ++ l0).toNat + 2 ∧ st = .check))

/-- A rescan with no start code left ends in HUNT; a start code that begins a good message has it taken and goes on
after it; one that begins a message with a bad length or a bad check is counted, and the scan goes on after it; a message
left incomplete is continued, or after a gap discarded uncounted (R155, R156). That the handler takes each good message
before the scan goes on is the model's reading (log 12). -/
def Obligations.RescanFindsMessages : Prop :=
  (∀ (gap : Bool) (bytes : List Byte) (s : State), (∀ b ∈ bytes, b ≠ 0xA5#8) →
    rescan gap 0 bytes s = { s with link :=
      { s.link with receiver := .hunt, retained := [], gapTimer := false } }) ∧
  (∀ (gap : Bool) (junk rest : List Byte) (s : State), (∀ b ∈ junk, b ≠ 0xA5#8) →
    rescan gap 0 (junk ++ rest) s = rescan gap 0 rest s) ∧
  (∀ (gap : Bool) (body rest : List Byte) (s : State), 2 ≤ body.length → body.length ≤ 1400 →
    rescan gap 0 (frameMessage body ++ rest) s = rescan gap 0 rest (takeGood body s)) ∧
  (∀ (gap : Bool) (l1 l0 : Byte) (rest : List Byte) (s : State), (l1 ++ l0).toNat < 2 ∨ 1400 < (l1 ++ l0).toNat →
    rescan gap 0 (0xA5#8 :: l1 :: l0 :: rest) s = rescan gap 0 (l1 :: l0 :: rest) (checkErrorCounted s)) ∧
  (∀ (gap : Bool) (l1 l0 k1 k0 : Byte) (body rest : List Byte) (s : State),
    body.length = (l1 ++ l0).toNat → 2 ≤ body.length → body.length ≤ 1400 →
    [k1, k0] ≠ halfBytes (crc16 (l1 :: l0 :: body)) →
    rescan gap 0 (0xA5#8 :: l1 :: l0 :: (body ++ k1 :: k0 :: rest)) s =
      rescan gap 0 (l1 :: l0 :: (body ++ k1 :: k0 :: rest)) (checkErrorCounted s)) ∧
  ∀ (rest : List Byte) (st : RxState) (s : State), unfinished rest st →
    rescan false 0 (0xA5#8 :: rest) s = { s with link :=
      { s.link with receiver := st, retained := 0xA5#8 :: rest, gapTimer := true } } ∧
    rescan true 0 (0xA5#8 :: rest) s = rescan true 0 rest s

/-- The gap timer's expiry and a character error each discard the message in progress, count it and rescan what was
retained (R156, R157, R155); in HUNT a character error is only counted. A stopped timer does not expire, and in BREAK
and under RESET_N there is no character error (log 3). -/
def Obligations.GapsAndCharacterErrorsDiscard : Prop :=
  (∀ s : State,
    (s.link.gapTimer = false → exec .gapTimerExpiry s = .next s) ∧
    ∀ b rest, s.link.gapTimer = true → s.link.retained = b :: rest →
      exec .gapTimerExpiry s = .next (finish (rescan true 0 rest { s with link :=
        { s.link with counters :=
          { s.link.counters with gapDiscards := satInc s.link.counters.gapDiscards } } }))) ∧
  ∀ s : State,
    let counted := { s with link :=
      { s.link with
        rxd := .idle
        counters := { s.link.counters with characterErrors := satInc s.link.counters.characterErrors } } }
    (s.resetAsserted = true ∨ s.link.receiver = .brk → exec .characterError s = .next s) ∧
    (s.resetAsserted = false → s.link.receiver = .hunt →
      exec .characterError s = .next (finish counted)) ∧
    ∀ b rest, s.resetAsserted = false →
      s.link.receiver = .length ∨ s.link.receiver = .body ∨ s.link.receiver = .check →
      s.link.retained = b :: rest →
      exec .characterError s = .next (finish (rescan false 0 rest counted))

/-- A break of 1 ms performs the six steps of a link reset once and touches no other block; its end returns the
receiver to HUNT (R166, R149, R165, R168). That a break under RESET_N and the end of a break out of BREAK change nothing is
the model's reading (log 3). -/
def Obligations.LinkResetRestartsTheLink : Prop :=
  (∀ s : State, s.resetAsserted = false → s.link.receiver ≠ .brk →
    exec .linkReset s = .next (finish { s with
      store :=
        { s.store with
          records := s.store.records.map (fun r => { r with region := .unsent }), credits := 0 }
      link :=
        { s.link with
          receiver := .brk, rxd := .brk, retained := [], gapTimer := false, inbox := [], replies := []
          softResetPending := s.link.softResetPending && s.link.tx.any TxMessage.isResetReply
          announcements :=
            if .linkRestarted ∈ s.link.announcements then s.link.announcements
            else s.link.announcements ++ [.linkRestarted]
          counters := { s.link.counters with linkResets := satInc s.link.counters.linkResets } } })) ∧
  (∀ s : State, s.resetAsserted = true ∨ s.link.receiver = .brk → exec .linkReset s = .next s) ∧
  (∀ s : State, s.link.receiver = .brk →
    exec .breakEnd s = .next { s with link := { s.link with receiver := .hunt, rxd := .idle } }) ∧
  ∀ s : State, s.link.receiver ≠ .brk → exec .breakEnd s = .next s

/-- The end of a transmission (R164, R160): TXD is free, and if the Request Handler is then free it takes the oldest
request of the inbox. That with nothing on TXD its end changes nothing is the model's reading (log 3), and the order
inside the event is its choice (log 11). -/
def Obligations.TransmissionEndFreesTxd : Prop :=
  (∀ s : State, s.link.tx = none → exec .transmissionEnd s = .next s) ∧
  ∀ (m : TxMessage) (s : State), s.link.tx = some m → m.isResetReply = false ∨ s.link.softResetPending = false →
    let t := { s with link := { s.link with tx := none } }
    (s.link.inbox = [] ∨ t.link.handlerFree = false → exec .transmissionEnd s = .next (finish t)) ∧
    ∀ body rest, s.link.inbox = body :: rest → t.link.handlerFree = true →
      exec .transmissionEnd s =
        .next (finish (handleRequest body { s with link := { s.link with tx := none, inbox := rest } }))

/-- Covered bytes followed by their check (R173). -/
def sealed (covered : List Byte) : List Byte := covered ++ halfBytes (crc16 covered)

/-- The end of an event: several releases of space in it give one notice (R140); then, with TXD free, the oldest
announcement goes on it, else the oldest reply, else, with a credit, the oldest unsent record, which becomes
sent-unacknowledged and uses the credit (R163, R164, R143). That the notices of several events are counted is the model's
reading (log 10). TXD carries its message framed with start code, length and check, as consecutive characters of a start
bit, 8 data bits least significant first and a stop bit, 10 bits for each byte, at the rate the rate code selects; with no
message, and while RESET_N is asserted, it is idle (R152, R164, R173). -/
def Obligations.EventsEndWithTheNoticeAndTheNextMessage : Prop :=
  (∀ s : State, s.resetAsserted = true ∨ s.link.tx = none → s.txd = .idle) ∧
  (∀ (m : TxMessage) (s : State), s.resetAsserted = false → s.link.tx = some m →
    let bytes := 0xA5#8 :: sealed (halfBytes (natHalf m.body.length) ++ m.body)
    let bits := bytes.flatMap (fun b =>
      [LineBit.start, .data (b.getLsbD 0), .data (b.getLsbD 1), .data (b.getLsbD 2), .data (b.getLsbD 3),
       .data (b.getLsbD 4), .data (b.getLsbD 5), .data (b.getLsbD 6), .data (b.getLsbD 7), .stop])
    bits.length = 10 * bytes.length ∧
    (s.link.rateCode = 0#2 → s.txd = .characters 115200 bits) ∧
    (s.link.rateCode = 1#2 → s.txd = .characters 460800 bits) ∧
    (s.link.rateCode = 2#2 → s.txd = .characters 1000000 bits) ∧
    (s.link.rateCode = 3#2 → s.txd = .characters 3000000 bits)) ∧
  ∀ s : State,
    let u := { s with
      store := { s.store with releasedInEvent := false }
      notices := { s.notices with space := if s.store.releasedInEvent then s.notices.space + 1 else s.notices.space } }
    (s.link.tx ≠ none → finish s = u) ∧
    (s.link.tx = none →
      (∀ a rest, s.link.announcements = a :: rest →
        finish s = { u with link := { s.link with announcements := rest, tx := some (.announcement a) } }) ∧
      (s.link.announcements = [] →
        (∀ r rest, s.link.replies = r :: rest →
          finish s = { u with link := { s.link with replies := rest, tx := some (.reply r) } }) ∧
        (s.link.replies = [] →
          (s.store.credits = 0 ∨ (∀ r ∈ s.store.records, r.region = .sentUnacknowledged) → finish s = u) ∧
          ∀ older r younger, s.store.credits ≠ 0 → s.store.records = older ++ r :: younger →
            (∀ x ∈ older, x.region = .sentUnacknowledged) → r.region = .unsent →
            finish s = { u with
              link := { s.link with tx := some (.delivery r) }
              store :=
                { u.store with
                  records := older ++ { r with region := .sentUnacknowledged } :: younger
                  credits := s.store.credits - 1 } })))

/-! ### The ring -/

/-- The tag counter (R10): each attempt takes its value as the attempt's tag and advances it by 1, from 255 to 0; it is
0 after a hard and a soft reset; a link reset and every change of ring state, STOP_RING's among them, leave it. -/
def Obligations.TagCounterRule : Prop :=
  (∀ (c : Circulation) (p : RingPort), (p.startAttempt c).record.map (fun c => c.tag) = some (some p.tagCounter) ∧
    (p.startAttempt c).tagCounter.toNat = (p.tagCounter.toNat + 1) % 256) ∧
  (∀ s : State, (hardReset s).port.tagCounter = 0#8 ∧ (softReset s).port.tagCounter = 0#8) ∧
  (∀ s : State, (linkReset s).port.tagCounter = s.port.tagCounter ∧
    (enterOff s).port.tagCounter = s.port.tagCounter) ∧
  ∀ (new : RingState) (cause : RingCause) (a : Byte) (s : State),
    (changeRing new cause a s).port.tagCounter = s.port.tagCounter ∧
    (enterUp s).port.tagCounter = s.port.tagCounter ∧ (enterDown cause s).port.tagCounter = s.port.tagCounter ∧
    (enterFault cause a s).port.tagCounter = s.port.tagCounter

/-- A body well formed for the frame sent, with the result it gives (R14, R17). The first form of a CALL is served with
status OK, the second with another status, the third not served. -/
def wellFormedReturn (sent : FrameBody) (body : List Byte) (res : CirculationResult) : Prop :=
  match sent with
  | .call b =>
    let echo := [b.target, b.operation.code, b.object, natByte b.outData.length] ++ b.outData ++ [natByte b.capacity]
    (∃ data, data.length = b.capacity ∧ res = .served .ok data ∧
      body = echo ++ [0x01#8, ReplyStatus.ok.code, natByte data.length] ++ data) ∨
    (∃ st, st ≠ .ok ∧ res = .served st [] ∧ body = echo ++ [0x01#8, st.code, 0x00#8]) ∨
    (∃ st : ReplyStatus, res = .missed ∧ body = echo ++ [0x00#8, st.code, 0x00#8])
  | .census => ∃ overflow entries, entries.length ≤ 24 ∧ res = .census overflow entries ∧
      body = natByte entries.length :: (if overflow then 0x01#8 else 0x00#8) :: entries.flatMap (fun e => [e.1, e.2])
  | .window acks => ∃ remaining items deferred, res = .window items deferred.toNat ∧
      (∀ r ∈ items, r.sequence.toNat ≤ 7 ∧ r.data.length ≤ 16) ∧
      remaining.toNat + (items.map (fun r => 4 + r.data.length)).sum = 96 ∧
      body = natByte acks.length :: acks.flatMap (fun p => [p.address, p.sequence]) ++
        [remaining, natByte items.length, deferred] ++
        items.flatMap (fun r => [r.address, r.sequence, r.code, natByte r.data.length] ++ r.data)

/-- A frame as it is sent keeps its lists within the lengths of the ring protocol (R3, R7). -/
def frameInRange : FrameBody → Prop
  | .call b => b.outData.length ≤ 32 ∧ b.capacity ≤ 32
  | .census => True
  | .window acks => acks.length ≤ 24

/-- A return with a good check, the current tag, the kind sent and a well-formed body is good, whatever its hop count: it
ends the circulation with the result its body gives, for a CALL, a CENSUS and a WINDOW alike (R13, R14, R17). -/
def Obligations.GoodReturnsEndTheCirculation : Prop :=
  ∀ (c : Circulation) (tag hop : Byte) (body : List Byte) (res : CirculationResult) (s : State),
    s.port.state = .awaiting → s.port.record = some c → c.tag = some tag → frameInRange c.frame →
    wellFormedReturn c.frame body res →
    exec (.ringFrameComplete (sealed (c.frame.kind :: tag :: hop :: body))) s =
      .next (finish (endCirculation c res (some hop) s))

/-- A frame with no attempt awaiting is counted corrupt or stray and discarded, and in DISABLED it is ignored (R8, R13);
an awaiting attempt is left waiting by a frame of another tag, and made CORRUPT by a bad check, and by a frame of its tag
with another kind or a body not well formed, with a retry at once while the allowance lasts (R16), else with the final
FAILED_CHECK. That a frame too short for a tag is stray is the model's choice (log 17), and so is that a CALL returned
with other out data than those sent is not well formed (R14 against R174, log 32). -/
def Obligations.ReturnsAreJudged : Prop :=
  ∀ (bytes : List Byte) (s : State),
    let corrupt := { s with port :=
      { s.port with counters :=
        { s.port.counters with corruptReturns := satInc s.port.counters.corruptReturns } } }
    let stray := { s with port :=
      { s.port with counters := { s.port.counters with strayFrames := satInc s.port.counters.strayFrames } } }
    (s.port.state = .disabled → exec (.ringFrameComplete bytes) s = .next (finish s)) ∧
    (s.port.state = .idle ∨ s.port.state = .sending →
      (goodFrame bytes = none → exec (.ringFrameComplete bytes) s = .next (finish corrupt)) ∧
      (goodFrame bytes ≠ none → exec (.ringFrameComplete bytes) s = .next (finish stray))) ∧
    ∀ c, s.port.state = .awaiting → s.port.record = some c → frameInRange c.frame →
      let judgedCorrupt := goodFrame bytes = none ∨
        ∃ kind tag rest, goodFrame bytes = some (kind :: tag :: rest) ∧ c.tag = some tag ∧
          (kind ≠ c.frame.kind ∨ ∀ hop body res, rest = hop :: body → ¬wellFormedReturn c.frame body res)
      (∀ covered, goodFrame bytes = some covered → covered[1]? ≠ c.tag →
        exec (.ringFrameComplete bytes) s = .next (finish stray)) ∧
      (judgedCorrupt → c.attempts < 1 + c.allowance →
        exec (.ringFrameComplete bytes) s = .next (finish { s with port :=
          { s.port with
            state := .sending
            record := some { c with attempts := c.attempts + 1, tag := some s.port.tagCounter }
            tagCounter := s.port.tagCounter + 1#8
            returnTimer := none
            counters :=
              { s.port.counters with
                corruptReturns := satInc s.port.counters.corruptReturns
                retries := satInc s.port.counters.retries
                attemptsStarted := satInc s.port.counters.attemptsStarted } } })) ∧
      (judgedCorrupt → 1 + c.allowance ≤ c.attempts →
        exec (.ringFrameComplete bytes) s = .next (finish (endCirculation c .failedCheck none corrupt)))

/-- RING_OUT carries the frame of the attempt being sent, and idle fill otherwise, at the configured bit rate (R1, R11,
R105). The last byte of the frame starts the return timer with the configured timeout, and the port awaits the return
(R11, R8). Its expiry makes the attempt LOST: counted, retried while the allowance lasts, else the circulation ends with
a final LOST (R15, R16). That a timer that does not run does not expire, nor a sending end that is not going on, is the
model's reading (log 3). -/
def Obligations.ReturnTimerRunsAndExpires : Prop :=
  (∀ s : State,
    (∀ c tag, s.port.state = .sending → s.port.record = some c → c.tag = some tag →
      s.ringOut = .frame s.supervisor.config.bitRate (sealed (c.frame.kind :: tag :: 0x00#8 :: c.frame.bodyBytes))) ∧
    (s.port.state ≠ .sending → s.ringOut = .idleFill s.supervisor.config.bitRate) ∧
    (s.port.state = .sending → exec .attemptFrameSent s = .next { s with port :=
      { s.port with state := .awaiting, returnTimer := some s.supervisor.config.returnTimeout } }) ∧
    (s.port.state ≠ .sending → exec .attemptFrameSent s = .next s)) ∧
  ∀ s : State,
    (s.port.returnTimer = none → exec .returnTimerExpiry s = .next s) ∧
    ∀ c, s.port.state = .awaiting → s.port.returnTimer ≠ none → s.port.record = some c →
      (c.attempts < 1 + c.allowance →
        exec .returnTimerExpiry s = .next (finish { s with port :=
          { s.port with
            state := .sending
            record := some { c with attempts := c.attempts + 1, tag := some s.port.tagCounter }
            tagCounter := s.port.tagCounter + 1#8
            returnTimer := none
            counters :=
              { s.port.counters with
                lostReturns := satInc s.port.counters.lostReturns
                retries := satInc s.port.counters.retries
                attemptsStarted := satInc s.port.counters.attemptsStarted } } })) ∧
      (1 + c.allowance ≤ c.attempts →
        exec .returnTimerExpiry s = .next (finish (endCirculation c .lost none { s with port :=
          { s.port with counters :=
            { s.port.counters with lostReturns := satInc s.port.counters.lostReturns } } })))

/-- The Ring Port IDLE with its record empty (R19). -/
def portEnded (s : State) : State :=
  { s with port := { s.port with state := .idle, record := none, returnTimer := none } }

/-- The hop comparison of a good return (R18): a hop count that differs from the number of present stations is counted
and makes a census pending. -/
def hopsCompared (hop : Byte) (s : State) : State :=
  if hop.toNat = s.table.countP (fun e => e.position.isSome) then s
  else { s with
    port := { s.port with counters := { s.port.counters with hopMismatches := satInc s.port.counters.hopMismatches } }
    supervisor := { s.supervisor with censusPending := true } }

/-- The end of a circulation hands on its result in one event (R19): the hop comparison of a good CALL or WINDOW return,
never of a CENSUS (R18); a CALL's outcome to the Station Table, whoever asked; the result to the requester; and the
notice to the arbiter, who makes a choice. A final LOST of a circulation that is not a census's is taken between table
and requester. After a census that takes the ring UP from PROBING the choice waits for the arbiter's report (R83, R117;
the model's reading, log 7). -/
def Obligations.CirculationsEndInOrder : Prop :=
  ∀ (c : Circulation) (res : CirculationResult) (hop : Byte) (s : State),
    let idle := portEnded s
    (∀ b data st, c.frame = .call b → res = .served st data →
      (c.requester = .cycle → endCirculation c res (some hop) s =
        boundary (handCycle res (stationServed b.target (hopsCompared hop idle)))) ∧
      (c.requester = .urgent → endCirculation c res (some hop) s =
        boundary (handUrgent res c.attempts (stationServed b.target (hopsCompared hop idle))))) ∧
    (∀ b, c.frame = .call b → res = .missed →
      (c.requester = .cycle → endCirculation c res (some hop) s =
        boundary (handCycle res (stationMissed b.target (hopsCompared hop idle)))) ∧
      (c.requester = .urgent → endCirculation c res (some hop) s =
        boundary (handUrgent res c.attempts (stationMissed b.target (hopsCompared hop idle))))) ∧
    (∀ acks reports deferred, c.frame = .window acks → c.requester = .window → res = .window reports deferred →
      endCirculation c res (some hop) s = boundary (handWindow res (hopsCompared hop idle))) ∧
    (c.requester = .census → c.frame = .census → s.supervisor.state = .up →
      (∀ overflow entries, res = .census overflow entries →
        endCirculation c res (some hop) s = boundary (handCensus res idle)) ∧
      (res = .failedCheck ∨ res = .lost → endCirculation c res none s = boundary (handCensus res idle))) ∧
    (c.requester = .census → c.frame = .census → s.supervisor.state = .probing →
      (∀ overflow entries, res = .census overflow entries →
        endCirculation c res (some hop) s = handCensus res idle) ∧
      (res = .failedCheck ∨ res = .lost → endCirculation c res none s = handCensus res idle)) ∧
    (res = .failedCheck →
      (c.requester = .cycle → endCirculation c res none s = boundary (handCycle res idle)) ∧
      (c.requester = .urgent → endCirculation c res none s = boundary (handUrgent res c.attempts idle)) ∧
      (c.requester = .window → endCirculation c res none s = boundary (handWindow res idle))) ∧
    (res = .lost →
      (c.requester = .cycle → endCirculation c res none s = boundary (handCycle res (takeLostReturn idle))) ∧
      (c.requester = .urgent →
        endCirculation c res none s = boundary (handUrgent res c.attempts (takeLostReturn idle))) ∧
      (c.requester = .window → endCirculation c res none s = boundary (handWindow res (takeLostReturn idle))))

/-- A cycle in RUNNING or CLOSING abandoned: the walk emptied, the late flag cleared, the abandonment counted (R61). -/
def dropped (c : CycleEngine) : CycleEngine :=
  { c with
    outcomes := [], pointer := 0, awaiting := none, lateFlag := false
    counters := { c.counters with abandoned := satInc c.counters.abandoned } }

/-- A final LOST takes the ring out of UP to DOWN with the probe timer started, census-pending clear, the slot free and
the port IDLE, whoever asked for the circulation (R19, R111, R112, R113). For a circulation that is no census's, with no
older report waiting, RING_STATE is committed first, then CYCLE_ABANDONED if a cycle stood in RUNNING or CLOSING, then
the result RING_DOWN of the urgent request in flight, all in the one event (R60, R83, R117); a window's record is
emptied, and a host window's wish cleared (R131). -/
def Obligations.FinalLostTakesTheRingDown : Prop :=
  ∀ (c : Circulation) (s : State), s.supervisor.state = .up → s.port.state = .awaiting →
    s.port.returnTimer ≠ none → s.port.record = some c → 1 + c.allowance ≤ c.attempts →
    let down := { s.supervisor with
      state := .down, censusPending := false, probeTimer := some s.supervisor.config.probeInterval }
    let port := { s.port with
      state := .idle, record := none, returnTimer := none
      counters := { s.port.counters with lostReturns := satInc s.port.counters.lostReturns } }
    (∃ t, exec .returnTimerExpiry s = .next t ∧ t.supervisor = down ∧ t.port = port ∧
      t.slot = none ∧ t.table = s.table ∧ t.resetAsserted = s.resetAsserted) ∧
    (c.requester ≠ .census → s.notices.cycle = [] → s.notices.urgent = [] → s.notices.window = [] →
      s.notices.arbiter = [] →
      let walking := s.cycle.state = .running ∨ s.cycle.state = .closing
      let told := s.store.commitEvent (.ringState .up .down .lostReturn (presentCount s.table) 0#8)
      let abandoned := if walking then
          (told.release .cycle).commitEvent (.cycleAbandoned s.cycle.cycleNumber .ringDown s.cycle.outcomes.length)
        else told
      let cycle := if ¬walking then s.cycle
        else if s.cycle.config.mode = .free then
          { dropped s.cycle with state := .held, holdReason := .ring, heldMark := false }
        else { dropped s.cycle with state := .armed, holdReason := .none }
      let t := { s with supervisor := down, port := port, store := abandoned, cycle := cycle }
      (c.requester = .cycle → exec .returnTimerExpiry s = .next (finish t)) ∧
      (∀ r, c.requester = .urgent → s.urgent.inFlight = some r →
        exec .returnTimerExpiry s = .next (finish { t with
          urgent := { s.urgent with inFlight := none }
          store := abandoned.convert (.urgent r.tag) (.urgentResult ⟨r.tag, .ringDown, none, c.attempts, []⟩) })) ∧
      ∀ w, c.requester = .window → s.window.record = some w →
        exec .returnTimerExpiry s = .next (finish { t with window :=
          { s.window with record := none, hostPending := s.window.hostPending && w.kind == .cycleWindow } }))

/-- The judgment of a census (R108): the overflow flag, then the first address 0 or 255, then the first address an
earlier entry holds, each with its cause and fault address. The end of a census (R109 to R112): valid, it replaces the
membership, and a ring in PROBING enters UP; invalid, the ring enters FAULT; failed, it enters DOWN with the probe timer;
from PROBING and from UP alike, with its RING_STATE event and its reports (R116, R117), the table standing unless the
census is valid. -/
def Obligations.CensusDecidesTheRingState : Prop :=
  (∀ (entries : List (Byte × Byte)),
    censusFault true entries = some (.tooManyStations, 0#8) ∧
    (∀ older a kind younger, entries = older ++ (a, kind) :: younger → (∀ e ∈ older, e.1 ≠ 0#8 ∧ e.1 ≠ 255#8) →
      a = 0#8 ∨ a = 255#8 → censusFault false entries = some (.invalidAddress, a)) ∧
    ((∀ e ∈ entries, e.1 ≠ 0#8 ∧ e.1 ≠ 255#8) →
      (∀ older a kind younger, entries = older ++ (a, kind) :: younger → (older.map Prod.fst).Nodup →
        a ∈ older.map Prod.fst → censusFault false entries = some (.duplicateAddress, a)) ∧
      ((entries.map Prod.fst).Nodup → censusFault false entries = none))) ∧
  ∀ (s : State), s.supervisor.state = .probing ∨ s.supervisor.state = .up →
    let event (t : State) (new : RingState) (cause : RingCause) (address : Byte) :=
      t.store.commitEvent (.ringState s.supervisor.state new cause (presentCount t.table) address)
    (∀ entries, censusFault false entries = none →
      let t := replaceCensus entries s
      (s.supervisor.state = .up → handCensus (.census false entries) s = t) ∧
      (s.supervisor.state = .probing → handCensus (.census false entries) s = { t with
        supervisor := { s.supervisor with state := .up }
        store := event t .up .censusValid 0#8, notices := reported s.notices .up true })) ∧
    (∀ overflow entries cause address, censusFault overflow entries = some (cause, address) →
      handCensus (.census overflow entries) s = { s with
        supervisor := { s.supervisor with state := .fault, censusPending := false }
        store := event s .fault cause address, notices := reported s.notices .fault true }) ∧
    ∀ res, res = .failedCheck ∨ res = .lost →
      handCensus res s = { s with
        supervisor :=
          { s.supervisor with
            state := .down, censusPending := false, probeTimer := some s.supervisor.config.probeInterval }
        store := event s .down .censusFailed 0#8, notices := reported s.notices .down true }

/-- The census replacement (R90, R91): entry j of the census becomes the present entry at position j, ACTIVE with miss
count 0, keeping what an old entry of its address held; then the ABSENT part, the old ABSENT entries before those this
census lost, the oldest dropped until 24 entries remain. The TOPOLOGY event is committed when the list of present
addresses has changed (R92). -/
def Obligations.CensusReplacesTheMembership : Prop :=
  ∀ (census : List (Byte × Byte)) (s : State),
    let missing := s.table.filter (fun e => !(census.map Prod.fst).contains e.address)
    let candidates := missing.filter (fun e => e.position.isNone) ++
      (missing.filter (fun e => e.position.isSome)).map (fun e => { e with position := none, state := .absent })
    let new := (replaceCensus census s).table
    let before := (s.table.filter (fun e => e.position.isSome)).map (fun e => e.address)
    let after := census.map Prod.fst
    (∀ j a kind, census[j]? = some (a, kind) →
      (∀ e, s.table.find? (fun e => e.address == a) = some e →
        new[j]? = some { e with position := some (j + 1), kind := kind, state := .active, missCount := 0 }) ∧
      ((∀ e ∈ s.table, e.address ≠ a) →
        new[j]? = some ⟨a, some (j + 1), kind, .active, 0, none, 0#16, 0#16⟩)) ∧
    new.drop census.length = candidates.drop (census.length + candidates.length - 24) ∧ census.length ≤ new.length ∧
    (after = before → replaceCensus census s = { s with table := new }) ∧
    (after ≠ before → replaceCensus census s = { s with
      table := new
      store := s.store.commitEvent (.topology census.length (after.countP (fun a => !before.contains a))
        (new.length - census.length)) })

/-- The probe timer's expiry takes DOWN to PROBING with cause PROBE_TIMER, the timer stopped and the census sent
(R112). That the arbiter takes its report in this event, so that none waits for it, is the model's reading (log 6), and
that a stopped timer does not expire too (log 3). -/
def Obligations.ProbeTimerProbesTheRing : Prop :=
  ∀ s : State,
    (s.supervisor.probeTimer = none → exec .probeTimerExpiry s = .next s) ∧
    (s.supervisor.probeTimer ≠ none → s.supervisor.state = .down → s.port.state = .idle →
      s.port.record = none →
      exec .probeTimerExpiry s = .next (finish { s with
        supervisor := { s.supervisor with state := .probing, probeTimer := none, censusPending := false }
        port := censusStarted s
        store := s.store.commitEvent (.ringState .down .probing .probeTimer (presentCount s.table) 0#8)
        notices := reported s.notices .probing false }))

/-! ### The arbiter, the walk, and what ends a circulation -/

/-- No head of the Urgent Queue may be dispatched: none queued, one in flight (log 16), a report of OFF still to be taken
(log 30), or held by the budget (R77). -/
def noHead (s : State) : Prop :=
  s.urgent.queue = [] ∨ s.urgent.inFlight ≠ none ∨ .off ∈ s.notices.urgent ∨
    ((s.cycle.state = .running ∨ s.cycle.state = .closing) ∧ s.cycle.config.budget ≤ s.cycle.interleaved)

/-- The Cycle Engine told of a dispatch (R54, R55). -/
def told (c : CycleEngine) : CycleEngine :=
  if c.state = .running ∧ c.config.policy = .restart ∧ c.outcomes ≠ [] then
    { c with
      interleaved := c.interleaved + 1, outcomes := [], pointer := 0, restarts := c.restarts + 1
      counters := { c.counters with restarts := satInc c.counters.restarts } }
  else if c.state = .running ∨ c.state = .closing then { c with interleaved := c.interleaved + 1 }
  else c

/-- No report that abandons the cycle waits at the Cycle Engine (R60, R117). -/
def noAbandonmentWaits (s : State) : Prop :=
  .down ∉ s.notices.cycle ∧ .fault ∉ s.notices.cycle ∧ .off ∉ s.notices.cycle

/-- The choice at a boundary (R65 to R70, R77, R78): no choice with the slot occupied or out of PROBING and UP; then
census, urgent head, cycle window, host window in this order, each claim with its frame and its allowance. A head whose
station is ABSENT or unknown settles as SKIPPED_STATION, and the choice is made again (R68). No claim of order 3 or 4 is
taken while the window record is full (R120), nor while a RUNNING cycle awaits an outcome (R51). That none is taken
while a report that abandons the cycle waits at the Cycle Engine, and so no second cycle window for one entry into CLOSING
(R121), is the model's choice (log 29), and that a report of OFF still to be taken keeps back the urgent head (log 30) and
a host window, which OFF withdraws (R123; log 22), too. The cycle step is WalkSettlesAndClaims. -/
def Obligations.ArbiterChoosesInOrder : Prop :=
  ∀ s : State,
    let retry := s.supervisor.config.retryLimit
    let windowClaimed (kind : WindowKind) (n : Word) :=
      { s with
        window := { s.window with record := some ⟨kind, n⟩ }
        port := s.port.startAttempt ⟨.window, .window s.window.owed, 0, retry, none⟩ }
    (s.port.record ≠ none → boundary s = s) ∧
    (s.supervisor.state ≠ .probing → s.supervisor.state ≠ .up → boundary s = s) ∧
    (s.port.record = none →
      (s.supervisor.state = .probing ∨ (s.supervisor.state = .up ∧ s.supervisor.censusPending = true) →
        boundary s = { s with
          supervisor := { s.supervisor with censusPending := false }, port := censusStarted s }) ∧
      (s.supervisor.state = .up → s.supervisor.censusPending = false →
        (∀ r rest, s.urgent.queue = r :: rest → s.urgent.inFlight = none → .off ∉ s.notices.urgent →
          (s.cycle.state = .running ∨ s.cycle.state = .closing → s.cycle.interleaved < s.cycle.config.budget) →
          (callableForUrgent s.table r.station = true →
            boundary s = { s with
              urgent := ⟨rest, some { r with timerRunning := false }⟩
              cycle := told s.cycle
              port := s.port.startAttempt
                ⟨.urgent, .call ⟨r.station, r.operation, r.object, r.outData, r.inLength⟩, 0,
                 if r.retry then retry else 0, none⟩ }) ∧
          (callableForUrgent s.table r.station = false →
            boundary s = boundary { s with
              urgent := ⟨rest, none⟩
              cycle := told s.cycle
              store := s.store.convert (.urgent r.tag) (.urgentResult ⟨r.tag, .skippedStation, none, 0, []⟩) })) ∧
        (noHead s →
          (s.window.record ≠ none → boundary s = s) ∧
          (s.cycle.state = .running → s.cycle.awaiting ≠ none → boundary s = s) ∧
          (s.cycle.state = .running ∨ s.cycle.state = .closing → ¬noAbandonmentWaits s → boundary s = s) ∧
          (s.window.record = none →
            (s.cycle.state = .closing → noAbandonmentWaits s →
              boundary s = windowClaimed .cycleWindow s.cycle.cycleNumber) ∧
            (s.cycle.state = .stopped ∨ s.cycle.state = .armed ∨ s.cycle.state = .held →
              (s.window.hostPending = true → .off ∉ s.notices.window →
                boundary s = windowClaimed .hostWindow 0#32) ∧
              (s.window.hostPending = false ∨ .off ∈ s.notices.window → boundary s = s))))))

/-- The walk (R50, R51, R53): the tests of an entry in order; the entries settled up to the first callable one, which is
called; and with none callable the end of the walk, with the window claimed or the cycle completed. The walk of a cycle
that a report still to be taken abandons does not go on (log 29, ArbiterChoosesInOrder). -/
def Obligations.WalkSettlesAndClaims : Prop :=
  (∀ (table : List StationEntry) (e : PlanEntry),
    (e.latchedEnable = false → settledOutcome table e = some .skippedDisabled) ∧
    (e.latchedEnable = true →
      (callableForCycle table e.target = false → settledOutcome table e = some .skippedStation) ∧
      (callableForCycle table e.target = true →
        settledOutcome table e =
          if e.operation ≠ .read ∧ e.latchedOutput = [] then some .noOutput else none))) ∧
  ∀ (settled : List (PlanEntry × ExchangeOutcome)) (rest : List PlanEntry) (s : State),
    s.supervisor.state = .up → s.supervisor.censusPending = false → s.port.record = none → noHead s →
    s.window.record = none → s.cycle.state = .running → s.cycle.awaiting = none → noAbandonmentWaits s →
    (∀ x ∈ settled, settledOutcome s.table x.1 = some x.2) →
    s.plan.drop s.cycle.pointer = settled.map Prod.fst ++ rest →
    let outcomes := s.cycle.outcomes ++ settled.map (fun x => ⟨x.2, none, []⟩)
    let pointer := s.cycle.pointer + settled.length
    (∀ e more, rest = e :: more → settledOutcome s.table e = none →
      boundary s = { s with
        cycle := { s.cycle with outcomes := outcomes, pointer := pointer, awaiting := some pointer }
        port := s.port.startAttempt
          ⟨.cycle,
           .call ⟨e.target, e.operation, e.object, if e.operation = .read then [] else e.latchedOutput, e.inLength⟩,
           0, s.supervisor.config.retryLimit, none⟩ }) ∧
    (rest = [] →
      (s.cycle.config.window = true →
        boundary s = { s with
          cycle := { s.cycle with outcomes := outcomes, pointer := pointer, state := .closing }
          window := { s.window with record := some ⟨.cycleWindow, s.cycle.cycleNumber⟩ }
          port := s.port.startAttempt
            ⟨.window, .window s.window.owed, 0, s.supervisor.config.retryLimit, none⟩ }) ∧
      (s.cycle.config.window = false →
        cycleStep s = completeCycle { s with
          cycle := { s.cycle with outcomes := outcomes, pointer := pointer } }))

/-- The completion of a cycle (R57, R58, R38): the snapshot into its reservation, its inputs published, the counter, the
walk emptied; then STOPPED, or ARMED, with a start attempt in FREE mode or with the late flag, whose mark it carries. -/
def Obligations.CompletionCommitsTheSnapshot : Prop :=
  ∀ s : State,
    let c := s.cycle
    let settled := { s with
      store := s.store.convert .cycle (.snapshot
        ⟨c.cycleNumber, c.restarts, c.interleaved, c.reportsAccepted, c.reportsDeferred, c.windowDone, c.windowFailed,
         c.lateMark, c.outcomes⟩)
      plan := List.zipWith (fun (e : PlanEntry) (o : EntryOutcome) =>
        if o.outcome = ExchangeOutcome.done ∧ 0 < e.inLength then
          { e with lastGoodData := o.data, lastGoodCycle := c.cycleNumber, lastGoodValid := true } else e)
        s.plan c.outcomes
      cycle := { c with
        outcomes := [], pointer := 0, lateMark := false
        counters := { c.counters with completed := satInc c.counters.completed } } }
    let rearmed := { settled with cycle :=
      { settled.cycle with state := .armed, holdReason := .none, lateFlag := false } }
    c.outcomes.length = s.plan.length →
    (c.stopAtEnd = true →
      completeCycle s = { settled with
        cycle := stopped settled.cycle, store := settled.store.commitEvent (.cycleStopped c.cycleNumber) }) ∧
    (c.stopAtEnd = false → c.config.mode ≠ .free → c.lateFlag = false → completeCycle s = rearmed) ∧
    (c.stopAtEnd = false → c.config.mode = .free ∨ c.lateFlag = true →
      completeCycle s = startAttempt c.lateFlag rearmed)

/-- What a CALL's result gives its requester: the outcome of the awaiting entry (R52), at the last entry the end of the
walk (R53), dropped where no entry is awaited (R62); or the outcome of the urgent request, committed into its
reservation, RING_DOWN for a final LOST (R79, R80). -/
def Obligations.CallOutcomesReachTheRequester : Prop :=
  ∀ (res : CirculationResult) (o : ExchangeOutcome) (status : Option ReplyStatus) (data : List Byte) (s : State),
    ((∃ d, res = .served .ok d ∧ o = .done ∧ status = some .ok ∧ data = d) ∨
      (∃ d, res = .served .busy d ∧ o = .busy ∧ status = some .busy ∧ data = []) ∨
      (∃ st d, st ≠ .ok ∧ st ≠ .busy ∧ res = .served st d ∧ o = .refusedByStation ∧ status = some st ∧ data = []) ∨
      (res = .missed ∧ o = .missed ∧ status = none ∧ data = []) ∨
      (res = .failedCheck ∧ o = .failedCheck ∧ status = none ∧ data = [])) →
    let taken := { s with cycle :=
      { s.cycle with
        outcomes := s.cycle.outcomes ++ [⟨o, status, data⟩], pointer := s.cycle.pointer + 1, awaiting := none } }
    (s.cycle.state = .running → s.cycle.awaiting ≠ none →
      (s.cycle.pointer + 1 ≠ s.plan.length → handCycle res s = taken) ∧
      (s.cycle.pointer + 1 = s.plan.length →
        (s.cycle.config.window = true →
          handCycle res s = { taken with cycle := { taken.cycle with state := .closing } }) ∧
        (s.cycle.config.window = false → handCycle res s = completeCycle taken))) ∧
    (s.cycle.state ≠ .running ∨ s.cycle.awaiting = none → handCycle res s = s) ∧
    handCycle .lost s = s ∧
    ∀ r n, s.urgent.inFlight = some r →
      handUrgent res n s = { s with
        urgent := { s.urgent with inFlight := none }
        store := s.store.convert (.urgent r.tag) (.urgentResult ⟨r.tag, o, status, n, data⟩) } ∧
      handUrgent .lost n s = { s with
        urgent := { s.urgent with inFlight := none }
        store := s.store.convert (.urgent r.tag) (.urgentResult ⟨r.tag, .ringDown, none, n, []⟩) }

/-- The end of a window (R124, R128 to R131, R56): a good return empties the owed list, decides its reports in order under
the report cycle number of the window's record (R120) and counts the deferred ones; the record is emptied; a cycle window
completes its cycle with the window's result, a host window clears host-window-pending; an end for another cycle, outside
CLOSING, or LOST, is dropped by the engine. With no record there is no window, and nothing is handed to it. -/
def Obligations.WindowEndsReachTheCycle : Prop :=
  (∀ n s, decideReports n [] s = (0, s) ∧
    ∀ r rest, decideReports n (r :: rest) s =
      (reportGranted n r s + (decideReports n rest (decideReport n r s)).1,
       (decideReports n rest (decideReport n r s)).2)) ∧
  ∀ (reports : List ReportItem) (deferred : Nat) (s : State),
    (s.window.record = none →
      handWindow (.window reports deferred) s = s ∧ handWindow .failedCheck s = s ∧ handWindow .lost s = s) ∧
    (∀ r, s.window.record = some r → handWindow (.window reports deferred) s = (
      let decided := decideReports r.cycleNumber reports { s with window := { s.window with owed := [] } }
      endWindow (.good decided.1 deferred) { decided.2 with window :=
        { decided.2.window with counters :=
          { decided.2.window.counters with deferred := satAdd decided.2.window.counters.deferred deferred } } })) ∧
    handWindow .failedCheck s = endWindow .failedCheck s ∧ handWindow .lost s = endWindow .lost s ∧
    ∀ (e : WindowEnd),
      (∀ n, s.window.record = some ⟨.hostWindow, n⟩ →
        endWindow e s = { s with window := { s.window with record := none, hostPending := false } }) ∧
      ∀ n, s.window.record = some ⟨.cycleWindow, n⟩ →
        let ended := { s with window := { s.window with record := none } }
        (s.cycle.state ≠ .closing ∨ n ≠ s.cycle.cycleNumber → endWindow e s = ended) ∧
        (s.cycle.state = .closing → n = s.cycle.cycleNumber →
          (e = .lost → endWindow e s = ended) ∧
          (e = .failedCheck → endWindow e s = completeCycle { ended with cycle :=
            { s.cycle with windowFailed := true, reportsAccepted := 0, reportsDeferred := 0 } }) ∧
          ∀ a d, e = .good a d → endWindow e s = completeCycle { ended with cycle :=
            { s.cycle with windowDone := true, reportsAccepted := a, reportsDeferred := d } })

/-! ### Reports between blocks and timers -/

/-- The period timer (R45, R46, R47, R59): a start cause in ARMED makes an attempt, in HELD it is a skipped start, in
RUNNING and CLOSING an overrun; the timer runs on. A stopped timer does not expire (log 3). -/
def Obligations.PeriodTimerRaisesAStartCause : Prop :=
  ∀ s : State,
    let overran := { s.cycle with counters := { s.cycle.counters with overruns := satInc s.cycle.counters.overruns } }
    let late := s.cycle.lateFlag || s.cycle.config.overrun == .lateStart
    (s.cycle.periodTimer = none → exec .periodTimerExpiry s = .next s) ∧
    (s.cycle.periodTimer ≠ none →
      (s.cycle.state = .held →
        exec .periodTimerExpiry s = .next (finish { s with cycle :=
          { s.cycle with counters :=
            { s.cycle.counters with skippedStarts := satInc s.cycle.counters.skippedStarts } } })) ∧
      (s.cycle.state = .running ∨ s.cycle.state = .closing → s.cycle.overrunReported = true →
        exec .periodTimerExpiry s = .next (finish { s with cycle := { overran with lateFlag := late } })) ∧
      (s.cycle.state = .running ∨ s.cycle.state = .closing → s.cycle.overrunReported = false →
        exec .periodTimerExpiry s = .next (finish { s with
          cycle := { overran with lateFlag := late, overrunReported := true }
          store := s.store.commitEvent (.cycleOverrun s.cycle.cycleNumber) })) ∧
      (s.cycle.state = .armed → s.supervisor.state ≠ .up →
        exec .periodTimerExpiry s = .next (finish { s with cycle :=
          { s.cycle with state := .held, holdReason := .ring, heldMark := false } })) ∧
      (s.cycle.state = .armed → s.supervisor.state = .up →
        s.store.reserve .cycle (14 + 3 * s.plan.length + inSum s.plan) = none →
        exec .periodTimerExpiry s = .next (finish { s with cycle :=
          { s.cycle with state := .held, holdReason := .space, heldMark := false } })) ∧
      ∀ st, s.cycle.state = .armed → s.supervisor.state = .up →
        s.store.reserve .cycle (14 + 3 * s.plan.length + inSum s.plan) = some st →
        exec .periodTimerExpiry s = .next (finish (boundary { s with
          store := st, plan := s.plan.map PlanEntry.latch, cycle := started s.cycle false })))

/-- The Cycle Engine takes the oldest report (R49, R60, R61): DOWN, FAULT or OFF abandons a cycle in RUNNING or CLOSING
with its reason, the engine then ARMED, or in FREE mode HELD on RING, and the arbiter has notice; UP retries a held
start; PROBING does nothing. That reports wait in a list, oldest first, is the model's reading (log 5), and that one
taken only once the ring is UP again abandons whatever cycle then stands, so that a start in FREE mode may succeed, its
choice (log 28). -/
def Obligations.CycleTakesRingReports : Prop :=
  ∀ (r : RingState) (rest : List RingState) (s : State), s.notices.cycle = r :: rest →
    let u := { s with notices := { s.notices with cycle := rest } }
    let event (reason : AbandonReason) := (s.store.release .cycle).commitEvent
      (.cycleAbandoned s.cycle.cycleNumber reason s.cycle.outcomes.length)
    (r = .probing → exec .cycleRingReport s = .next (finish u)) ∧
    (r = .down ∨ r = .fault ∨ r = .off → s.cycle.state = .stopped ∨ s.cycle.state = .armed ∨ s.cycle.state = .held →
      exec .cycleRingReport s = .next (finish u)) ∧
    (∀ reason, (r, reason) = (.down, .ringDown) ∨ (r, reason) = (.fault, .ringFault) ∨
        (r, reason) = (.off, .ringStopped) →
      s.cycle.state = .running ∨ s.cycle.state = .closing →
      (s.cycle.config.mode ≠ .free →
        exec .cycleRingReport s = .next (finish (boundary { u with
          store := event reason, cycle := { dropped s.cycle with state := .armed, holdReason := .none } }))) ∧
      (s.cycle.config.mode = .free →
        (s.supervisor.state ≠ .up →
          exec .cycleRingReport s = .next (finish (boundary { u with
            store := event reason
            cycle := { dropped s.cycle with state := .held, holdReason := .ring, heldMark := false } }))) ∧
        (s.supervisor.state = .up →
          ((event reason).reserve .cycle (14 + 3 * s.plan.length + inSum s.plan) = none →
            exec .cycleRingReport s = .next (finish (boundary { u with
              store := event reason
              cycle := { dropped s.cycle with state := .held, holdReason := .space, heldMark := false } }))) ∧
          ∀ st, (event reason).reserve .cycle (14 + 3 * s.plan.length + inSum s.plan) = some st →
            exec .cycleRingReport s = .next (finish (boundary { u with
              store := st, plan := s.plan.map PlanEntry.latch, cycle := started (dropped s.cycle) false }))))) ∧
    (r = .up → s.cycle.state ≠ .held → exec .cycleRingReport s = .next (finish u)) ∧
    (r = .up → s.cycle.state = .held → s.supervisor.state = .up →
      (s.store.reserve .cycle (14 + 3 * s.plan.length + inSum s.plan) = none →
        exec .cycleRingReport s = .next (finish { u with cycle :=
          { s.cycle with state := .held, holdReason := .space } })) ∧
      ∀ st, s.store.reserve .cycle (14 + 3 * s.plan.length + inSum s.plan) = some st →
        exec .cycleRingReport s = .next (finish (boundary { u with
          store := st, plan := s.plan.map PlanEntry.latch, cycle := started s.cycle s.cycle.heldMark }))) ∧
    (r = .up → s.cycle.state = .held → s.supervisor.state ≠ .up →
      exec .cycleRingReport s = .next (finish { u with cycle := { s.cycle with state := .held, holdReason := .ring } }))

/-- The other blocks take their oldest report: on OFF the Urgent Queue ends every request it holds with RING_STOPPED,
in-flight first (R85), and the Report Window Unit clears host-window-pending and its record (R123); the arbiter makes a
choice on PROBING and UP (R66). Every other report changes nothing but the list it leaves. That reports wait in a list,
oldest first, is the model's reading (log 5), as is that with none waiting nothing changes (log 3). That an OFF taken late
ends the requests accepted since is its choice (log 30), and that it leaves a window in flight its record too (log 22). -/
def Obligations.OtherBlocksTakeRingReports : Prop :=
  (∀ r rest (s : State), s.notices.urgent = r :: rest →
    let u := { s with notices := { s.notices with urgent := rest } }
    (r ≠ .off → exec .urgentRingReport s = .next (finish u)) ∧
    (r = .off → exec .urgentRingReport s = .next (finish { u with
      urgent := ⟨[], none⟩
      store := (s.urgent.inFlight.toList ++ s.urgent.queue).foldl (fun st q =>
        st.convert (.urgent q.tag) (.urgentResult ⟨q.tag, .ringStopped, none, 0, []⟩)) s.store }))) ∧
  (∀ r rest (s : State), s.notices.window = r :: rest →
    let u := { s with notices := { s.notices with window := rest } }
    (r ≠ .off → exec .windowRingReport s = .next (finish u)) ∧
    (r = .off → (∀ c, s.port.record = some c → c.requester ≠ .window) →
      exec .windowRingReport s = .next (finish { u with window :=
        { s.window with hostPending := false, record := none } })) ∧
    (∀ c, r = .off → s.port.record = some c → c.requester = .window →
      exec .windowRingReport s = .next (finish { u with window := { s.window with hostPending := false } }))) ∧
  (∀ r rest (s : State), s.notices.arbiter = r :: rest →
    let u := { s with notices := { s.notices with arbiter := rest } }
    (r = .probing ∨ r = .up → exec .arbiterRingReport s = .next (finish (boundary u))) ∧
    (r ≠ .probing → r ≠ .up → exec .arbiterRingReport s = .next (finish u))) ∧
  ∀ s : State,
    (s.notices.cycle = [] → exec .cycleRingReport s = .next s) ∧
    (s.notices.urgent = [] → exec .urgentRingReport s = .next s) ∧
    (s.notices.window = [] → exec .windowRingReport s = .next s) ∧
    (s.notices.arbiter = [] → exec .arbiterRingReport s = .next s)

/-- A notice of released space retries a held start with the mark it holds, and changes nothing else (R140, R49). That
notices are counted is the model's reading (log 10), and that with none waiting nothing changes too (log 3). -/
def Obligations.SpaceNoticeRetriesAHeldStart : Prop :=
  ∀ s : State,
    (s.notices.space = 0 → exec .spaceReleaseNotice s = .next s) ∧
    ∀ n, s.notices.space = n + 1 →
      let u := { s with notices := { s.notices with space := n } }
      (s.cycle.state ≠ .held → exec .spaceReleaseNotice s = .next (finish u)) ∧
      (s.cycle.state = .held →
        (s.supervisor.state ≠ .up → exec .spaceReleaseNotice s = .next (finish { u with cycle :=
          { s.cycle with holdReason := .ring } })) ∧
        (s.supervisor.state = .up → s.store.reserve .cycle (14 + 3 * s.plan.length + inSum s.plan) = none →
          exec .spaceReleaseNotice s = .next (finish { u with cycle :=
            { s.cycle with holdReason := .space } })) ∧
        ∀ st, s.supervisor.state = .up →
          s.store.reserve .cycle (14 + 3 * s.plan.length + inSum s.plan) = some st →
          exec .spaceReleaseNotice s = .next (finish (boundary { u with
            store := st, plan := s.plan.map PlanEntry.latch, cycle := started s.cycle s.cycle.heldMark })))

/-- A deadline's expiry removes the queued request wherever it stands and commits EXPIRED with 0 attempts into its
reservation; the arbiter has notice if it was the head (R81, R80). A timer that does not run does not expire (log 3). -/
def Obligations.DeadlineEndsTheRequest : Prop :=
  ∀ (tag : Byte) (s : State),
    (queuedWith s.urgent tag = none → exec (.deadlineTimerExpiry tag) s = .next s) ∧
    ∀ r, queuedWith s.urgent tag = some r →
      (r.timerRunning = false → exec (.deadlineTimerExpiry tag) s = .next s) ∧
      (r.timerRunning = true →
        exec (.deadlineTimerExpiry tag) s = .next (finish (boundaryIf (s.urgent.isHead tag)
          { s with
            urgent := ⟨s.urgent.queue.eraseP (fun q => q.tag == tag), s.urgent.inFlight⟩
            store := s.store.convert (.urgent tag) (.urgentResult ⟨tag, .expired, none, 0, []⟩) })))

/-! ### Accounting, the table, the reports, the records -/

/-- What the store admits (R136, R141, R142): a reservation or a REPORT leaves 64 bytes and 4 records; an event takes
the last byte and record; after losses an event goes in as a pair with the summary, or is counted as lost. How
reservations end: converted, one becomes its owner's record at the tail, and bytes it does not use are released (R138);
released, it is gone whole (R139). -/
def Obligations.StoreAdmitsByItsRoom : Prop :=
  ∀ st : Store,
    let bytes := 4096 - (st.records.map Record.size).sum - (st.reservations.map (fun r => r.size)).sum
    let slots := 32 - st.records.length - st.reservations.length
    let lost := { st with lostEvents := if st.lostEvents = 65535#16 then 65535#16 else st.lostEvents + 1#16 }
    let commit (st : Store) (c : RecordContent) : Store :=
      { st with records := st.records ++ [⟨c, st.nextSequence, .unsent⟩], nextSequence := st.nextSequence + 1#16 }
    (∀ owner size,
      (size + 64 ≤ bytes ∧ 5 ≤ slots →
        st.reserve owner size = some { st with reservations := st.reservations ++ [⟨owner, size⟩] }) ∧
      (¬(size + 64 ≤ bytes ∧ 5 ≤ slots) → st.reserve owner size = none)) ∧
    (∀ n item,
      (11 + item.data.length + 64 ≤ bytes ∧ 5 ≤ slots →
        st.commitReport n item = some (commit st (.report n item))) ∧
      (¬(11 + item.data.length + 64 ≤ bytes ∧ 5 ≤ slots) → st.commitReport n item = none)) ∧
    (∀ owner content older q younger, st.reservations = older ++ q :: younger → q.owner = owner →
      (∀ x ∈ older, x.owner ≠ owner) →
      st.convert owner content =
        { commit { st with reservations := older ++ younger } content with
          releasedInEvent := st.releasedInEvent || decide (content.size < q.size) } ∧
      st.release owner = { st with reservations := older ++ younger, releasedInEvent := true }) ∧
    (∀ owner content, (∀ x ∈ st.reservations, x.owner ≠ owner) →
      st.convert owner content = commit st content ∧ st.release owner = st) ∧
    ∀ e,
      (st.lostEvents = 0#16 → 16 ≤ bytes ∧ 1 ≤ slots → st.commitEvent e = commit st (.event e)) ∧
      (st.lostEvents = 0#16 → ¬(16 ≤ bytes ∧ 1 ≤ slots) → st.commitEvent e = lost) ∧
      (st.lostEvents ≠ 0#16 → 32 ≤ bytes ∧ 2 ≤ slots →
        st.commitEvent e =
          { commit (commit st (.event (.eventsLost st.lostEvents))) (.event e) with lostEvents := 0#16 }) ∧
      (st.lostEvents ≠ 0#16 → ¬(32 ≤ bytes ∧ 2 ≤ slots) → st.commitEvent e = lost)

/-- ATTN is asserted exactly while an unsent record is held and the credit count is 0; under RESET_N and right after a
hard or a soft reset it is deasserted (R148). -/
def Obligations.AttnRule : Prop :=
  (∀ s : State, s.attn = true ↔ (∃ r ∈ s.store.records, r.region = .unsent) ∧ s.store.credits = 0) ∧
  (∀ s : State, (hardReset s).attn = false ∧ (softReset s).attn = false) ∧
  ∀ (rate1 rate0 : Bool) (rxd : LineLevel) (s : State),
    (hardResetRelease rate1 rate0 rxd (hardReset s)).attn = false

/-- A CALL outcome at the Station Table: SERVED makes a station that is not ABSENT ACTIVE with miss count 0 and counts
the call; MISSED counts the miss and makes it SILENT or LOST by the miss limit; an ABSENT or unknown station is left
(R94, R95, R96). -/
def Obligations.CallOutcomesReachTheStation : Prop :=
  ∀ (a : Byte) (s : State),
    (findStation s.table a = none → stationServed a s = s ∧ stationMissed a s = s) ∧
    ∀ e, findStation s.table a = some e →
      (e.state = .absent → stationServed a s = s ∧ stationMissed a s = s) ∧
      (e.state ≠ .absent →
        (stationServed a s).table = s.table.map (fun x => if x.address = a then
          { x with state := .active, missCount := 0, callsServed := satInc x.callsServed } else x) ∧
        (stationServed a s).store = (if e.state = .active then s.store else s.store.commitEvent
          (.stationState a (e.position.getD 0) e.state .active 0 .served)) ∧
        ∀ n new, n = min 7 (e.missCount + 1) →
          new = (if e.state = .lost then StationState.lost
            else if n < s.supervisor.config.missLimit then .silent else .lost) →
          (stationMissed a s).table = s.table.map (fun x => if x.address = a then
            { x with state := new, missCount := n, misses := satInc x.misses } else x) ∧
          (stationMissed a s).store = (if e.state = new then s.store else s.store.commitEvent
            (.stationState a (e.position.getD 0) e.state new n .missed)))

/-- The decision on one report record (R125, R126, R127, R100): from an unknown reporter it is counted; otherwise a LOST or
SILENT station is revived first, and the report is a duplicate, accepted with its pair owed and its sequence kept, or
refused for space with the station left unacknowledged. A pair joins the owed list at its tail, or takes the place of the
pair with its address (R119). -/
def Obligations.ReportsAreDecided : Prop :=
  ∀ (n : Word) (item : ReportItem) (s : State),
    let count (f : ReportCounters → ReportCounters) (w : WindowUnit) : WindowUnit :=
      { w with counters := f w.counters }
    let owed := if ∃ p ∈ s.window.owed, p.address = item.address then
        s.window.owed.map (fun p => if p.address = item.address then ⟨item.address, item.sequence⟩ else p)
      else s.window.owed ++ [⟨item.address, item.sequence⟩]
    (findStation s.table item.address = none →
      decideReport n item s = { s with window :=
        (count (fun c => { c with unknownReporter := satInc c.unknownReporter }) s.window) }) ∧
    ∀ e v, findStation s.table item.address = some e →
      v = (if e.state = .lost ∨ e.state = .silent then
        { s with
          table := s.table.map (fun x =>
            if x.address = item.address then { x with state := .active, missCount := 0 } else x)
          store := s.store.commitEvent
            (.stationState item.address (e.position.getD 0) e.state .active 0 .report) }
        else s) →
      (e.lastAccepted = some item.sequence →
        decideReport n item s = { v with window :=
          { count (fun c => { c with duplicates := satInc c.duplicates }) s.window with owed := owed } }) ∧
      (e.lastAccepted ≠ some item.sequence → v.store.commitReport n item = none →
        decideReport n item s = { v with window :=
          (count (fun c => { c with refusedForSpace := satInc c.refusedForSpace }) s.window) }) ∧
      ∀ st, e.lastAccepted ≠ some item.sequence → v.store.commitReport n item = some st →
        decideReport n item s = { v with
          store := st
          table := v.table.map (fun x =>
            if x.address = item.address then { x with lastAccepted := some item.sequence } else x)
          window := { count (fun c => { c with accepted := satInc c.accepted }) s.window with owed := owed } }

/-- The size the store accounts for a record is the length of the delivery body that carries it (R133, R134, R177). -/
def Obligations.RecordSizeIsItsBodyLength : Prop :=
  ∀ r : Record, r.body.length = r.size

/-! ### Invariants -/

/-- Every step keeps the link's queues within their places, at most one reply of the Request Handler outstanding, a
soft reset pending exactly while RESET's reply is (R159, R160, R165, R168), and TXD idle only while nothing waits for it
(R163). -/
def Obligations.StepKeepsTheLinkSound : Prop :=
  ∀ s t : State, s.link.Bounded → s.TxdBusy → step s = .next t → t.link.Bounded ∧ t.TxdBusy

/-- Every step keeps the ring state, the Ring Port, the slot and the timers in agreement (R8, R65, R103, R106). -/
def Obligations.StepKeepsTheRingSound : Prop :=
  ∀ s t : State, s.RingSound → step s = .next t → t.RingSound

/-- Every step keeps the Cycle Engine's state, walk and budget in agreement with the plan (R41, R42, R54, R55). -/
def Obligations.StepKeepsTheCycleSound : Prop :=
  ∀ s t : State, s.CycleSound → step s = .next t → t.CycleSound

/-- Every step keeps the Station Table in its order and limits (R88, R89), and the plan within its limits, every entry
well formed and in one of the conditions of R29 (R23, R24). -/
def Obligations.StepKeepsTheTableAndThePlanSound : Prop :=
  ∀ s t : State, TableSound s.table → PlanSound s.plan → step s = .next t →
    TableSound t.table ∧ PlanSound t.plan

/-- Every step keeps the sent region before the unsent one, the sequences consecutive and the credits at most 255 (R133,
R135, R143, R144). The model's own flag that the event in progress has released space is clear between commands
(log 10). -/
def Obligations.StepKeepsTheStoreSound : Prop :=
  ∀ s t : State, s.store.Sound → s.store.releasedInEvent = false → step s = .next t →
    t.store.Sound ∧ t.store.releasedInEvent = false

/-- Every step keeps the store within 4096 bytes and 32 records, with one reservation for the cycle in RUNNING and CLOSING
and one for each urgent request, queued or in flight, of the sizes they asked for, and what their owners will commit
within them (R47, R73, R76, R133, R137, R138); and the Urgent Queue within 6 places with no tag twice (R71). -/
def Obligations.StepKeepsTheRoomAndItsOwners : Prop :=
  ∀ s t : State, s.RoomSound → s.CycleSound → PlanSound s.plan → step s = .next t → t.RoomSound

/-- Every step keeps the owed list within 24 pairs, one for each address, of sequences 0 to 7 (R119). -/
def Obligations.StepKeepsTheOwedListSound : Prop :=
  ∀ s t : State, OwedSound s.window.owed → TableSound s.table → step s = .next t → OwedSound t.window.owed

/-- Every invariant holds of State.reset. -/
def Obligations.ResetIsSound : Prop :=
  State.reset.link.Bounded ∧ State.reset.TxdBusy ∧ State.reset.RingSound ∧ State.reset.CycleSound ∧
  TableSound State.reset.table ∧ PlanSound State.reset.plan ∧ State.reset.store.Sound ∧
  State.reset.store.releasedInEvent = false ∧ State.reset.RoomSound ∧ OwedSound State.reset.window.owed
end

