-- ==== Sys2Proof/Laws/State.lean ====
section
/-!
SUPPORT. What each plain update of the state leaves as it was, field by field, true by unfolding: a later proof cites
these and never unfolds the update.
-/

namespace Sys2Proof.Machine

@[simp] theorem commitEvent_frame (e : Event) (s : State) :
    (commitEvent e s).resetAsserted = s.resetAsserted ∧ (commitEvent e s).link = s.link ∧
    (commitEvent e s).port = s.port ∧ (commitEvent e s).supervisor = s.supervisor ∧
    (commitEvent e s).table = s.table ∧ (commitEvent e s).plan = s.plan ∧ (commitEvent e s).cycle = s.cycle ∧
    (commitEvent e s).urgent = s.urgent ∧ (commitEvent e s).window = s.window ∧
    (commitEvent e s).notices = s.notices ∧ (commitEvent e s).pending = s.pending := by
  refine ⟨rfl, rfl, rfl, rfl, rfl, rfl, rfl, rfl, rfl, rfl, rfl⟩

@[simp] theorem convertReservation_frame (owner : ReservationOwner) (c : RecordContent) (s : State) :
    (convertReservation owner c s).resetAsserted = s.resetAsserted ∧
    (convertReservation owner c s).link = s.link ∧ (convertReservation owner c s).port = s.port ∧
    (convertReservation owner c s).supervisor = s.supervisor ∧ (convertReservation owner c s).table = s.table ∧
    (convertReservation owner c s).plan = s.plan ∧ (convertReservation owner c s).cycle = s.cycle ∧
    (convertReservation owner c s).urgent = s.urgent ∧ (convertReservation owner c s).window = s.window ∧
    (convertReservation owner c s).notices = s.notices ∧ (convertReservation owner c s).pending = s.pending := by
  refine ⟨rfl, rfl, rfl, rfl, rfl, rfl, rfl, rfl, rfl, rfl, rfl⟩

@[simp] theorem releaseReservation_frame (owner : ReservationOwner) (s : State) :
    (releaseReservation owner s).resetAsserted = s.resetAsserted ∧ (releaseReservation owner s).link = s.link ∧
    (releaseReservation owner s).port = s.port ∧ (releaseReservation owner s).supervisor = s.supervisor ∧
    (releaseReservation owner s).table = s.table ∧ (releaseReservation owner s).plan = s.plan ∧
    (releaseReservation owner s).cycle = s.cycle ∧ (releaseReservation owner s).urgent = s.urgent ∧
    (releaseReservation owner s).window = s.window ∧ (releaseReservation owner s).notices = s.notices ∧
    (releaseReservation owner s).pending = s.pending := by
  refine ⟨rfl, rfl, rfl, rfl, rfl, rfl, rfl, rfl, rfl, rfl, rfl⟩

@[simp] theorem giveBlockReports_frame (r : RingState) (s : State) :
    (giveBlockReports r s).resetAsserted = s.resetAsserted ∧ (giveBlockReports r s).link = s.link ∧
    (giveBlockReports r s).port = s.port ∧ (giveBlockReports r s).supervisor = s.supervisor ∧
    (giveBlockReports r s).table = s.table ∧ (giveBlockReports r s).plan = s.plan ∧
    (giveBlockReports r s).cycle = s.cycle ∧ (giveBlockReports r s).urgent = s.urgent ∧
    (giveBlockReports r s).window = s.window ∧ (giveBlockReports r s).store = s.store ∧
    (giveBlockReports r s).pending = s.pending := by
  refine ⟨rfl, rfl, rfl, rfl, rfl, rfl, rfl, rfl, rfl, rfl, rfl⟩

@[simp] theorem giveArbiterReport_frame (r : RingState) (s : State) :
    (giveArbiterReport r s).resetAsserted = s.resetAsserted ∧ (giveArbiterReport r s).link = s.link ∧
    (giveArbiterReport r s).port = s.port ∧ (giveArbiterReport r s).supervisor = s.supervisor ∧
    (giveArbiterReport r s).table = s.table ∧ (giveArbiterReport r s).plan = s.plan ∧
    (giveArbiterReport r s).cycle = s.cycle ∧ (giveArbiterReport r s).urgent = s.urgent ∧
    (giveArbiterReport r s).window = s.window ∧ (giveArbiterReport r s).store = s.store ∧
    (giveArbiterReport r s).pending = s.pending := by
  refine ⟨rfl, rfl, rfl, rfl, rfl, rfl, rfl, rfl, rfl, rfl, rfl⟩

@[simp] theorem giveReports_frame (r : RingState) (s : State) :
    (giveReports r s).resetAsserted = s.resetAsserted ∧ (giveReports r s).link = s.link ∧
    (giveReports r s).port = s.port ∧ (giveReports r s).supervisor = s.supervisor ∧
    (giveReports r s).table = s.table ∧ (giveReports r s).plan = s.plan ∧ (giveReports r s).cycle = s.cycle ∧
    (giveReports r s).urgent = s.urgent ∧ (giveReports r s).window = s.window ∧
    (giveReports r s).store = s.store ∧ (giveReports r s).pending = s.pending := by
  refine ⟨rfl, rfl, rfl, rfl, rfl, rfl, rfl, rfl, rfl, rfl, rfl⟩

@[simp] theorem startCirculation_frame (requester : Requester) (frame : FrameBody) (allowance : Nat) (s : State) :
    (startCirculation requester frame allowance s).resetAsserted = s.resetAsserted ∧
    (startCirculation requester frame allowance s).link = s.link ∧
    (startCirculation requester frame allowance s).supervisor = s.supervisor ∧
    (startCirculation requester frame allowance s).table = s.table ∧
    (startCirculation requester frame allowance s).plan = s.plan ∧
    (startCirculation requester frame allowance s).cycle = s.cycle ∧
    (startCirculation requester frame allowance s).urgent = s.urgent ∧
    (startCirculation requester frame allowance s).window = s.window ∧
    (startCirculation requester frame allowance s).store = s.store ∧
    (startCirculation requester frame allowance s).notices = s.notices ∧
    (startCirculation requester frame allowance s).pending = s.pending := by
  refine ⟨rfl, rfl, rfl, rfl, rfl, rfl, rfl, rfl, rfl, rfl, rfl⟩

@[simp] theorem commitStationState_frame (e : StationEntry) (new : StationState) (missCount : Nat) (cause : StationCause) (s : State) :
    (commitStationState e new missCount cause s).resetAsserted = s.resetAsserted ∧
    (commitStationState e new missCount cause s).link = s.link ∧
    (commitStationState e new missCount cause s).port = s.port ∧
    (commitStationState e new missCount cause s).supervisor = s.supervisor ∧
    (commitStationState e new missCount cause s).table = s.table ∧
    (commitStationState e new missCount cause s).plan = s.plan ∧
    (commitStationState e new missCount cause s).cycle = s.cycle ∧
    (commitStationState e new missCount cause s).urgent = s.urgent ∧
    (commitStationState e new missCount cause s).window = s.window ∧
    (commitStationState e new missCount cause s).notices = s.notices ∧
    (commitStationState e new missCount cause s).pending = s.pending := by
  refine ⟨rfl, rfl, rfl, rfl, rfl, rfl, rfl, rfl, rfl, rfl, rfl⟩

@[simp] theorem setLastAccepted_frame (address sequence : Byte) (s : State) :
    (setLastAccepted address sequence s).resetAsserted = s.resetAsserted ∧
    (setLastAccepted address sequence s).link = s.link ∧ (setLastAccepted address sequence s).port = s.port ∧
    (setLastAccepted address sequence s).supervisor = s.supervisor ∧
    (setLastAccepted address sequence s).plan = s.plan ∧ (setLastAccepted address sequence s).cycle = s.cycle ∧
    (setLastAccepted address sequence s).urgent = s.urgent ∧
    (setLastAccepted address sequence s).window = s.window ∧
    (setLastAccepted address sequence s).store = s.store ∧
    (setLastAccepted address sequence s).notices = s.notices ∧
    (setLastAccepted address sequence s).pending = s.pending := by
  refine ⟨rfl, rfl, rfl, rfl, rfl, rfl, rfl, rfl, rfl, rfl, rfl⟩

@[simp] theorem holdStart_frame (reason : HoldReason) (mark : Bool) (s : State) :
    (holdStart reason mark s).resetAsserted = s.resetAsserted ∧ (holdStart reason mark s).link = s.link ∧
    (holdStart reason mark s).port = s.port ∧ (holdStart reason mark s).supervisor = s.supervisor ∧
    (holdStart reason mark s).table = s.table ∧ (holdStart reason mark s).plan = s.plan ∧
    (holdStart reason mark s).urgent = s.urgent ∧ (holdStart reason mark s).window = s.window ∧
    (holdStart reason mark s).store = s.store ∧ (holdStart reason mark s).notices = s.notices ∧
    (holdStart reason mark s).pending = s.pending := by
  refine ⟨rfl, rfl, rfl, rfl, rfl, rfl, rfl, rfl, rfl, rfl, rfl⟩

@[simp] theorem startActions_frame (mark : Bool) (s : State) :
    (startActions mark s).resetAsserted = s.resetAsserted ∧ (startActions mark s).link = s.link ∧
    (startActions mark s).port = s.port ∧ (startActions mark s).supervisor = s.supervisor ∧
    (startActions mark s).table = s.table ∧ (startActions mark s).urgent = s.urgent ∧
    (startActions mark s).window = s.window ∧ (startActions mark s).store = s.store ∧
    (startActions mark s).notices = s.notices ∧ (startActions mark s).pending = s.pending := by
  refine ⟨rfl, rfl, rfl, rfl, rfl, rfl, rfl, rfl, rfl, rfl⟩

@[simp] theorem enterStopped_frame (s : State) :
    (enterStopped s).resetAsserted = s.resetAsserted ∧ (enterStopped s).link = s.link ∧
    (enterStopped s).port = s.port ∧ (enterStopped s).supervisor = s.supervisor ∧
    (enterStopped s).table = s.table ∧ (enterStopped s).plan = s.plan ∧ (enterStopped s).urgent = s.urgent ∧
    (enterStopped s).window = s.window ∧ (enterStopped s).notices = s.notices ∧
    (enterStopped s).pending = s.pending := by
  refine ⟨rfl, rfl, rfl, rfl, rfl, rfl, rfl, rfl, rfl, rfl⟩

@[simp] theorem settleCycle_frame (s : State) :
    (settleCycle s).resetAsserted = s.resetAsserted ∧ (settleCycle s).link = s.link ∧
    (settleCycle s).port = s.port ∧ (settleCycle s).supervisor = s.supervisor ∧
    (settleCycle s).table = s.table ∧ (settleCycle s).urgent = s.urgent ∧ (settleCycle s).window = s.window ∧
    (settleCycle s).notices = s.notices ∧ (settleCycle s).pending = s.pending := by
  refine ⟨rfl, rfl, rfl, rfl, rfl, rfl, rfl, rfl, rfl⟩

@[simp] theorem dropCycle_frame (reason : AbandonReason) (s : State) :
    (dropCycle reason s).resetAsserted = s.resetAsserted ∧ (dropCycle reason s).link = s.link ∧
    (dropCycle reason s).port = s.port ∧ (dropCycle reason s).supervisor = s.supervisor ∧
    (dropCycle reason s).table = s.table ∧ (dropCycle reason s).plan = s.plan ∧
    (dropCycle reason s).urgent = s.urgent ∧ (dropCycle reason s).window = s.window ∧
    (dropCycle reason s).notices = s.notices ∧ (dropCycle reason s).pending = s.pending := by
  refine ⟨rfl, rfl, rfl, rfl, rfl, rfl, rfl, rfl, rfl, rfl⟩

@[simp] theorem restartWalk_frame (s : State) :
    (restartWalk s).resetAsserted = s.resetAsserted ∧ (restartWalk s).link = s.link ∧
    (restartWalk s).port = s.port ∧ (restartWalk s).supervisor = s.supervisor ∧
    (restartWalk s).table = s.table ∧ (restartWalk s).plan = s.plan ∧ (restartWalk s).urgent = s.urgent ∧
    (restartWalk s).window = s.window ∧ (restartWalk s).store = s.store ∧ (restartWalk s).notices = s.notices ∧
    (restartWalk s).pending = s.pending := by
  refine ⟨rfl, rfl, rfl, rfl, rfl, rfl, rfl, rfl, rfl, rfl, rfl⟩

@[simp] theorem commitResult_frame (r : UrgentRequest) (outcome : ExchangeOutcome) (status : Option ReplyStatus) (attempts : Nat)
    (data : List Byte) (s : State) :
    (commitResult r outcome status attempts data s).resetAsserted = s.resetAsserted ∧
    (commitResult r outcome status attempts data s).link = s.link ∧
    (commitResult r outcome status attempts data s).port = s.port ∧
    (commitResult r outcome status attempts data s).supervisor = s.supervisor ∧
    (commitResult r outcome status attempts data s).table = s.table ∧
    (commitResult r outcome status attempts data s).plan = s.plan ∧
    (commitResult r outcome status attempts data s).cycle = s.cycle ∧
    (commitResult r outcome status attempts data s).urgent = s.urgent ∧
    (commitResult r outcome status attempts data s).window = s.window ∧
    (commitResult r outcome status attempts data s).notices = s.notices ∧
    (commitResult r outcome status attempts data s).pending = s.pending := by
  refine ⟨rfl, rfl, rfl, rfl, rfl, rfl, rfl, rfl, rfl, rfl, rfl⟩

@[simp] theorem claimWindow_frame (kind : WindowKind) (n : Word) (s : State) :
    (claimWindow kind n s).resetAsserted = s.resetAsserted ∧ (claimWindow kind n s).link = s.link ∧
    (claimWindow kind n s).supervisor = s.supervisor ∧ (claimWindow kind n s).table = s.table ∧
    (claimWindow kind n s).plan = s.plan ∧ (claimWindow kind n s).cycle = s.cycle ∧
    (claimWindow kind n s).urgent = s.urgent ∧ (claimWindow kind n s).store = s.store ∧
    (claimWindow kind n s).notices = s.notices ∧ (claimWindow kind n s).pending = s.pending := by
  refine ⟨rfl, rfl, rfl, rfl, rfl, rfl, rfl, rfl, rfl, rfl⟩

@[simp] theorem owe_frame (item : ReportItem) (s : State) :
    (owe item s).resetAsserted = s.resetAsserted ∧ (owe item s).link = s.link ∧ (owe item s).port = s.port ∧
    (owe item s).supervisor = s.supervisor ∧ (owe item s).table = s.table ∧ (owe item s).plan = s.plan ∧
    (owe item s).cycle = s.cycle ∧ (owe item s).urgent = s.urgent ∧ (owe item s).store = s.store ∧
    (owe item s).notices = s.notices ∧ (owe item s).pending = s.pending := by
  refine ⟨rfl, rfl, rfl, rfl, rfl, rfl, rfl, rfl, rfl, rfl, rfl⟩

@[simp] theorem countReport_frame (f : ReportCounters → ReportCounters) (s : State) :
    (countReport f s).resetAsserted = s.resetAsserted ∧ (countReport f s).link = s.link ∧
    (countReport f s).port = s.port ∧ (countReport f s).supervisor = s.supervisor ∧
    (countReport f s).table = s.table ∧ (countReport f s).plan = s.plan ∧ (countReport f s).cycle = s.cycle ∧
    (countReport f s).urgent = s.urgent ∧ (countReport f s).store = s.store ∧
    (countReport f s).notices = s.notices ∧ (countReport f s).pending = s.pending := by
  refine ⟨rfl, rfl, rfl, rfl, rfl, rfl, rfl, rfl, rfl, rfl, rfl⟩

@[simp] theorem claimCensus_frame (s : State) :
    (claimCensus s).resetAsserted = s.resetAsserted ∧ (claimCensus s).link = s.link ∧
    (claimCensus s).table = s.table ∧ (claimCensus s).plan = s.plan ∧ (claimCensus s).cycle = s.cycle ∧
    (claimCensus s).urgent = s.urgent ∧ (claimCensus s).window = s.window ∧ (claimCensus s).store = s.store ∧
    (claimCensus s).notices = s.notices ∧ (claimCensus s).pending = s.pending := by
  refine ⟨rfl, rfl, rfl, rfl, rfl, rfl, rfl, rfl, rfl, rfl⟩

@[simp] theorem changeRing_frame (new : RingState) (cause : RingCause) (faultAddress : Byte) (s : State) :
    (changeRing new cause faultAddress s).resetAsserted = s.resetAsserted ∧
    (changeRing new cause faultAddress s).link = s.link ∧ (changeRing new cause faultAddress s).port = s.port ∧
    (changeRing new cause faultAddress s).table = s.table ∧
    (changeRing new cause faultAddress s).plan = s.plan ∧
    (changeRing new cause faultAddress s).cycle = s.cycle ∧
    (changeRing new cause faultAddress s).urgent = s.urgent ∧
    (changeRing new cause faultAddress s).window = s.window ∧
    (changeRing new cause faultAddress s).notices = s.notices ∧
    (changeRing new cause faultAddress s).pending = s.pending := by
  refine ⟨rfl, rfl, rfl, rfl, rfl, rfl, rfl, rfl, rfl, rfl⟩

@[simp] theorem enterUp_frame (s : State) :
    (enterUp s).resetAsserted = s.resetAsserted ∧ (enterUp s).link = s.link ∧ (enterUp s).port = s.port ∧
    (enterUp s).table = s.table ∧ (enterUp s).plan = s.plan ∧ (enterUp s).cycle = s.cycle ∧
    (enterUp s).urgent = s.urgent ∧ (enterUp s).window = s.window ∧ (enterUp s).pending = s.pending := by
  refine ⟨rfl, rfl, rfl, rfl, rfl, rfl, rfl, rfl, rfl⟩

@[simp] theorem enterDown_frame (cause : RingCause) (s : State) :
    (enterDown cause s).resetAsserted = s.resetAsserted ∧ (enterDown cause s).link = s.link ∧
    (enterDown cause s).port = s.port ∧ (enterDown cause s).table = s.table ∧
    (enterDown cause s).plan = s.plan ∧ (enterDown cause s).cycle = s.cycle ∧
    (enterDown cause s).urgent = s.urgent ∧ (enterDown cause s).window = s.window ∧
    (enterDown cause s).pending = s.pending := by
  refine ⟨rfl, rfl, rfl, rfl, rfl, rfl, rfl, rfl, rfl⟩

@[simp] theorem enterFault_frame (cause : RingCause) (faultAddress : Byte) (s : State) :
    (enterFault cause faultAddress s).resetAsserted = s.resetAsserted ∧
    (enterFault cause faultAddress s).link = s.link ∧ (enterFault cause faultAddress s).port = s.port ∧
    (enterFault cause faultAddress s).table = s.table ∧ (enterFault cause faultAddress s).plan = s.plan ∧
    (enterFault cause faultAddress s).cycle = s.cycle ∧ (enterFault cause faultAddress s).urgent = s.urgent ∧
    (enterFault cause faultAddress s).window = s.window ∧ (enterFault cause faultAddress s).pending = s.pending := by
  refine ⟨rfl, rfl, rfl, rfl, rfl, rfl, rfl, rfl, rfl⟩

@[simp] theorem enterOff_frame (s : State) :
    (enterOff s).resetAsserted = s.resetAsserted ∧ (enterOff s).link = s.link ∧ (enterOff s).table = s.table ∧
    (enterOff s).plan = s.plan ∧ (enterOff s).cycle = s.cycle ∧ (enterOff s).urgent = s.urgent ∧
    (enterOff s).window = s.window ∧ (enterOff s).pending = s.pending := by
  refine ⟨rfl, rfl, rfl, rfl, rfl, rfl, rfl, rfl⟩

@[simp] theorem countCorrupt_frame (s : State) :
    (countCorrupt s).resetAsserted = s.resetAsserted ∧ (countCorrupt s).link = s.link ∧
    (countCorrupt s).supervisor = s.supervisor ∧ (countCorrupt s).table = s.table ∧
    (countCorrupt s).plan = s.plan ∧ (countCorrupt s).cycle = s.cycle ∧ (countCorrupt s).urgent = s.urgent ∧
    (countCorrupt s).window = s.window ∧ (countCorrupt s).store = s.store ∧
    (countCorrupt s).notices = s.notices ∧ (countCorrupt s).pending = s.pending := by
  refine ⟨rfl, rfl, rfl, rfl, rfl, rfl, rfl, rfl, rfl, rfl, rfl⟩

@[simp] theorem countStray_frame (s : State) :
    (countStray s).resetAsserted = s.resetAsserted ∧ (countStray s).link = s.link ∧
    (countStray s).supervisor = s.supervisor ∧ (countStray s).table = s.table ∧ (countStray s).plan = s.plan ∧
    (countStray s).cycle = s.cycle ∧ (countStray s).urgent = s.urgent ∧ (countStray s).window = s.window ∧
    (countStray s).store = s.store ∧ (countStray s).notices = s.notices ∧ (countStray s).pending = s.pending := by
  refine ⟨rfl, rfl, rfl, rfl, rfl, rfl, rfl, rfl, rfl, rfl, rfl⟩

@[simp] theorem frameSent_frame (s : State) :
    (frameSent s).resetAsserted = s.resetAsserted ∧ (frameSent s).link = s.link ∧
    (frameSent s).supervisor = s.supervisor ∧ (frameSent s).table = s.table ∧ (frameSent s).plan = s.plan ∧
    (frameSent s).cycle = s.cycle ∧ (frameSent s).urgent = s.urgent ∧ (frameSent s).window = s.window ∧
    (frameSent s).store = s.store ∧ (frameSent s).notices = s.notices ∧ (frameSent s).pending = s.pending := by
  refine ⟨rfl, rfl, rfl, rfl, rfl, rfl, rfl, rfl, rfl, rfl, rfl⟩

@[simp] theorem armFromStopped_frame (s : State) :
    (armFromStopped s).resetAsserted = s.resetAsserted ∧ (armFromStopped s).link = s.link ∧
    (armFromStopped s).port = s.port ∧ (armFromStopped s).supervisor = s.supervisor ∧
    (armFromStopped s).table = s.table ∧ (armFromStopped s).plan = s.plan ∧
    (armFromStopped s).urgent = s.urgent ∧ (armFromStopped s).window = s.window ∧
    (armFromStopped s).store = s.store ∧ (armFromStopped s).notices = s.notices ∧
    (armFromStopped s).pending = s.pending := by
  refine ⟨rfl, rfl, rfl, rfl, rfl, rfl, rfl, rfl, rfl, rfl, rfl⟩

@[simp] theorem clearCounters_frame (s : State) :
    (clearCounters s).resetAsserted = s.resetAsserted ∧ (clearCounters s).supervisor = s.supervisor ∧
    (clearCounters s).plan = s.plan ∧ (clearCounters s).urgent = s.urgent ∧ (clearCounters s).store = s.store ∧
    (clearCounters s).notices = s.notices ∧ (clearCounters s).pending = s.pending := by
  refine ⟨rfl, rfl, rfl, rfl, rfl, rfl, rfl⟩

@[simp] theorem placeReply_frame (r : Reply) (s : State) :
    (placeReply r s).resetAsserted = s.resetAsserted ∧ (placeReply r s).port = s.port ∧
    (placeReply r s).supervisor = s.supervisor ∧ (placeReply r s).table = s.table ∧
    (placeReply r s).plan = s.plan ∧ (placeReply r s).cycle = s.cycle ∧ (placeReply r s).urgent = s.urgent ∧
    (placeReply r s).window = s.window ∧ (placeReply r s).store = s.store ∧
    (placeReply r s).notices = s.notices ∧ (placeReply r s).pending = s.pending := by
  refine ⟨rfl, rfl, rfl, rfl, rfl, rfl, rfl, rfl, rfl, rfl, rfl⟩

@[simp] theorem countLink_frame (f : LinkCounters → LinkCounters) (s : State) :
    (countLink f s).resetAsserted = s.resetAsserted ∧ (countLink f s).port = s.port ∧
    (countLink f s).supervisor = s.supervisor ∧ (countLink f s).table = s.table ∧
    (countLink f s).plan = s.plan ∧ (countLink f s).cycle = s.cycle ∧ (countLink f s).urgent = s.urgent ∧
    (countLink f s).window = s.window ∧ (countLink f s).store = s.store ∧ (countLink f s).notices = s.notices ∧
    (countLink f s).pending = s.pending := by
  refine ⟨rfl, rfl, rfl, rfl, rfl, rfl, rfl, rfl, rfl, rfl, rfl⟩

@[simp] theorem lineIdle_frame (s : State) :
    (lineIdle s).resetAsserted = s.resetAsserted ∧ (lineIdle s).port = s.port ∧
    (lineIdle s).supervisor = s.supervisor ∧ (lineIdle s).table = s.table ∧ (lineIdle s).plan = s.plan ∧
    (lineIdle s).cycle = s.cycle ∧ (lineIdle s).urgent = s.urgent ∧ (lineIdle s).window = s.window ∧
    (lineIdle s).store = s.store ∧ (lineIdle s).notices = s.notices ∧ (lineIdle s).pending = s.pending := by
  refine ⟨rfl, rfl, rfl, rfl, rfl, rfl, rfl, rfl, rfl, rfl, rfl⟩

@[simp] theorem countCheckError_frame (s : State) :
    (countCheckError s).resetAsserted = s.resetAsserted ∧ (countCheckError s).port = s.port ∧
    (countCheckError s).supervisor = s.supervisor ∧ (countCheckError s).table = s.table ∧
    (countCheckError s).plan = s.plan ∧ (countCheckError s).cycle = s.cycle ∧
    (countCheckError s).urgent = s.urgent ∧ (countCheckError s).window = s.window ∧
    (countCheckError s).store = s.store ∧ (countCheckError s).notices = s.notices ∧
    (countCheckError s).pending = s.pending := by
  refine ⟨rfl, rfl, rfl, rfl, rfl, rfl, rfl, rfl, rfl, rfl, rfl⟩

@[simp] theorem linkReset_frame (s : State) :
    (linkReset s).resetAsserted = s.resetAsserted ∧ (linkReset s).port = s.port ∧
    (linkReset s).supervisor = s.supervisor ∧ (linkReset s).table = s.table ∧ (linkReset s).plan = s.plan ∧
    (linkReset s).cycle = s.cycle ∧ (linkReset s).urgent = s.urgent ∧ (linkReset s).window = s.window ∧
    (linkReset s).notices = s.notices ∧ (linkReset s).pending = s.pending := by
  refine ⟨rfl, rfl, rfl, rfl, rfl, rfl, rfl, rfl, rfl, rfl⟩

@[simp] theorem endBreak_frame (s : State) :
    (endBreak s).resetAsserted = s.resetAsserted ∧ (endBreak s).port = s.port ∧
    (endBreak s).supervisor = s.supervisor ∧ (endBreak s).table = s.table ∧ (endBreak s).plan = s.plan ∧
    (endBreak s).cycle = s.cycle ∧ (endBreak s).urgent = s.urgent ∧ (endBreak s).window = s.window ∧
    (endBreak s).store = s.store ∧ (endBreak s).notices = s.notices ∧ (endBreak s).pending = s.pending := by
  refine ⟨rfl, rfl, rfl, rfl, rfl, rfl, rfl, rfl, rfl, rfl, rfl⟩

end Sys2Proof.Machine
end

