-- ==== Sys2Proof/Laws/Frames.lean ====
section
/-!
SUPPORT. What each operation of the ring side leaves as it was: the fields no path of it touches.
-/

namespace Sys2Proof.Machine

@[simp] theorem arbitrate_frame (s : State) :
    (arbitrate s).resetAsserted = s.resetAsserted ∧ (arbitrate s).port = s.port ∧
    (arbitrate s).supervisor = s.supervisor ∧ (arbitrate s).table = s.table ∧ (arbitrate s).plan = s.plan ∧
    (arbitrate s).cycle = s.cycle ∧ (arbitrate s).urgent = s.urgent ∧ (arbitrate s).window = s.window ∧
    (arbitrate s).notices = s.notices ∧ (arbitrate s).pending = s.pending := by
  unfold arbitrate; (repeat' split) <;> simp

@[simp] theorem noteRelease_frame (s : State) :
    (noteRelease s).resetAsserted = s.resetAsserted ∧ (noteRelease s).link = s.link ∧
    (noteRelease s).port = s.port ∧ (noteRelease s).supervisor = s.supervisor ∧
    (noteRelease s).table = s.table ∧ (noteRelease s).plan = s.plan ∧ (noteRelease s).cycle = s.cycle ∧
    (noteRelease s).urgent = s.urgent ∧ (noteRelease s).window = s.window ∧ (noteRelease s).pending = s.pending := by
  unfold noteRelease; (repeat' split) <;> simp

@[simp] theorem finish_frame (s : State) :
    (finish s).resetAsserted = s.resetAsserted ∧ (finish s).port = s.port ∧
    (finish s).supervisor = s.supervisor ∧ (finish s).table = s.table ∧ (finish s).plan = s.plan ∧
    (finish s).cycle = s.cycle ∧ (finish s).urgent = s.urgent ∧ (finish s).window = s.window ∧
    (finish s).pending = s.pending := by
  simp [finish]

@[simp] theorem stationServed_frame (address : Byte) (s : State) :
    (stationServed address s).resetAsserted = s.resetAsserted ∧ (stationServed address s).link = s.link ∧
    (stationServed address s).port = s.port ∧ (stationServed address s).supervisor = s.supervisor ∧
    (stationServed address s).plan = s.plan ∧ (stationServed address s).cycle = s.cycle ∧
    (stationServed address s).urgent = s.urgent ∧ (stationServed address s).window = s.window ∧
    (stationServed address s).notices = s.notices ∧ (stationServed address s).pending = s.pending := by
  unfold stationServed; (repeat' split) <;> simp

@[simp] theorem stationMissed_frame (address : Byte) (s : State) :
    (stationMissed address s).resetAsserted = s.resetAsserted ∧ (stationMissed address s).link = s.link ∧
    (stationMissed address s).port = s.port ∧ (stationMissed address s).supervisor = s.supervisor ∧
    (stationMissed address s).plan = s.plan ∧ (stationMissed address s).cycle = s.cycle ∧
    (stationMissed address s).urgent = s.urgent ∧ (stationMissed address s).window = s.window ∧
    (stationMissed address s).notices = s.notices ∧ (stationMissed address s).pending = s.pending := by
  unfold stationMissed; dsimp only; (repeat' split) <;> simp

@[simp] theorem stationReported_frame (address : Byte) (s : State) :
    (stationReported address s).resetAsserted = s.resetAsserted ∧ (stationReported address s).link = s.link ∧
    (stationReported address s).port = s.port ∧ (stationReported address s).supervisor = s.supervisor ∧
    (stationReported address s).plan = s.plan ∧ (stationReported address s).cycle = s.cycle ∧
    (stationReported address s).urgent = s.urgent ∧ (stationReported address s).window = s.window ∧
    (stationReported address s).notices = s.notices ∧ (stationReported address s).pending = s.pending := by
  unfold stationReported; (repeat' split) <;> simp

@[simp] theorem replaceCensus_frame (census : List (Byte × Byte)) (s : State) :
    (replaceCensus census s).resetAsserted = s.resetAsserted ∧ (replaceCensus census s).link = s.link ∧
    (replaceCensus census s).port = s.port ∧ (replaceCensus census s).supervisor = s.supervisor ∧
    (replaceCensus census s).plan = s.plan ∧ (replaceCensus census s).cycle = s.cycle ∧
    (replaceCensus census s).urgent = s.urgent ∧ (replaceCensus census s).window = s.window ∧
    (replaceCensus census s).notices = s.notices ∧ (replaceCensus census s).pending = s.pending := by
  unfold replaceCensus; dsimp only; (repeat' split) <;> simp

@[simp] theorem startAttempt_frame (mark : Bool) (s : State) :
    (startAttempt mark s).resetAsserted = s.resetAsserted ∧ (startAttempt mark s).link = s.link ∧
    (startAttempt mark s).port = s.port ∧ (startAttempt mark s).supervisor = s.supervisor ∧
    (startAttempt mark s).table = s.table ∧ (startAttempt mark s).urgent = s.urgent ∧
    (startAttempt mark s).window = s.window ∧ (startAttempt mark s).notices = s.notices ∧
    (startAttempt mark s).pending = s.pending := by
  unfold startAttempt; (repeat' split) <;> simp

@[simp] theorem overrun_frame (s : State) :
    (overrun s).resetAsserted = s.resetAsserted ∧ (overrun s).link = s.link ∧ (overrun s).port = s.port ∧
    (overrun s).supervisor = s.supervisor ∧ (overrun s).table = s.table ∧ (overrun s).plan = s.plan ∧
    (overrun s).urgent = s.urgent ∧ (overrun s).window = s.window ∧ (overrun s).notices = s.notices ∧
    (overrun s).pending = s.pending := by
  unfold overrun; dsimp only; (repeat' split) <;> simp

@[simp] theorem startCause_frame (mark : Bool) (s : State) :
    (startCause mark s).resetAsserted = s.resetAsserted ∧ (startCause mark s).link = s.link ∧
    (startCause mark s).port = s.port ∧ (startCause mark s).supervisor = s.supervisor ∧
    (startCause mark s).table = s.table ∧ (startCause mark s).urgent = s.urgent ∧
    (startCause mark s).window = s.window ∧ (startCause mark s).notices = s.notices ∧
    (startCause mark s).pending = s.pending := by
  unfold startCause; (repeat' split) <;> simp

@[simp] theorem retryHeldStart_frame (s : State) :
    (retryHeldStart s).resetAsserted = s.resetAsserted ∧ (retryHeldStart s).link = s.link ∧
    (retryHeldStart s).port = s.port ∧ (retryHeldStart s).supervisor = s.supervisor ∧
    (retryHeldStart s).table = s.table ∧ (retryHeldStart s).urgent = s.urgent ∧
    (retryHeldStart s).window = s.window ∧ (retryHeldStart s).notices = s.notices ∧
    (retryHeldStart s).pending = s.pending := by
  unfold retryHeldStart; (repeat' split) <;> simp

@[simp] theorem armAfterCycle_frame (raise mark : Bool) (s : State) :
    (armAfterCycle raise mark s).resetAsserted = s.resetAsserted ∧ (armAfterCycle raise mark s).link = s.link ∧
    (armAfterCycle raise mark s).port = s.port ∧ (armAfterCycle raise mark s).supervisor = s.supervisor ∧
    (armAfterCycle raise mark s).table = s.table ∧ (armAfterCycle raise mark s).urgent = s.urgent ∧
    (armAfterCycle raise mark s).window = s.window ∧ (armAfterCycle raise mark s).notices = s.notices ∧
    (armAfterCycle raise mark s).pending = s.pending := by
  unfold armAfterCycle; dsimp only; (repeat' split) <;> simp

@[simp] theorem completeCycle_frame (s : State) :
    (completeCycle s).resetAsserted = s.resetAsserted ∧ (completeCycle s).link = s.link ∧
    (completeCycle s).port = s.port ∧ (completeCycle s).supervisor = s.supervisor ∧
    (completeCycle s).table = s.table ∧ (completeCycle s).urgent = s.urgent ∧
    (completeCycle s).window = s.window ∧ (completeCycle s).notices = s.notices ∧
    (completeCycle s).pending = s.pending := by
  unfold completeCycle; (repeat' split) <;> simp

@[simp] theorem abandonCycle_frame (reason : AbandonReason) (s : State) :
    (abandonCycle reason s).resetAsserted = s.resetAsserted ∧ (abandonCycle reason s).link = s.link ∧
    (abandonCycle reason s).port = s.port ∧ (abandonCycle reason s).supervisor = s.supervisor ∧
    (abandonCycle reason s).table = s.table ∧ (abandonCycle reason s).urgent = s.urgent ∧
    (abandonCycle reason s).window = s.window ∧ (abandonCycle reason s).notices = s.notices ∧
    (abandonCycle reason s).pending = s.pending := by
  unfold abandonCycle; (repeat' split) <;> simp

@[simp] theorem endWalk_frame (s : State) :
    (endWalk s).resetAsserted = s.resetAsserted ∧ (endWalk s).link = s.link ∧ (endWalk s).port = s.port ∧
    (endWalk s).supervisor = s.supervisor ∧ (endWalk s).table = s.table ∧ (endWalk s).urgent = s.urgent ∧
    (endWalk s).window = s.window ∧ (endWalk s).notices = s.notices ∧ (endWalk s).pending = s.pending := by
  unfold endWalk; (repeat' split) <;> simp

@[simp] theorem takeEntryOutcome_frame (o : EntryOutcome) (s : State) :
    (takeEntryOutcome o s).resetAsserted = s.resetAsserted ∧ (takeEntryOutcome o s).link = s.link ∧
    (takeEntryOutcome o s).port = s.port ∧ (takeEntryOutcome o s).supervisor = s.supervisor ∧
    (takeEntryOutcome o s).table = s.table ∧ (takeEntryOutcome o s).urgent = s.urgent ∧
    (takeEntryOutcome o s).window = s.window ∧ (takeEntryOutcome o s).notices = s.notices ∧
    (takeEntryOutcome o s).pending = s.pending := by
  unfold takeEntryOutcome; dsimp only; (repeat' split) <;> simp

@[simp] theorem takeWindowEnd_frame (n : Word) (e : WindowEnd) (s : State) :
    (takeWindowEnd n e s).resetAsserted = s.resetAsserted ∧ (takeWindowEnd n e s).link = s.link ∧
    (takeWindowEnd n e s).port = s.port ∧ (takeWindowEnd n e s).supervisor = s.supervisor ∧
    (takeWindowEnd n e s).table = s.table ∧ (takeWindowEnd n e s).urgent = s.urgent ∧
    (takeWindowEnd n e s).window = s.window ∧ (takeWindowEnd n e s).notices = s.notices ∧
    (takeWindowEnd n e s).pending = s.pending := by
  unfold takeWindowEnd; (repeat' split) <;> simp

@[simp] theorem countDispatch_frame (s : State) :
    (countDispatch s).resetAsserted = s.resetAsserted ∧ (countDispatch s).link = s.link ∧
    (countDispatch s).port = s.port ∧ (countDispatch s).supervisor = s.supervisor ∧
    (countDispatch s).table = s.table ∧ (countDispatch s).plan = s.plan ∧ (countDispatch s).urgent = s.urgent ∧
    (countDispatch s).window = s.window ∧ (countDispatch s).store = s.store ∧
    (countDispatch s).notices = s.notices ∧ (countDispatch s).pending = s.pending := by
  unfold countDispatch; dsimp only; (repeat' split) <;> simp

@[simp] theorem cycleTakesReport_frame (r : RingState) (s : State) :
    (cycleTakesReport r s).resetAsserted = s.resetAsserted ∧ (cycleTakesReport r s).link = s.link ∧
    (cycleTakesReport r s).port = s.port ∧ (cycleTakesReport r s).supervisor = s.supervisor ∧
    (cycleTakesReport r s).table = s.table ∧ (cycleTakesReport r s).urgent = s.urgent ∧
    (cycleTakesReport r s).window = s.window ∧ (cycleTakesReport r s).notices = s.notices ∧
    (cycleTakesReport r s).pending = s.pending := by
  unfold cycleTakesReport; (repeat' split) <;> simp

@[simp] theorem endInFlight_frame (outcome : ExchangeOutcome) (status : Option ReplyStatus) (attempts : Nat) (data : List Byte) (s : State) :
    (endInFlight outcome status attempts data s).resetAsserted = s.resetAsserted ∧
    (endInFlight outcome status attempts data s).link = s.link ∧
    (endInFlight outcome status attempts data s).port = s.port ∧
    (endInFlight outcome status attempts data s).supervisor = s.supervisor ∧
    (endInFlight outcome status attempts data s).table = s.table ∧
    (endInFlight outcome status attempts data s).plan = s.plan ∧
    (endInFlight outcome status attempts data s).cycle = s.cycle ∧
    (endInFlight outcome status attempts data s).window = s.window ∧
    (endInFlight outcome status attempts data s).notices = s.notices ∧
    (endInFlight outcome status attempts data s).pending = s.pending := by
  unfold endInFlight; (repeat' split) <;> simp

@[simp] theorem stopRequests_frame (l : List UrgentRequest) (s : State) :
    (stopRequests l s).resetAsserted = s.resetAsserted ∧ (stopRequests l s).link = s.link ∧
    (stopRequests l s).port = s.port ∧ (stopRequests l s).supervisor = s.supervisor ∧
    (stopRequests l s).table = s.table ∧ (stopRequests l s).plan = s.plan ∧
    (stopRequests l s).cycle = s.cycle ∧ (stopRequests l s).urgent = s.urgent ∧
    (stopRequests l s).window = s.window ∧ (stopRequests l s).notices = s.notices ∧
    (stopRequests l s).pending = s.pending := by
  induction l generalizing s with
  | nil => simp [stopRequests]
  | cons r rest ih => simp [stopRequests, ih]

@[simp] theorem urgentTakesReport_frame (r : RingState) (s : State) :
    (urgentTakesReport r s).resetAsserted = s.resetAsserted ∧ (urgentTakesReport r s).link = s.link ∧
    (urgentTakesReport r s).port = s.port ∧ (urgentTakesReport r s).supervisor = s.supervisor ∧
    (urgentTakesReport r s).table = s.table ∧ (urgentTakesReport r s).plan = s.plan ∧
    (urgentTakesReport r s).cycle = s.cycle ∧ (urgentTakesReport r s).window = s.window ∧
    (urgentTakesReport r s).notices = s.notices ∧ (urgentTakesReport r s).pending = s.pending := by
  unfold urgentTakesReport; (repeat' split) <;> simp

@[simp] theorem takeReport_frame (n : Word) (item : ReportItem) (s : State) :
    (takeReport n item s).resetAsserted = s.resetAsserted ∧ (takeReport n item s).link = s.link ∧
    (takeReport n item s).port = s.port ∧ (takeReport n item s).supervisor = s.supervisor ∧
    (takeReport n item s).plan = s.plan ∧ (takeReport n item s).cycle = s.cycle ∧
    (takeReport n item s).urgent = s.urgent ∧ (takeReport n item s).notices = s.notices ∧
    (takeReport n item s).pending = s.pending := by
  unfold takeReport; (repeat' split) <;> simp

@[simp] theorem decideReport_frame (n : Word) (item : ReportItem) (s : State) :
    (decideReport n item s).resetAsserted = s.resetAsserted ∧ (decideReport n item s).link = s.link ∧
    (decideReport n item s).port = s.port ∧ (decideReport n item s).supervisor = s.supervisor ∧
    (decideReport n item s).plan = s.plan ∧ (decideReport n item s).cycle = s.cycle ∧
    (decideReport n item s).urgent = s.urgent ∧ (decideReport n item s).notices = s.notices ∧
    (decideReport n item s).pending = s.pending := by
  unfold decideReport; dsimp only; (repeat' split) <;> simp

@[simp] theorem decideReports_frame (n : Word) (items : List ReportItem) (s : State) :
    ((decideReports n items s).2).resetAsserted = s.resetAsserted ∧
    ((decideReports n items s).2).link = s.link ∧ ((decideReports n items s).2).port = s.port ∧
    ((decideReports n items s).2).supervisor = s.supervisor ∧ ((decideReports n items s).2).plan = s.plan ∧
    ((decideReports n items s).2).cycle = s.cycle ∧ ((decideReports n items s).2).urgent = s.urgent ∧
    ((decideReports n items s).2).notices = s.notices ∧ ((decideReports n items s).2).pending = s.pending := by
  induction items generalizing s with
  | nil => simp [decideReports]
  | cons r rest ih => simp [decideReports, ih]

@[simp] theorem endWindow_frame (e : WindowEnd) (s : State) :
    (endWindow e s).resetAsserted = s.resetAsserted ∧ (endWindow e s).link = s.link ∧
    (endWindow e s).port = s.port ∧ (endWindow e s).supervisor = s.supervisor ∧
    (endWindow e s).table = s.table ∧ (endWindow e s).urgent = s.urgent ∧ (endWindow e s).notices = s.notices ∧
    (endWindow e s).pending = s.pending := by
  unfold endWindow; (repeat' split) <;> simp

@[simp] theorem windowGoodReturn_frame (reports : List ReportItem) (deferred : Nat) (s : State) :
    (windowGoodReturn reports deferred s).resetAsserted = s.resetAsserted ∧
    (windowGoodReturn reports deferred s).link = s.link ∧ (windowGoodReturn reports deferred s).port = s.port ∧
    (windowGoodReturn reports deferred s).supervisor = s.supervisor ∧
    (windowGoodReturn reports deferred s).urgent = s.urgent ∧
    (windowGoodReturn reports deferred s).notices = s.notices ∧
    (windowGoodReturn reports deferred s).pending = s.pending := by
  unfold windowGoodReturn; split <;> simp

@[simp] theorem windowTakesReport_frame (r : RingState) (s : State) :
    (windowTakesReport r s).resetAsserted = s.resetAsserted ∧ (windowTakesReport r s).link = s.link ∧
    (windowTakesReport r s).port = s.port ∧ (windowTakesReport r s).supervisor = s.supervisor ∧
    (windowTakesReport r s).table = s.table ∧ (windowTakesReport r s).plan = s.plan ∧
    (windowTakesReport r s).cycle = s.cycle ∧ (windowTakesReport r s).urgent = s.urgent ∧
    (windowTakesReport r s).store = s.store ∧ (windowTakesReport r s).notices = s.notices ∧
    (windowTakesReport r s).pending = s.pending := by
  unfold windowTakesReport; (repeat' split) <;> simp

/-- A claim of order 3 or 4 finds the window record empty, and a walking engine with no entry awaited. -/
theorem of_not_lowerOrdersWait {s : State} (h : ¬lowerOrdersWait s = true) :
    s.window.record = none ∧ (s.cycle.state = .running → s.cycle.awaiting = none) := by
  simp only [lowerOrdersWait, cycleClaimWaits, Bool.or_eq_true, Bool.and_eq_true, not_or, not_and, beq_iff_eq] at h
  exact ⟨by simpa using h.1, fun hr => by simpa using h.2.1 hr⟩

@[simp] theorem dispatchUrgent_frame (r : UrgentRequest) (rest : List UrgentRequest) (s : State) :
    (dispatchUrgent r rest s).resetAsserted = s.resetAsserted ∧ (dispatchUrgent r rest s).link = s.link ∧
    (dispatchUrgent r rest s).supervisor = s.supervisor ∧ (dispatchUrgent r rest s).table = s.table ∧
    (dispatchUrgent r rest s).plan = s.plan ∧ (dispatchUrgent r rest s).window = s.window ∧
    (dispatchUrgent r rest s).notices = s.notices ∧ (dispatchUrgent r rest s).pending = s.pending := by
  unfold dispatchUrgent; dsimp only; (repeat' split) <;> simp

@[simp] theorem cycleStep_frame (s : State) :
    (cycleStep s).resetAsserted = s.resetAsserted ∧ (cycleStep s).link = s.link ∧
    (cycleStep s).supervisor = s.supervisor ∧ (cycleStep s).table = s.table ∧ (cycleStep s).urgent = s.urgent ∧
    (cycleStep s).notices = s.notices ∧ (cycleStep s).pending = s.pending := by
  unfold cycleStep; dsimp only; (repeat' split) <;> simp

@[simp] theorem chooseWithin_frame (fuel : Nat) (s : State) :
    (chooseWithin fuel s).resetAsserted = s.resetAsserted ∧ (chooseWithin fuel s).link = s.link ∧
    (chooseWithin fuel s).table = s.table ∧ (chooseWithin fuel s).notices = s.notices ∧
    (chooseWithin fuel s).pending = s.pending := by
  induction fuel generalizing s with
  | zero => simp [chooseWithin]
  | succ n ih => unfold chooseWithin; (repeat' split) <;> simp [ih]

@[simp] theorem boundary_frame (s : State) :
    (boundary s).resetAsserted = s.resetAsserted ∧ (boundary s).link = s.link ∧ (boundary s).table = s.table ∧
    (boundary s).notices = s.notices ∧ (boundary s).pending = s.pending := by
  simp [boundary]

@[simp] theorem boundaryIf_frame (b : Bool) (s : State) :
    (boundaryIf b s).resetAsserted = s.resetAsserted ∧ (boundaryIf b s).link = s.link ∧
    (boundaryIf b s).table = s.table ∧ (boundaryIf b s).notices = s.notices ∧
    (boundaryIf b s).pending = s.pending := by
  unfold boundaryIf; (repeat' split) <;> simp

@[simp] theorem boundaryIfStarted_frame (before : State) (s : State) :
    (boundaryIfStarted before s).resetAsserted = s.resetAsserted ∧ (boundaryIfStarted before s).link = s.link ∧
    (boundaryIfStarted before s).table = s.table ∧ (boundaryIfStarted before s).notices = s.notices ∧
    (boundaryIfStarted before s).pending = s.pending := by
  simp [boundaryIfStarted]

@[simp] theorem arbiterTakesReport_frame (r : RingState) (s : State) :
    (arbiterTakesReport r s).resetAsserted = s.resetAsserted ∧ (arbiterTakesReport r s).link = s.link ∧
    (arbiterTakesReport r s).table = s.table ∧ (arbiterTakesReport r s).notices = s.notices ∧
    (arbiterTakesReport r s).pending = s.pending := by
  simp [arbiterTakesReport]

@[simp] theorem enterProbing_frame (cause : RingCause) (s : State) :
    (enterProbing cause s).resetAsserted = s.resetAsserted ∧ (enterProbing cause s).link = s.link ∧
    (enterProbing cause s).table = s.table ∧ (enterProbing cause s).pending = s.pending := by
  simp [enterProbing]

@[simp] theorem takeCensus_frame (overflow : Bool) (entries : List (Byte × Byte)) (s : State) :
    (takeCensus overflow entries s).resetAsserted = s.resetAsserted ∧
    (takeCensus overflow entries s).link = s.link ∧ (takeCensus overflow entries s).port = s.port ∧
    (takeCensus overflow entries s).plan = s.plan ∧ (takeCensus overflow entries s).cycle = s.cycle ∧
    (takeCensus overflow entries s).urgent = s.urgent ∧ (takeCensus overflow entries s).window = s.window ∧
    (takeCensus overflow entries s).pending = s.pending := by
  unfold takeCensus; dsimp only; (repeat' split) <;> simp

/-- What every taking of a report keeps, the taking of a list keeps. -/
theorem takeAll_induct {P : State → Prop} (take : RingState → State → State) (ht : ∀ r {s : State}, P s → P (take r s))
    (l : List RingState) {s : State} (h : P s) : P (takeAll take l s) := by
  induction l generalizing s with
  | nil => exact h
  | cons r rest ih => exact ih (ht r h)

theorem takeAll_keeps {α : Type} (p : State → α) (take : RingState → State → State)
    (h : ∀ r s, p (take r s) = p s) (l : List RingState) (s : State) : p (takeAll take l s) = p s := by
  induction l generalizing s with
  | nil => rfl
  | cons r rest ih => simp [takeAll, ih, h]

@[simp] theorem takeWaitingReports_frame (s : State) :
    (takeWaitingReports s).resetAsserted = s.resetAsserted ∧ (takeWaitingReports s).link = s.link ∧
    (takeWaitingReports s).table = s.table ∧ (takeWaitingReports s).pending = s.pending := by
  refine ⟨?_, ?_, ?_, ?_⟩
  · simp [takeWaitingReports, takeAll_keeps (fun t => t.resetAsserted)]
  · simp [takeWaitingReports, takeAll_keeps (fun t => t.link)]
  · simp [takeWaitingReports, takeAll_keeps (fun t => t.table)]
  · simp [takeWaitingReports, takeAll_keeps (fun t => t.pending)]

@[simp] theorem takeLostReturn_frame (s : State) :
    (takeLostReturn s).resetAsserted = s.resetAsserted ∧ (takeLostReturn s).link = s.link ∧
    (takeLostReturn s).table = s.table ∧ (takeLostReturn s).pending = s.pending := by
  unfold takeLostReturn; (repeat' split) <;> simp

@[simp] theorem compareHops_frame (hop : Byte) (s : State) :
    (compareHops hop s).resetAsserted = s.resetAsserted ∧ (compareHops hop s).link = s.link ∧
    (compareHops hop s).table = s.table ∧ (compareHops hop s).plan = s.plan ∧
    (compareHops hop s).cycle = s.cycle ∧ (compareHops hop s).urgent = s.urgent ∧
    (compareHops hop s).window = s.window ∧ (compareHops hop s).store = s.store ∧
    (compareHops hop s).notices = s.notices ∧ (compareHops hop s).pending = s.pending := by
  unfold compareHops; (repeat' split) <;> simp

@[simp] theorem handHops_frame (frame : FrameBody) (hop : Option Byte) (s : State) :
    (handHops frame hop s).resetAsserted = s.resetAsserted ∧ (handHops frame hop s).link = s.link ∧
    (handHops frame hop s).table = s.table ∧ (handHops frame hop s).plan = s.plan ∧
    (handHops frame hop s).cycle = s.cycle ∧ (handHops frame hop s).urgent = s.urgent ∧
    (handHops frame hop s).window = s.window ∧ (handHops frame hop s).store = s.store ∧
    (handHops frame hop s).notices = s.notices ∧ (handHops frame hop s).pending = s.pending := by
  unfold handHops; (repeat' split) <;> simp

@[simp] theorem handTable_frame (frame : FrameBody) (res : CirculationResult) (s : State) :
    (handTable frame res s).resetAsserted = s.resetAsserted ∧ (handTable frame res s).link = s.link ∧
    (handTable frame res s).port = s.port ∧ (handTable frame res s).supervisor = s.supervisor ∧
    (handTable frame res s).plan = s.plan ∧ (handTable frame res s).cycle = s.cycle ∧
    (handTable frame res s).urgent = s.urgent ∧ (handTable frame res s).window = s.window ∧
    (handTable frame res s).notices = s.notices ∧ (handTable frame res s).pending = s.pending := by
  unfold handTable; (repeat' split) <;> simp

@[simp] theorem handLost_frame (requester : Requester) (res : CirculationResult) (s : State) :
    (handLost requester res s).resetAsserted = s.resetAsserted ∧ (handLost requester res s).link = s.link ∧
    (handLost requester res s).table = s.table ∧ (handLost requester res s).pending = s.pending := by
  unfold handLost; (repeat' split) <;> simp

@[simp] theorem handUrgent_frame (res : CirculationResult) (attempts : Nat) (s : State) :
    (handUrgent res attempts s).resetAsserted = s.resetAsserted ∧ (handUrgent res attempts s).link = s.link ∧
    (handUrgent res attempts s).port = s.port ∧ (handUrgent res attempts s).supervisor = s.supervisor ∧
    (handUrgent res attempts s).table = s.table ∧ (handUrgent res attempts s).plan = s.plan ∧
    (handUrgent res attempts s).cycle = s.cycle ∧ (handUrgent res attempts s).window = s.window ∧
    (handUrgent res attempts s).notices = s.notices ∧ (handUrgent res attempts s).pending = s.pending := by
  unfold handUrgent; (repeat' split) <;> simp

@[simp] theorem handCycle_frame (res : CirculationResult) (s : State) :
    (handCycle res s).resetAsserted = s.resetAsserted ∧ (handCycle res s).link = s.link ∧
    (handCycle res s).port = s.port ∧ (handCycle res s).supervisor = s.supervisor ∧
    (handCycle res s).table = s.table ∧ (handCycle res s).urgent = s.urgent ∧
    (handCycle res s).window = s.window ∧ (handCycle res s).notices = s.notices ∧
    (handCycle res s).pending = s.pending := by
  unfold handCycle; (repeat' split) <;> simp

@[simp] theorem handWindow_frame (res : CirculationResult) (s : State) :
    (handWindow res s).resetAsserted = s.resetAsserted ∧ (handWindow res s).link = s.link ∧
    (handWindow res s).port = s.port ∧ (handWindow res s).supervisor = s.supervisor ∧
    (handWindow res s).urgent = s.urgent ∧ (handWindow res s).notices = s.notices ∧
    (handWindow res s).pending = s.pending := by
  unfold handWindow; (repeat' split) <;> simp

@[simp] theorem handCensus_frame (res : CirculationResult) (s : State) :
    (handCensus res s).resetAsserted = s.resetAsserted ∧ (handCensus res s).link = s.link ∧
    (handCensus res s).port = s.port ∧ (handCensus res s).plan = s.plan ∧ (handCensus res s).cycle = s.cycle ∧
    (handCensus res s).urgent = s.urgent ∧ (handCensus res s).window = s.window ∧
    (handCensus res s).pending = s.pending := by
  unfold handCensus; (repeat' split) <;> simp

@[simp] theorem handRequester_frame (requester : Requester) (res : CirculationResult) (attempts : Nat) (s : State) :
    (handRequester requester res attempts s).resetAsserted = s.resetAsserted ∧
    (handRequester requester res attempts s).link = s.link ∧
    (handRequester requester res attempts s).pending = s.pending := by
  unfold handRequester; (repeat' split) <;> simp

@[simp] theorem endCirculation_frame (c : Circulation) (res : CirculationResult) (hop : Option Byte) (s : State) :
    (endCirculation c res hop s).resetAsserted = s.resetAsserted ∧ (endCirculation c res hop s).link = s.link ∧
    (endCirculation c res hop s).pending = s.pending := by
  simp [endCirculation]

@[simp] theorem retryOrEnd_frame (c : Circulation) (failure : CirculationResult) (s : State) :
    (retryOrEnd c failure s).resetAsserted = s.resetAsserted ∧ (retryOrEnd c failure s).link = s.link ∧
    (retryOrEnd c failure s).pending = s.pending := by
  unfold retryOrEnd; (repeat' split) <;> simp

@[simp] theorem corruptReturn_frame (c : Circulation) (s : State) :
    (corruptReturn c s).resetAsserted = s.resetAsserted ∧ (corruptReturn c s).link = s.link ∧
    (corruptReturn c s).pending = s.pending := by
  simp [corruptReturn]

@[simp] theorem judgeAwaited_frame (c : Circulation) (bytes : List Byte) (s : State) :
    (judgeAwaited c bytes s).resetAsserted = s.resetAsserted ∧ (judgeAwaited c bytes s).link = s.link ∧
    (judgeAwaited c bytes s).pending = s.pending := by
  unfold judgeAwaited; (repeat' split) <;> simp

@[simp] theorem judgeUnawaited_frame (bytes : List Byte) (s : State) :
    (judgeUnawaited bytes s).resetAsserted = s.resetAsserted ∧ (judgeUnawaited bytes s).link = s.link ∧
    (judgeUnawaited bytes s).supervisor = s.supervisor ∧ (judgeUnawaited bytes s).table = s.table ∧
    (judgeUnawaited bytes s).plan = s.plan ∧ (judgeUnawaited bytes s).cycle = s.cycle ∧
    (judgeUnawaited bytes s).urgent = s.urgent ∧ (judgeUnawaited bytes s).window = s.window ∧
    (judgeUnawaited bytes s).store = s.store ∧ (judgeUnawaited bytes s).notices = s.notices ∧
    (judgeUnawaited bytes s).pending = s.pending := by
  unfold judgeUnawaited; (repeat' split) <;> simp

@[simp] theorem judgeFrame_frame (bytes : List Byte) (s : State) :
    (judgeFrame bytes s).resetAsserted = s.resetAsserted ∧ (judgeFrame bytes s).link = s.link ∧
    (judgeFrame bytes s).pending = s.pending := by
  unfold judgeFrame; (repeat' split) <;> simp

@[simp] theorem loseAttempt_frame (c : Circulation) (s : State) :
    (loseAttempt c s).resetAsserted = s.resetAsserted ∧ (loseAttempt c s).link = s.link ∧
    (loseAttempt c s).pending = s.pending := by
  simp [loseAttempt]

@[simp] theorem cycleActsOnReport_frame (r : RingState) (s : State) :
    (cycleActsOnReport r s).resetAsserted = s.resetAsserted ∧ (cycleActsOnReport r s).link = s.link ∧
    (cycleActsOnReport r s).table = s.table ∧ (cycleActsOnReport r s).notices = s.notices ∧
    (cycleActsOnReport r s).pending = s.pending := by
  unfold cycleActsOnReport; dsimp only; (repeat' split) <;> simp

@[simp] theorem expireRequest_frame (r : UrgentRequest) (s : State) :
    (expireRequest r s).resetAsserted = s.resetAsserted ∧ (expireRequest r s).link = s.link ∧
    (expireRequest r s).table = s.table ∧ (expireRequest r s).notices = s.notices ∧
    (expireRequest r s).pending = s.pending := by
  simp [expireRequest]

end Sys2Proof.Machine
end

