-- ==== Sys2Proof/Laws/Handler.lean ====
section
/-!
SUPPORT. The Request Handler: what any decision leaves as it was, how a request's body is read back, and what the
arrival of a request comes to when the handler is free.
-/

namespace Sys2Proof.Machine

/-! ### Decisions -/

@[simp] theorem accept_state (p : List Byte) (s : State) : (accept p s).state = s := rfl

@[simp] theorem refuse_state (r : Reason) (s : State) : (refuse r s).state = s := rfl

@[simp] theorem accept_reason (p : List Byte) (s : State) : (accept p s).reason = none := rfl

@[simp] theorem refuse_reason (r : Reason) (s : State) : (refuse r s).reason = some r := rfl

@[simp] theorem accept_payload (p : List Byte) (s : State) : (accept p s).payload = p := rfl

@[simp] theorem refuse_payload (r : Reason) (s : State) : (refuse r s).payload = [] := rfl

/-- The link's queues, its message on TXD and its receiver: all of it but counters and the pending soft reset. -/
def Link.traffic (l : Link) : Link := { l with counters := {}, softResetPending := false }

/-- No decision touches the reset line, the queue of commands, or the traffic of the link. -/
theorem decideRequest_frame (type : RequestType) (tag : Byte) (payload : List Byte) (s : State) :
    (decideRequest type tag payload s).state.resetAsserted = s.resetAsserted ∧
    (decideRequest type tag payload s).state.pending = s.pending ∧
    (decideRequest type tag payload s).state.link.traffic = s.link.traffic := by
  cases type <;> simp only [decideRequest] <;> (repeat' split) <;>
    simp [decideConfigureRing, decideStartRing, decideStopRing, decideCensus, decideClearPlan, decideAddEntry,
      decideSetEnable, decideWriteOutput, decideReadInput, decideConfigureCycle, decideStartCycle,
      decideStopCycle, decideTriggerCycle, decideUrgent, decideCancel, decideOpenWindow, decideGrant,
      decideAckDeliveries, decideRewind, decideQueryStatus, decideQueryStation, decideQueryCounters,
      decideReset, clearCounters, Link.traffic] <;>
    (repeat' split) <;> simp

/-- Only an accepted RESET makes a soft reset pending; nothing a decision does ends one. -/
theorem decideRequest_softResetPending (type : RequestType) (tag : Byte) (payload : List Byte) (s : State) :
    (decideRequest type tag payload s).state.link.softResetPending =
      (s.link.softResetPending || (type == .reset && payload.isEmpty)) := by
  cases type <;> simp only [decideRequest] <;> (repeat' split) <;>
    simp [decideConfigureRing, decideStartRing, decideStopRing, decideCensus, decideClearPlan, decideAddEntry,
      decideSetEnable, decideWriteOutput, decideReadInput, decideConfigureCycle, decideStartCycle,
      decideStopCycle, decideTriggerCycle, decideUrgent, decideCancel, decideOpenWindow, decideGrant,
      decideAckDeliveries, decideRewind, decideQueryStatus, decideQueryStation, decideQueryCounters,
      decideReset, clearCounters] <;>
    (repeat' split) <;> simp_all

/-- RESET is accepted exactly with an empty payload. -/
theorem decideRequest_reset_reason (tag : Byte) (payload : List Byte) (s : State) :
    (decideRequest .reset tag payload s).reason = none ↔ payload = [] := by
  cases payload <;> simp [decideRequest, decideReset]

/-! ### Reading a body back -/

@[simp] theorem requestTypeOfCode_code (t : RequestType) : requestTypeOfCode t.code = some t := by
  cases t <;> decide

@[simp] theorem halfOf_extract (h : Half) : halfOf (h.extractLsb' 8 8) (h.extractLsb' 0 8) = h := by
  unfold halfOf; ext i hi; simp; grind

@[simp] theorem wordOf_extract (w : Word) :
    wordOf (w.extractLsb' 24 8) (w.extractLsb' 16 8) (w.extractLsb' 8 8) (w.extractLsb' 0 8) = w := by
  unfold wordOf; ext i hi; simp; grind

/-! ### The arrival of a request -/

/-- A request of the host is the arrival of its message. -/
theorem exec_requestOf {c : Instr} {type : RequestType} {tag : Byte} {payload : List Byte}
    (h : requestOf c = some (type, tag, payload)) (s : State) :
    exec c s = .next (receiveRequest type tag payload s) := by
  cases c <;> simp only [requestOf, Option.some.injEq, Prod.mk.injEq, reduceCtorEq] at h <;>
    obtain ⟨rfl, rfl, rfl⟩ := h <;> rfl

theorem handleRequest_requestBody (type : RequestType) (tag : Byte) (payload : List Byte) (s : State) :
    handleRequest (requestBody type tag payload) s = answer type tag (decideRequest type tag payload s) := by
  simp [handleRequest, requestBody]

/-- A request that finds the handler free is decided in the event of its arrival (R160, R162). -/
theorem receiveRequest_ready {s : State} (h : s.ready = true) (type : RequestType) (tag : Byte)
    (payload : List Byte) :
    receiveRequest type tag payload s =
      finish (answer type tag (decideRequest type tag payload s.arrived)) := by
  simp only [State.ready, Bool.and_eq_true, List.isEmpty_iff] at h
  obtain ⟨⟨hr, hi⟩, hf⟩ := h
  have hf' : (s.arrived).link.handlerFree = true := hf
  have e : handlerTake { s.arrived with link :=
      { s.arrived.link with inbox := s.arrived.link.inbox ++ [requestBody type tag payload] } } =
      answer type tag (decideRequest type tag payload s.arrived) := by
    have hi' : s.arrived.link.inbox = [] := hi
    rw [hi', handlerTake]
    simp only [List.nil_append]
    rw [if_pos (by simpa [Link.handlerFree, Link.handlerWaiting] using hf'), handleRequest_requestBody]
    rw [← hi']
  rw [receiveRequest, if_pos hr, takeGood]
  have hl : (countLink (fun c => { c with requestsReceived := satInc c.requestsReceived })
      (lineIdle { s with link := s.link.hunt })).link.inbox.length < inboxPlaces := by
    simp [countLink, lineIdle, Link.hunt, hi, inboxPlaces]
  rw [if_pos hl]
  exact congrArg finish e

/-- While no character can be received, a request does not arrive (R152, R153). -/
theorem receiveRequest_deaf {s : State} (h : s.receiving = false) (type : RequestType) (tag : Byte)
    (payload : List Byte) : receiveRequest type tag payload s = s := by
  simp [receiveRequest, h]

end Sys2Proof.Machine
end

