-- ==== Sys2Proof/Laws/Store.lean ====
section
/-!
SUPPORT. The Delivery Store: every operation of the store keeps Store.Sound.
-/

namespace Sys2Proof.Machine

/-! ### The regions, as a split of the list -/

@[simp] theorem isUnsent_unsent (c : RecordContent) (q : Half) : Record.isUnsent ⟨c, q, .unsent⟩ = true := rfl

/-- The list is sent records followed by unsent ones. -/
def SentThenUnsent (l : List Record) : Prop :=
  ∃ a b, l = a ++ b ∧ (∀ r ∈ a, r.isUnsent = false) ∧ ∀ r ∈ b, r.isUnsent = true

theorem regions_iff (st : Store) :
    st.records.map Record.isUnsent =
        List.replicate st.sentCount false ++ List.replicate st.unsentCount true ↔
      SentThenUnsent st.records := by
  constructor
  · intro h
    obtain ⟨a, b, hl, ha, hb⟩ := List.map_eq_append_iff.mp h
    refine ⟨a, b, hl, ?_, ?_⟩
    · intro r hr
      have := List.eq_replicate_iff.mp ha
      exact this.2 _ (List.mem_map_of_mem hr)
    · intro r hr
      have := List.eq_replicate_iff.mp hb
      exact this.2 _ (List.mem_map_of_mem hr)
  · rintro ⟨a, b, hl, ha, hb⟩
    have ca : a.countP Record.isUnsent = 0 := by rw [List.countP_eq_zero]; intro r hr; simp [ha r hr]
    have ca' : a.countP (fun r => !r.isUnsent) = a.length := by
      rw [List.countP_eq_length]; intro r hr; simp [ha r hr]
    have cb : b.countP Record.isUnsent = b.length := by rw [List.countP_eq_length]; exact hb
    have cb' : b.countP (fun r => !r.isUnsent) = 0 := by rw [List.countP_eq_zero]; intro r hr; simp [hb r hr]
    rw [Store.sentCount, Store.unsentCount, hl, List.map_append, List.countP_append, List.countP_append, ca, ca',
      cb, cb']
    simp only [Nat.add_zero, Nat.zero_add]
    congr 1
    · exact List.eq_replicate_iff.mpr ⟨by simp, by simpa using ha⟩
    · exact List.eq_replicate_iff.mpr ⟨by simp, by simpa using hb⟩

/-- The sequences of a list end just before a counter and are consecutive. -/
def Consecutive (l : List Record) (next : Half) : Prop :=
  ∀ i r, l[i]? = some r → r.sequence + BitVec.ofNat 16 (l.length - i) = next

theorem Store.Sound.mk' {st : Store} (h1 : SentThenUnsent st.records) (h2 : Consecutive st.records st.nextSequence)
    (h3 : st.credits ≤ 255) : st.Sound := ⟨(regions_iff st).mpr h1, h2, h3⟩

theorem Store.Sound.split {st : Store} (h : st.Sound) :
    SentThenUnsent st.records ∧ Consecutive st.records st.nextSequence ∧ st.credits ≤ 255 :=
  ⟨(regions_iff st).mp h.regions, h.sequences, h.credits⟩

theorem SentThenUnsent.append {l : List Record} (h : SentThenUnsent l) {r : Record} (hr : r.isUnsent = true) :
    SentThenUnsent (l ++ [r]) := by
  obtain ⟨a, b, rfl, ha, hb⟩ := h
  exact ⟨a, b ++ [r], by simp, ha, by simpa [or_imp, forall_and] using ⟨hb, hr⟩⟩

theorem SentThenUnsent.drop {l : List Record} (h : SentThenUnsent l) (n : Nat) : SentThenUnsent (l.drop n) := by
  obtain ⟨a, b, rfl, ha, hb⟩ := h
  exact ⟨a.drop n, b.drop (n - a.length), by rw [List.drop_append], fun r hr => ha r (List.mem_of_mem_drop hr),
    fun r hr => hb r (List.mem_of_mem_drop hr)⟩

theorem Consecutive.append {l : List Record} {next : Half} (h : Consecutive l next) (c : RecordContent)
    (g : Region) : Consecutive (l ++ [⟨c, next, g⟩]) (next + 1#16) := by
  intro i r hi
  rw [List.getElem?_append] at hi
  split at hi
  · rename_i hlt
    have := h i r hi
    rw [List.length_append, List.length_singleton, ← this, BitVec.add_assoc]
    congr 1
    rw [show l.length + 1 - i = (l.length - i) + 1 by omega, BitVec.ofNat_add]
  · rename_i hlt
    have hn : i - l.length = 0 := by
      rcases Nat.eq_zero_or_pos (i - l.length) with h0 | h0
      · exact h0
      · rw [List.getElem?_eq_none (by simp; omega)] at hi; cases hi
    rw [hn] at hi
    simp at hi
    subst hi
    have : i = l.length := by omega
    subst this
    simp

theorem Consecutive.drop {l : List Record} {next : Half} (h : Consecutive l next) (n : Nat) :
    Consecutive (l.drop n) next := by
  intro i r hi
  rw [List.getElem?_drop] at hi
  have := h _ r hi
  rw [List.length_drop, ← this]
  congr 2
  omega

/-- Records changed one for one, each keeping its sequence, stay consecutive. -/
theorem Consecutive.of_sequences {l m : List Record} {next : Half} (h : Consecutive l next)
    (e : m.map (fun r => r.sequence) = l.map (fun r => r.sequence)) : Consecutive m next := by
  intro i r hi
  have hlen : m.length = l.length := by simpa using congrArg List.length e
  have h1 : (m.map (fun r => r.sequence))[i]? = some r.sequence := by simp [hi]
  rw [e, List.getElem?_map] at h1
  cases hl : l[i]? with
  | none => rw [hl] at h1; simp at h1
  | some x =>
    rw [hl] at h1
    simp at h1
    rw [hlen, ← h1]
    exact h i x hl

/-! ### The store's operations -/

theorem sound_append {st : Store} (h : st.Sound) (c : RecordContent) : (st.append c).Sound := by
  obtain ⟨h1, h2, h3⟩ := h.split
  exact .mk' (h1.append rfl) (h2.append c .unsent) h3

theorem Store.Sound.of_eq {st st' : Store} (h : st.Sound) (e1 : st'.records = st.records)
    (e2 : st'.nextSequence = st.nextSequence) (e3 : st'.credits = st.credits) : st'.Sound := by
  obtain ⟨h1, h2, h3⟩ := h.split
  exact .mk' (by rwa [e1]) (by rwa [e1, e2]) (by rwa [e3])

theorem sendOldest_sequences (l : List Record) :
    (sendOldest l).map (fun r => r.sequence) = l.map (fun r => r.sequence) := by
  induction l with
  | nil => rfl
  | cons r rest ih => unfold sendOldest; split <;> simp [ih]

theorem sendOldest_append_sent {a : List Record} (ha : ∀ r ∈ a, r.isUnsent = false) (b : List Record) :
    sendOldest (a ++ b) = a ++ sendOldest b := by
  induction a with
  | nil => rfl
  | cons r rest ih =>
    have hr := ha r (by simp)
    simp [sendOldest, hr, ih (fun x hx => ha x (by simp [hx]))]

theorem sound_beginTransmission {st : Store} (h : st.Sound) : st.beginTransmission.Sound := by
  obtain ⟨⟨a, b, hl, ha, hb⟩, h2, h3⟩ := h.split
  refine .mk' ?_ (h2.of_sequences (sendOldest_sequences _)) (by simp only [Store.beginTransmission]; omega)
  simp only [Store.beginTransmission, hl, sendOldest_append_sent ha]
  cases b with
  | nil => exact ⟨a, [], by simp [sendOldest], ha, by simp⟩
  | cons r rest =>
    have hr := hb r (by simp)
    refine ⟨a ++ [{ r with region := .sentUnacknowledged }], rest, by simp [sendOldest, hr], ?_,
      fun x hx => hb x (by simp [hx])⟩
    intro x hx
    rcases List.mem_append.mp hx with hx | hx
    · exact ha x hx
    · rw [List.mem_singleton.mp hx]; rfl

theorem sound_grantCredits {st : Store} (h : st.Sound) (n : Nat) : (st.grantCredits n).Sound := by
  obtain ⟨h1, h2, h3⟩ := h.split
  exact .mk' h1 h2 (Nat.min_le_left _ _)

theorem sound_releaseThrough {st : Store} (h : st.Sound) (place : Nat) : (st.releaseThrough place).Sound := by
  obtain ⟨h1, h2, h3⟩ := h.split
  exact .mk' (h1.drop _) (h2.drop _) h3

theorem unsend_isUnsent (r : Record) : r.unsend.isUnsent = true := rfl

theorem sound_unsendFrom {st : Store} (h : st.Sound) {place : Nat} {sequence : Half}
    (hp : st.sentPlace sequence = some place) : (st.unsendFrom place).Sound := by
  obtain ⟨⟨a, b, hl, ha, hb⟩, h2, h3⟩ := h.split
  have hlt : place < a.length := by
    rw [Store.sentPlace, List.findIdx?_eq_some_iff_getElem] at hp
    obtain ⟨hlt, hx, -⟩ := hp
    by_contra hge
    have : st.records[place] ∈ b := by
      have : st.records[place] = (a ++ b)[place]'(by rw [← hl]; exact hlt) := by congr 1
      rw [this, List.getElem_append_right (by omega)]
      exact List.getElem_mem _
    have := hb _ this
    simp [this] at hx
  refine .mk' ?_ (h2.of_sequences ?_) h3
  · refine ⟨a.take place, (a.drop place ++ b).map Record.unsend, ?_, fun r hr => ha r (List.mem_of_mem_take hr), ?_⟩
    · simp only [Store.unsendFrom, hl]
      rw [List.take_append_of_le_length (by omega), List.drop_append_of_le_length (by omega)]
    · intro r hr
      obtain ⟨x, -, rfl⟩ := List.mem_map.mp hr
      rfl
  · simp only [Store.unsendFrom, List.map_append, List.map_map]
    rw [show ((fun r : Record => r.sequence) ∘ Record.unsend) = (fun r => r.sequence) from rfl,
      ← List.map_append, List.take_append_drop]

theorem sound_linkReset {st : Store} (h : st.Sound) : st.linkReset.Sound := by
  obtain ⟨h1, h2, h3⟩ := h.split
  refine .mk' ⟨[], st.records.map Record.unsend, rfl, by simp, ?_⟩ (h2.of_sequences ?_) (Nat.zero_le _)
  · intro r hr
    obtain ⟨x, -, rfl⟩ := List.mem_map.mp hr
    rfl
  · simp only [Store.linkReset, List.map_map]; rfl

end Sys2Proof.Machine
end

