-- ==== Sys2Proof/Laws/Closed.lean ====
section
/-!
SUPPORT. What the ring side does to the Delivery Store it does through five operations, and to the plan through the
latch and the publication: a property of the two that these keep is kept by every block.
-/

namespace Sys2Proof.Machine

/-- A property of the store and the plan in a state. -/
abbrev On (P : Store → List PlanEntry → Prop) (s : State) : Prop := P s.store s.plan

/-- A property that the five ways in which the ring side reaches the store, and the latch and the publication of the
plan, keep. -/
structure Closed (P : Store → List PlanEntry → Prop) : Prop where
  event   : ∀ {st pl} e, P st pl → P (st.commitEvent e) pl
  reserve : ∀ {st st' pl} o n, P st pl → st.reserve o n = some st' → P st' pl
  report  : ∀ {st st' pl} n item, P st pl → st.commitReport n item = some st' → P st' pl
  convert : ∀ {st pl} o c, P st pl → P (st.convert o c) pl
  release : ∀ {st pl} o, P st pl → P (st.release o) pl
  latch   : ∀ {st pl}, P st pl → P st (pl.map PlanEntry.latch)
  publish : ∀ {st pl} n os, P st pl → P st (publishPlan n pl os)

theorem soundClosed : Closed (fun st _ => st.Sound) where
  event e h := by
    unfold Store.commitEvent
    (repeat' split)
    · exact sound_append h _
    · exact h.of_eq rfl rfl rfl
    · exact (sound_append (sound_append h _) _).of_eq rfl rfl rfl
    · exact h.of_eq rfl rfl rfl
  reserve o n h e := by
    unfold Store.reserve at e
    split at e
    · cases e; exact h.of_eq rfl rfl rfl
    · cases e
  report n item h e := by
    unfold Store.commitReport at e
    split at e
    · cases e; exact sound_append h _
    · cases e
  convert o c h := (sound_append (st := Store.endReservation _ o) (h.of_eq rfl rfl rfl) c).of_eq rfl rfl rfl
  release o h := h.of_eq rfl rfl rfl
  latch h := h
  publish _ _ h := h

variable {P : Store → List PlanEntry → Prop} (hP : Closed P)
include hP

theorem closed_commitEvent (e : Event) {s : State} (h : On P s) : On P (commitEvent e s) := hP.event e h

theorem closed_convert (o : ReservationOwner) (c : RecordContent) {s : State} (h : On P s) :
    On P (convertReservation o c s) := hP.convert o c h

theorem closed_release (o : ReservationOwner) {s : State} (h : On P s) :
    On P (releaseReservation o s) := hP.release o h

theorem closed_handTable (f : FrameBody) (res : CirculationResult) {s : State} (h : On P s) :
    On P (handTable f res s) := by
  unfold handTable stationServed stationMissed
  dsimp only
  (repeat' split) <;> first | exact h | exact hP.event _ h

theorem closed_replaceCensus (c : List (Byte × Byte)) {s : State} (h : On P s) :
    On P (replaceCensus c s) := by
  unfold replaceCensus
  dsimp only
  split
  · exact h
  · exact hP.event _ h

theorem closed_startAttempt (mark : Bool) {s : State} (h : On P s) : On P (startAttempt mark s) := by
  unfold startAttempt
  (repeat' split)
  · exact h
  · exact h
  · rename_i he; exact hP.latch (hP.reserve _ _ h he)

theorem closed_startCause (mark : Bool) {s : State} (h : On P s) : On P (startCause mark s) := by
  unfold startCause overrun
  dsimp only
  (repeat' split) <;>
    first | exact h | exact closed_startAttempt hP mark h | exact hP.event _ h

theorem closed_armAfterCycle (raise mark : Bool) {s : State} (h : On P s) :
    On P (armAfterCycle raise mark s) := by
  unfold armAfterCycle
  dsimp only
  split
  · exact closed_startCause hP _ h
  · exact h

theorem closed_completeCycle {s : State} (h : On P s) : On P (completeCycle s) := by
  have hs : On P (settleCycle s) := hP.publish _ _ (hP.convert _ _ h)
  unfold completeCycle
  split
  · exact hP.event _ hs
  · exact closed_armAfterCycle hP _ _ hs

theorem closed_abandonCycle (r : AbandonReason) {s : State} (h : On P s) : On P (abandonCycle r s) := by
  have hs : On P (dropCycle r s) := hP.event _ (hP.release _ h)
  unfold abandonCycle
  split
  · exact hP.event _ hs
  · exact closed_armAfterCycle hP _ _ hs

theorem closed_endWalk {s : State} (h : On P s) : On P (endWalk s) := by
  unfold endWalk
  split
  · exact h
  · exact closed_completeCycle hP h

theorem closed_takeEntryOutcome (o : EntryOutcome) {s : State} (h : On P s) :
    On P (takeEntryOutcome o s) := by
  unfold takeEntryOutcome
  dsimp only
  (repeat' split)
  · exact closed_endWalk hP h
  · exact h
  · exact h

theorem closed_takeWindowEnd (n : Word) (e : WindowEnd) {s : State} (h : On P s) :
    On P (takeWindowEnd n e s) := by
  unfold takeWindowEnd
  (repeat' split) <;> first | exact h | exact closed_completeCycle hP h

theorem closed_cycleTakesReport (r : RingState) {s : State} (h : On P s) :
    On P (cycleTakesReport r s) := by
  unfold cycleTakesReport retryHeldStart
  (repeat' split) <;>
    first | exact h | exact closed_startAttempt hP _ h | exact closed_abandonCycle hP _ h

theorem closed_endInFlight (o : ExchangeOutcome) (st : Option ReplyStatus) (n : Nat) (d : List Byte) {s : State}
    (h : On P s) : On P (endInFlight o st n d s) := by
  unfold endInFlight
  split
  · exact h
  · exact hP.convert _ _ h

theorem closed_stopRequests (l : List UrgentRequest) {s : State} (h : On P s) :
    On P (stopRequests l s) := by
  induction l generalizing s with
  | nil => exact h
  | cons r rest ih => exact ih (hP.convert _ _ h)

theorem closed_urgentTakesReport (r : RingState) {s : State} (h : On P s) :
    On P (urgentTakesReport r s) := by
  unfold urgentTakesReport
  split
  · exact closed_stopRequests hP _ h
  · exact h

theorem closed_decideReport (n : Word) (item : ReportItem) {s : State} (h : On P s) :
    On P (decideReport n item s) := by
  have hr : On P (stationReported item.address s) := by
    unfold stationReported
    (repeat' split) <;> first | exact h | exact hP.event _ h
  unfold decideReport takeReport
  dsimp only
  (repeat' split)
  · exact h
  · exact hr
  · rename_i he; exact hP.report _ _ hr he
  · exact hr

theorem closed_decideReports (n : Word) (items : List ReportItem) {s : State} (h : On P s) :
    On P (decideReports n items s).2 := by
  induction items generalizing s with
  | nil => exact h
  | cons r rest ih => exact ih (closed_decideReport hP n r h)

theorem closed_endWindow (e : WindowEnd) {s : State} (h : On P s) : On P (endWindow e s) := by
  unfold endWindow
  split <;> first | exact h | exact closed_takeWindowEnd hP _ _ h

theorem closed_windowGoodReturn (items : List ReportItem) (d : Nat) {s : State} (h : On P s) :
    On P (windowGoodReturn items d s) := by
  unfold windowGoodReturn
  split
  · exact h
  · exact closed_endWindow hP _ (closed_decideReports hP _ _ h)

theorem closed_dispatchUrgent (r : UrgentRequest) (rest : List UrgentRequest) {s : State} (h : On P s) :
    On P (dispatchUrgent r rest s) := by
  unfold dispatchUrgent
  dsimp only
  split
  · simpa [On] using h
  · exact closed_endInFlight hP _ _ _ _ (by simpa [On] using h)

theorem closed_cycleStep {s : State} (h : On P s) : On P (cycleStep s) := by
  unfold cycleStep
  dsimp only
  (repeat' split)
  · exact h
  · simp only [On, claimWindow_frame]; exact closed_endWalk hP h
  · exact closed_endWalk hP h

theorem closed_boundary {s : State} (h : On P s) : On P (boundary s) := by
  unfold boundary
  generalize choiceBound s = fuel
  induction fuel generalizing s with
  | zero => exact h
  | succ n ih =>
    unfold chooseWithin
    (repeat' split) <;> try exact h
    · exact ih (closed_dispatchUrgent hP _ _ h)
    · exact ih (closed_cycleStep hP h)

theorem closed_boundaryIf (b : Bool) {s : State} (h : On P s) : On P (boundaryIf b s) := by
  unfold boundaryIf
  split
  · exact closed_boundary hP h
  · exact h

theorem closed_changeRing (n : RingState) (c : RingCause) (a : Byte) {s : State} (h : On P s) :
    On P (changeRing n c a s) := hP.event _ h

theorem closed_enterProbing (c : RingCause) {s : State} (h : On P s) : On P (enterProbing c s) :=
  closed_boundary hP (closed_changeRing hP _ _ _ h)

theorem closed_takeWaitingReports {s : State} (h : On P s) : On P (takeWaitingReports s) := by
  unfold takeWaitingReports
  refine takeAll_induct (P := On P) _ (fun r _ h => closed_boundaryIf hP _ h) _ (takeAll_induct (P := On P) _ ?_ _
    (takeAll_induct (P := On P) _ (fun r _ h => closed_urgentTakesReport hP r h) _
      (takeAll_induct (P := On P) _ (fun r _ h => closed_cycleTakesReport hP r h) _ h)))
  intro r s h
  simpa [On] using h

theorem closed_handRequester (r : Requester) (res : CirculationResult) (n : Nat) {s : State} (h : On P s) :
    On P (handRequester r res n s) := by
  unfold handRequester handCensus handCycle handUrgent handWindow takeCensus
  dsimp only
  (repeat' split) <;>
    first
      | exact h
      | exact hP.event _ h
      | exact hP.event _ (closed_replaceCensus hP _ h)
      | exact closed_replaceCensus hP _ h
      | exact closed_takeEntryOutcome hP _ h
      | exact closed_endInFlight hP _ _ _ _ h
      | exact closed_windowGoodReturn hP _ _ h
      | exact closed_endWindow hP _ h

theorem closed_endCirculation (c : Circulation) (res : CirculationResult) (hop : Option Byte) {s : State}
    (h : On P s) : On P (endCirculation c res hop s) := by
  unfold endCirculation
  dsimp only
  refine closed_boundaryIf hP _ ?_
  have h1 : On P (handTable c.frame res (handHops c.frame hop { s with port := s.port.finish })) :=
    closed_handTable hP _ _ (by simpa [On] using h)
  have h2 : On P (handLost c.requester res
      (handTable c.frame res (handHops c.frame hop { s with port := s.port.finish }))) := by
    unfold handLost takeLostReturn
    (repeat' split)
    · exact closed_takeWaitingReports hP (closed_changeRing hP _ _ _ h1)
    · exact h1
    · exact h1
  exact closed_handRequester hP _ _ _ h2

theorem closed_retryOrEnd (c : Circulation) (res : CirculationResult) {s : State} (h : On P s) :
    On P (retryOrEnd c res s) := by
  unfold retryOrEnd
  split
  · exact h
  · exact closed_endCirculation hP _ _ _ h

theorem closed_judgeFrame (bytes : List Byte) {s : State} (h : On P s) : On P (judgeFrame bytes s) := by
  have hu : On P (judgeUnawaited bytes s) := by simpa [On] using h
  unfold judgeFrame
  (repeat' split) <;> try first | exact h | exact hu
  unfold judgeAwaited
  (repeat' split) <;>
    first
      | exact h
      | exact closed_retryOrEnd hP _ _ h
      | exact closed_endCirculation hP _ _ _ h

end Sys2Proof.Machine
end

