-- ==== Sys2Proof/Laws/Cycle.lean ====
section
/-!
SUPPORT. The Cycle Engine: every operation that reaches its state keeps CycleEngine.Sound.
-/

namespace Sys2Proof.Machine

@[simp] theorem publishPlan_length (n : Word) (plan : List PlanEntry) (os : List EntryOutcome) :
    (publishPlan n plan os).length = plan.length := by
  induction plan generalizing os with
  | nil => cases os <;> rfl
  | cons e rest ih => cases os <;> simp [publishPlan, ih]

/-- The walk settles at most the entries it is given, and all of them exactly when it finds none callable. -/
theorem walk_length (table : List StationEntry) (l : List PlanEntry) :
    (walk table l).1.length ≤ l.length ∧ ((walk table l).2 = none ↔ (walk table l).1.length = l.length) := by
  induction l with
  | nil => simp [walk]
  | cons e rest ih =>
    unfold walk
    split
    · simp only [List.length_cons]
      refine ⟨by omega, ?_⟩
      rw [ih.2]; omega
    · simp

/-- Between cycles: nothing settled, nothing awaited, the timer running exactly in TIMED mode. -/
structure CycleEngine.Rested (c : CycleEngine) : Prop where
  pointer  : c.pointer = 0
  outcomes : c.outcomes = []
  awaiting : c.awaiting = none
  restarts : c.restarts ≤ c.interleaved
  timer    : c.periodTimer.isSome = true ↔ c.config.mode = .timed

theorem CycleEngine.Sound.not_awaiting {c : CycleEngine} {n : Nat} (h : c.Sound n) (hs : c.state ≠ .running) :
    c.awaiting = none := by
  by_contra ha
  exact hs (h.awaiting ha).1

theorem CycleEngine.Sound.rested {c : CycleEngine} {n : Nat} (h : c.Sound n) (hs : c.state = .armed ∨ c.state = .held) :
    c.Rested := by
  have hi : c.inCycle = false := by rcases hs with e | e <;> simp [CycleEngine.inCycle, e]
  have ho := h.between hi
  refine ⟨by rw [h.pointer, ho]; rfl, ho, h.not_awaiting (by rcases hs with e | e <;> simp [e]), h.restarts, ?_⟩
  rw [h.timer]; rcases hs with e | e <;> simp [e]

/-! ### Starting -/

theorem cycle_startAttempt {s : State} (mark : Bool) (h : s.cycle.Rested) : (startAttempt mark s).CycleSound := by
  obtain ⟨h1, h2, h3, h4, h5⟩ := h
  unfold startAttempt State.CycleSound
  (repeat' split) <;>
    constructor <;> simp_all [holdStart, startActions, CycleEngine.inCycle]

theorem cycle_startCause {s : State} (mark : Bool) (h : s.CycleSound) : (startCause mark s).CycleSound := by
  have ho : (overrun s).CycleSound := by
    obtain ⟨h1, h2, h3, h4, h5, h6, h7, h8, h9, h10⟩ := h
    unfold overrun State.CycleSound
    dsimp only
    (repeat' split) <;> constructor <;> simp_all [CycleEngine.inCycle]
  unfold startCause
  split
  · exact h
  · rename_i e; exact cycle_startAttempt mark (h.rested (.inl e))
  · obtain ⟨h1, h2, h3, h4, h5, h6, h7, h8, h9, h10⟩ := h
    constructor <;> simp_all [CycleEngine.inCycle]
  · exact ho
  · exact ho

theorem cycle_retryHeldStart {s : State} (h : s.CycleSound) : (retryHeldStart s).CycleSound := by
  unfold retryHeldStart
  split
  · rename_i e; exact cycle_startAttempt _ (h.rested (.inr e))
  · exact h

/-! ### Completion and abandonment -/

theorem cycle_enterStopped {s : State} (h : s.cycle.Rested) : (enterStopped s).CycleSound := by
  obtain ⟨h1, h2, h3, h4, h5⟩ := h
  unfold enterStopped State.CycleSound
  constructor <;> simp_all [CycleEngine.inCycle, commitEvent]

theorem cycle_armAfterCycle {s : State} (raise mark : Bool) (h : s.cycle.Rested) :
    (armAfterCycle raise mark s).CycleSound := by
  have ha : (armAfterCycle false mark s).CycleSound := by
    obtain ⟨h1, h2, h3, h4, h5⟩ := h
    unfold armAfterCycle State.CycleSound
    constructor <;> simp_all [CycleEngine.inCycle]
  cases raise with
  | false => exact ha
  | true => exact cycle_startCause mark ha

theorem rested_settleCycle {s : State} (h : s.CycleSound) (hi : s.cycle.inCycle = true)
    (ha : s.cycle.awaiting = none) : (settleCycle s).cycle.Rested := by
  obtain ⟨h1, h2, h3, h4, h5, h6, h7, h8, h9, h10⟩ := h
  have hs : s.cycle.state ≠ .stopped := by
    intro e; simp [CycleEngine.inCycle, e] at hi
  constructor <;> simp_all [settleCycle]

theorem rested_dropCycle {s : State} (r : AbandonReason) (h : s.CycleSound) (hi : s.cycle.inCycle = true) :
    (dropCycle r s).cycle.Rested := by
  obtain ⟨h1, h2, h3, h4, h5, h6, h7, h8, h9, h10⟩ := h
  have hs : s.cycle.state ≠ .stopped := by
    intro e; simp [CycleEngine.inCycle, e] at hi
  constructor <;> simp_all [dropCycle]

theorem cycle_completeCycle {s : State} (h : s.CycleSound) (hi : s.cycle.inCycle = true)
    (ha : s.cycle.awaiting = none) : (completeCycle s).CycleSound := by
  have hr := rested_settleCycle h hi ha
  unfold completeCycle
  split
  · exact cycle_enterStopped hr
  · exact cycle_armAfterCycle _ _ hr

theorem cycle_abandonCycle {s : State} (r : AbandonReason) (h : s.CycleSound) (hi : s.cycle.inCycle = true) :
    (abandonCycle r s).CycleSound := by
  have hr := rested_dropCycle r h hi
  unfold abandonCycle
  split
  · exact cycle_enterStopped hr
  · exact cycle_armAfterCycle _ _ hr

theorem cycle_cycleTakesReport {s : State} (r : RingState) (h : s.CycleSound) :
    (cycleTakesReport r s).CycleSound := by
  unfold cycleTakesReport
  (repeat' split)
  · exact cycle_retryHeldStart h
  · rename_i hi; exact cycle_abandonCycle _ h hi
  · exact h
  · exact h

/-! ### The walk -/

theorem cycle_endWalk {s : State} (h : s.CycleSound) (hr : s.cycle.state = .running) (ha : s.cycle.awaiting = none)
    (he : s.cycle.outcomes.length = s.plan.length) : (endWalk s).CycleSound := by
  unfold endWalk
  split
  · obtain ⟨h1, h2, h3, h4, h5, h6, h7, h8, h9, h10⟩ := h
    constructor <;> simp_all [CycleEngine.inCycle]
  · exact cycle_completeCycle h (by simp [CycleEngine.inCycle, hr]) ha

/-- The outcome of the awaiting entry taken (R52). -/
theorem cycle_outcomeTaken {s : State} (o : EntryOutcome) (h : s.CycleSound) (ha : s.cycle.awaiting ≠ none) :
    State.CycleSound { s with cycle :=
      { s.cycle with outcomes := s.cycle.outcomes ++ [o], pointer := s.cycle.pointer + 1, awaiting := none } } := by
  have hlt := (h.awaiting ha).2
  have hr := (h.awaiting ha).1
  obtain ⟨h1, h2, h3, h4, h5, h6, h7, h8, h9, h10⟩ := h
  constructor <;> simp_all [CycleEngine.inCycle]

theorem cycle_takeEntryOutcome {s : State} (o : EntryOutcome) (h : s.CycleSound) :
    (takeEntryOutcome o s).CycleSound := by
  unfold takeEntryOutcome
  dsimp only
  split
  · rename_i hc
    obtain ⟨hr, ha⟩ := hc
    have ht := cycle_outcomeTaken o h ha
    split
    · rename_i he
      refine cycle_endWalk ht hr rfl ?_
      rw [← he]
      exact ht.pointer.symm
    · exact ht
  · exact h

theorem cycle_takeWindowEnd {s : State} (n : Word) (e : WindowEnd) (h : s.CycleSound) :
    (takeWindowEnd n e s).CycleSound := by
  unfold takeWindowEnd
  split
  · rename_i hc
    have hi : s.cycle.inCycle = true := by simp [CycleEngine.inCycle, hc.1]
    have ha := h.not_awaiting (by rw [hc.1]; decide)
    split
    · refine cycle_completeCycle ?_ hi ha
      obtain ⟨h1, h2, h3, h4, h5, h6, h7, h8, h9, h10⟩ := h
      constructor <;> simp_all [CycleEngine.inCycle]
    · refine cycle_completeCycle ?_ hi ha
      obtain ⟨h1, h2, h3, h4, h5, h6, h7, h8, h9, h10⟩ := h
      constructor <;> simp_all [CycleEngine.inCycle]
    · exact h
  · exact h

/-- A dispatch within the budget (R77) counts and may restart the walk; it never outruns the budget (R54). -/
theorem cycle_countDispatch {s : State} (h : s.CycleSound)
    (hd : s.cycle.inCycle = true → s.cycle.interleaved < s.cycle.config.budget) :
    (countDispatch s).CycleSound := by
  unfold countDispatch
  dsimp only
  split
  · rename_i hi
    have hb := hd hi
    obtain ⟨h1, h2, h3, h4, h5, h6, h7, h8, h9, h10⟩ := h
    split
    · constructor <;> simp_all [restartWalk, CycleEngine.inCycle]; grind
    · constructor <;> simp_all [CycleEngine.inCycle]; omega
  · exact h

theorem cycle_cycleStep {s : State} (h : s.CycleSound) (hr : s.cycle.state = .running)
    (ha : s.cycle.awaiting = none) : (cycleStep s).CycleSound := by
  have hw := walk_length s.table (s.plan.drop s.cycle.pointer)
  have hp := h.pointer
  have hle := h.settled
  rw [List.length_drop] at hw
  have ht : State.CycleSound { s with cycle :=
      { s.cycle with
        outcomes := s.cycle.outcomes ++ (walk s.table (s.plan.drop s.cycle.pointer)).1
        pointer := s.cycle.pointer + (walk s.table (s.plan.drop s.cycle.pointer)).1.length } } := by
    obtain ⟨h1, h2, h3, h4, h5, h6, h7, h8, h9, h10⟩ := h
    constructor <;> simp_all [CycleEngine.inCycle]
    omega
  unfold cycleStep
  dsimp only
  split
  · rename_i e he
    have hlt : (walk s.table (s.plan.drop s.cycle.pointer)).1.length ≠ s.plan.length - s.cycle.pointer := by
      intro hq; rw [hw.2.mpr hq] at he; cases he
    obtain ⟨h1, h2, h3, h4, h5, h6, h7, h8, h9, h10⟩ := ht
    constructor <;> simp_all [CycleEngine.inCycle]
    omega
  · rename_i he
    have hq := hw.2.mp he
    have hend := cycle_endWalk ht hr ha (by simp; omega)
    split
    · simpa [State.CycleSound] using hend
    · exact hend

theorem cycle_dispatchUrgent {s : State} (r : UrgentRequest) (rest : List UrgentRequest) (h : s.CycleSound)
    (hd : headDispatchable s = true) : (dispatchUrgent r rest s).CycleSound := by
  have hc : (countDispatch
      { s with urgent := ⟨rest, some { r with timerRunning := false }⟩ }).CycleSound := by
    refine cycle_countDispatch h ?_
    intro hi
    have hi' : s.cycle.inCycle = true := hi
    simp [headDispatchable, hi'] at hd
    exact hd.2
  unfold dispatchUrgent
  dsimp only
  split <;> simpa [State.CycleSound] using hc

theorem cycle_boundary {s : State} (h : s.CycleSound) : (boundary s).CycleSound := by
  unfold boundary
  generalize choiceBound s = fuel
  induction fuel generalizing s with
  | zero => exact h
  | succ n ih =>
    unfold chooseWithin
    (repeat' split) <;> try exact h
    · rename_i hd _ r rest _
      exact ih (cycle_dispatchUrgent r rest h hd)
    · rename_i hw hr
      exact ih (cycle_cycleStep h hr ((of_not_lowerOrdersWait hw).2 hr))

theorem cycle_boundaryIf {s : State} (b : Bool) (h : s.CycleSound) : (boundaryIf b s).CycleSound := by
  unfold boundaryIf
  split
  · exact cycle_boundary h
  · exact h

/-! ### The end of a circulation -/

theorem State.CycleSound.of_eq {s t : State} (h : s.CycleSound) (e : t.cycle = s.cycle)
    (e2 : t.plan.length = s.plan.length) : t.CycleSound := by
  unfold State.CycleSound at *
  rw [e, e2]
  exact h

theorem cycle_endWindow {s : State} (e : WindowEnd) (h : s.CycleSound) : (endWindow e s).CycleSound := by
  unfold endWindow
  split
  · exact h
  · exact cycle_takeWindowEnd _ _ h
  · exact h

theorem cycle_handRequester {s : State} (r : Requester) (res : CirculationResult) (n : Nat) (h : s.CycleSound) :
    (handRequester r res n s).CycleSound := by
  unfold handRequester
  split
  · unfold handCensus
    split <;> exact h.of_eq (by simp) (by simp)
  · unfold handCycle
    split
    · exact cycle_takeEntryOutcome _ h
    · exact h
  · exact h.of_eq (by simp) (by simp)
  · unfold handWindow windowGoodReturn
    (repeat' split) <;>
      first
        | exact h
        | exact cycle_endWindow _ h
        | exact cycle_endWindow _ (h.of_eq (by simp) (by simp))

theorem cycle_takeLostReturn {s : State} (h : s.CycleSound) : (takeLostReturn s).CycleSound := by
  unfold takeLostReturn takeWaitingReports
  split
  · exact takeAll_induct _ (fun _ _ h => cycle_boundaryIf _ h) _
      (takeAll_induct _ (fun _ _ h => h.of_eq (by simp) (by simp)) _
        (takeAll_induct _ (fun _ _ h => h.of_eq (by simp) (by simp)) _
          (takeAll_induct _ (fun r _ h => cycle_cycleTakesReport r h) _ h)))
  · exact h

theorem cycle_endCirculation {s : State} (c : Circulation) (res : CirculationResult) (hop : Option Byte)
    (h : s.CycleSound) : (endCirculation c res hop s).CycleSound := by
  refine cycle_boundaryIf _ (cycle_handRequester _ _ _ ?_)
  have h1 : (handTable c.frame res (handHops c.frame hop { s with port := s.port.finish })).CycleSound :=
    h.of_eq (by simp) (by simp)
  unfold handLost
  split
  · exact cycle_takeLostReturn h1
  · exact h1

theorem cycle_retryOrEnd {s : State} (c : Circulation) (res : CirculationResult) (h : s.CycleSound) :
    (retryOrEnd c res s).CycleSound := by
  unfold retryOrEnd
  split
  · exact h
  · exact cycle_endCirculation _ _ _ h

theorem cycle_judgeFrame {s : State} (bytes : List Byte) (h : s.CycleSound) : (judgeFrame bytes s).CycleSound := by
  unfold judgeFrame
  (repeat' split) <;> try first | exact h | exact h.of_eq (by simp) (by simp)
  unfold judgeAwaited
  (repeat' split) <;>
    first
      | exact cycle_retryOrEnd _ _ h
      | exact cycle_endCirculation _ _ _ h
      | exact h.of_eq (by simp) (by simp)

end Sys2Proof.Machine
end

