-- ==== Sys2Proof/Laws/Link.lean ====
section
/-!
SUPPORT. The link's bounds and TXD: each operation that touches the queues of the Link Controller keeps Link.Bounded,
and the end of an event never leaves TXD idle with a message waiting.
-/

namespace Sys2Proof.Machine

/-! ### TXD -/

/-- After the transmit arbiter has chosen, TXD is idle only while nothing waits (R163). -/
theorem arbitrate_txdBusy (s : State) : (arbitrate s).TxdBusy := by
  unfold State.TxdBusy State.nothingWaits arbitrate
  (repeat' split) <;> simp_all

theorem finish_txdBusy (s : State) : (finish s).TxdBusy := arbitrate_txdBusy _

/-! ### Bounds -/

/-- The bounds read nothing of the link but its queues, TXD and the pending soft reset. -/
theorem Link.Bounded.of_eq {a b : Link} (h : a.Bounded) (h1 : b.inbox = a.inbox) (h2 : b.replies = a.replies)
    (h3 : b.announcements = a.announcements) (h4 : b.tx = a.tx)
    (h5 : b.softResetPending = a.softResetPending) : b.Bounded := by
  obtain ⟨i, r, f, t, u, p⟩ := h
  constructor <;> simp_all [Link.handlerReplies]

theorem bounded_arbitrate {s : State} (h : s.link.Bounded) : (arbitrate s).link.Bounded := by
  unfold arbitrate
  split
  · exact h
  · rename_i htx
    obtain ⟨i, r, f, t, u, p⟩ := h
    simp only [Link.handlerReplies, htx] at r p
    split
    · rename_i a rest ha
      rw [ha] at t u
      simp only [List.countP_cons] at t u
      constructor <;> simp_all [Link.handlerReplies, TxMessage.fromHandler, TxMessage.isResetReply] <;> omega
    · split
      · rename_i x rest hx
        rw [hx] at r f p
        simp only [List.countP_cons] at r f
        constructor <;> simp_all [Link.handlerReplies, TxMessage.fromHandler, TxMessage.isResetReply] <;>
          first | omega | grind
      · split
        · constructor <;> simp_all [Link.handlerReplies, TxMessage.fromHandler, TxMessage.isResetReply]
        · constructor <;> simp_all [Link.handlerReplies]

@[simp] theorem noteRelease_link (s : State) : (noteRelease s).link = s.link := by
  unfold noteRelease; split <;> rfl

theorem bounded_finish {s : State} (h : s.link.Bounded) : (finish s).link.Bounded :=
  bounded_arbitrate (by simpa using h)

/-- A handler that is free has no reply waiting or on TXD. -/
theorem handlerReplies_of_free {l : Link} (h : l.handlerFree = true) : l.handlerReplies = 0 := by
  simp only [Link.handlerFree, Link.handlerWaiting, Bool.and_eq_true, Bool.not_eq_true', Bool.or_eq_false_iff] at h
  obtain ⟨⟨h1, h2⟩, -⟩ := h
  simp only [Link.handlerReplies, h2, Nat.add_eq_zero_iff]
  refine ⟨?_, by simp⟩
  simpa [List.countP_eq_zero] using h1

/-- A reply of the handler placed while the handler is free, with the pending soft reset it makes, keeps the bounds. -/
theorem bounded_placeReply {s : State} {r : Reply} {l : Link} (h : l.Bounded) (hf : l.handlerFree = true)
    (ht : s.link.traffic = l.traffic) (hr : r.fromHandler = true)
    (hp : s.link.softResetPending = (r.source == .handlerReset)) : (placeReply r s).link.Bounded := by
  have h0 := handlerReplies_of_free hf
  have hz : l.softResetPending = false := by
    simp only [Link.handlerFree, Bool.and_eq_true, Bool.not_eq_true'] at hf; exact hf.2
  obtain ⟨i, _, f, t, u, p⟩ := h
  have e1 : s.link.inbox = l.inbox := (congrArg Link.inbox ht : s.link.traffic.inbox = l.traffic.inbox)
  have e2 : s.link.replies = l.replies := (congrArg Link.replies ht : s.link.traffic.replies = l.traffic.replies)
  have e3 : s.link.announcements = l.announcements := (congrArg Link.announcements ht : s.link.traffic.announcements = l.traffic.announcements)
  have e4 : s.link.tx = l.tx := (congrArg Link.tx ht : s.link.traffic.tx = l.traffic.tx)
  rw [hz] at p
  have p' := p.symm
  rw [Bool.or_eq_false_iff] at p'
  simp only [Link.handlerReplies] at h0
  constructor
  · simpa [placeReply, e1] using i
  · simp [placeReply, Link.handlerReplies, e2, e4, List.countP_append, hr]; omega
  · simpa [placeReply, e2, List.countP_append, Reply.isInboxFull, hr] using f
  · simpa [placeReply, e3] using t
  · simpa [placeReply, e3] using u
  · simp [placeReply, e2, e4, hp, p'.2]
    have := p'.1
    simp at this
    grind

theorem bounded_handleRequest {s : State} (h : s.link.Bounded) (hf : s.link.handlerFree = true)
    (body : List Byte) : (handleRequest body s).link.Bounded := by
  have hz : s.link.softResetPending = false := by
    simp only [Link.handlerFree, Bool.and_eq_true, Bool.not_eq_true'] at hf; exact hf.2
  unfold handleRequest
  split
  · rename_i code tag payload
    split
    · exact bounded_placeReply h hf rfl rfl (by rw [hz]; rfl)
    · rename_i type _
      refine bounded_placeReply h hf (decideRequest_frame type tag payload s).2.2 ?_ ?_
      · simp only [replySource]; split <;> rfl
      · rw [decideRequest_softResetPending, hz]
        by_cases ht : type = .reset
        · subst ht
          rcases payload with _ | ⟨x, xs⟩
          · simp [replySource, decideRequest, decideReset]
          · simp [replySource, decideRequest]
        · have : (type == RequestType.reset) = false := by simpa using ht
          simp [replySource, ht, this]
  · exact h

theorem bounded_handlerTake {s : State} (h : s.link.Bounded) : (handlerTake s).link.Bounded := by
  unfold handlerTake
  split
  · exact h
  · rename_i body rest hi
    split
    · rename_i hf
      refine bounded_handleRequest (s := { s with link := { s.link with inbox := rest } }) ?_ hf body
      obtain ⟨i, r, f, t, u, p⟩ := h
      rw [hi] at i
      simp only [List.length_cons] at i
      constructor <;> simp_all [Link.handlerReplies]
      omega
    · exact h

theorem bounded_takeGood {s : State} (h : s.link.Bounded) (body : List Byte) : (takeGood body s).link.Bounded := by
  have hc : ∀ f, (countLink f s).link.Bounded := fun f => h.of_eq rfl rfl rfl rfl rfl
  unfold takeGood
  dsimp only
  split
  · rename_i hl
    refine bounded_handlerTake ?_
    obtain ⟨i, r, f, t, u, p⟩ := h
    constructor <;> simp_all [Link.handlerReplies, countLink, inboxPlaces]
  · split
    · rename_i hn
      obtain ⟨i, r, f, t, u, p⟩ := h
      constructor <;>
        simp_all [Link.handlerReplies, countLink, placeReply, inboxFullReply, Reply.fromHandler,
          Reply.isInboxFull, List.countP_append, inboxFullPlaces]
      rw [show (ReplySource.inboxFull == ReplySource.handlerReset) = false from rfl, Bool.or_false]
    · exact h.of_eq rfl rfl rfl rfl rfl

theorem bounded_rescan (afterGap : Bool) (skip : Nat) (bytes : List Byte) {s : State} (h : s.link.Bounded) :
    (rescan afterGap skip bytes s).link.Bounded := by
  induction bytes generalizing skip s with
  | nil => cases skip <;> exact h.of_eq rfl rfl rfl rfl rfl
  | cons b rest ih =>
    cases skip with
    | succ n => exact ih n h
    | zero =>
      unfold rescan
      split
      · exact ih 0 h
      · split
        · split
          · exact ih 0 h
          · exact h.of_eq rfl rfl rfl rfl rfl
        · exact ih 0 (h.of_eq rfl rfl rfl rfl rfl)
        · exact ih _ (bounded_takeGood h _)

theorem bounded_takeCharacter {s : State} (h : s.link.Bounded) (c : Byte) : (takeCharacter c s).link.Bounded := by
  have hj : (joinMessage c s).link.Bounded := by
    unfold joinMessage
    dsimp only
    split
    · exact h.of_eq rfl rfl rfl rfl rfl
    · exact bounded_rescan _ _ _ (h.of_eq rfl rfl rfl rfl rfl)
    · exact bounded_takeGood (s := { s with link := s.link.hunt }) (h.of_eq rfl rfl rfl rfl rfl) _
  unfold takeCharacter
  split
  · split
    · exact h.of_eq rfl rfl rfl rfl rfl
    · exact h
  all_goals first | exact hj | exact h

theorem bounded_gapDiscard {s : State} (h : s.link.Bounded) : (gapDiscard s).link.Bounded :=
  bounded_rescan _ _ _ (h.of_eq rfl rfl rfl rfl rfl)

theorem bounded_takeCharacterError {s : State} (h : s.link.Bounded) : (takeCharacterError s).link.Bounded := by
  unfold takeCharacterError
  dsimp only
  split
  · exact h.of_eq rfl rfl rfl rfl rfl
  · exact bounded_rescan _ _ _ (h.of_eq rfl rfl rfl rfl rfl)

theorem bounded_linkReset {s : State} (h : s.link.Bounded) : (linkReset s).link.Bounded := by
  obtain ⟨i, r, f, t, u, p⟩ := h
  refine ⟨by simp [linkReset], ?_, by simp [linkReset], ?_, ?_, ?_⟩
  · simp only [linkReset, Link.handlerReplies, List.countP_nil]; grind
  · simp only [linkReset, addRestarted]; split <;> simp_all [List.countP_append, Announcement.isStarted]
  · simp only [linkReset, addRestarted]
    split
    · exact u
    · rename_i hn
      have : s.link.announcements.countP (fun a => !a.isStarted) = 0 := by
        rw [List.countP_eq_zero]
        intro a ha
        cases a with
        | started c rate => simp [Announcement.isStarted]
        | linkRestarted => simp_all
      rw [List.countP_append, this]; decide
  · simp only [linkReset]
    cases hq : s.link.tx.any TxMessage.isResetReply <;> simp_all

theorem bounded_endTransmission {s : State} {m : TxMessage} (h : s.link.Bounded) (hm : s.link.tx = some m) :
    (endTransmission m s).link.Bounded := by
  unfold endTransmission
  dsimp only
  split
  · constructor <;> simp [softReset, Link.handlerReplies, Announcement.isStarted, inboxPlaces, inboxFullPlaces]
  · rename_i hn
    refine bounded_handlerTake ?_
    obtain ⟨i, r, f, t, u, p⟩ := h
    simp only [Link.handlerReplies, hm] at r
    constructor
    · exact i
    · simp only [Link.handlerReplies]; simp at r ⊢; omega
    · exact f
    · exact t
    · exact u
    · simp_all

end Sys2Proof.Machine
end

