-- ==== Sys2Proof/Laws/Table.lean ====
section
/-!
SUPPORT. The Station Table: the updates of R94, R95, R99, R100 and R101, and the census replacement of R90 and R91,
keep TableSound.
-/

namespace Sys2Proof.Machine

/-! ### Updates of one entry -/

theorem findStation_mem {t : List StationEntry} {a : Byte} {e : StationEntry} (h : findStation t a = some e) :
    e ∈ t ∧ e.address = a := by
  refine ⟨List.mem_of_find?_eq_some h, ?_⟩
  have := List.find?_some h
  simpa using this

/-- With no address twice, the entry found is the only one with its address. -/
theorem TableSound.unique {t : List StationEntry} (h : TableSound t) {a : Byte} {e x : StationEntry}
    (he : findStation t a = some e) (hx : x ∈ t) (ha : x.address = a) : x = e := by
  obtain ⟨hm, hea⟩ := findStation_mem he
  exact List.inj_on_of_nodup_map h.addresses hx hm (ha.trans hea.symm)

theorem presentCount_of_positions {t u : List StationEntry}
    (h : u.map (fun e => e.position) = t.map (fun e => e.position)) :
    presentCount u = presentCount t ∧ absentCount u = absentCount t := by
  have key : ∀ (l : List StationEntry),
      presentCount l = (l.map (fun e => e.position)).countP (fun p => p.isSome) ∧
      absentCount l = (l.map (fun e => e.position)).countP (fun p => !p.isSome) := by
    intro l
    simp only [presentCount, absentCount, List.countP_map, StationEntry.isPresent, Function.comp_def]
    exact ⟨rfl, trivial⟩
  rw [(key u).1, (key u).2, (key t).1, (key t).2, h]
  exact ⟨rfl, rfl⟩

/-- Entries changed one for one, each keeping its address, its position and whether it is ABSENT. -/
theorem TableSound.map {t : List StationEntry} (h : TableSound t) (f : StationEntry → StationEntry)
    (ha : ∀ e ∈ t, (f e).address = e.address) (hp : ∀ e ∈ t, (f e).position = e.position)
    (hs : ∀ e ∈ t, (f e).state = .absent ↔ e.state = .absent) (hm : ∀ e ∈ t, (f e).missCount ≤ 7) :
    TableSound (t.map f) := by
  have hpos : (t.map f).map (fun e => e.position) = t.map (fun e => e.position) := by
    rw [List.map_map]; exact List.map_congr_left hp
  have hadd : (t.map f).map (fun e => e.address) = t.map (fun e => e.address) := by
    rw [List.map_map]; exact List.map_congr_left ha
  obtain ⟨c1, c2⟩ := presentCount_of_positions hpos
  obtain ⟨h1, h2, h3, h4, h5⟩ := h
  refine ⟨by simpa using h1, by rw [hadd]; exact h2, by rw [hpos, c1, c2]; exact h3, ?_, ?_⟩
  · intro e he
    obtain ⟨x, hx, rfl⟩ := List.mem_map.mp he
    rw [hs x hx, hp x hx]; exact h4 x hx
  · intro e he
    obtain ⟨x, hx, rfl⟩ := List.mem_map.mp he
    rw [ha x hx]; exact ⟨(h5 x hx).1, hm x hx⟩

/-- An update of the entry found, which is not ABSENT and does not become so. -/
theorem TableSound.update {t : List StationEntry} (h : TableSound t) {a : Byte} {e : StationEntry}
    (he : findStation t a = some e) (f : StationEntry → StationEntry) (ha : (f e).address = e.address)
    (hp : (f e).position = e.position) (hs : (f e).state = .absent ↔ e.state = .absent)
    (hm : (f e).missCount ≤ 7) : TableSound (updateStation t a f) := by
  refine h.map _ ?_ ?_ ?_ ?_ <;> intro x hx <;> by_cases hxa : x.address = a
  · rw [if_pos hxa, h.unique he hx hxa, ha]
  · rw [if_neg hxa]
  · rw [if_pos hxa, h.unique he hx hxa, hp]
  · rw [if_neg hxa]
  · rw [if_pos hxa, h.unique he hx hxa, hs]
  · rw [if_neg hxa]
  · rw [if_pos hxa, h.unique he hx hxa]; exact hm
  · rw [if_neg hxa]; exact (h.inRange x hx).2

theorem table_handTable {s : State} (f : FrameBody) (res : CirculationResult) (h : TableSound s.table) :
    TableSound (handTable f res s).table := by
  unfold handTable
  split
  · unfold stationServed
    split
    · exact h
    · rename_i e he
      dsimp only
      split
      · exact h
      rename_i hn
      split
      · exact h.update he _ rfl rfl (by simpa using hn) (by simp)
      · simpa using h.update he _ rfl rfl (by simpa using hn) (by simp)
  · unfold stationMissed
    split
    · exact h
    · rename_i e he
      have hs : healthAfterMiss e.state (min 7 (e.missCount + 1)) s.supervisor.config.missLimit ≠ .absent := by
        unfold healthAfterMiss; (repeat' split) <;> simp
      dsimp only
      split
      · exact h
      rename_i hn
      split
      · exact h.update he _ rfl rfl (by simp [hs, hn]) (by simp)
      · simpa using h.update he _ rfl rfl (by simp [hs, hn]) (by simp)
  · exact h

theorem table_stationReported {s : State} (a : Byte) (h : TableSound s.table) :
    TableSound (stationReported a s).table := by
  unfold stationReported
  split
  · exact h
  · rename_i e he
    split
    · rename_i hs
      have hn : e.state ≠ .absent := by rcases hs with q | q <;> simp [q]
      simpa using h.update he _ rfl rfl (by simpa using hn) (by simp)
    · exact h

theorem table_setLastAccepted {t : List StationEntry} (a q : Byte) (h : TableSound t) :
    TableSound (updateStation t a (fun x => { x with lastAccepted := some q })) := by
  refine h.map _ ?_ ?_ ?_ ?_ <;> intro x hx <;> by_cases hxa : x.address = a <;> simp only [hxa, if_true, if_false]
  all_goals first | rfl | exact (h.inRange x hx).2

theorem table_decideReports {s : State} (n : Word) (items : List ReportItem) (h : TableSound s.table) :
    TableSound (decideReports n items s).2.table := by
  induction items generalizing s with
  | nil => exact h
  | cons item rest ih =>
    refine ih ?_
    have hr := table_stationReported item.address h
    unfold decideReport takeReport
    dsimp only
    (repeat' split)
    · exact h
    · exact hr
    · exact table_setLastAccepted _ _ hr
    · exact hr

theorem table_clearStationCounters {t : List StationEntry} (h : TableSound t) :
    TableSound (clearStationCounters t) :=
  h.map _ (fun _ _ => rfl) (fun _ _ => rfl) (fun _ _ => Iff.rfl) (fun e he => (h.inRange e he).2)

/-! ### The census replacement -/

@[simp] theorem presentEntry_address (old : List StationEntry) (p : Nat) (a k : Byte) :
    (presentEntry old p a k).address = a := by
  unfold presentEntry
  split
  · rename_i e he; exact (findStation_mem he).2
  · rfl

@[simp] theorem presentEntry_position (old : List StationEntry) (p : Nat) (a k : Byte) :
    (presentEntry old p a k).position = some p ∧ (presentEntry old p a k).state = .active ∧
      (presentEntry old p a k).missCount = 0 := by
  unfold presentEntry
  split <;> exact ⟨rfl, rfl, rfl⟩

theorem presentPart_addresses (old : List StationEntry) (p : Nat) (c : List (Byte × Byte)) :
    (presentPart old p c).map (fun e => e.address) = c.map Prod.fst := by
  induction c generalizing p with
  | nil => rfl
  | cons x rest ih => simp [presentPart, ih]

theorem presentPart_positions (old : List StationEntry) (p : Nat) (c : List (Byte × Byte)) :
    (presentPart old p c).map (fun e => e.position) = (List.range' p c.length).map some := by
  induction c generalizing p with
  | nil => rfl
  | cons x rest ih => simp [presentPart, ih, List.range'_succ]

theorem presentPart_mem {old : List StationEntry} {p : Nat} {c : List (Byte × Byte)} {e : StationEntry}
    (h : e ∈ presentPart old p c) :
    e.state = .active ∧ e.position ≠ none ∧ e.missCount = 0 ∧ ∃ x ∈ c, x.1 = e.address := by
  induction c generalizing p with
  | nil => simp [presentPart] at h
  | cons x rest ih =>
    simp only [presentPart, List.mem_cons] at h
    rcases h with rfl | h
    · simp
    · obtain ⟨h1, h2, h3, y, hy, hya⟩ := ih h
      exact ⟨h1, h2, h3, y, by simp [hy], hya⟩

/-- The candidates are stations of the old table that the census did not find, ABSENT from now on. -/
theorem absentCandidates_mem {old : List StationEntry} (ho : TableSound old) {c : List (Byte × Byte)}
    {e : StationEntry} (h : e ∈ absentCandidates old c) :
    e.state = .absent ∧ e.position = none ∧ (isStationAddress e.address = true ∧ e.missCount ≤ 7) ∧
      ∀ x ∈ c, x.1 ≠ e.address := by
  have hout : ∀ x ∈ old, x ∈ old.filter (fun e => !(c.map Prod.fst).contains e.address) →
      ∀ y ∈ c, y.1 ≠ x.address := by
    intro x _ hx y hy he
    simp only [List.mem_filter, Bool.not_eq_true', List.contains_eq_mem, decide_eq_false_iff_not,
      List.mem_map, not_exists, not_and] at hx
    exact hx.2 y hy he
  simp only [absentCandidates] at h
  rcases List.mem_append.mp h with h | h
  · rw [List.mem_filter] at h
    have hm := (List.mem_filter.mp h.1).1
    have hp : e.position = none := by simpa [StationEntry.isPresent] using h.2
    exact ⟨(ho.absent e hm).mpr hp, hp, ho.inRange e hm, hout e hm h.1⟩
  · obtain ⟨x, hx, rfl⟩ := List.mem_map.mp h
    rw [List.mem_filter] at hx
    have hm := (List.mem_filter.mp hx.1).1
    exact ⟨rfl, rfl, ho.inRange x hm, hout x hm hx.1⟩

theorem absentCandidates_nodup {old : List StationEntry} (ho : TableSound old) (c : List (Byte × Byte)) :
    ((absentCandidates old c).map (fun e => e.address)).Nodup := by
  have hm : ((old.filter (fun e => !(c.map Prod.fst).contains e.address)).map (fun e => e.address)).Nodup :=
    ho.addresses.sublist (List.filter_sublist.map _)
  simp only [absentCandidates]
  generalize old.filter (fun e => !(c.map Prod.fst).contains e.address) = m at hm
  rw [List.map_append, List.map_map,
    show ((fun e : StationEntry => e.address) ∘ StationEntry.makeAbsent) = (fun e => e.address) from rfl,
    ← List.map_append]
  have hperm : (m.filter (fun e => !e.isPresent) ++ m.filter StationEntry.isPresent).Perm m := by
    refine List.perm_append_comm.trans ?_
    exact List.filter_append_perm _ m
  exact (hperm.map _).nodup_iff.mpr hm

theorem table_replaceTable {old : List StationEntry} (ho : TableSound old) {c : List (Byte × Byte)}
    (hc : c.length ≤ tableCapacity) (hn : (c.map Prod.fst).Nodup)
    (hv : ∀ x ∈ c, isStationAddress x.1 = true) : TableSound (replaceTable old c) := by
  simp only [replaceTable]
  generalize hk : c.length + (absentCandidates old c).length - tableCapacity = k
  have hpl : (presentPart old 1 c).length = c.length := by
    simpa using congrArg List.length (presentPart_addresses old 1 c)
  have habs : ∀ e ∈ (absentCandidates old c).drop k, e ∈ absentCandidates old c :=
    fun e he => List.mem_of_mem_drop he
  have cp : presentCount (presentPart old 1 c ++ (absentCandidates old c).drop k) = c.length := by
    rw [presentCount, List.countP_append, ← hpl]
    have h1 : (presentPart old 1 c).countP StationEntry.isPresent = (presentPart old 1 c).length := by
      rw [List.countP_eq_length]
      intro e he
      simpa [StationEntry.isPresent, Option.isSome_iff_ne_none] using (presentPart_mem he).2.1
    have h2 : ((absentCandidates old c).drop k).countP StationEntry.isPresent = 0 := by
      rw [List.countP_eq_zero]
      intro e he
      simp [StationEntry.isPresent, (absentCandidates_mem ho (habs e he)).2.1]
    omega
  have ca : absentCount (presentPart old 1 c ++ (absentCandidates old c).drop k) =
      ((absentCandidates old c).drop k).length := by
    have := List.length_eq_countP_add_countP StationEntry.isPresent
      (l := presentPart old 1 c ++ (absentCandidates old c).drop k)
    rw [presentCount] at cp
    rw [cp, List.length_append, hpl] at this
    have e : absentCount (presentPart old 1 c ++ (absentCandidates old c).drop k) =
        (presentPart old 1 c ++ (absentCandidates old c).drop k).countP (fun a => decide ¬a.isPresent = true) := by
      rw [absentCount]; congr 1; funext a; cases a.isPresent <;> rfl
    rw [e]; omega
  refine ⟨?_, ?_, ?_, ?_, ?_⟩
  · rw [List.length_append, hpl, List.length_drop]; omega
  · rw [List.map_append, presentPart_addresses]
    refine List.nodup_append.mpr ⟨hn, ?_, ?_⟩
    · rw [List.map_drop]
      exact (absentCandidates_nodup ho c).sublist (List.drop_sublist _ _)
    · intro a ha b hb hab
      obtain ⟨x, hx, rfl⟩ := List.mem_map.mp ha
      obtain ⟨e, he, rfl⟩ := List.mem_map.mp hb
      exact (absentCandidates_mem ho (habs e he)).2.2.2 x hx hab
  · rw [cp, ca, List.map_append, presentPart_positions]
    congr 1
    refine List.eq_replicate_iff.mpr ⟨by simp, ?_⟩
    intro p hp
    obtain ⟨e, he, rfl⟩ := List.mem_map.mp hp
    exact (absentCandidates_mem ho (habs e he)).2.1
  · intro e he
    rcases List.mem_append.mp he with he | he
    · obtain ⟨h1, h2, -⟩ := presentPart_mem he
      simp [h1, h2]
    · obtain ⟨h1, h2, -⟩ := absentCandidates_mem ho (habs e he)
      simp [h1, h2]
  · intro e he
    rcases List.mem_append.mp he with he | he
    · obtain ⟨-, -, h3, x, hx, hxa⟩ := presentPart_mem he
      exact ⟨hxa ▸ hv x hx, by omega⟩
    · exact (absentCandidates_mem ho (habs e he)).2.2.1

/-! ### A valid census (R108) -/

theorem firstDuplicate_none {seen l : List Byte} (h : firstDuplicate seen l = none) :
    l.Nodup ∧ ∀ a ∈ l, a ∉ seen := by
  induction l generalizing seen with
  | nil => simp
  | cons a rest ih =>
    unfold firstDuplicate at h
    split at h
    · cases h
    · rename_i hs
      obtain ⟨h1, h2⟩ := ih h
      refine ⟨List.nodup_cons.mpr ⟨fun hm => ?_, h1⟩, ?_⟩
      · exact h2 a hm (by simp)
      · intro b hb
        rcases List.mem_cons.mp hb with rfl | hb
        · simpa using hs
        · intro hbs; exact h2 b hb (by simp [hbs])

theorem censusFault_none {o : Bool} {e : List (Byte × Byte)} (h : censusFault o e = none) :
    (e.map Prod.fst).Nodup ∧ ∀ x ∈ e, isStationAddress x.1 = true := by
  unfold censusFault at h
  (repeat' split at h) <;> try cases h
  rename_i hf _ hd
  refine ⟨(firstDuplicate_none hd).1, ?_⟩
  intro x hx
  rw [List.find?_eq_none] at hf
  have := hf x.1 (List.mem_map_of_mem hx)
  simpa using this

theorem table_takeCensus {s : State} (o : Bool) (e : List (Byte × Byte)) (h : TableSound s.table)
    (he : e.length ≤ tableCapacity) : TableSound (takeCensus o e s).table := by
  unfold takeCensus
  split
  · simpa using h
  · rename_i hf
    obtain ⟨hn, hv⟩ := censusFault_none hf
    have hr := table_replaceTable h he hn hv
    have ht : TableSound (replaceCensus e s).table := by
      unfold replaceCensus
      dsimp only
      split
      · exact hr
      · simpa using hr
    dsimp only
    split
    · simpa using ht
    · exact ht

theorem readEntries_length (l : List Byte) : 2 * (readEntries l).length ≤ l.length := by
  induction l using readEntries.induct with
  | case1 a k rest ih => simp only [readEntries, List.length_cons]; omega
  | case2 l h => unfold readEntries; split <;> simp_all

/-- A good frame is the first bytes received, up to the extent its kind and length fields give. -/
theorem goodFrame_some {bytes covered : List Byte} (h : goodFrame bytes = some covered) :
    ∃ kind rest n, bytes = kind :: rest ∧ frameExtent kind bytes = some n ∧ 3 ≤ n ∧ n ≤ bytes.length ∧
      covered = bytes.take (n - 2) := by
  unfold goodFrame at h
  (repeat' split at h) <;> try cases h
  rename_i kind rest _ n hn hlt _
  simp only [not_or, not_lt] at hlt
  exact ⟨kind, rest, n, rfl, hn, hlt.1, hlt.2.2, rfl⟩

/-- The covered bytes of a good frame are its first bytes, and its kind gives their number (R12). -/
theorem goodFrame_covered {bytes covered : List Byte} {kind : Byte} (h : goodFrame bytes = some (kind :: covered)) :
    frameExtent kind bytes = some (covered.length + 3) ∧ ∃ tail, bytes = kind :: covered ++ tail := by
  obtain ⟨first, rest, n, hb, hn, h3, hle, hc⟩ := goodFrame_some h
  have hk : first = kind := by
    rw [hb, show n - 2 = (n - 3) + 1 by omega, List.take_succ_cons] at hc
    exact ((List.cons.inj hc).1).symm
  subst hk
  have hlen := congrArg List.length hc
  simp only [List.length_take, List.length_cons] at hlen
  refine ⟨by rw [hn]; congr 1; omega, bytes.drop (n - 2), ?_⟩
  rw [hc, List.take_append_drop]

/-- A returned CENSUS that is good carries exactly as many entries as its count (R12, R14), at most 24. -/
theorem census_entries {bytes body : List Byte} {tag hop : Byte} {o : Bool} {e : List (Byte × Byte)}
    (hg : goodFrame bytes = some (kindCensus :: tag :: hop :: body))
    (hr : readCensus body = some (.census o e)) : e.length ≤ tableCapacity := by
  obtain ⟨he, tail, rfl⟩ := goodFrame_covered hg
  unfold readCensus at hr
  split at hr <;> try cases hr
  rename_i count flag more
  split at hr <;> try cases hr
  split at hr <;> try cases hr
  rename_i hcount
  simp only [frameExtent, show ¬kindCensus = kindCall by decide, if_false, if_true, censusExtent, List.cons_append,
    List.getElem?_cons_succ, List.getElem?_cons_zero, Option.some.injEq, List.length_cons] at he
  have := readEntries_length more
  unfold tableCapacity
  omega

end Sys2Proof.Machine
end

