-- ==== Sys2Proof/Laws/Owed.lean ====
section
/-!
SUPPORT. The owed list of the Report Window Unit: only a good return of a window changes it, and the pairs it then holds
are of stations of the Station Table, one for each.
-/

namespace Sys2Proof.Machine

/-! ### A pair joins the list (R119) -/

theorem owePair_addresses (p : AckPair) (owed : List AckPair) :
    (owePair p owed).map (fun q => q.address) =
      if owed.any (fun q => q.address == p.address) then owed.map (fun q => q.address)
      else owed.map (fun q => q.address) ++ [p.address] := by
  unfold owePair
  split
  · rw [List.map_map]
    refine List.map_congr_left (fun q _ => ?_)
    by_cases h : q.address = p.address <;> simp [h]
  · simp

/-- The owed list within the addresses of a table: one pair for each, of sequences 0 to 7. -/
structure OwedWithin (owed : List AckPair) (addresses : List Byte) : Prop where
  known     : owed.map (fun p => p.address) ⊆ addresses
  once      : (owed.map (fun p => p.address)).Nodup
  sequences : ∀ p ∈ owed, p.sequence.toNat ≤ 7

theorem OwedWithin.sound {owed : List AckPair} {addresses : List Byte} (h : OwedWithin owed addresses)
    (hl : addresses.length ≤ 24) : OwedSound owed :=
  ⟨by simpa using (List.subperm_of_subset h.once h.known).length_le.trans hl, h.once, h.sequences⟩

theorem OwedWithin.owe {owed : List AckPair} {addresses : List Byte} (h : OwedWithin owed addresses) {p : AckPair}
    (ha : p.address ∈ addresses) (hs : p.sequence.toNat ≤ 7) : OwedWithin (owePair p owed) addresses := by
  refine ⟨?_, ?_, ?_⟩
  · rw [owePair_addresses]
    split
    · exact h.known
    · exact List.append_subset.mpr ⟨h.known, by simpa using ha⟩
  · rw [owePair_addresses]
    split
    · exact h.once
    · rename_i hn
      refine List.nodup_append.mpr ⟨h.once, by simp, fun x hx y hy e => hn ?_⟩
      obtain ⟨q, hq, rfl⟩ := List.mem_map.mp hx
      rw [List.mem_singleton.mp hy] at e
      exact List.any_eq_true.mpr ⟨q, hq, by simpa using e⟩
  · intro q hq
    unfold owePair at hq
    split at hq
    · obtain ⟨x, hx, rfl⟩ := List.mem_map.mp hq
      split
      · exact hs
      · exact h.sequences x hx
    · rcases List.mem_append.mp hq with hq | hq
      · exact h.sequences q hq
      · rw [List.mem_singleton.mp hq]; exact hs

/-! ### Reports decided (R124 to R127) -/

theorem updateStation_addresses (t : List StationEntry) (a : Byte) {f : StationEntry → StationEntry}
    (h : ∀ e, (f e).address = e.address) : (updateStation t a f).map (fun e => e.address) = t.map (fun e => e.address) := by
  rw [updateStation, List.map_map]
  refine List.map_congr_left (fun e _ => ?_)
  by_cases ha : e.address = a <;> simp [ha, h]

theorem stationReported_addresses (a : Byte) (s : State) :
    (stationReported a s).table.map (fun e => e.address) = s.table.map (fun e => e.address) := by
  unfold stationReported
  (repeat' split)
  · rfl
  · exact updateStation_addresses _ _ (fun _ => rfl)
  · rfl

theorem owed_decideReport {s : State} {addresses : List Byte} (n : Word) {item : ReportItem}
    (ht : s.table.map (fun e => e.address) = addresses) (h : OwedWithin s.window.owed addresses)
    (hi : item.sequence.toNat ≤ 7) :
    (decideReport n item s).table.map (fun e => e.address) = addresses ∧
    OwedWithin (decideReport n item s).window.owed addresses := by
  have hr := (stationReported_addresses item.address s).trans ht
  unfold decideReport
  split
  · exact ⟨ht, h⟩
  · rename_i hk
    obtain ⟨e, he⟩ := Option.ne_none_iff_exists'.mp (show findStation s.table item.address ≠ none by simpa using hk)
    have ha : item.address ∈ addresses := by
      obtain ⟨hm, ha⟩ := findStation_mem he
      rw [← ht, ← ha]
      exact List.mem_map_of_mem hm
    have ho : OwedWithin (owePair ⟨item.address, item.sequence⟩ s.window.owed) addresses := h.owe ha hi
    have hw : (stationReported item.address s).window = s.window := by simp
    unfold takeReport
    dsimp only
    (repeat' split)
    · exact ⟨hr, by simpa only [owe, countReport, hw] using ho⟩
    · refine ⟨?_, by simpa only [owe, setLastAccepted, countReport, hw] using ho⟩
      exact (updateStation_addresses _ _ (f := fun x => { x with lastAccepted := some item.sequence })
        (fun _ => rfl)).trans hr
    · exact ⟨hr, by simpa only [countReport, hw] using h⟩

theorem owed_decideReports {s : State} {addresses : List Byte} (n : Word) {items : List ReportItem}
    (ht : s.table.map (fun e => e.address) = addresses) (h : OwedWithin s.window.owed addresses)
    (hi : ∀ r ∈ items, r.sequence.toNat ≤ 7) : OwedWithin (decideReports n items s).2.window.owed addresses := by
  induction items generalizing s with
  | nil => exact h
  | cons item rest ih =>
    obtain ⟨h1, h2⟩ := owed_decideReport n ht h (hi item (by simp))
    exact ih h1 h2 (fun r hr => hi r (by simp [hr]))

@[simp] theorem endWindow_owed (e : WindowEnd) (s : State) : (endWindow e s).window.owed = s.window.owed := by
  unfold endWindow
  split <;> simp

/-- A good return leaves a sound list (R124). -/
theorem owed_windowGoodReturn {s : State} {items : List ReportItem} (deferred : Nat) (h : OwedSound s.window.owed)
    (ht : s.table.length ≤ 24) (hi : ∀ r ∈ items, r.sequence.toNat ≤ 7) :
    OwedSound (windowGoodReturn items deferred s).window.owed := by
  unfold windowGoodReturn
  split
  · exact h
  · simp only [endWindow_owed]
    exact (owed_decideReports (s := { s with window := { s.window with owed := [] } }) _ rfl ⟨by simp, by simp, by simp⟩
      hi).sound (by simpa using ht)

/-! ### Everything else leaves the list -/

@[simp] theorem cycleStep_owed (s : State) : (cycleStep s).window.owed = s.window.owed := by
  unfold cycleStep
  dsimp only
  (repeat' split) <;> simp [claimWindow]

@[simp] theorem boundary_owed (s : State) : (boundary s).window.owed = s.window.owed := by
  unfold boundary
  generalize choiceBound s = fuel
  induction fuel generalizing s with
  | zero => rfl
  | succ n ih =>
    unfold chooseWithin
    (repeat' split) <;> simp [claimCensus, claimWindow, ih]

@[simp] theorem boundaryIf_owed (b : Bool) (s : State) : (boundaryIf b s).window.owed = s.window.owed := by
  unfold boundaryIf
  split <;> simp

@[simp] theorem windowTakesReport_owed (r : RingState) (s : State) :
    (windowTakesReport r s).window.owed = s.window.owed := by
  unfold windowTakesReport
  split <;> rfl

@[simp] theorem takeLostReturn_owed (s : State) : (takeLostReturn s).window.owed = s.window.owed := by
  unfold takeLostReturn takeWaitingReports
  split
  · simp only [takeAll_keeps (fun t => t.window.owed), arbiterTakesReport, boundaryIf_owed, windowTakesReport_owed,
      urgentTakesReport_frame, cycleTakesReport_frame, implies_true]
    rfl
  · rfl

/-! ### The end of a circulation -/

/-- A window's result carries sequences 0 to 7 (R14). -/
def SequencesFit : CirculationResult → Prop
  | .window reports _ => ∀ r ∈ reports, r.sequence.toNat ≤ 7
  | _ => True

theorem sequencesFit_readReturn {sent : FrameBody} {kind : Byte} {body : List Byte} {res : CirculationResult}
    (h : readReturn sent kind body = some res) : SequencesFit res := by
  unfold readReturn readCall readCensus readWindow at h
  dsimp only at h
  (repeat' split at h) <;> cases h <;> try trivial
  rename_i hi
  intro r hr
  have := List.all_eq_true.mp hi.2.1 r hr
  simp only [Bool.and_eq_true, decide_eq_true_eq] at this
  exact this.1

theorem owed_endCirculation {s : State} (c : Circulation) {res : CirculationResult} (hop : Option Byte)
    (h : OwedSound s.window.owed) (ht : s.table.length ≤ 24) (hs : SequencesFit res) :
    OwedSound (endCirculation c res hop s).window.owed := by
  have hl : (handTable c.frame res (handHops c.frame hop { s with port := s.port.finish })).table.length ≤ 24 := by
    unfold handTable stationServed stationMissed updateStation
    dsimp only
    (repeat' split) <;> simpa using ht
  have hb : OwedSound (handLost c.requester res
      (handTable c.frame res (handHops c.frame hop { s with port := s.port.finish }))).window.owed := by
    unfold handLost
    split <;> simpa using h
  have hbl : (handLost c.requester res
      (handTable c.frame res (handHops c.frame hop { s with port := s.port.finish }))).table.length ≤ 24 := by
    simpa using hl
  unfold endCirculation
  simp only [boundaryIf_owed]
  generalize handLost c.requester res
    (handTable c.frame res (handHops c.frame hop { s with port := s.port.finish })) = t at hb hbl ⊢
  unfold handRequester
  split
  · simpa using hb
  · simpa using hb
  · simpa using hb
  · unfold handWindow
    split <;> first | exact hb | exact owed_windowGoodReturn _ hb hbl hs | (simp only [endWindow_owed]; exact hb)

theorem owed_retryOrEnd {s : State} (c : Circulation) {res : CirculationResult} (h : OwedSound s.window.owed)
    (ht : s.table.length ≤ 24) (hs : SequencesFit res) : OwedSound (retryOrEnd c res s).window.owed := by
  unfold retryOrEnd
  split
  · exact h
  · exact owed_endCirculation c none h ht hs

theorem owed_judgeFrame {s : State} (bytes : List Byte) (h : OwedSound s.window.owed) (ht : s.table.length ≤ 24) :
    OwedSound (judgeFrame bytes s).window.owed := by
  unfold judgeFrame
  (repeat' split) <;> try first | exact h | simpa using h
  unfold judgeAwaited
  (repeat' split) <;>
    first
      | exact h
      | exact owed_retryOrEnd _ h ht trivial
      | exact owed_endCirculation _ _ h ht (sequencesFit_readReturn ‹_›)

end Sys2Proof.Machine
end

