-- ==== Sys2Proof/Laws/PerInstr.lean ====
section
/-!
SUPPORT. Statements made for every command as syntax. FormSize: a request of the host has at least the payload its type
calls for (R161), and a well-formed one fits in a host link message (R154).
-/

namespace Sys2Proof.Laws.FormSize

open Sys2Proof.Machine

def Statement (i : Instr) : Prop :=
  ∀ type tag payload, requestOf i = some (type, tag, payload) →
    (payloadRange type).1 ≤ payload.length ∧ (i.wf = true → (requestBody type tag payload).length ≤ maxBody)

theorem configureRing : ∀ a b c d e f, Statement (.configureRing a b c d e f) := by
  intro a b c d e f
  rintro _ _ _ ⟨⟩; exact ⟨of_decide_eq_true rfl, fun _ => of_decide_eq_true rfl⟩

theorem startRing : ∀ a, Statement (.startRing a) := by
  intro a
  rintro _ _ _ ⟨⟩; exact ⟨of_decide_eq_true rfl, fun _ => of_decide_eq_true rfl⟩

theorem stopRing : ∀ a, Statement (.stopRing a) := by
  intro a
  rintro _ _ _ ⟨⟩; exact ⟨of_decide_eq_true rfl, fun _ => of_decide_eq_true rfl⟩

theorem census : ∀ a, Statement (.census a) := by
  intro a
  rintro _ _ _ ⟨⟩; exact ⟨of_decide_eq_true rfl, fun _ => of_decide_eq_true rfl⟩

theorem clearPlan : ∀ a, Statement (.clearPlan a) := by
  intro a
  rintro _ _ _ ⟨⟩; exact ⟨of_decide_eq_true rfl, fun _ => of_decide_eq_true rfl⟩

theorem addEntry : ∀ a b c d e f, Statement (.addEntry a b c d e f) := by
  intro a b c d e f
  rintro _ _ _ ⟨⟩; exact ⟨of_decide_eq_true rfl, fun _ => of_decide_eq_true rfl⟩

theorem setEnable : ∀ a b c, Statement (.setEnable a b c) := by
  intro a b c
  rintro _ _ _ ⟨⟩; exact ⟨of_decide_eq_true rfl, fun _ => of_decide_eq_true rfl⟩

theorem writeOutput : ∀ a b c, Statement (.writeOutput a b c) := by
  intro a b c
  rintro _ _ _ ⟨⟩; simp [payloadRange, requestBody, Instr.wf]; omega

theorem readInput : ∀ a b, Statement (.readInput a b) := by
  intro a b
  rintro _ _ _ ⟨⟩; exact ⟨of_decide_eq_true rfl, fun _ => of_decide_eq_true rfl⟩

theorem configureCycle : ∀ a b c d e f g, Statement (.configureCycle a b c d e f g) := by
  intro a b c d e f g
  rintro _ _ _ ⟨⟩; exact ⟨of_decide_eq_true rfl, fun _ => of_decide_eq_true rfl⟩

theorem startCycle : ∀ a, Statement (.startCycle a) := by
  intro a
  rintro _ _ _ ⟨⟩; exact ⟨of_decide_eq_true rfl, fun _ => of_decide_eq_true rfl⟩

theorem stopCycle : ∀ a b, Statement (.stopCycle a b) := by
  intro a b
  rintro _ _ _ ⟨⟩; exact ⟨of_decide_eq_true rfl, fun _ => of_decide_eq_true rfl⟩

theorem triggerCycle : ∀ a, Statement (.triggerCycle a) := by
  intro a
  rintro _ _ _ ⟨⟩; exact ⟨of_decide_eq_true rfl, fun _ => of_decide_eq_true rfl⟩

theorem urgent : ∀ a b c d e f g h, Statement (.urgent a b c d e f g h) := by
  intro a b c d e f g h
  rintro _ _ _ ⟨⟩; simp [payloadRange, requestBody, Instr.wf, halfBytes]; omega

theorem cancel : ∀ a b, Statement (.cancel a b) := by
  intro a b
  rintro _ _ _ ⟨⟩; exact ⟨of_decide_eq_true rfl, fun _ => of_decide_eq_true rfl⟩

theorem openWindow : ∀ a, Statement (.openWindow a) := by
  intro a
  rintro _ _ _ ⟨⟩; exact ⟨of_decide_eq_true rfl, fun _ => of_decide_eq_true rfl⟩

theorem grant : ∀ a b, Statement (.grant a b) := by
  intro a b
  rintro _ _ _ ⟨⟩; exact ⟨of_decide_eq_true rfl, fun _ => of_decide_eq_true rfl⟩

theorem ackDeliveries : ∀ a b, Statement (.ackDeliveries a b) := by
  intro a b
  rintro _ _ _ ⟨⟩; exact ⟨of_decide_eq_true rfl, fun _ => of_decide_eq_true rfl⟩

theorem rewind : ∀ a b, Statement (.rewind a b) := by
  intro a b
  rintro _ _ _ ⟨⟩; exact ⟨of_decide_eq_true rfl, fun _ => of_decide_eq_true rfl⟩

theorem queryStatus : ∀ a, Statement (.queryStatus a) := by
  intro a
  rintro _ _ _ ⟨⟩; exact ⟨of_decide_eq_true rfl, fun _ => of_decide_eq_true rfl⟩

theorem queryStation : ∀ a b, Statement (.queryStation a b) := by
  intro a b
  rintro _ _ _ ⟨⟩; exact ⟨of_decide_eq_true rfl, fun _ => of_decide_eq_true rfl⟩

theorem queryCounters : ∀ a b, Statement (.queryCounters a b) := by
  intro a b
  rintro _ _ _ ⟨⟩; exact ⟨of_decide_eq_true rfl, fun _ => of_decide_eq_true rfl⟩

theorem reset : ∀ a, Statement (.reset a) := by
  intro a
  rintro _ _ _ ⟨⟩; exact ⟨of_decide_eq_true rfl, fun _ => of_decide_eq_true rfl⟩

theorem hardReset : Statement (.hardReset) := by
  rintro _ _ _ ⟨⟩

theorem hardResetRelease : ∀ a b c, Statement (.hardResetRelease a b c) := by
  intro a b c
  rintro _ _ _ ⟨⟩

theorem linkMessageComplete : ∀ a, Statement (.linkMessageComplete a) := by
  intro a
  rintro _ _ _ ⟨⟩

theorem gapTimerExpiry : Statement (.gapTimerExpiry) := by
  rintro _ _ _ ⟨⟩

theorem characterError : Statement (.characterError) := by
  rintro _ _ _ ⟨⟩

theorem linkReset : Statement (.linkReset) := by
  rintro _ _ _ ⟨⟩

theorem breakEnd : Statement (.breakEnd) := by
  rintro _ _ _ ⟨⟩

theorem transmissionEnd : Statement (.transmissionEnd) := by
  rintro _ _ _ ⟨⟩

theorem ringFrameComplete : ∀ a, Statement (.ringFrameComplete a) := by
  intro a
  rintro _ _ _ ⟨⟩

theorem attemptFrameSent : Statement (.attemptFrameSent) := by
  rintro _ _ _ ⟨⟩

theorem returnTimerExpiry : Statement (.returnTimerExpiry) := by
  rintro _ _ _ ⟨⟩

theorem probeTimerExpiry : Statement (.probeTimerExpiry) := by
  rintro _ _ _ ⟨⟩

theorem cycleRingReport : Statement (.cycleRingReport) := by
  rintro _ _ _ ⟨⟩

theorem urgentRingReport : Statement (.urgentRingReport) := by
  rintro _ _ _ ⟨⟩

theorem windowRingReport : Statement (.windowRingReport) := by
  rintro _ _ _ ⟨⟩

theorem arbiterRingReport : Statement (.arbiterRingReport) := by
  rintro _ _ _ ⟨⟩

theorem periodTimerExpiry : Statement (.periodTimerExpiry) := by
  rintro _ _ _ ⟨⟩

theorem spaceReleaseNotice : Statement (.spaceReleaseNotice) := by
  rintro _ _ _ ⟨⟩

theorem deadlineTimerExpiry : ∀ a, Statement (.deadlineTimerExpiry a) := by
  intro a
  rintro _ _ _ ⟨⟩

theorem rxdCharacterReceived : ∀ a, Statement (.rxdCharacterReceived a) := by
  intro a
  rintro _ _ _ ⟨⟩

end Sys2Proof.Laws.FormSize
end

