-- ==== Sys2Proof/Laws/Plan.lean ====
section
/-!
SUPPORT. Plan Memory: the latch, the publication, and the requests that write the plan keep PlanSound.
-/

namespace Sys2Proof.Machine

@[simp] theorem latch_fields (e : PlanEntry) :
    e.latch.target = e.target ∧ e.latch.operation = e.operation ∧ e.latch.outLength = e.outLength ∧
      e.latch.inLength = e.inLength ∧ e.latch.pendingOutput = e.pendingOutput ∧
      e.latch.pendingEnable = e.pendingEnable := by
  refine ⟨rfl, rfl, rfl, rfl, rfl, rfl⟩

theorem PlanEntry.Sound.latch {e : PlanEntry} (h : e.Sound) : e.latch.Sound := by
  obtain ⟨h1, h2, h3, h4, h5, h6⟩ := h
  constructor <;> simp_all [PlanEntry.latch] <;> grind

theorem PlanEntry.Sound.publish {e : PlanEntry} (h : e.Sound) (o : EntryOutcome) (n : Word) :
    (e.publish o n).Sound := by
  obtain ⟨h1, h2, h3, h4, h5, h6⟩ := h
  unfold PlanEntry.publish
  split <;> constructor <;> simp_all

theorem PlanEntry.Sound.write {e : PlanEntry} (h : e.Sound) (data : List Byte) (hr : e.operation ≠ .read)
    (hd : data.length = e.outLength) : (e.write data).Sound := by
  obtain ⟨h1, h2, h3, h4, h5, h6⟩ := h
  have hne : data ≠ [] := by
    intro he
    rw [he] at hd
    cases hop : e.operation <;> simp_all [lengthsAgree] <;> omega
  constructor <;> simp_all [PlanEntry.write]

theorem PlanEntry.Sound.enable {e : PlanEntry} (h : e.Sound) (b : Bool) :
    PlanEntry.Sound { e with pendingEnable := b } := by
  obtain ⟨h1, h2, h3, h4, h5, h6⟩ := h
  exact ⟨h1, h2, h3, h4, h5, h6⟩

/-- Entries replaced one for one, keeping their lengths. -/
theorem PlanSound.of_lengths {p q : List PlanEntry} (h : PlanSound p)
    (ho : q.map (fun e => e.outLength) = p.map (fun e => e.outLength))
    (hi : q.map (fun e => e.inLength) = p.map (fun e => e.inLength)) (he : ∀ e ∈ q, e.Sound) : PlanSound q := by
  have hl : q.length = p.length := by simpa using congrArg List.length ho
  obtain ⟨h1, h2, h3, -⟩ := h
  exact ⟨by omega, by rw [outSum, ho]; exact h2, by rw [inSum, hi]; exact h3, he⟩

theorem PlanSound.latch {p : List PlanEntry} (h : PlanSound p) : PlanSound (p.map PlanEntry.latch) := by
  refine h.of_lengths (by simp [Function.comp_def]) (by simp [Function.comp_def]) ?_
  intro e he
  obtain ⟨x, hx, rfl⟩ := List.mem_map.mp he
  exact (h.entries x hx).latch

theorem publishPlan_lengths (n : Word) (p : List PlanEntry) (os : List EntryOutcome) :
    (publishPlan n p os).map (fun e => e.outLength) = p.map (fun e => e.outLength) ∧
    (publishPlan n p os).map (fun e => e.inLength) = p.map (fun e => e.inLength) := by
  induction p generalizing os with
  | nil => cases os <;> simp [publishPlan]
  | cons e rest ih =>
    cases os with
    | nil => simp [publishPlan]
    | cons o os =>
      simp only [publishPlan, List.map_cons, ih]
      constructor <;> (congr 1; unfold PlanEntry.publish; split <;> rfl)

theorem publishPlan_sound {n : Word} {p : List PlanEntry} (os : List EntryOutcome) (h : ∀ e ∈ p, e.Sound) :
    ∀ e ∈ publishPlan n p os, e.Sound := by
  induction p generalizing os with
  | nil => cases os <;> simp [publishPlan]
  | cons x rest ih =>
    cases os with
    | nil => simpa [publishPlan] using h
    | cons o os =>
      intro e he
      simp only [publishPlan, List.mem_cons] at he
      rcases he with rfl | he
      · exact (h x (by simp)).publish o n
      · exact ih os (fun y hy => h y (by simp [hy])) e he

theorem PlanSound.publish {p : List PlanEntry} (h : PlanSound p) (n : Word) (os : List EntryOutcome) :
    PlanSound (publishPlan n p os) :=
  h.of_lengths (publishPlan_lengths n p os).1 (publishPlan_lengths n p os).2 (publishPlan_sound os h.entries)

theorem PlanSound.set {p : List PlanEntry} (h : PlanSound p) {i : Nat} {e f : PlanEntry} (hi : p[i]? = some e)
    (hf : f.Sound) (ho : f.outLength = e.outLength) (hn : f.inLength = e.inLength) : PlanSound (p.set i f) := by
  obtain ⟨hlt, rfl⟩ := List.getElem?_eq_some_iff.mp hi
  refine h.of_lengths ?_ ?_ ?_
  · rw [List.map_set, ho]; exact List.ext_getElem (by simp) (fun j _ _ => by simp [List.getElem_set]; grind)
  · rw [List.map_set, hn]; exact List.ext_getElem (by simp) (fun j _ _ => by simp [List.getElem_set]; grind)
  · intro x hx
    rcases List.mem_or_eq_of_mem_set hx with hx | rfl
    · exact h.entries x hx
    · exact hf

theorem newEntry_sound {target : Byte} {op : Operation} (object : Byte) {o i : Nat}
    (ht : isStationAddress target = true) (hl : lengthsAgree op o i = true) :
    (newEntry target op object o i).Sound := by
  constructor <;> simp_all [newEntry]

theorem PlanSound.append {p : List PlanEntry} (h : PlanSound p) {e : PlanEntry} (he : e.Sound)
    (hr : planHasRoom p e.outLength e.inLength = true) : PlanSound (p ++ [e]) := by
  simp only [planHasRoom, Bool.and_eq_true, decide_eq_true_eq] at hr
  obtain ⟨h1, h2, h3, h4⟩ := h
  refine ⟨by simpa using hr.1.1, by simpa [Machine.outSum] using hr.1.2, by simpa [Machine.inSum] using hr.2, ?_⟩
  intro x hx
  rcases List.mem_append.mp hx with hx | hx
  · exact h4 x hx
  · rw [List.mem_singleton.mp hx]; exact he

theorem planClosed : Closed (fun _ p => PlanSound p) where
  event _ h := h
  reserve _ _ h _ := h
  report _ _ h _ := h
  convert _ _ h := h
  release _ h := h
  latch h := h.latch
  publish n os h := h.publish n os

end Sys2Proof.Machine
end

