-- ==== Sys2Proof/Laws/Ring.lean ====
section
/-!
SUPPORT. Ring state, Ring Port, slot and timers: every operation that reaches them keeps State.RingSound. Within an
event a PROBING ring may stand without its census; the arbiter's choice at the end of the event claims it.
-/

namespace Sys2Proof.Machine

/-- RingSound within an event: a PROBING ring may have no circulation yet. -/
structure State.RingWeak (s : State) : Prop where
  config    : s.supervisor.config.InRange
  disabled  : s.port.state = .disabled ↔ s.supervisor.state = .off
  record    : s.port.record.isSome = true ↔ s.port.state = .sending ∨ s.port.state = .awaiting
  timer     : s.port.returnTimer.isSome = true ↔ s.port.state = .awaiting
  carries   : s.port.record.isSome = true → s.ringCarries = true
  probing   : ∀ c, s.port.record = some c → s.supervisor.state = .probing → c.requester = .census
  probe     : s.supervisor.probeTimer.isSome = true ↔ s.supervisor.state = .down
  pending   : s.supervisor.censusPending = true → s.supervisor.state = .up
  claim     : ∀ c, s.port.record = some c → c.Sound

theorem State.RingSound.weak {s : State} (h : s.RingSound) : s.RingWeak := by
  obtain ⟨h1, h2, h3, h4, h5, h6, h7, h8, h9⟩ := h
  refine ⟨h1, h2, h3, h4, h5, ?_, h7, h8, h9⟩
  intro c hc hp
  have := h6 hp
  simp only [State.slot, hc, Option.map_some, Option.some.injEq] at this
  exact this

/-- A weak state is sound unless PROBING without a circulation. -/
theorem State.RingWeak.sound {s : State} (h : s.RingWeak)
    (hp : s.supervisor.state = .probing → s.port.record.isSome = true) : s.RingSound := by
  obtain ⟨h1, h2, h3, h4, h5, h6, h7, h8, h9⟩ := h
  refine ⟨h1, h2, h3, h4, h5, ?_, h7, h8, h9⟩
  intro hq
  obtain ⟨c, hc⟩ := Option.isSome_iff_exists.mp (hp hq)
  simp [State.slot, hc, h6 c hc hq]

theorem State.RingSound.of_eq {s t : State} (h : s.RingSound) (e1 : t.port = s.port)
    (e2 : t.supervisor = s.supervisor) : t.RingSound := by
  obtain ⟨h1, h2, h3, h4, h5, h6, h7, h8, h9⟩ := h
  constructor <;> simp_all [State.ringCarries, State.slot]

theorem State.RingWeak.of_eq {s t : State} (h : s.RingWeak) (e1 : t.port = s.port)
    (e2 : t.supervisor = s.supervisor) : t.RingWeak := by
  obtain ⟨h1, h2, h3, h4, h5, h6, h7, h8, h9⟩ := h
  constructor <;> simp_all [State.ringCarries]

/-- A change of counters or of the tag counter alone. -/
theorem State.RingSound.of_port {s : State} (h : s.RingSound) (p : RingPort) (e1 : p.state = s.port.state)
    (e2 : p.record = s.port.record) (e3 : p.returnTimer = s.port.returnTimer) :
    State.RingSound { s with port := p } := by
  obtain ⟨h1, h2, h3, h4, h5, h6, h7, h8, h9⟩ := h
  constructor <;> simp_all [State.ringCarries, State.slot]

theorem State.RingSound.no_record {s : State} (h : s.RingSound) (hc : s.ringCarries = false) :
    s.port.record = none := by
  by_contra hn
  have := h.carries (Option.isSome_iff_ne_none.mpr hn)
  simp [hc] at this

/-! ### The arbiter -/

/-- A claim handed to an idle port while the ring carries circulations. -/
theorem ring_startCirculation {s : State} (h : s.RingWeak) (hc : s.ringCarries = true) (r : Requester)
    (f : FrameBody) (n : Nat) (hf : r = .census ↔ f = .census) (hn : n ≤ 3)
    (hp : s.supervisor.state = .probing → r = .census) : (startCirculation r f n s).RingSound := by
  obtain ⟨h1, h2, h3, h4, h5, h6, h7, h8, h9⟩ := h
  have hoff : s.supervisor.state ≠ .off := by
    intro e; simp [State.ringCarries, e] at hc
  constructor <;>
    simp_all [startCirculation, RingPort.startAttempt, State.ringCarries, State.slot]
  constructor <;> simp_all

theorem ring_claimCensus {s : State} (h : s.RingWeak) (hc : s.ringCarries = true) : (claimCensus s).RingSound := by
  refine ring_startCirculation (s := { s with supervisor := { s.supervisor with censusPending := false } }) ?_ hc
    .census .census s.supervisor.config.retryLimit (by simp) h.config.retry (by simp)
  obtain ⟨h1, h2, h3, h4, h5, h6, h7, h8, h9⟩ := h
  constructor <;> simp_all [State.ringCarries]

/-- A choice leaves the ring sound: a PROBING ring has its census claimed (R66, R67). -/
theorem ring_boundary {s : State} (h : s.RingWeak) : (boundary s).RingSound := by
  unfold boundary
  have hf : 0 < choiceBound s := by unfold choiceBound; omega
  generalize choiceBound s = fuel at hf
  induction fuel generalizing s with
  | zero => omega
  | succ n ih =>
    have ih' : ∀ {t : State}, t.RingWeak → t.supervisor.state ≠ .probing → (chooseWithin n t).RingSound := by
      intro t ht hp
      rcases Nat.eq_zero_or_pos n with h0 | h0
      · subst h0
        exact ht.sound (fun e => absurd e hp)
      · exact ih ht h0
    unfold chooseWithin
    split
    · exact h.sound (fun _ => by assumption)
    · split
      · rename_i hp
        exact ring_claimCensus h (by simp [State.ringCarries, hp])
      · rename_i hnp
        split
        · exact h.sound (fun e => absurd e hnp)
        · rename_i hup
          have hup' : s.supervisor.state = .up := by simpa using hup
          have hcar : s.ringCarries = true := by simp [State.ringCarries, hup']
          have hret := h.config.retry
          have hw : ∀ (t : State), t.port = s.port → t.supervisor = s.supervisor → ∀ k m, 
              (claimWindow k m t).RingSound := by
            intro t e1 e2 k m
            refine ring_startCirculation (s := { t with window := { t.window with record := some ⟨k, m⟩ } })
              (h.of_eq e1 e2) (by simp [State.ringCarries, e2, hup']) .window (.window t.window.owed)
              t.supervisor.config.retryLimit (by simp) (by rw [e2]; exact hret) (by simp [e2, hup'])
          split
          · exact ring_claimCensus h hcar
          · split
            · split
              · rename_i r rest _
                unfold dispatchUrgent
                dsimp only
                split
                · refine ih' (ring_startCirculation (h.of_eq (by simp) (by simp))
                    (by simp [State.ringCarries, hup']) _ _ _ (by simp) ?_ (by simp [hup'])).weak (by simp [hup'])
                  unfold urgentAllowance; split <;> simp [hret]
                · exact ih' (h.of_eq (by simp) (by simp)) (by simp [hup'])
              · exact h.sound (fun e => absurd e hnp)
            · split
              · exact h.sound (fun e => absurd e hnp)
              · split
                · unfold cycleStep
                  dsimp only
                  split
                  · rename_i e _
                    have hs : ∀ t : State, t.port = s.port → t.supervisor = s.supervisor →
                        (startCirculation .cycle (.call e.callBody) s.supervisor.config.retryLimit t).RingSound :=
                      fun t e1 e2 => ring_startCirculation (h.of_eq e1 e2) (by simp [State.ringCarries, e2, hup'])
                        _ _ _ (by simp) hret (by simp [e2, hup'])
                    refine ih' (hs _ ?_ ?_).weak (by simp [hup']) <;> rfl
                  · split
                    · exact ih' (hw _ (by simp) (by simp) _ _).weak (by simp [hup'])
                    · exact ih' (h.of_eq (by simp) (by simp)) (by simp [hup'])
                · split
                  · exact hw _ rfl rfl _ _
                  · split
                    · exact hw _ rfl rfl _ _
                    · exact h.sound (fun e => absurd e hnp)

theorem ring_boundaryIf {s : State} (b : Bool) (h : s.RingSound) : (boundaryIf b s).RingSound := by
  unfold boundaryIf
  split
  · exact ring_boundary h.weak
  · exact h

/-- With the ring out of PROBING and UP a notice causes no choice (R66). -/
theorem boundary_of_not_carries {s : State} (h : s.ringCarries = false) : boundary s = s := by
  simp only [State.ringCarries, Bool.or_eq_false_iff, beq_eq_false_iff_ne] at h
  unfold boundary
  cases hc : choiceBound s with
  | zero => rfl
  | succ n =>
    unfold chooseWithin
    split
    · rfl
    · simp [h.1, h.2]

/-! ### The Ring Supervisor -/

theorem ring_enterProbing {s : State} (c : RingCause) (h : s.RingSound) (hn : s.ringCarries = false) :
    (enterProbing c s).RingSound := by
  have hr := h.no_record hn
  refine ring_boundary ?_
  obtain ⟨h1, h2, h3, h4, h5, h6, h7, h8, h9⟩ := h
  have hp : s.supervisor.censusPending = false := by
    by_contra hc
    have := h8 (by simpa using hc)
    simp [State.ringCarries, this] at hn
  have ht : s.port.returnTimer.isSome = false := by
    by_contra hc
    have := h4.mp (by simpa [Option.isSome_iff_ne_none] using hc)
    simp_all
  constructor <;>
    simp_all [giveBlockReports, changeRing, commitEvent, RingPort.enable, State.ringCarries] <;>
    (try split) <;> simp_all

theorem ring_enterOff {s : State} (h : s.RingSound) : (enterOff s).RingSound := by
  obtain ⟨h1, h2, h3, h4, h5, h6, h7, h8, h9⟩ := h
  constructor <;>
    simp_all [enterOff, giveReports, giveArbiterReport, giveBlockReports, changeRing, commitEvent,
      RingPort.abandon, State.slot]

/-- DOWN, FAULT and UP are entered with the circulation ended and the port idle. -/
theorem ring_enterDown {s : State} (c : RingCause) (h : s.RingWeak) (hr : s.port.record = none)
    (hc : s.ringCarries = true) : (enterDown c s).RingSound := by
  obtain ⟨h1, h2, h3, h4, h5, h6, h7, h8, h9⟩ := h
  have hoff : s.supervisor.state ≠ .off := by intro e; simp [State.ringCarries, e] at hc
  constructor <;>
    simp_all [enterDown, giveReports, giveArbiterReport, giveBlockReports, changeRing, commitEvent, State.slot]

theorem ring_enterFault {s : State} (c : RingCause) (a : Byte) (h : s.RingWeak) (hr : s.port.record = none)
    (hc : s.ringCarries = true) : (enterFault c a s).RingSound := by
  obtain ⟨h1, h2, h3, h4, h5, h6, h7, h8, h9⟩ := h
  have hoff : s.supervisor.state ≠ .off := by intro e; simp [State.ringCarries, e] at hc
  have hdown : s.supervisor.state ≠ .down := by intro e; simp [State.ringCarries, e] at hc
  constructor <;>
    simp_all [enterFault, giveReports, giveArbiterReport, giveBlockReports, changeRing, commitEvent, State.slot]

theorem ring_enterUp {s : State} (h : s.RingWeak) (hr : s.port.record = none)
    (hc : s.ringCarries = true) : (enterUp s).RingSound := by
  obtain ⟨h1, h2, h3, h4, h5, h6, h7, h8, h9⟩ := h
  have hoff : s.supervisor.state ≠ .off := by intro e; simp [State.ringCarries, e] at hc
  have hdown : s.supervisor.state ≠ .down := by intro e; simp [State.ringCarries, e] at hc
  constructor <;>
    simp_all [enterUp, giveReports, giveArbiterReport, giveBlockReports, changeRing, commitEvent, State.slot]

theorem ring_takeCensus {s : State} (o : Bool) (e : List (Byte × Byte)) (h : s.RingWeak)
    (hr : s.port.record = none) (hc : s.ringCarries = true) :
    (takeCensus o e s).RingWeak ∧ ((takeCensus o e s).supervisor.state ≠ .probing) := by
  have ht : (replaceCensus e s).RingWeak := h.of_eq (by simp) (by simp)
  unfold takeCensus
  split
  · exact ⟨(ring_enterFault _ _ h hr hc).weak, by simp [enterFault, changeRing]⟩
  · dsimp only
    split
    · exact ⟨(ring_enterUp ht (by simpa using hr) (by simpa [State.ringCarries] using hc)).weak,
        by simp [enterUp, changeRing]⟩
    · rename_i hp; exact ⟨ht, hp⟩

/-! ### The end of a circulation -/

/-- Waiting reports taken while the ring carries no circulation touch neither the port nor the supervisor. -/
theorem takeWaitingReports_ring {s : State} (h : s.ringCarries = false) :
    (takeWaitingReports s).port = s.port ∧ (takeWaitingReports s).supervisor = s.supervisor := by
  unfold takeWaitingReports
  let p : State → Prop := fun t => t.port = s.port ∧ t.supervisor = s.supervisor
  refine takeAll_induct (P := p) _ ?_ _
    (takeAll_induct (P := p) _ ?_ _ (takeAll_induct (P := p) _ ?_ _ (takeAll_induct (P := p) _ ?_ _ ⟨rfl, rfl⟩)))
  · rintro r t ⟨e1, e2⟩
    unfold arbiterTakesReport boundaryIf
    split
    · rw [boundary_of_not_carries (by simpa [State.ringCarries, e2] using h)]; exact ⟨e1, e2⟩
    · exact ⟨e1, e2⟩
  all_goals rintro r t ⟨e1, e2⟩; simp [p, e1, e2]

theorem ring_endCirculation {s : State} (c : Circulation) (res : CirculationResult) (hop : Option Byte)
    (h : s.RingSound) (hc : s.port.record = some c) : (endCirculation c res hop s).RingSound := by
  have hcar := h.carries (by simp [hc])
  have hcl := h.claim c hc
  have hw : State.RingWeak { s with port := s.port.finish } := by
    obtain ⟨h1, h2, h3, h4, h5, h6, h7, h8, h9⟩ := h
    have hoff : s.supervisor.state ≠ .off := by intro e; simp [State.ringCarries, e] at hcar
    constructor <;> simp_all [RingPort.finish]
  have hup : c.requester ≠ .census → s.supervisor.state = .up := by
    intro hr
    simp only [State.ringCarries, Bool.or_eq_true, beq_iff_eq] at hcar
    rcases hcar with e | e
    · exact absurd (h.weak.probing c hc e) hr
    · exact e
  -- the ring after step 1
  have h1 : (handHops c.frame hop { s with port := s.port.finish }).RingWeak ∧
      (handHops c.frame hop { s with port := s.port.finish }).port.record = none ∧
      (handHops c.frame hop { s with port := s.port.finish }).supervisor.state = s.supervisor.state := by
    unfold handHops
    split
    · exact ⟨hw, rfl, rfl⟩
    · exact ⟨hw, rfl, rfl⟩
    · rename_i hf
      unfold compareHops
      split
      · exact ⟨hw, rfl, rfl⟩
      · refine ⟨?_, rfl, rfl⟩
        have hu := hup (fun e => hf (hcl.frame.mp e))
        obtain ⟨h1, h2, h3, h4, h5, h6, h7, h8, h9⟩ := hw
        constructor <;> simp_all [RingPort.finish, State.ringCarries]
  generalize hs1 : handHops c.frame hop { s with port := s.port.finish } = s1 at h1
  obtain ⟨hw1, hr1, he1⟩ := h1
  have hw2 : (handTable c.frame res s1).RingWeak := hw1.of_eq (by simp) (by simp)
  have hr2 : (handTable c.frame res s1).port.record = none := by simpa using hr1
  have he2 : (handTable c.frame res s1).supervisor.state = s.supervisor.state := by simpa using he1
  generalize hs2 : handTable c.frame res s1 = s2 at hw2 hr2 he2
  have h3 : (handLost c.requester res s2).RingWeak ∧ (handLost c.requester res s2).port.record = none ∧
      (c.requester = .census → (handLost c.requester res s2).ringCarries = true) := by
    unfold handLost takeLostReturn
    split
    · rename_i hl
      split
      · rename_i hup2
        have hd := ring_enterDown .lostReturn hw2 hr2 (by simp [State.ringCarries, hup2])
        have hnc : (enterDown .lostReturn s2).ringCarries = false := by
          simp [State.ringCarries, enterDown, changeRing]
        obtain ⟨e1, e2⟩ := takeWaitingReports_ring hnc
        refine ⟨hd.weak.of_eq e1 e2, ?_, fun e => absurd e hl.2⟩
        rw [e1]; simpa using hr2
      · exact ⟨hw2, hr2, fun e => absurd e hl.2⟩
    · refine ⟨hw2, hr2, fun _ => ?_⟩
      simpa [State.ringCarries, he2] using hcar
  unfold endCirculation
  dsimp only
  rw [hs1, hs2]
  generalize handLost c.requester res s2 = s3 at h3
  obtain ⟨hw3, hr3, hc3⟩ := h3
  -- the requester
  have h4 : (handRequester c.requester res c.attempts s3).RingWeak := by
    unfold handRequester
    split
    · rename_i hq
      unfold handCensus
      split
      · exact (ring_takeCensus _ _ hw3 hr3 (hc3 hq)).1
      · exact (ring_enterDown _ hw3 hr3 (hc3 hq)).weak
      · exact (ring_enterDown _ hw3 hr3 (hc3 hq)).weak
      all_goals exact hw3
    all_goals exact hw3.of_eq (by simp) (by simp)
  generalize handRequester c.requester res c.attempts s3 = s4 at h4
  unfold boundaryIf
  split
  · exact ring_boundary h4
  · rename_i hb
    refine h4.sound (fun e => ?_)
    simp [e] at hb

theorem ring_retryOrEnd {s : State} (c : Circulation) (res : CirculationResult) (h : s.RingSound)
    (hc : s.port.record = some c) : (retryOrEnd c res s).RingSound := by
  unfold retryOrEnd
  split
  · rename_i hlt
    have hcl := h.claim c hc
    have hcar := h.carries (by simp [hc])
    have hst := h.record.mp (by simp [hc])
    obtain ⟨h1, h2, h3, h4, h5, h6, h7, h8, h9⟩ := h
    have hoff : s.supervisor.state ≠ .off := by intro e; simp [State.ringCarries, e] at hcar
    have hcl' : Circulation.Sound { c with attempts := c.attempts + 1, tag := some s.port.tagCounter } := by
      obtain ⟨g1, g2, g3⟩ := hcl
      exact ⟨g1, ⟨by simp, by simp; omega⟩, g3⟩
    constructor <;> simp_all [RingPort.startAttempt, State.ringCarries, State.slot]
  · exact ring_endCirculation c res none h hc

theorem ring_judgeFrame {s : State} (bytes : List Byte) (h : s.RingSound) : (judgeFrame bytes s).RingSound := by
  have hco : (countCorrupt s).RingSound := h.of_port _ rfl rfl rfl
  have hst : (countStray s).RingSound := h.of_port _ rfl rfl rfl
  have hu : (judgeUnawaited bytes s).RingSound := by
    unfold judgeUnawaited
    split
    · exact hco
    · exact hst
  unfold judgeFrame
  (repeat' split) <;> try first | exact h | exact hu
  rename_i c hc
  have hcr : (corruptReturn c s).RingSound := ring_retryOrEnd c _ hco hc
  unfold judgeAwaited
  (repeat' split) <;> first | exact hcr | exact hst | exact ring_endCirculation c _ _ h hc

end Sys2Proof.Machine
end

