-- ==== Sys2Proof/Laws/Room.lean ====
section
/-!
SUPPORT. The room of the Delivery Store and its owners: what each operation of the store does to Store.Holds, and every
operation of the Cycle Engine, the Urgent Queue and the ring keeps State.RoomSound.
-/

namespace Sys2Proof.Machine

/-! ### The store's operations -/

section

variable {st st' : Store} {held : List Reservation}

theorem reservedBytes_perm {l m : List Reservation} (h : l.Perm m) :
    (l.map (fun r => r.size)).sum = (m.map (fun r => r.size)).sum := (h.map _).sum_eq

/-- Records of the same number and no more bytes. -/
theorem Store.Holds.of_records (h : st.Holds held) (hb : st'.committedBytes ≤ st.committedBytes)
    (hn : st'.records.length ≤ st.records.length) (hr : st'.reservations = st.reservations) : st'.Holds held := by
  obtain ⟨h1, h2, h3⟩ := h
  refine ⟨?_, by rw [hr]; omega, by rw [hr]; exact h3⟩
  unfold Store.reservedBytes at *
  rw [hr]; omega

theorem Store.Holds.of_perm {other : List Reservation} (h : st.Holds held) (hp : held.Perm other) : st.Holds other :=
  ⟨h.bytes, h.records, h.owners.trans hp⟩

/-- A record that fits the unused room. -/
theorem Store.Holds.append (h : st.Holds held) (c : RecordContent) (hb : c.size ≤ st.unusedBytes)
    (hn : 1 ≤ st.unusedRecords) : (st.append c).Holds held := by
  obtain ⟨h1, h2, h3⟩ := h
  unfold Store.unusedBytes at hb
  unfold Store.unusedRecords at hn
  refine ⟨?_, ?_, h3⟩
  · simp only [Store.committedBytes, Store.reservedBytes, Store.append, List.map_append, List.sum_append, List.map_cons,
      List.map_nil, List.sum_cons, List.sum_nil, Record.size] at *
    omega
  · simp only [Store.append, List.length_append, List.length_singleton]
    omega

theorem Store.Holds.event (h : st.Holds held) (e : Event) : (st.commitEvent e).Holds held := by
  unfold Store.commitEvent
  (repeat' split)
  · rename_i hr
    simp only [Store.roomForEvents, Bool.and_eq_true, decide_eq_true_eq] at hr
    exact h.append _ (by simpa [RecordContent.size] using hr.1) hr.2
  · exact h.of_records le_rfl le_rfl rfl
  · rename_i hr
    simp only [Store.roomForEvents, Bool.and_eq_true, decide_eq_true_eq] at hr
    have h1 := h.append (.event (.eventsLost st.lostEvents)) (by simp only [RecordContent.size]; omega) (by omega)
    have h2 := h1.append (.event e)
      (by
        simp only [RecordContent.size, Store.unusedBytes, Store.append, Store.committedBytes, Store.reservedBytes,
          List.map_append, List.sum_append, List.map_cons, List.map_nil, List.sum_cons, List.sum_nil,
          Record.size] at *
        omega)
      (by
        simp only [Store.unusedRecords, Store.append, List.length_append, List.length_singleton] at *
        omega)
    exact h2.of_records le_rfl le_rfl rfl
  · exact h.of_records le_rfl le_rfl rfl

theorem Store.Holds.reserve (h : st.Holds held) {o : ReservationOwner} {n : Nat} (he : st.reserve o n = some st') :
    st'.Holds (⟨o, n⟩ :: held) := by
  obtain ⟨h1, h2, h3⟩ := h
  unfold Store.reserve at he
  split at he
  · rename_i hr
    cases he
    simp only [Store.roomBesideMargin, Bool.and_eq_true, decide_eq_true_eq] at hr
    simp only [Store.unusedBytes, Store.unusedRecords, Store.committedBytes, Store.reservedBytes] at hr h1
    refine ⟨?_, ?_, (List.perm_append_comm).trans (h3.cons _)⟩
    · simp only [Store.committedBytes, Store.reservedBytes, List.map_append, List.sum_append, List.map_cons,
        List.map_nil, List.sum_cons, List.sum_nil]
      omega
    · simp only [List.length_append, List.length_singleton]
      omega
  · cases he

theorem Store.Holds.report (h : st.Holds held) {n : Word} {item : ReportItem} (he : st.commitReport n item = some st') :
    st'.Holds held := by
  unfold Store.commitReport at he
  split at he
  · rename_i hr
    cases he
    simp only [Store.roomBesideMargin, Bool.and_eq_true, decide_eq_true_eq] at hr
    exact h.append _ (by omega) (by omega)
  · cases he

/-- The one reservation of an owner ends: the others are left. -/
theorem Store.Holds.ended {o : ReservationOwner} {n : Nat} (h : st.Holds (⟨o, n⟩ :: held)) (ho : ∀ x ∈ held, x.owner ≠ o) :
    (st.endReservation o).reservations.Perm held := by
  have hp : (⟨o, n⟩ :: held).Pairwise (fun a b => (a.owner == o) = true → (b.owner == o) = true → False) := by
    rw [List.pairwise_cons]
    refine ⟨fun x hx _ h2 => ho x hx (by simpa using h2), ?_⟩
    exact List.pairwise_of_forall_mem_list (fun x hx _ _ h1 _ => ho x hx (by simpa using h1))
  have := (List.Perm.eraseP (fun r : Reservation => r.owner == o) hp h.owners.symm).symm
  simpa [Store.endReservation] using this

theorem Store.Holds.convert {o : ReservationOwner} {n : Nat} {c : RecordContent} (h : st.Holds (⟨o, n⟩ :: held))
    (ho : ∀ x ∈ held, x.owner ≠ o) (hc : c.size ≤ n) : (st.convert o c).Holds held := by
  have hp := h.ended ho
  obtain ⟨h1, h2, h3⟩ := h
  have hb := reservedBytes_perm h3
  have hb' := reservedBytes_perm hp
  have hl := h3.length_eq
  have hl' := hp.length_eq
  refine ⟨?_, ?_, hp⟩
  · simp only [Store.convert, Store.committedBytes, Store.reservedBytes, Store.append, Store.endReservation,
      List.map_append, List.sum_append, List.map_cons, List.map_nil, List.sum_cons, List.sum_nil, Record.size,
      storeBytes] at *
    omega
  · simp only [Store.convert, Store.append, Store.endReservation, List.length_append, List.length_cons,
      List.length_nil] at *
    omega

theorem Store.Holds.release {o : ReservationOwner} {n : Nat} (h : st.Holds (⟨o, n⟩ :: held))
    (ho : ∀ x ∈ held, x.owner ≠ o) : (st.release o).Holds held := by
  have hp := h.ended ho
  obtain ⟨h1, h2, h3⟩ := h
  have hb := reservedBytes_perm h3
  have hb' := reservedBytes_perm hp
  have hl := h3.length_eq
  have hl' := hp.length_eq
  refine ⟨?_, ?_, hp⟩
  · simp only [Store.release, Store.committedBytes, Store.reservedBytes, Store.endReservation, List.map_cons,
      List.sum_cons] at *
    omega
  · simp only [Store.release, Store.endReservation, List.length_cons] at *
    omega

theorem sendOldest_sizes (l : List Record) : (sendOldest l).map Record.size = l.map Record.size := by
  induction l with
  | nil => rfl
  | cons r rest ih =>
    unfold sendOldest
    split
    · rfl
    · simp [ih]

theorem Store.Holds.of_sizes (h : st.Holds held) (hs : st'.records.map Record.size = st.records.map Record.size)
    (hr : st'.reservations = st.reservations) : st'.Holds held :=
  h.of_records (by simp [Store.committedBytes, hs]) (by simpa using (congrArg List.length hs).le) hr

theorem Store.Holds.sent (h : st.Holds held) : st.beginTransmission.Holds held := h.of_sizes (sendOldest_sizes _) rfl

theorem Store.Holds.rewound (h : st.Holds held) : st.linkReset.Holds held :=
  h.of_sizes (by simp [Store.linkReset, Function.comp_def, Record.unsend, Record.size]) rfl

theorem Store.Holds.unsent (h : st.Holds held) (place : Nat) : (st.unsendFrom place).Holds held := by
  refine h.of_sizes ?_ rfl
  rw [Store.unsendFrom]
  conv_rhs => rw [← List.take_append_drop place st.records]
  rw [List.map_append, List.map_append, List.map_map]
  rfl

theorem Store.Holds.released (h : st.Holds held) (place : Nat) : (st.releaseThrough place).Holds held := by
  refine h.of_records ?_ (by simp [Store.releaseThrough]) rfl
  simp only [Store.committedBytes, Store.releaseThrough, List.map_drop]
  exact (List.drop_sublist _ _).sum_le_sum (fun _ _ => Nat.zero_le _)

end

/-! ### What the room depends on -/

/-- The reservations of the Urgent Queue. -/
def UrgentQueue.held (q : UrgentQueue) : List Reservation :=
  q.all.map (fun r => ⟨.urgent r.tag, 8 + r.inLength⟩)

theorem UrgentQueue.held_owner {q : UrgentQueue} {x : Reservation} (h : x ∈ q.held) : x.owner ≠ .cycle := by
  obtain ⟨r, -, rfl⟩ := List.mem_map.mp h
  simp

theorem reservationsHeld_inCycle {s : State} (h : s.cycle.inCycle = true) :
    s.reservationsHeld = ⟨.cycle, snapshotReservation s.plan⟩ :: s.urgent.held := by
  simp [State.reservationsHeld, h, UrgentQueue.held, snapshotReservation]

theorem reservationsHeld_between {s : State} (h : s.cycle.inCycle = false) : s.reservationsHeld = s.urgent.held := by
  simp [State.reservationsHeld, h, UrgentQueue.held]

theorem State.InFlight.of_none {s t : State} {c : Circulation} (h : s.InFlight c) (ha : t.cycle.awaiting = none)
    (hu : t.urgent.inFlight = s.urgent.inFlight) (hw : t.window.record = s.window.record) : t.InFlight c :=
  ⟨h.lengths, fun _ hn => absurd ha hn, fun e r hr => h.urgent e r (by rw [← hu]; exact hr),
    fun e => by rw [hw]; exact h.window e⟩

theorem State.InFlight.of_eq {s t : State} {c : Circulation} (h : s.InFlight c) (hc : t.cycle.awaiting = s.cycle.awaiting)
    (hp : t.cycle.pointer = s.cycle.pointer)
    (hi : t.plan.map (fun e => e.inLength) = s.plan.map (fun e => e.inLength))
    (hu : t.urgent.inFlight = s.urgent.inFlight) (hw : t.window.record = s.window.record) : t.InFlight c := by
  refine ⟨h.lengths, fun e hn x hx => ?_, fun e r hr => h.urgent e r (by rw [← hu]; exact hr),
    fun e => by rw [hw]; exact h.window e⟩
  have hm := congrArg (fun l => l[t.cycle.pointer]?) hi
  simp only [List.getElem?_map, hx, Option.map_some] at hm
  obtain ⟨y, hy, he⟩ := Option.map_eq_some_iff.mp hm.symm
  rw [hp] at hy
  rw [← he]
  exact h.cycle e (by rw [← hc]; exact hn) y hy

theorem OutcomesFit.of_lengths {os : List EntryOutcome} {p q : List PlanEntry} (h : OutcomesFit os p)
    (hi : q.map (fun e => e.inLength) = p.map (fun e => e.inLength)) : OutcomesFit os q := by
  intro i o e ho he
  have hm := congrArg (fun l => l[i]?) hi
  simp only [List.getElem?_map, he, Option.map_some] at hm
  obtain ⟨y, hy, hl⟩ := Option.map_eq_some_iff.mp hm.symm
  rw [← hl]
  exact h i o y ho hy

theorem OutcomesFit.nil (p : List PlanEntry) : OutcomesFit [] p := by
  intro i o e ho
  simp at ho

theorem OutcomesFit.append {os : List EntryOutcome} {p : List PlanEntry} (h : OutcomesFit os p)
    {more : List EntryOutcome} (hm : ∀ (i : Nat) o e, more[i]? = some o → p[os.length + i]? = some e → o.data.length ≤ e.inLength) :
    OutcomesFit (os ++ more) p := by
  intro i o e ho he
  rw [List.getElem?_append] at ho
  split at ho
  · exact h i o e ho he
  · exact hm (i - os.length) o e ho (by rw [show os.length + (i - os.length) = i by omega]; exact he)

/-- Outcomes that fit their entries come to no more data than the plan's in lengths. -/
theorem OutcomesFit.sum {os : List EntryOutcome} {p : List PlanEntry} (h : OutcomesFit os p)
    (hl : os.length ≤ p.length) : (os.map (fun o => o.data.length)).sum ≤ inSum p := by
  induction os generalizing p with
  | nil => simp
  | cons o os ih =>
    cases p with
    | nil => simp at hl
    | cons e p =>
      have h0 := h 0 o e rfl rfl
      have := ih (p := p) (fun i => h (i + 1)) (by simpa using hl)
      simp only [inSum, List.map_cons, List.sum_cons] at *
      omega

/-- The room depends on the store, the walk, the in lengths of the plan, the Urgent Queue, the circulation in flight and
the window record. -/
theorem State.RoomSound.of_eq {s t : State} (h : s.RoomSound) (hst : t.store.Holds s.reservationsHeld)
    (hc : t.cycle.inCycle = s.cycle.inCycle) (ho : t.cycle.outcomes = s.cycle.outcomes)
    (hp : t.cycle.pointer = s.cycle.pointer) (ha : t.cycle.awaiting = s.cycle.awaiting)
    (hi : t.plan.map (fun e => e.inLength) = s.plan.map (fun e => e.inLength)) (hu : t.urgent = s.urgent)
    (hr : t.port.record = s.port.record) (hw : t.window.record = s.window.record) : t.RoomSound := by
  have hl : t.plan.length = s.plan.length := by simpa using congrArg List.length hi
  have hh : t.reservationsHeld = s.reservationsHeld := by
    simp only [State.reservationsHeld, hc, hl, inSum, hi, hu]
  refine ⟨by rw [hh]; exact hst, by rw [hu]; exact h.urgent, by rw [ho]; exact h.outcomes.of_lengths hi, ?_⟩
  intro c hc'
  exact (h.flight c (by rw [← hr]; exact hc')).of_eq ha hp hi (by rw [hu]) hw

/-- A change of the store alone. -/
theorem State.RoomSound.of_store {s t : State} (h : s.RoomSound) (hst : t.store.Holds s.reservationsHeld)
    (hc : t.cycle = s.cycle) (hp : t.plan = s.plan) (hu : t.urgent = s.urgent)
    (hr : t.port.record = s.port.record) (hw : t.window.record = s.window.record) : t.RoomSound :=
  h.of_eq hst (by rw [hc]) (by rw [hc]) (by rw [hc]) (by rw [hc]) (by rw [hp]) hu hr hw

/-- A change that reaches none of it. -/
theorem State.RoomSound.of_same {s t : State} (h : s.RoomSound) (hst : t.store = s.store) (hc : t.cycle = s.cycle)
    (hp : t.plan = s.plan) (hu : t.urgent = s.urgent) (hr : t.port.record = s.port.record)
    (hw : t.window.record = s.window.record) : t.RoomSound :=
  h.of_store (by rw [hst]; exact h.store) hc hp hu hr hw

/-- The circulation ended: nothing is in flight. -/
theorem State.RoomSound.of_ended {s t : State} (h : s.RoomSound) (hst : t.store.Holds s.reservationsHeld)
    (hc : t.cycle = s.cycle) (hp : t.plan = s.plan) (hu : t.urgent = s.urgent) (hr : t.port.record = none) :
    t.RoomSound := by
  have hh : t.reservationsHeld = s.reservationsHeld := by simp only [State.reservationsHeld, hc, hp, hu]
  refine ⟨by rw [hh]; exact hst, by rw [hu]; exact h.urgent, by rw [hc, hp]; exact h.outcomes, ?_⟩
  intro c hc'
  rw [hr] at hc'; cases hc'

/-! ### The Cycle Engine -/

/-- Between cycles: the cycle holds no reservation and nothing of the walk is in flight. -/
structure State.RoomRested (s : State) : Prop where
  cycle  : s.cycle.Rested
  store  : s.store.Holds s.urgent.held
  urgent : s.urgent.Sound
  flight : ∀ c, s.port.record = some c → s.InFlight c

theorem State.RoomSound.rested {s : State} (h : s.RoomSound) (hc : s.CycleSound)
    (hs : s.cycle.state = .armed ∨ s.cycle.state = .held) : s.RoomRested := by
  refine ⟨hc.rested hs, ?_, h.urgent, h.flight⟩
  rw [← reservationsHeld_between (s := s) (by rcases hs with e | e <;> simp [CycleEngine.inCycle, e])]
  exact h.store

/-- Rested, and out of RUNNING and CLOSING: sound. -/
theorem State.RoomRested.sound {s t : State} (h : s.RoomRested) (hst : t.store.Holds s.urgent.held)
    (hi : t.cycle.inCycle = false) (ho : t.cycle.outcomes = []) (ha : t.cycle.awaiting = none)
    (hu : t.urgent = s.urgent) (hr : t.port.record = s.port.record) (hw : t.window.record = s.window.record) :
    t.RoomSound := by
  refine ⟨by rw [reservationsHeld_between hi, hu]; exact hst, by rw [hu]; exact h.urgent,
    by rw [ho]; exact OutcomesFit.nil _, ?_⟩
  intro c hc
  exact (h.flight c (by rw [← hr]; exact hc)).of_none ha (by rw [hu]) hw

theorem room_startAttempt {s : State} (mark : Bool) (h : s.RoomRested) : (startAttempt mark s).RoomSound := by
  unfold startAttempt
  split
  · exact h.sound h.store rfl h.cycle.outcomes h.cycle.awaiting rfl rfl rfl
  · split
    · exact h.sound h.store rfl h.cycle.outcomes h.cycle.awaiting rfl rfl rfl
    · rename_i st hst
      refine ⟨?_, h.urgent, OutcomesFit.nil _, fun c hc => (h.flight c hc).of_none rfl rfl rfl⟩
      rw [reservationsHeld_inCycle rfl]
      have := h.store.reserve hst
      simpa [startActions, snapshotReservation, inSum, Function.comp_def] using this

theorem room_startCause {s : State} (mark : Bool) (h : s.RoomSound) (hc : s.CycleSound) :
    (startCause mark s).RoomSound := by
  have ho : (overrun s).RoomSound := by
    unfold overrun
    dsimp only
    (repeat' split) <;>
      first
        | exact h.of_eq h.store rfl rfl rfl rfl rfl rfl rfl rfl
        | exact h.of_eq (h.store.event _) rfl rfl rfl rfl rfl rfl rfl rfl
  unfold startCause
  split
  · exact h
  · rename_i e; exact room_startAttempt mark (h.rested hc (.inl e))
  · exact h.of_eq h.store rfl rfl rfl rfl rfl rfl rfl rfl
  · exact ho
  · exact ho

theorem room_retryHeldStart {s : State} (h : s.RoomSound) (hc : s.CycleSound) : (retryHeldStart s).RoomSound := by
  unfold retryHeldStart
  split
  · rename_i e; exact room_startAttempt _ (h.rested hc (.inr e))
  · exact h

theorem room_enterStopped {s : State} (h : s.RoomRested) : (enterStopped s).RoomSound :=
  h.sound (h.store.event _) rfl h.cycle.outcomes h.cycle.awaiting rfl rfl rfl

theorem room_armAfterCycle {s : State} (raise mark : Bool) (h : s.RoomRested) :
    (armAfterCycle raise mark s).RoomSound := by
  have ha : (armAfterCycle false mark s).RoomSound :=
    h.sound h.store rfl h.cycle.outcomes h.cycle.awaiting rfl rfl rfl
  cases raise with
  | false => exact ha
  | true => exact room_startCause mark ha (cycle_armAfterCycle false mark h.cycle)

/-- The snapshot of a finished walk fits the reservation of its cycle (R58). -/
theorem snapshot_size {s : State} (h : s.RoomSound) (hl : s.cycle.outcomes.length ≤ s.plan.length) :
    (RecordContent.snapshot s.cycle.snapshot).size ≤ snapshotReservation s.plan := by
  have := h.outcomes.sum hl
  simp only [RecordContent.size, CycleEngine.snapshot, snapshotReservation]
  omega

theorem room_settleCycle {s : State} (h : s.RoomSound) (hc : s.CycleSound) (hi : s.cycle.inCycle = true)
    (ha : s.cycle.awaiting = none) : (settleCycle s).RoomRested := by
  refine ⟨rested_settleCycle hc hi ha, ?_, h.urgent, fun c hr => (h.flight c hr).of_none ha rfl rfl⟩
  have hst := h.store
  rw [reservationsHeld_inCycle hi] at hst
  exact hst.convert (fun x hx => UrgentQueue.held_owner hx) (snapshot_size h hc.settled)

theorem room_completeCycle {s : State} (h : s.RoomSound) (hc : s.CycleSound) (hi : s.cycle.inCycle = true)
    (ha : s.cycle.awaiting = none) : (completeCycle s).RoomSound := by
  have hr := room_settleCycle h hc hi ha
  unfold completeCycle
  split
  · exact room_enterStopped hr
  · exact room_armAfterCycle _ _ hr

theorem room_abandonCycle {s : State} (r : AbandonReason) (h : s.RoomSound) (hc : s.CycleSound)
    (hi : s.cycle.inCycle = true) : (abandonCycle r s).RoomSound := by
  have hr : (dropCycle r s).RoomRested := by
    refine ⟨rested_dropCycle r hc hi, ?_, h.urgent, fun c hr => (h.flight c hr).of_none rfl rfl rfl⟩
    have hst := h.store
    rw [reservationsHeld_inCycle hi] at hst
    exact (hst.release (fun x hx => UrgentQueue.held_owner hx)).event _
  unfold abandonCycle
  split
  · exact room_enterStopped hr
  · exact room_armAfterCycle _ _ hr

theorem room_cycleTakesReport {s : State} (r : RingState) (h : s.RoomSound) (hc : s.CycleSound) :
    (cycleTakesReport r s).RoomSound := by
  unfold cycleTakesReport
  (repeat' split)
  · exact room_retryHeldStart h hc
  · rename_i hi; exact room_abandonCycle _ h hc hi
  · exact h
  · exact h

theorem room_endWalk {s : State} (h : s.RoomSound) (hc : s.CycleSound) (hr : s.cycle.state = .running)
    (ha : s.cycle.awaiting = none) : (endWalk s).RoomSound := by
  unfold endWalk
  split
  · exact h.of_eq h.store (by simp [CycleEngine.inCycle, hr]) rfl rfl rfl rfl rfl rfl rfl
  · exact room_completeCycle h hc (by simp [CycleEngine.inCycle, hr]) ha

/-- An outcome that fits the awaiting entry (R52). -/
theorem room_takeEntryOutcome {s : State} (o : EntryOutcome) (h : s.RoomSound) (hc : s.CycleSound)
    (hr : s.port.record = none)
    (ho : s.cycle.awaiting ≠ none → ∀ e, s.plan[s.cycle.pointer]? = some e → o.data.length ≤ e.inLength) :
    (takeEntryOutcome o s).RoomSound := by
  unfold takeEntryOutcome
  dsimp only
  split
  · rename_i hs
    obtain ⟨hrun, ha⟩ := hs
    have ht : State.RoomSound { s with cycle :=
        { s.cycle with outcomes := s.cycle.outcomes ++ [o], pointer := s.cycle.pointer + 1, awaiting := none } } := by
      refine ⟨h.store, h.urgent, h.outcomes.append ?_, fun c e => by rw [show s.port.record = some c from e] at hr; cases hr⟩
      intro i x e hx he
      have hi : i = 0 := by
        rcases Nat.eq_zero_or_pos i with h0 | h0
        · exact h0
        · rw [List.getElem?_eq_none (by simp; omega)] at hx; cases hx
      subst hi
      cases hx
      rw [Nat.add_zero, ← hc.pointer] at he
      exact ho ha e he
    split
    · exact room_endWalk ht (cycle_outcomeTaken o hc ha) hrun rfl
    · exact ht
  · exact h

theorem room_takeWindowEnd {s : State} (n : Word) (e : WindowEnd) (h : s.RoomSound) (hc : s.CycleSound) :
    (takeWindowEnd n e s).RoomSound := by
  unfold takeWindowEnd
  split
  · rename_i hs
    have hi : s.cycle.inCycle = true := by simp [CycleEngine.inCycle, hs.1]
    have ha := hc.not_awaiting (by rw [hs.1]; decide)
    split
    · refine room_completeCycle (h.of_eq h.store rfl rfl rfl rfl rfl rfl rfl rfl) ?_ hi ha
      obtain ⟨h1, h2, h3, h4, h5, h6, h7, h8, h9, h10⟩ := hc
      constructor <;> simp_all [CycleEngine.inCycle]
    · refine room_completeCycle (h.of_eq h.store rfl rfl rfl rfl rfl rfl rfl rfl) ?_ hi ha
      obtain ⟨h1, h2, h3, h4, h5, h6, h7, h8, h9, h10⟩ := hc
      constructor <;> simp_all [CycleEngine.inCycle]
    · exact h
  · exact h

/-! ### The Urgent Queue -/

/-- The reservation of a request. -/
def UrgentRequest.reservation (r : UrgentRequest) : Reservation := ⟨.urgent r.tag, 8 + r.inLength⟩

/-- A request leaves the queue: its reservation stands beside the others, and no other has its owner. -/
theorem State.RoomSound.request_leaves {s : State} (h : s.RoomSound) {r : UrgentRequest} {u : UrgentQueue}
    (hp : s.urgent.all.Perm (r :: u.all)) :
    s.store.Holds (r.reservation :: ({ s with urgent := u } : State).reservationsHeld) ∧
    ∀ x ∈ ({ s with urgent := u } : State).reservationsHeld, x.owner ≠ .urgent r.tag := by
  have hn := ((hp.map (fun r => r.tag)).nodup_iff).mp h.urgent.tags
  refine ⟨h.store.of_perm ?_, ?_⟩
  · exact ((hp.map UrgentRequest.reservation).append_left _).trans List.perm_middle
  · intro x hx
    rcases List.mem_append.mp hx with hx | hx
    · split at hx
      · rw [List.mem_singleton.mp hx]; simp
      · cases hx
    · obtain ⟨q, hq, rfl⟩ := List.mem_map.mp hx
      simp only [List.map_cons, List.nodup_cons, List.mem_map, not_exists, not_and] at hn
      simpa using hn.1 q hq

theorem UrgentQueue.Sound.leaves {q u : UrgentQueue} (h : q.Sound) {r : UrgentRequest} (hp : q.all.Perm (r :: u.all))
    (hl : u.queue.length ≤ q.queue.length) : u.Sound := by
  have hn := ((hp.map (fun r => r.tag)).nodup_iff).mp h.tags
  exact ⟨hl.trans h.places, (List.nodup_cons.mp (by simpa using hn)).2,
    fun x hx => h.sizes x (hp.symm.subset (List.mem_cons_of_mem _ hx))⟩

/-- What a request that leaves does to the room, with the store in which its reservation has ended. -/
theorem State.RoomSound.left {s t : State} (h : s.RoomSound) {r : UrgentRequest} {u : UrgentQueue}
    (hp : s.urgent.all.Perm (r :: u.all)) (hl : u.queue.length ≤ s.urgent.queue.length)
    (hf : u.inFlight = s.urgent.inFlight ∨ u.inFlight = none)
    (hst : t.store.Holds ({ s with urgent := u } : State).reservationsHeld) (hu : t.urgent = u)
    (hc : t.cycle = s.cycle) (hpl : t.plan = s.plan) (hr : t.port.record = s.port.record)
    (hw : t.window.record = s.window.record) : t.RoomSound := by
  have hh : t.reservationsHeld = ({ s with urgent := u } : State).reservationsHeld := by
    simp only [State.reservationsHeld, hc, hpl, hu]
  refine ⟨by rw [hh]; exact hst, by rw [hu]; exact h.urgent.leaves hp hl, by rw [hc, hpl]; exact h.outcomes, ?_⟩
  intro c hc'
  have hi := h.flight c (by rw [← hr]; exact hc')
  refine ⟨hi.lengths, fun e => by rw [hc, hpl]; exact hi.cycle e, fun e q hq => ?_, fun e => by rw [hw]; exact hi.window e⟩
  rw [hu] at hq
  rcases hf with hf | hf
  · exact hi.urgent e q (by rw [← hf]; exact hq)
  · rw [hf] at hq; cases hq

/-- A request ends with a result that fits its reservation (R76, R80). -/
theorem room_commitResult {s : State} (h : s.RoomSound) {r : UrgentRequest} {u : UrgentQueue}
    (o : ExchangeOutcome) (st : Option ReplyStatus) (n : Nat) {d : List Byte} (hp : s.urgent.all.Perm (r :: u.all))
    (hl : u.queue.length ≤ s.urgent.queue.length) (hf : u.inFlight = s.urgent.inFlight ∨ u.inFlight = none)
    (hd : d.length ≤ r.inLength) : (commitResult r o st n d { s with urgent := u }).RoomSound := by
  obtain ⟨h1, h2⟩ := h.request_leaves hp
  exact h.left hp hl hf (h1.convert h2 (by simp only [RecordContent.size]; omega)) rfl rfl rfl rfl rfl

theorem room_endInFlight {s : State} (o : ExchangeOutcome) (st : Option ReplyStatus) (n : Nat) {d : List Byte}
    (h : s.RoomSound) (hd : ∀ r, s.urgent.inFlight = some r → d.length ≤ r.inLength) :
    (endInFlight o st n d s).RoomSound := by
  unfold endInFlight
  split
  · exact h
  · rename_i r hr
    refine room_commitResult h o st n ?_ le_rfl (.inr rfl) (hd r hr)
    simp [UrgentQueue.all, hr]

theorem queuedWith_perm {q : UrgentQueue} {tag : Byte} {r : UrgentRequest} (h : queuedWith q tag = some r) :
    q.all.Perm (r :: (q.remove tag).all) ∧ (q.remove tag).queue.length ≤ q.queue.length ∧ r.tag = tag := by
  obtain ⟨hr, as, bs, hq, ha⟩ := List.find?_eq_some_iff_append.mp h
  have he : (q.remove tag).queue = as ++ bs := by
    simp only [UrgentQueue.remove, hq]
    rw [List.eraseP_append_right _ (by simpa using ha), List.eraseP_cons_of_pos (p := fun r : UrgentRequest => r.tag == tag) hr]
  refine ⟨?_, by rw [he, hq]; simp, by simpa using hr⟩
  unfold UrgentQueue.all
  rw [he, hq, show (q.remove tag).inFlight = q.inFlight from rfl, ← List.append_assoc, ← List.append_assoc]
  exact List.perm_middle

/-- Every request ended: the reservations of the others are left (R85). -/
theorem holds_stopRequests {l : List UrgentRequest} {s : State} {others : List Reservation}
    (h : s.store.Holds (l.map UrgentRequest.reservation ++ others)) (hn : (l.map (fun r => r.tag)).Nodup)
    (ho : ∀ x ∈ others, x.owner = .cycle) : (stopRequests l s).store.Holds others := by
  induction l generalizing s with
  | nil => exact h
  | cons r rest ih =>
    simp only [List.map_cons, List.nodup_cons, List.mem_map, not_exists, not_and] at hn
    refine ih (h.convert ?_ (by simp [RecordContent.size])) hn.2
    intro x hx
    rcases List.mem_append.mp hx with hx | hx
    · obtain ⟨q, hq, rfl⟩ := List.mem_map.mp hx
      simpa [UrgentRequest.reservation] using hn.1 q hq
    · rw [ho x hx]; simp

theorem room_urgentTakesReport {s : State} (r : RingState) (h : s.RoomSound) : (urgentTakesReport r s).RoomSound := by
  unfold urgentTakesReport
  split
  · have ht : State.reservationsHeld { s with urgent := {} } =
        if s.cycle.inCycle then [⟨.cycle, 14 + 3 * s.plan.length + inSum s.plan⟩] else [] := by
      simp [State.reservationsHeld, UrgentQueue.all]
    have hs := holds_stopRequests (s := { s with urgent := {} }) (l := s.urgent.all)
      (others := State.reservationsHeld { s with urgent := {} })
      (h.store.of_perm (by
        rw [ht]
        exact List.perm_append_comm)) h.urgent.tags (by
        rw [ht]; intro x hx
        split at hx
        · rw [List.mem_singleton.mp hx]
        · cases hx)
    refine ⟨?_, ?_, by simpa using h.outcomes, fun c hc => ?_⟩
    · simpa [State.reservationsHeld, UrgentQueue.all] using hs
    · simp only [stopRequests_frame]
      exact ⟨by simp, by simp [UrgentQueue.all], by simp [UrgentQueue.all]⟩
    · have hi := h.flight c (by simpa using hc)
      exact ⟨hi.lengths, by simpa using hi.cycle, by simp, by simpa using hi.window⟩
  · exact h

theorem room_expireRequest {s : State} {tag : Byte} {r : UrgentRequest} (h : s.RoomSound)
    (hq : queuedWith s.urgent tag = some r) :
    (commitResult r .expired none 0 [] { s with urgent := s.urgent.remove r.tag }).RoomSound := by
  obtain ⟨h1, h2, rfl⟩ := queuedWith_perm hq
  exact room_commitResult h _ _ _ h1 h2 (.inl rfl) (Nat.zero_le _)

theorem room_cancelRequest {s : State} {tag : Byte} {r : UrgentRequest} (h : s.RoomSound)
    (hq : queuedWith s.urgent tag = some r) :
    (releaseReservation (.urgent tag) { s with urgent := s.urgent.remove tag }).RoomSound := by
  obtain ⟨h1, h2, rfl⟩ := queuedWith_perm hq
  obtain ⟨h3, h4⟩ := h.request_leaves h1
  exact h.left h1 h2 (.inl rfl) (h3.release h4) rfl rfl rfl rfl rfl

/-- A request joins the tail with its reservation (R73, R74). -/
theorem room_acceptRequest {s : State} {r : UrgentRequest} {st : Store} (h : s.RoomSound)
    (hl : s.urgent.queue.length < urgentPlaces) (ht : tagInUse s.urgent r.tag = false)
    (hs : r.outData.length ≤ 32 ∧ r.inLength ≤ 32)
    (he : s.store.reserve (.urgent r.tag) (urgentReservation r.inLength) = some st) :
    State.RoomSound { s with store := st, urgent := { s.urgent with queue := s.urgent.queue ++ [r] } } := by
  have ha : UrgentQueue.all { s.urgent with queue := s.urgent.queue ++ [r] } = s.urgent.all ++ [r] := by
    simp [UrgentQueue.all]
  refine ⟨(h.store.reserve he).of_perm ?_, ⟨by simpa using hl, ?_, ?_⟩, h.outcomes, fun c hc => ?_⟩
  · have : State.reservationsHeld
        { s with store := st, urgent := { s.urgent with queue := s.urgent.queue ++ [r] } } =
        s.reservationsHeld ++ [r.reservation] := by
      simp [State.reservationsHeld, ha, UrgentRequest.reservation]
    rw [this]
    exact List.perm_append_comm (l₁ := [_])
  · rw [ha, List.map_append, List.nodup_append]
    refine ⟨h.urgent.tags, by simp, ?_⟩
    intro x hx y hy hxy
    obtain ⟨q, hq, rfl⟩ := List.mem_map.mp hx
    rw [List.mem_map] at hy
    obtain ⟨z, hz, rfl⟩ := hy
    rw [List.mem_singleton.mp hz] at hxy
    simp only [tagInUse, List.any_eq_false, beq_iff_eq] at ht
    exact ht q hq hxy
  · rw [ha]
    intro x hx
    rcases List.mem_append.mp hx with hx | hx
    · exact h.urgent.sizes x hx
    · rw [List.mem_singleton.mp hx]; exact hs
  · have hi := h.flight c hc
    exact ⟨hi.lengths, hi.cycle, hi.urgent, hi.window⟩

/-! ### Claims, the walk and the boundary -/

/-- A claim with the slot free puts its circulation in flight (R9). -/
theorem room_startCirculation {s : State} (h : s.RoomSound) (r : Requester) (f : FrameBody) (n : Nat)
    (hf : s.InFlight ⟨r, f, 0, n, none⟩) : (startCirculation r f n s).RoomSound := by
  refine ⟨h.store, h.urgent, h.outcomes, fun c hc => ?_⟩
  cases hc
  exact ⟨hf.lengths, hf.cycle, hf.urgent, hf.window⟩

theorem room_claimCensus {s : State} (h : s.RoomSound) : (claimCensus s).RoomSound :=
  room_startCirculation (s := { s with supervisor := { s.supervisor with censusPending := false } })
    (h.of_same rfl rfl rfl rfl rfl rfl) _ _ _ ⟨by simp, by simp, by simp, by simp⟩

theorem room_claimWindow {s : State} (k : WindowKind) (n : Word) (h : s.RoomSound) (hr : s.port.record = none) :
    (claimWindow k n s).RoomSound :=
  room_startCirculation
    (s := { s with window := { s.window with record := some ⟨k, n⟩ } })
    ⟨h.store, h.urgent, h.outcomes, fun c hc => by rw [show s.port.record = some c from hc] at hr; cases hr⟩ _ _ _
    ⟨by simp, by simp, by simp, by simp⟩

/-- The entries settled without a call carry no data, and the entry found callable follows them (R50, R51). -/
theorem walk_found (table : List StationEntry) (l : List PlanEntry) :
    (∀ o ∈ (walk table l).1, o.data = []) ∧
    ∀ e, (walk table l).2 = some e → l[(walk table l).1.length]? = some e := by
  induction l with
  | nil => simp [walk]
  | cons x rest ih =>
    unfold walk
    split
    · refine ⟨fun o ho => ?_, fun e he => ?_⟩
      · rcases List.mem_cons.mp ho with rfl | ho
        · rfl
        · exact ih.1 o ho
      · simpa using ih.2 e he
    · simp

theorem room_countDispatch {s : State} (h : s.RoomSound) (hr : s.port.record = none) : (countDispatch s).RoomSound := by
  have hf : ∀ c, s.port.record = some c → False := fun c hc => by rw [hr] at hc; cases hc
  unfold countDispatch
  dsimp only
  (repeat' split)
  · exact ⟨h.store, h.urgent, OutcomesFit.nil _, fun c hc => (hf c hc).elim⟩
  · exact ⟨h.store, h.urgent, h.outcomes, fun c hc => (hf c hc).elim⟩
  · exact h

theorem room_dispatchUrgent {s : State} {r : UrgentRequest} {rest : List UrgentRequest} (h : s.RoomSound)
    (hr : s.port.record = none) (hq : s.urgent.queue = r :: rest) (hi : s.urgent.inFlight = none) :
    (dispatchUrgent r rest s).RoomSound := by
  have ha : s.urgent.all = r :: rest := by simp [UrgentQueue.all, hq, hi]
  have hs := h.urgent.sizes r (by simp [ha])
  have ht : State.RoomSound { s with urgent := ⟨rest, some { r with timerRunning := false }⟩ } := by
    refine ⟨?_, ?_, h.outcomes, fun c hc => by rw [show s.port.record = some c from hc] at hr; cases hr⟩
    · have hst := h.store
      unfold State.reservationsHeld at hst
      rw [ha] at hst
      exact hst
    · obtain ⟨h1, h2, h3⟩ := h.urgent
      rw [ha] at h2 h3
      rw [hq] at h1
      refine ⟨by simp at h1; simp; omega, by simpa [UrgentQueue.all] using h2, ?_⟩
      simpa [UrgentQueue.all] using h3
  have hc := room_countDispatch ht hr
  unfold dispatchUrgent
  dsimp only
  split
  · refine room_startCirculation hc _ _ _ ⟨?_, by simp, ?_, by simp⟩
    · intro b hb
      cases hb
      exact hs
    · intro _ q hq'
      have hq' : some { r with timerRunning := false } = some q := by simpa using hq'
      cases hq'
      exact ⟨_, rfl, rfl⟩
  · exact room_endInFlight _ _ _ hc (fun q hq' => Nat.zero_le _)

theorem PlanEntry.Sound.callBody {e : PlanEntry} (h : e.Sound) :
    e.callBody.outData.length ≤ 32 ∧ e.callBody.capacity ≤ 32 := by
  obtain ⟨h1, h2, h3, h4, h5, h6⟩ := h
  have : e.outLength ≤ 32 ∧ e.inLength ≤ 32 := by
    unfold lengthsAgree at h2
    split at h2 <;> simp at h2 <;> omega
  have hl : e.latchedOutput.length ≤ e.outLength := by
    rcases h4 with h4 | h4 <;> simp [h4]
  unfold PlanEntry.callBody
  dsimp only
  refine ⟨?_, this.2⟩
  split
  · simp
  · omega

theorem room_cycleStep {s : State} (h : s.RoomSound) (hc : s.CycleSound) (hp : PlanSound s.plan)
    (hr : s.port.record = none) (hs : s.cycle.state = .running) (ha : s.cycle.awaiting = none) :
    (cycleStep s).RoomSound := by
  have hf := walk_found s.table (s.plan.drop s.cycle.pointer)
  have hl := walk_length s.table (s.plan.drop s.cycle.pointer)
  have hpt := hc.pointer
  rw [List.length_drop] at hl
  have ho : OutcomesFit (s.cycle.outcomes ++ (walk s.table (s.plan.drop s.cycle.pointer)).1) s.plan :=
    h.outcomes.append (fun i o e hi _ => by rw [hf.1 o (List.mem_of_getElem? hi)]; simp)
  have hle := hc.settled
  have ht : State.RoomSound { s with cycle :=
      { s.cycle with
        outcomes := s.cycle.outcomes ++ (walk s.table (s.plan.drop s.cycle.pointer)).1
        pointer := s.cycle.pointer + (walk s.table (s.plan.drop s.cycle.pointer)).1.length } } :=
    ⟨h.store, h.urgent, ho, fun c e => by rw [show s.port.record = some c from e] at hr; cases hr⟩
  unfold cycleStep
  dsimp only
  split
  · rename_i e he
    have hg := hf.2 e he
    rw [List.getElem?_drop] at hg
    have ha' : State.RoomSound { s with cycle :=
        { s.cycle with
          outcomes := s.cycle.outcomes ++ (walk s.table (s.plan.drop s.cycle.pointer)).1
          pointer := s.cycle.pointer + (walk s.table (s.plan.drop s.cycle.pointer)).1.length
          awaiting := some (s.cycle.pointer + (walk s.table (s.plan.drop s.cycle.pointer)).1.length) } } :=
      ⟨ht.store, ht.urgent, ht.outcomes, fun c e => by rw [show s.port.record = some c from e] at hr; cases hr⟩
    refine room_startCirculation ha' .cycle (.call e.callBody) _ ⟨?_, ?_, by simp, by simp⟩
    · intro b hb
      cases hb
      exact (hp.entries e (List.mem_of_getElem? hg)).callBody
    · intro _ _ x hx
      rw [show s.plan[s.cycle.pointer + (walk s.table (s.plan.drop s.cycle.pointer)).1.length]? = some x from hx] at hg
      cases hg
      exact ⟨_, rfl, rfl⟩
  · rename_i he
    have hq := hl.2.mp he
    have hend := room_endWalk (s := { s with cycle :=
        { s.cycle with
          outcomes := s.cycle.outcomes ++ (walk s.table (s.plan.drop s.cycle.pointer)).1
          pointer := s.cycle.pointer + (walk s.table (s.plan.drop s.cycle.pointer)).1.length } }) ht
      (by
        obtain ⟨h1, h2, h3, h4, h5, h6, h7, h8, h9, h10⟩ := hc
        constructor <;> simp_all [CycleEngine.inCycle]) hs ha
    split
    · exact room_claimWindow _ _ hend (by simpa using hr)
    · exact hend

/-- What a choice of the arbiter keeps: the room, the engine's soundness and the plan's. -/
structure State.Housed (s : State) : Prop where
  room  : s.RoomSound
  cycle : s.CycleSound
  plan  : PlanSound s.plan

theorem housed_boundary {s : State} (h : s.Housed) : (boundary s).Housed := by
  unfold boundary
  generalize choiceBound s = fuel
  induction fuel generalizing s with
  | zero => exact h
  | succ n ih =>
    unfold chooseWithin
    by_cases hr : s.port.record = none
    · simp only [hr, Option.isSome_none, Bool.false_eq_true, if_false]
      (repeat' split) <;> try exact h
      · exact ⟨room_claimCensus h.room, h.cycle, h.plan⟩
      · exact ⟨room_claimCensus h.room, h.cycle, h.plan⟩
      · rename_i hd _ r rest hq
        have hd' := hd
        simp only [headDispatchable, Bool.and_eq_true, Option.isNone_iff_eq_none] at hd'
        exact ih ⟨room_dispatchUrgent h.room hr hq hd'.1.1.2, cycle_dispatchUrgent r rest h.cycle hd,
          closed_dispatchUrgent planClosed r rest h.plan⟩
      · rename_i hw hs
        have ha := (of_not_lowerOrdersWait hw).2 hs
        exact ih ⟨room_cycleStep h.room h.cycle h.plan hr hs ha, cycle_cycleStep h.cycle hs ha,
          closed_cycleStep planClosed h.plan⟩
      · exact ⟨room_claimWindow _ _ h.room hr, h.cycle, h.plan⟩
      · exact ⟨room_claimWindow _ _ h.room hr, h.cycle, h.plan⟩
    · rw [if_pos (by simpa [Option.isSome_iff_ne_none] using hr)]
      exact h

theorem housed_boundaryIf {s : State} (b : Bool) (h : s.Housed) : (boundaryIf b s).Housed := by
  unfold boundaryIf
  split
  · exact housed_boundary h
  · exact h

theorem housed_cycleTakesReport {s : State} (r : RingState) (h : s.Housed) : (cycleTakesReport r s).Housed :=
  ⟨room_cycleTakesReport r h.room h.cycle, cycle_cycleTakesReport r h.cycle,
    closed_cycleTakesReport planClosed r h.plan⟩

theorem housed_startCause {s : State} (m : Bool) (h : s.Housed) : (startCause m s).Housed :=
  ⟨room_startCause m h.room h.cycle, cycle_startCause m h.cycle, closed_startCause planClosed m h.plan⟩

theorem housed_urgentTakesReport {s : State} (r : RingState) (h : s.Housed) : (urgentTakesReport r s).Housed :=
  ⟨room_urgentTakesReport r h.room, h.cycle.of_eq (by simp) (by simp), by simpa using h.plan⟩

theorem housed_windowTakesReport {s : State} (r : RingState) (h : s.Housed) : (windowTakesReport r s).Housed := by
  unfold windowTakesReport
  split
  · refine ⟨⟨h.room.store, h.room.urgent, h.room.outcomes, fun c hc => ?_⟩, h.cycle, h.plan⟩
    have hi := h.room.flight c hc
    refine ⟨hi.lengths, hi.cycle, hi.urgent, fun e => ?_⟩
    have hs : s.slot = some .window := by
      rw [State.slot, show s.port.record = some c from hc, Option.map_some, e]
    simp only [State.windowInFlight, hs, if_true]
    exact hi.window e
  · exact h

/-- Reports taken one after another. -/
theorem housed_takeWaitingReports {s : State} (h : s.Housed) : (takeWaitingReports s).Housed := by
  unfold takeWaitingReports
  exact takeAll_induct _ (fun _ _ h => housed_boundaryIf _ h) _
    (takeAll_induct _ (fun r _ h => housed_windowTakesReport r h) _
      (takeAll_induct _ (fun r _ h => housed_urgentTakesReport r h) _
        (takeAll_induct _ (fun r _ h => housed_cycleTakesReport r h) _
          ⟨h.room.of_same rfl rfl rfl rfl rfl rfl, h.cycle, h.plan⟩)))

/-! ### Windows -/

theorem room_countReport {s : State} (f : ReportCounters → ReportCounters) (h : s.RoomSound) :
    (countReport f s).RoomSound :=
  h.of_same rfl rfl rfl rfl rfl rfl

theorem room_stationReported {s : State} (a : Byte) (h : s.RoomSound) : (stationReported a s).RoomSound := by
  refine h.of_store ?_ (by simp) (by simp) (by simp) (by simp) (by simp)
  unfold stationReported
  (repeat' split) <;> first | exact h.store | exact h.store.event _

theorem room_decideReport {s : State} (n : Word) (item : ReportItem) (h : s.RoomSound) :
    (decideReport n item s).RoomSound := by
  have hr := room_stationReported item.address h
  unfold decideReport takeReport
  dsimp only
  (repeat' split)
  · exact room_countReport _ h
  · exact hr.of_same rfl rfl rfl rfl rfl rfl
  · rename_i he
    exact hr.of_store (hr.store.report he) rfl rfl rfl rfl rfl
  · exact room_countReport _ hr

theorem room_decideReports {s : State} (n : Word) (items : List ReportItem) (h : s.RoomSound) :
    (decideReports n items s).2.RoomSound := by
  induction items generalizing s with
  | nil => exact h
  | cons r rest ih => exact ih (room_decideReport n r h)

/-- A window ends with its circulation over (R129 to R131). -/
theorem room_endWindow {s : State} (e : WindowEnd) (h : s.RoomSound) (hc : s.CycleSound) (hr : s.port.record = none) :
    (endWindow e s).RoomSound := by
  unfold endWindow
  split
  · exact h
  · exact room_takeWindowEnd _ e (h.of_ended h.store rfl rfl rfl hr) hc
  · exact h.of_ended h.store rfl rfl rfl hr

theorem room_windowGoodReturn {s : State} (items : List ReportItem) (d : Nat) (h : s.RoomSound) (hc : s.CycleSound)
    (hr : s.port.record = none) : (windowGoodReturn items d s).RoomSound := by
  unfold windowGoodReturn
  split
  · exact h
  · refine room_endWindow _ (room_countReport _ (room_decideReports _ _ ?_)) (hc.of_eq (by simp) (by simp)) (by simpa using hr)
    exact h.of_same rfl rfl rfl rfl rfl rfl

/-! ### The end of a circulation -/

theorem holds_changeRing {s : State} {held : List Reservation} (n : RingState) (c : RingCause) (a : Byte)
    (h : s.store.Holds held) : (changeRing n c a s).store.Holds held := h.event _

theorem room_enterDown {s : State} (c : RingCause) (h : s.RoomSound) : (enterDown c s).RoomSound :=
  h.of_store (h.store.event _) rfl rfl rfl rfl rfl

@[simp] theorem handHops_record (f : FrameBody) (hop : Option Byte) (s : State) :
    (handHops f hop s).port.record = s.port.record := by
  unfold handHops compareHops
  (repeat' split) <;> rfl

theorem room_handHops {s : State} (f : FrameBody) (hop : Option Byte) (h : s.RoomSound) : (handHops f hop s).RoomSound := by
  unfold handHops compareHops
  (repeat' split) <;> first | exact h | exact h.of_same rfl rfl rfl rfl rfl rfl

theorem room_handTable {s : State} (f : FrameBody) (res : CirculationResult) (h : s.RoomSound) :
    (handTable f res s).RoomSound := by
  refine h.of_store ?_ (by simp) (by simp) (by simp) (by simp) (by simp)
  unfold handTable stationServed stationMissed
  dsimp only
  (repeat' split) <;> first | exact h.store | exact h.store.event _

theorem room_handCensus {s : State} (res : CirculationResult) (h : s.RoomSound) : (handCensus res s).RoomSound := by
  have hd := room_enterDown .censusFailed h
  unfold handCensus
  split <;> try first | exact h | exact hd
  rename_i overflow entries
  have hr : (replaceCensus entries s).RoomSound := by
    refine h.of_store ?_ (by simp) (by simp) (by simp) (by simp) (by simp)
    unfold replaceCensus
    dsimp only
    split <;> first | exact h.store | exact h.store.event _
  unfold takeCensus
  dsimp only
  (repeat' split)
  · exact h.of_store (h.store.event _) rfl rfl rfl rfl rfl
  · exact hr.of_store (hr.store.event _) rfl rfl rfl rfl rfl
  · exact hr

/-- What a circulation's result must fit: a CALL's data its capacity (R14). -/
def ResultFits (c : Circulation) (res : CirculationResult) : Prop :=
  ∀ o b, callOutcome res = some o → c.frame = .call b → o.data.length ≤ b.capacity

theorem ResultFits.of_empty {c : Circulation} {res : CirculationResult}
    (h : ∀ o, callOutcome res = some o → o.data = []) : ResultFits c res := by
  intro o b ho _
  rw [h o ho]
  simp

/-- The result handed to its requester with the circulation over (R19). -/
theorem housed_handRequester {s : State} {c : Circulation} {res : CirculationResult} (h : s.Housed)
    (hr : s.port.record = none) (hi : s.InFlight c ∨ callOutcome res = none) (hf : ResultFits c res) :
    (handRequester c.requester res c.attempts s).Housed := by
  have hfit : ∀ o, callOutcome res = some o →
      (c.requester = .cycle → s.cycle.awaiting ≠ none → ∀ e, s.plan[s.cycle.pointer]? = some e →
        o.data.length ≤ e.inLength) ∧
      (c.requester = .urgent → ∀ r, s.urgent.inFlight = some r → o.data.length ≤ r.inLength) := by
    intro o ho
    rcases hi with hi | hi
    · refine ⟨fun e ha x hx => ?_, fun e r hr => ?_⟩
      · obtain ⟨b, hb, hl⟩ := hi.cycle e ha x hx
        rw [← hl]; exact hf o b ho hb
      · obtain ⟨b, hb, hl⟩ := hi.urgent e r hr
        rw [← hl]; exact hf o b ho hb
    · rw [hi] at ho; cases ho
  refine ⟨?_, cycle_handRequester _ _ _ h.cycle, closed_handRequester planClosed _ _ _ h.plan⟩
  unfold handRequester
  split
  · exact room_handCensus res h.room
  · rename_i e
    unfold handCycle
    split
    · rename_i o ho
      exact room_takeEntryOutcome o h.room h.cycle hr ((hfit o ho).1 e)
    · exact h.room
  · rename_i e
    unfold handUrgent
    split
    · rename_i o ho
      exact room_endInFlight _ _ _ h.room ((hfit o ho).2 e)
    · exact room_endInFlight _ _ _ h.room (fun _ _ => Nat.zero_le _)
  · unfold handWindow
    split <;>
      first
        | exact h.room
        | exact room_windowGoodReturn _ _ h.room h.cycle hr
        | exact room_endWindow _ h.room h.cycle hr

theorem housed_endCirculation {s : State} {c : Circulation} {res : CirculationResult} (hop : Option Byte)
    (h : s.Housed) (hc : s.port.record = some c) (hf : ResultFits c res) : (endCirculation c res hop s).Housed := by
  refine housed_boundaryIf _ ?_
  have h0 : State.Housed { s with port := s.port.finish } :=
    ⟨h.room.of_ended h.room.store rfl rfl rfl rfl, h.cycle, h.plan⟩
  have h1 : (handTable c.frame res (handHops c.frame hop { s with port := s.port.finish })).Housed :=
    ⟨room_handTable _ _ (room_handHops _ _ h0.room), h0.cycle.of_eq (by simp) (by simp), by simpa using h0.plan⟩
  have hr : (handTable c.frame res (handHops c.frame hop { s with port := s.port.finish })).port.record = none := by
    simp [RingPort.finish]
  have hi : (handTable c.frame res (handHops c.frame hop { s with port := s.port.finish })).InFlight c :=
    (h.room.flight c hc).of_eq (by simp) (by simp) (by simp) (by simp) (by simp)
  unfold handLost
  split
  · rename_i hl
    refine housed_handRequester ?_ ?_ (.inr (by rw [hl.1]; rfl)) hf
    · unfold takeLostReturn
      split
      · exact housed_takeWaitingReports ⟨room_enterDown _ h1.room, h1.cycle, h1.plan⟩
      · exact h1
    · unfold takeLostReturn
      split
      · rw [(takeWaitingReports_ring rfl).1]
        exact hr
      · exact hr
  · exact housed_handRequester h1 hr (.inl hi) hf

/-! ### Returns -/

/-- The data of a good CALL return are as many as its reply length says (R174). -/
theorem call_data {bytes more data : List Byte} {tag hop target op object outLen capacity served status replyLen : Byte}
    (hg : goodFrame bytes = some (kindCall :: tag :: hop :: target :: op :: object :: outLen :: more))
    (hd : more.drop outLen.toNat = capacity :: served :: status :: replyLen :: data) :
    data.length = replyLen.toNat := by
  obtain ⟨he, tail, rfl⟩ := goodFrame_covered hg
  have hm : more = more.take outLen.toNat ++ (capacity :: served :: status :: replyLen :: data) := by
    rw [← hd, List.take_append_drop]
  have hl : (more.take outLen.toNat).length = outLen.toNat := by
    rw [List.length_take]
    have := congrArg List.length hd
    simp only [List.length_drop, List.length_cons] at this
    omega
  rw [hm] at he
  generalize more.take outLen.toNat = out at he hl
  simp only [frameExtent, if_true, callExtent, List.cons_append, List.append_assoc, List.getElem?_cons_succ,
    List.getElem?_cons_zero, show 10 + outLen.toNat = (out.length + 3) + 7 by omega] at he
  rw [List.getElem?_append_right (by omega), show out.length + 3 - out.length = 3 by omega] at he
  simp only [List.getElem?_cons_succ, List.getElem?_cons_zero, Option.some.injEq, List.length_cons,
    List.length_append] at he
  omega

/-- A returned CALL that is good carries exactly the data its capacity calls for (R12, R14). -/
theorem call_return {bytes body data : List Byte} {tag hop : Byte} {b : CallBody}
    (hg : goodFrame bytes = some (kindCall :: tag :: hop :: body)) (ho : b.outData.length ≤ 32)
    (hb : b.capacity ≤ 32) (hr : readCall b body = some (.served .ok data)) : data.length = b.capacity := by
  unfold readCall at hr
  split at hr <;> try cases hr
  rename_i target op object outLen more
  split at hr <;> try cases hr
  rename_i hsame
  split at hr <;> try cases hr
  rename_i capacity served status replyLen items hdrop
  split at hr <;> try cases hr
  rename_i hcap
  have hd : replyLen = capacity ∧ items = data := by
    split at hr <;> try (first | cases hr | (split at hr <;> cases hr))
    · exact ⟨by assumption, rfl⟩
    · rename_i hne _; simp at hne
  obtain ⟨rfl, rfl⟩ := hd
  have hout : outLen.toNat = b.outData.length := by
    rw [hsame.2.2.2.1, natByte, BitVec.toNat_ofNat, Nat.mod_eq_of_lt (by omega)]
  rw [call_data hg (by rw [hout]; exact hdrop), not_not.mp hcap, natByte, BitVec.toNat_ofNat,
    Nat.mod_eq_of_lt (by omega)]

/-- A good return fits the circulation it ends. -/
theorem fits_return {bytes body : List Byte} {kind tag hop : Byte} {c : Circulation} {res : CirculationResult}
    (hg : goodFrame bytes = some (kind :: tag :: hop :: body))
    (hl : ∀ b, c.frame = .call b → b.outData.length ≤ 32 ∧ b.capacity ≤ 32)
    (hr : readReturn c.frame kind body = some res) : ResultFits c res := by
  intro o b ho hb
  unfold readReturn at hr
  split at hr
  · cases hr
  rename_i hk
  simp only [hb, FrameBody.kind, not_not] at hr hk
  subst hk
  unfold callOutcome at ho
  split at ho <;> cases ho <;> try exact Nat.zero_le _
  exact (call_return hg (hl b hb).1 (hl b hb).2 hr).le

theorem housed_retryOrEnd {s : State} {c : Circulation} {res : CirculationResult} (h : s.Housed)
    (hc : s.port.record = some c) (hf : ∀ o, callOutcome res = some o → o.data = []) : (retryOrEnd c res s).Housed := by
  unfold retryOrEnd
  split
  · refine ⟨⟨h.room.store, h.room.urgent, h.room.outcomes, fun d hd => ?_⟩, h.cycle, h.plan⟩
    have hi := h.room.flight c hc
    cases hd
    exact ⟨hi.lengths, hi.cycle, hi.urgent, hi.window⟩
  · exact housed_endCirculation none h hc (.of_empty hf)

theorem housed_judgeFrame {s : State} (bytes : List Byte) (h : s.Housed) : (judgeFrame bytes s).Housed := by
  have hco : (countCorrupt s).Housed := ⟨h.room.of_same rfl rfl rfl rfl rfl rfl, h.cycle, h.plan⟩
  have hst : (countStray s).Housed := ⟨h.room.of_same rfl rfl rfl rfl rfl rfl, h.cycle, h.plan⟩
  have hu : (judgeUnawaited bytes s).Housed := by
    unfold judgeUnawaited
    split
    · exact hco
    · exact hst
  unfold judgeFrame
  (repeat' split) <;> try first | exact h | exact hu
  rename_i c hc
  have hcor : (corruptReturn c s).Housed :=
    housed_retryOrEnd hco hc (by rintro o ho; cases ho; rfl)
  unfold judgeAwaited
  split
  · exact hcor
  split
  · exact hst
  (repeat' split) <;> try exact hcor
  rename_i hg _ _ res hr
  exact housed_endCirculation _ h hc (fits_return hg (h.room.flight c hc).lengths hr)

theorem housed_enterProbing {s : State} (c : RingCause) (h : s.Housed) : (enterProbing c s).Housed := by
  refine housed_boundary ⟨h.room.of_store (h.room.store.event _) rfl rfl rfl ?_ rfl, h.cycle, h.plan⟩
  show s.port.enable.record = s.port.record
  unfold RingPort.enable
  split <;> rfl

/-! ### Requests -/

theorem inLengths_set {p : List PlanEntry} {i : Nat} {e f : PlanEntry} (hi : p[i]? = some e)
    (hn : f.inLength = e.inLength) : (p.set i f).map (fun e => e.inLength) = p.map (fun e => e.inLength) := by
  obtain ⟨hlt, rfl⟩ := List.getElem?_eq_some_iff.mp hi
  rw [List.map_set, hn]
  exact List.ext_getElem (by simp) (fun j _ _ => by simp [List.getElem_set]; grind)

/-- Out of a cycle the plan may change: nothing of the walk is in flight. -/
theorem State.RoomSound.plan_changes {s t : State} (h : s.RoomSound) (hc : s.CycleSound) (hs : s.cycle.state = .stopped)
    (ht : t.cycle = s.cycle) (hst : t.store = s.store) (hu : t.urgent = s.urgent) (hr : t.port = s.port)
    (hw : t.window = s.window) : t.RoomSound := by
  have hi : s.cycle.inCycle = false := by simp [CycleEngine.inCycle, hs]
  have ho := hc.between hi
  have ha := hc.not_awaiting (by rw [hs]; decide)
  refine ⟨?_, by rw [hu]; exact h.urgent, by rw [ht, ho]; exact OutcomesFit.nil _, fun c e => ?_⟩
  · rw [reservationsHeld_between (by rw [ht]; exact hi), hst, hu, ← reservationsHeld_between hi]
    exact h.store
  · exact (h.flight c (by rw [← hr]; exact e)).of_none (by rw [ht]; exact ha) (by rw [hu]) (by rw [hw])

theorem housed_set {s : State} (h : s.Housed) {i : Nat} {e f : PlanEntry} (hi : s.plan[i]? = some e)
    (hf : f.Sound) (ho : f.outLength = e.outLength) (hn : f.inLength = e.inLength) : State.Housed { s with plan := s.plan.set i f } :=
  ⟨h.room.of_eq h.room.store rfl rfl rfl rfl (inLengths_set hi hn) rfl rfl rfl,
   h.cycle.of_eq rfl (by simp), h.plan.set hi hf ho hn⟩

theorem housed_enterStopped {s : State} (h : s.Housed) (hs : s.cycle.state = .armed ∨ s.cycle.state = .held) :
    (enterStopped s).Housed :=
  ⟨room_enterStopped (h.room.rested h.cycle hs), cycle_enterStopped (h.cycle.rested hs), h.plan⟩

theorem housed_abandonCycle {s : State} (h : s.Housed) (hs : s.cycle.inCycle = true) (r : AbandonReason) :
    (abandonCycle r s).Housed :=
  ⟨room_abandonCycle r h.room h.cycle hs, cycle_abandonCycle r h.cycle hs, closed_abandonCycle planClosed r h.plan⟩

/-- A change that reaches nothing of the three. -/
theorem housed_same {s t : State} (h : s.Housed) (hst : t.store = s.store) (hc : t.cycle = s.cycle)
    (hp : t.plan = s.plan) (hu : t.urgent = s.urgent) (hr : t.port.record = s.port.record)
    (hw : t.window.record = s.window.record) : t.Housed :=
  ⟨h.room.of_same hst hc hp hu hr hw, h.cycle.of_eq hc (by rw [hp]), by rw [hp]; exact h.plan⟩

/-- A change of the store alone. -/
theorem housed_store {s t : State} (h : s.Housed) (hst : t.store.Holds s.reservationsHeld) (hc : t.cycle = s.cycle)
    (hp : t.plan = s.plan) (hu : t.urgent = s.urgent) (hr : t.port.record = s.port.record)
    (hw : t.window.record = s.window.record) : t.Housed :=
  ⟨h.room.of_store hst hc hp hu hr hw, h.cycle.of_eq hc (by rw [hp]), by rw [hp]; exact h.plan⟩

theorem urgentOf_sizes {tag station op object inLength retry : Byte} {deadline : Half} {out : List Byte}
    {r : UrgentRequest} (h : urgentOf tag station op object inLength retry deadline out = some r) :
    r.tag = tag ∧ r.outData.length ≤ 32 ∧ r.inLength ≤ 32 := by
  unfold urgentOf at h
  (repeat' split at h) <;> cases h
  rename_i o _ _ _ hh
  obtain ⟨_, hl⟩ := hh
  unfold lengthsAgree at hl
  refine ⟨rfl, ?_⟩
  dsimp only
  split at hl <;> simp at hl <;> simp_all

/-- Every decision on a request. -/
theorem housed_decideRequest (type : RequestType) (tag : Byte) (payload : List Byte) {s : State} (h : s.Housed) :
    (decideRequest type tag payload s).state.Housed := by
  cases type <;> simp only [decideRequest] <;> (repeat' split) <;> try exact h
  · unfold decideConfigureRing; (repeat' split) <;> first | exact h | exact housed_same h rfl rfl rfl rfl rfl rfl
  · unfold decideStartRing; (repeat' split) <;> first | exact h | exact housed_enterProbing _ h
  · unfold decideStopRing; split
    · exact h
    · refine ⟨⟨h.room.store.event _, h.room.urgent, h.room.outcomes, ?_⟩, h.cycle, h.plan⟩
      rintro c ⟨⟩
  · unfold decideCensus; split
    · exact housed_boundary (housed_same h rfl rfl rfl rfl rfl rfl)
    · exact h
  · unfold decideClearPlan; split
    · rename_i hs
      refine ⟨h.room.plan_changes h.cycle hs rfl rfl rfl rfl rfl, ?_, ?_⟩
      · obtain ⟨h1, h2, h3, h4, h5, h6, h7, h8, h9, h10⟩ := h.cycle
        have := h4 (by simp [CycleEngine.inCycle, hs])
        constructor <;> simp_all [CycleEngine.inCycle, accept]
      · constructor <;> simp [planEntries, planBytes, outSum, inSum, accept]
    · exact h
  · unfold decideAddEntry; (repeat' split) <;> try exact h
    rename_i hs _ e he hr
    have hs : s.cycle.state = .stopped := by simpa using hs
    refine ⟨h.room.plan_changes h.cycle hs rfl rfl rfl rfl rfl, ?_, ?_⟩
    · obtain ⟨h1, h2, h3, h4, h5, h6, h7, h8, h9, h10⟩ := h.cycle
      have := h4 (by simp [CycleEngine.inCycle, hs])
      constructor <;> simp_all [CycleEngine.inCycle, accept]
    · refine h.plan.append ?_ hr
      unfold entryOf at he
      (repeat' split at he) <;> cases he
      rename_i hh
      exact newEntry_sound _ hh.1 hh.2
  · unfold decideSetEnable; (repeat' split) <;> try exact h
    rename_i e he _ b _
    exact housed_set h he ((h.plan.entries e (List.mem_of_getElem? he)).enable b) rfl rfl
  · unfold decideWriteOutput; (repeat' split) <;> try exact h
    rename_i e he hr hl
    exact housed_set h he ((h.plan.entries e (List.mem_of_getElem? he)).write _ hr (by simpa using hl)) rfl rfl
  · unfold decideReadInput; (repeat' split) <;> exact h
  · unfold decideConfigureCycle; (repeat' split) <;> try exact h
    rename_i hs _ c hc
    have hs : s.cycle.state = .stopped := by simpa using hs
    refine ⟨h.room.of_eq h.room.store rfl rfl rfl rfl rfl rfl rfl rfl, ?_, h.plan⟩
    obtain ⟨h1, h2, h3, h4, h5, h6, h7, h8, h9, h10⟩ := h.cycle
    constructor <;> simp_all [CycleEngine.inCycle, accept]
  · have ha : s.cycle.state = .stopped → (armFromStopped s).Housed := by
      intro hs
      refine ⟨h.room.of_eq h.room.store (by simp [armFromStopped, CycleEngine.inCycle, hs]; rfl)
        rfl rfl rfl rfl rfl rfl rfl, ?_, h.plan⟩
      have hh := h.cycle.not_awaiting (by rw [hs]; decide)
      obtain ⟨h1, h2, h3, h4, h5, h6, h7, h8, h9, h10⟩ := h.cycle
      have := h4 (by simp [CycleEngine.inCycle, hs])
      constructor <;> simp_all [CycleEngine.inCycle, armFromStopped]
    unfold decideStartCycle; (repeat' split) <;> try exact h
    · rename_i hs _ _; exact ha (by simpa using hs)
    · rename_i hs _ _; exact housed_boundaryIf _ (housed_startCause _ (ha (by simpa using hs)))
  · have hat : s.cycle.state = .running ∨ s.cycle.state = .closing →
        State.Housed { s with cycle := { s.cycle with stopAtEnd := true } } := by
      intro hs
      refine ⟨h.room.of_eq h.room.store rfl rfl rfl rfl rfl rfl rfl rfl, ?_, h.plan⟩
      obtain ⟨h1, h2, h3, h4, h5, h6, h7, h8, h9, h10⟩ := h.cycle
      constructor <;> simp_all [CycleEngine.inCycle]; rcases hs with e | e <;> simp [e]
    unfold decideStopCycle; (repeat' split) <;> try exact h
    · rename_i e; exact housed_enterStopped h (.inl e)
    · rename_i e; exact housed_enterStopped h (.inr e)
    · rename_i e _; exact hat (.inl e)
    · rename_i e _; exact housed_boundary (housed_abandonCycle h (by simp [CycleEngine.inCycle, e]) _)
    · rename_i e _; exact hat (.inr e)
    · rename_i e _; exact housed_boundary (housed_abandonCycle h (by simp [CycleEngine.inCycle, e]) _)
  · unfold decideTriggerCycle; split
    · exact housed_boundaryIf _ (housed_startCause _ h)
    · exact h
  · unfold decideUrgent; (repeat' split) <;> try exact h
    rename_i h1 h2 h3 _ _ r hr _ st hst
    obtain ⟨e1, e2⟩ := urgentOf_sizes hr
    subst e1
    exact housed_boundary ⟨room_acceptRequest h.room (by omega) (by simpa using h3) e2 hst, h.cycle, h.plan⟩
  · unfold decideCancel; (repeat' split) <;> try exact h
    rename_i r hr
    exact housed_boundaryIf _ ⟨room_cancelRequest h.room hr, h.cycle, h.plan⟩
  · unfold decideOpenWindow; (repeat' split) <;> try exact h
    exact housed_boundary (housed_same h rfl rfl rfl rfl rfl rfl)
  · unfold decideGrant; (repeat' split) <;> try exact h
    exact housed_store h (h.room.store.of_sizes rfl rfl) rfl rfl rfl rfl rfl
  · unfold decideAckDeliveries; (repeat' split) <;> try exact h
    exact housed_store h (h.room.store.released _) rfl rfl rfl rfl rfl
  · unfold decideRewind; (repeat' split) <;> try exact h
    exact housed_store h (h.room.store.unsent _) rfl rfl rfl rfl rfl
  · unfold decideQueryStation; (repeat' split) <;> exact h
  · unfold decideQueryCounters; (repeat' split) <;> try exact h
    · refine ⟨h.room.of_eq h.room.store rfl rfl rfl rfl rfl rfl rfl rfl, ?_, h.plan⟩
      obtain ⟨h1, h2, h3, h4, h5, h6, h7, h8, h9, h10⟩ := h.cycle
      constructor <;> simp_all [CycleEngine.inCycle, accept, clearCounters]

  · exact housed_same h rfl rfl rfl rfl rfl rfl

end Sys2Proof.Machine
end

