-- ==== Sys2Proof/Laws/Step.lean ====
section
/-!
SUPPORT. What a step can do, said once: a property that the operations of the blocks keep, whatever happens on the host
link, is kept by every step.
-/

namespace Sys2Proof.Machine

/-- A property of the state that every operation a command reaches keeps. -/
structure Kept (P : State → Prop) : Prop where
  /-- It does not depend on the host link, the queue of commands, the reset line or the notices. -/
  link    : ∀ {s t : State}, P s → t.port = s.port → t.supervisor = s.supervisor → t.table = s.table →
    t.plan = s.plan → t.cycle = s.cycle → t.urgent = s.urgent → t.window = s.window → t.store = s.store → P t
  sent    : ∀ {s : State}, P s → P { s with store := s.store.beginTransmission }
  noted   : ∀ {s : State}, P s → P { s with store := { s.store with releasedInEvent := false } }
  rewound : ∀ {s : State}, P s → P { s with store := s.store.linkReset }
  initial : P {}
  decide  : ∀ type tag payload {s : State}, P s → P (decideRequest type tag payload s).state
  frame   : ∀ bytes {s : State}, P s → P (judgeFrame bytes s)
  gone    : ∀ {s : State}, s.port.state = .sending → P s → P (frameSent s)
  lost    : ∀ {c} {s : State}, s.port.timedCirculation = some c → P s → P (loseAttempt c s)
  probe   : ∀ {s : State}, s.supervisor.probeTimer.isSome = true → P s → P (enterProbing .probeTimer s)
  cycle   : ∀ r {s : State}, P s → P (cycleActsOnReport r s)
  urgent  : ∀ r {s : State}, P s → P (urgentTakesReport r s)
  window  : ∀ r {s : State}, P s → P (windowTakesReport r s)
  arbiter : ∀ r {s : State}, P s → P (arbiterTakesReport r s)
  period  : ∀ {s : State}, s.cycle.periodTimer.isSome = true → P s → P (boundaryIfStarted s (startCause false s))
  space   : ∀ {s : State}, P s → P (boundaryIfStarted s (retryHeldStart s))
  expire  : ∀ {tag r} {s : State}, s.urgent.timed tag = some r → P s → P (expireRequest r s)

variable {P : State → Prop} (hP : Kept P)
include hP

theorem kept_finish {s : State} (h : P s) : P (finish s) := by
  have h1 : P (noteRelease s) := by
    unfold noteRelease
    split
    · exact hP.link (hP.noted h) rfl rfl rfl rfl rfl rfl rfl rfl
    · exact h
  unfold finish arbitrate
  (repeat' split)
  · exact h1
  · exact hP.link h1 rfl rfl rfl rfl rfl rfl rfl rfl
  · exact hP.link h1 rfl rfl rfl rfl rfl rfl rfl rfl
  · exact hP.link (hP.sent h1) rfl rfl rfl rfl rfl rfl rfl rfl
  · exact h1

theorem kept_handleRequest (body : List Byte) {s : State} (h : P s) : P (handleRequest body s) := by
  unfold handleRequest
  (repeat' split)
  · exact hP.link h rfl rfl rfl rfl rfl rfl rfl rfl
  · exact hP.link (hP.decide _ _ _ h) rfl rfl rfl rfl rfl rfl rfl rfl
  · exact h

theorem kept_handlerTake {s : State} (h : P s) : P (handlerTake s) := by
  unfold handlerTake
  (repeat' split)
  · exact h
  · exact kept_handleRequest hP _ (hP.link h rfl rfl rfl rfl rfl rfl rfl rfl)
  · exact h

theorem kept_takeGood (body : List Byte) {s : State} (h : P s) : P (takeGood body s) := by
  unfold takeGood
  dsimp only
  (repeat' split)
  · exact kept_handlerTake hP (hP.link h rfl rfl rfl rfl rfl rfl rfl rfl)
  · exact hP.link h rfl rfl rfl rfl rfl rfl rfl rfl
  · exact hP.link h rfl rfl rfl rfl rfl rfl rfl rfl

theorem kept_rescan (gap : Bool) (skip : Nat) (bytes : List Byte) {s : State} (h : P s) :
    P (rescan gap skip bytes s) := by
  induction bytes generalizing skip s with
  | nil => cases skip <;> exact hP.link h rfl rfl rfl rfl rfl rfl rfl rfl
  | cons b rest ih =>
    cases skip with
    | succ n => exact ih n h
    | zero =>
      unfold rescan
      (repeat' split)
      · exact ih 0 h
      · exact ih 0 h
      · exact hP.link h rfl rfl rfl rfl rfl rfl rfl rfl
      · exact ih 0 (hP.link h rfl rfl rfl rfl rfl rfl rfl rfl)
      · exact ih _ (kept_takeGood hP _ h)

theorem kept_takeCharacter (c : Byte) {s : State} (h : P s) : P (takeCharacter c s) := by
  have hj : P (joinMessage c s) := by
    unfold joinMessage
    dsimp only
    split
    · exact hP.link h rfl rfl rfl rfl rfl rfl rfl rfl
    · exact kept_rescan hP _ _ _ (hP.link h rfl rfl rfl rfl rfl rfl rfl rfl)
    · exact kept_takeGood hP _ (hP.link h rfl rfl rfl rfl rfl rfl rfl rfl)
  unfold takeCharacter
  (repeat' split) <;> first | exact hj | exact h | exact hP.link h rfl rfl rfl rfl rfl rfl rfl rfl

/-- Every command keeps the property. -/
theorem kept_exec (c : Instr) {s t : State} (h : P s) (e : exec c s = .next t) : P t := by
  have hl {s t : State} (h : P s) (e1 : t.port = s.port) (e2 : t.supervisor = s.supervisor)
      (e3 : t.table = s.table) (e4 : t.plan = s.plan) (e5 : t.cycle = s.cycle) (e6 : t.urgent = s.urgent)
      (e7 : t.window = s.window) (e8 : t.store = s.store) : P t := hP.link h e1 e2 e3 e4 e5 e6 e7 e8
  rcases hq : requestOf c with _ | ⟨type, tag, payload⟩
  · cases c <;> simp only [requestOf, reduceCtorEq] at hq
    case hardReset => cases e; exact hl hP.initial rfl rfl rfl rfl rfl rfl rfl rfl
    case hardResetRelease =>
      cases e
      split
      · exact kept_finish hP (hl h rfl rfl rfl rfl rfl rfl rfl rfl)
      · exact h
    case linkMessageComplete =>
      cases e
      split
      · exact kept_finish hP (kept_takeCharacter hP _ (hl h rfl rfl rfl rfl rfl rfl rfl rfl))
      · exact h
    case rxdCharacterReceived =>
      cases e
      split
      · exact kept_finish hP (kept_takeCharacter hP _ (hl h rfl rfl rfl rfl rfl rfl rfl rfl))
      · exact h
    case gapTimerExpiry =>
      cases e
      split
      · exact kept_finish hP (kept_rescan hP _ _ _ (hl h rfl rfl rfl rfl rfl rfl rfl rfl))
      · exact h
    case characterError =>
      cases e
      split
      · exact h
      · refine kept_finish hP ?_
        unfold takeCharacterError
        dsimp only
        split
        · exact hl h rfl rfl rfl rfl rfl rfl rfl rfl
        · exact kept_rescan hP _ _ _ (hl h rfl rfl rfl rfl rfl rfl rfl rfl)
    case linkReset =>
      cases e
      split
      · exact h
      · exact kept_finish hP (hl (hP.rewound h) rfl rfl rfl rfl rfl rfl rfl rfl)
    case breakEnd => cases e; split <;> first | exact h | exact hl h rfl rfl rfl rfl rfl rfl rfl rfl
    case transmissionEnd =>
      cases e
      split
      · refine kept_finish hP ?_
        unfold endTransmission
        dsimp only
        split
        · exact hl hP.initial rfl rfl rfl rfl rfl rfl rfl rfl
        · exact kept_handlerTake hP (hl h rfl rfl rfl rfl rfl rfl rfl rfl)
      · exact h
    case ringFrameComplete => cases e; exact kept_finish hP (hP.frame _ h)
    case attemptFrameSent => cases e; split <;> rename_i hs <;> first | exact hP.gone hs h | exact h
    case returnTimerExpiry => cases e; split <;> rename_i hs <;> first | exact kept_finish hP (hP.lost hs h) | exact h
    case probeTimerExpiry => cases e; split <;> rename_i hs <;> first | exact kept_finish hP (hP.probe hs h) | exact h
    case cycleRingReport =>
      cases e
      split
      · exact h
      · exact kept_finish hP (hP.cycle _ (hl h rfl rfl rfl rfl rfl rfl rfl rfl))
    case urgentRingReport =>
      cases e
      split
      · exact h
      · exact kept_finish hP (hP.urgent _ (hl h rfl rfl rfl rfl rfl rfl rfl rfl))
    case windowRingReport =>
      cases e
      split
      · exact h
      · exact kept_finish hP (hP.window _ (hl h rfl rfl rfl rfl rfl rfl rfl rfl))
    case arbiterRingReport =>
      cases e
      split
      · exact h
      · exact kept_finish hP (hP.arbiter _ (hl h rfl rfl rfl rfl rfl rfl rfl rfl))
    case periodTimerExpiry => cases e; split <;> rename_i hs <;> first | exact kept_finish hP (hP.period hs h) | exact h
    case spaceReleaseNotice =>
      cases e
      split
      · exact h
      · exact kept_finish hP (hP.space (hl h rfl rfl rfl rfl rfl rfl rfl rfl))
    case deadlineTimerExpiry =>
      cases e
      split
      · rename_i hs
        exact kept_finish hP (hP.expire hs h)
      · exact h
  · rw [exec_requestOf hq] at e
    cases e
    unfold receiveRequest
    split
    · exact kept_finish hP (kept_takeGood hP _ (hl h rfl rfl rfl rfl rfl rfl rfl rfl))
    · exact h

/-- Every step keeps the property. -/
theorem kept_step {s t : State} (h : P s) (e : step s = .next t) : P t := by
  unfold step at e
  split at e
  · rename_i rest _
    exact kept_exec hP _ (s := { s with pending := rest }) (hP.link h rfl rfl rfl rfl rfl rfl rfl rfl) e
  · cases e; exact h

end Sys2Proof.Machine
end

