-- ==== Sys2Proof/Tests/Slice0.lean ====
section
/-!
SUPPORT. Tests: what WellFormed refuses, the worked values of spec/, one or two steps for each command on small states,
and for every obligation states and operands that meet its hypotheses, clause by clause.
-/

set_option Elab.async false

open Sys2Proof Sys2Proof.Machine

namespace Sys2Proof.Tests

/-! ### Small states -/

/-- The part after a hard reset with STARTED sent: TXD idle, the receiver in HUNT. -/
def fresh : State := {}

/-- The state after a command. -/
def run (c : Instr) (s : State) : State :=
  match exec c s with
  | .next t => t
  | .fault _ => s
  | .refused _ => s

def inRing (r : RingState) (s : State) : State :=
  { s with
    supervisor := { s.supervisor with state := r, probeTimer := if r = .down then some 100#16 else none }
    port := { s.port with state := if r = .off then .disabled else .idle } }

def inCycle (c : CycleState) (s : State) : State :=
  { s with cycle :=
    { s.cycle with
      state := c, holdReason := if c = .held then .ring else .none
      periodTimer := if c = .stopped then none else some 10000#32 } }

def inMode (m : CycleMode) (s : State) : State :=
  { s with cycle := { s.cycle with config := { s.cycle.config with mode := m } } }

def station (address : Byte) (position : Option Nat) (state : StationState) (miss : Nat) (last : Option Byte) :
    StationEntry := ⟨address, position, 0x01#8, state, miss, last, 0#16, 0#16⟩

def withTable (t : List StationEntry) (s : State) : State := { s with table := t }

/-- A READ of two bytes from station 12, enabled at the last latch. -/
def readEntry : PlanEntry := { newEntry 12#8 .read 5#8 0 2 with latchedEnable := true }

/-- A WRITE of two bytes to station 12. -/
def writeEntry : PlanEntry := newEntry 12#8 .write 6#8 2 0

def withPlan (p : List PlanEntry) (s : State) : State := { s with plan := p }

/-- The ring UP with station 12 present and a plan of one READ. -/
def upFresh : State := inRing .up (withTable [station 12#8 (some 1) .active 0 none] (withPlan [readEntry] fresh))

/-- An attempt of a circulation awaiting its return. -/
def awaitingReturn (c : Circulation) (s : State) : State :=
  { s with port := { s.port with state := .awaiting, record := some c, returnTimer := some 500#16, tagCounter := 1#8 } }

/-- The CYCLE circulation of the READ entry, on its last attempt. -/
def lastCall : Circulation := ⟨.cycle, .call readEntry.callBody, 3, 2, some 0#8⟩

/-- A cycle RUNNING with the READ called. -/
def calling : State :=
  { awaitingReturn lastCall (inCycle .running upFresh) with
    cycle := { (inCycle .running upFresh).cycle with awaiting := some 0, cycleNumber := 1#32 }
    store := { fresh.store with reservations := [⟨.cycle, 19⟩] } }

def urgentRequest (tag : Byte) : UrgentRequest := ⟨tag, 12#8, .read, 5#8, [], 2, true, 100#16, true⟩

def withUrgent (q : List UrgentRequest) (f : Option UrgentRequest) (s : State) : State :=
  { s with urgent := ⟨q, f⟩ }

def event0 : RecordContent := .event (.cycleStopped 1#32)

/-- Records with sequences 0, 1, 2: the first sent-unacknowledged, the others unsent. -/
def threeRecords (credits : Nat) : Store :=
  { records := [⟨event0, 0#16, .sentUnacknowledged⟩, ⟨event0, 1#16, .sentUnacknowledged⟩, ⟨event0, 2#16, .unsent⟩]
    nextSequence := 3#16, credits := credits }

def withStore (st : Store) (s : State) : State := { s with store := st }

/-- A store with no room but the event margin: 31 reservations of 130 bytes. -/
def fullStore : Store := { reservations := List.replicate 31 ⟨.urgent 0#8, 130⟩ }

/-- A store with no room at all. -/
def noRoom : Store := { reservations := List.replicate 32 ⟨.urgent 0#8, 128⟩ }

/-- The Request Handler waiting on a reply that is on TXD. -/
def replying : State := { fresh with link := { fresh.link with tx := some (.reply (acceptedReply 1#8 [])) } }

def fourWaiting : State := { replying with link := { replying.link with inbox := List.replicate 4 [0x50#8, 2#8] } }

/-- The message the part has put on TXD. -/
def onTxd (s : State) : Option TxMessage := s.link.tx

def replied (tag : Byte) (payload : List Byte) : Option TxMessage := some (.reply (acceptedReply tag payload))

def refusedWith (tag : Byte) (reason : Reason) : Option TxMessage := some (.reply (refusedReply tag reason))

/-! ### Commands that cannot come about -/

theorem test_wf_writeOutput_too_long :
    (Instr.writeOutput 0#8 0#8 (List.replicate 1398 0#8)).wf = false ∧
    (Instr.writeOutput 0#8 0#8 (List.replicate 1397 0#8)).wf = true := by decide +kernel

theorem test_wf_urgent_too_long :
    (Instr.urgent 0#8 0#8 0#8 0#8 0#8 0#8 0#16 (List.replicate 1392 0#8)).wf = false ∧
    (Instr.urgent 0#8 0#8 0#8 0#8 0#8 0#8 0#16 (List.replicate 1391 0#8)).wf = true := by decide +kernel

theorem test_wf_frame_empty : (Instr.ringFrameComplete []).wf = false := by decide

theorem test_wf_frame_too_long :
    (Instr.ringFrameComplete (List.replicate 154 0#8)).wf = false ∧
    (Instr.ringFrameComplete (List.replicate 153 0#8)).wf = true := by decide +kernel

/-! ### Worked values of spec/ -/

/-- The check value of section 10.1: the nine characters "123456789" give 29B1h. -/
theorem test_crc_check_value :
    crc16 [0x31#8, 0x32#8, 0x33#8, 0x34#8, 0x35#8, 0x36#8, 0x37#8, 0x38#8, 0x39#8] = 0x29B1#16 := by decide +kernel

/-- Section 10.7: the CANCEL on the line is 8 bytes, its IN_FLIGHT reply 9. -/
theorem test_example_10_7_messages :
    (frameMessage [0x31#8, 0x07#8, 0x1F#8]).take 6 = [0xA5#8, 0x00#8, 0x03#8, 0x31#8, 0x07#8, 0x1F#8] ∧
    (frameMessage [0x31#8, 0x07#8, 0x1F#8]).length = 8 ∧
    (refusedReply 7#8 .inFlight).body = [0x80#8, 0x07#8, 0x01#8, 0x0C#8] ∧
    (frameMessage (refusedReply 7#8 .inFlight).body).length = 9 := by decide +kernel

/-- Section 10.7: the bodies of the URGENT_RESULT and of the RING_STATE event. -/
theorem test_example_10_7_deliveries :
    (Record.mk (.urgentResult ⟨31#8, .done, some .ok, 1, [0x11#8, 0x22#8, 0x33#8, 0x44#8]⟩) 212#16 .unsent).body =
      [0xA1#8, 0x1F#8, 0x00#8, 0xD4#8, 0x00#8, 0x00#8, 0x01#8, 0x04#8, 0x11#8, 0x22#8, 0x33#8, 0x44#8] ∧
    (Record.mk (.event (.ringState .up .down .lostReturn 4 0#8)) 213#16 .unsent).body =
      [0xA3#8, 0x01#8, 0x00#8, 0xD5#8, 0x02#8, 0x03#8, 0x07#8, 0x04#8, 0x00#8] ++ List.replicate 7 0#8 := by
  decide +kernel

def table5_9 : List StationEntry :=
  [⟨12#8, some 1, 1#8, .active, 0, some 4#8, 0#16, 0#16⟩, ⟨40#8, some 2, 3#8, .lost, 3, some 6#8, 0#16, 0#16⟩,
   ⟨7#8, some 3, 2#8, .silent, 1, none, 0#16, 0#16⟩, ⟨21#8, some 4, 1#8, .active, 0, some 0#8, 0#16, 0#16⟩,
   ⟨33#8, none, 2#8, .absent, 2, some 5#8, 0#16, 0#16⟩]

def census5_9 : List (Byte × Byte) := [(12#8, 1#8), (7#8, 2#8), (33#8, 2#8), (55#8, 5#8), (21#8, 1#8)]

/-- Section 5.9: a census that reorders the ring. -/
theorem test_example_5_9 :
    (replaceCensus census5_9 (withTable table5_9 fresh)).table =
      [⟨12#8, some 1, 1#8, .active, 0, some 4#8, 0#16, 0#16⟩, ⟨7#8, some 2, 2#8, .active, 0, none, 0#16, 0#16⟩,
       ⟨33#8, some 3, 2#8, .active, 0, some 5#8, 0#16, 0#16⟩, ⟨55#8, some 4, 5#8, .active, 0, none, 0#16, 0#16⟩,
       ⟨21#8, some 5, 1#8, .active, 0, some 0#8, 0#16, 0#16⟩,
       ⟨40#8, none, 3#8, .absent, 3, some 6#8, 0#16, 0#16⟩] ∧
    (replaceCensus census5_9 (withTable table5_9 fresh)).store.records =
      [⟨.event (.topology 5 2 1), 0#16, .unsent⟩] := by decide +kernel

/-- Section 5.10: 20 present entries 1 to 20 and 4 ABSENT entries 31 to 34; 5 and 9 leave, 41 to 44 come. -/
theorem test_example_5_10 :
    ((replaceTable
        ((List.range' 1 20).map (fun n => station (natByte n) (some n) .active 0 none) ++
          (List.range' 31 4).map (fun n => station (natByte n) none .absent 0 none))
        (((List.range' 1 20).filter (fun n => n != 5 && n != 9) ++ List.range' 41 4).map
          (fun n => (natByte n, 1#8)))).map (fun e => e.address)).drop 18 =
      [41#8, 42#8, 43#8, 44#8, 5#8, 9#8] := by decide +kernel

/-- A store with its other records held as reservations: bytes and slots in use besides its records. -/
def inUse (bytes slots : Nat) (st : Store) : Store :=
  { st with reservations := ⟨.cycle, bytes⟩ :: List.replicate (slots - 1) ⟨.urgent 0#8, 0⟩ }

def committed (st : Store) : List (RecordContent × Half) := st.records.map (fun r => (r.content, r.sequence))

/-- Section 8.7: with 40 unused bytes and 2 unused records two events are committed and two are lost. -/
theorem test_example_8_7_lost :
    let e := Event.cycleStopped 1#32
    let st := inUse 4056 30 { nextSequence := 500#16 }
    let full := (((st.commitEvent e).commitEvent e).commitEvent e).commitEvent e
    st.unusedBytes = 40 ∧ st.unusedRecords = 2 ∧ full.unusedBytes = 8 ∧ full.unusedRecords = 0 ∧
    full.lostEvents = 2#16 ∧ committed full = [(.event e, 500#16), (.event e, 501#16)] := by decide +kernel

/-- Section 8.7: with 64 unused bytes and 3 unused records the next event goes in as a pair with EVENTS_LOST 2. -/
theorem test_example_8_7_summarised :
    let e := Event.cycleStopped 1#32
    let st := inUse 4032 29 { nextSequence := 502#16, lostEvents := 2#16 }
    st.unusedBytes = 64 ∧ st.unusedRecords = 3 ∧
    committed (st.commitEvent e) = [(.event (.eventsLost 2#16), 502#16), (.event e, 503#16)] ∧
    (st.commitEvent e).lostEvents = 0#16 ∧ (st.commitEvent e).unusedBytes = 32 := by decide +kernel

def table7_7 : List StationEntry :=
  [station 12#8 (some 1) .active 0 (some 2#8), station 40#8 (some 2) .lost 3 (some 5#8),
   station 7#8 (some 3) .active 0 (some 2#8), station 21#8 (some 4) .active 0 none]

/-- Section 7.7: one return with every kind of decision. -/
theorem test_example_7_7 :
    let s := withTable table7_7 (withStore (inUse 3976 22 fresh.store) fresh)
    let d := decideReports 44#32
      [⟨12#8, 3#8, 0#8, List.replicate 10 0#8⟩, ⟨40#8, 6#8, 0#8, List.replicate 16 0#8⟩,
       ⟨7#8, 2#8, 0#8, List.replicate 4 0#8⟩, ⟨99#8, 1#8, 0#8, []⟩, ⟨21#8, 0#8, 0#8, [0#8, 0#8]⟩] s
    s.store.unusedBytes = 120 ∧ s.store.unusedRecords = 10 ∧ d.1 = 2 ∧
    d.2.window.owed = [⟨12#8, 3#8⟩, ⟨7#8, 2#8⟩, ⟨21#8, 0#8⟩] ∧
    d.2.window.counters = ⟨2#16, 1#16, 1#16, 1#16, 0#16⟩ ∧
    d.2.store.unusedBytes = 70 ∧ d.2.store.unusedRecords = 7 := by decide +kernel

/-! ### One step of each command -/

theorem test_configureRing :
    (run (.configureRing 9#8 3#8 20#16 0#8 1#8 10#16) fresh).supervisor.config = ⟨.r20, 20#16, 0, 1, 10#16⟩ ∧
    onTxd (run (.configureRing 9#8 3#8 20#16 4#8 1#8 10#16) fresh) = refusedWith 9#8 .range := by decide +kernel

theorem test_startRing :
    (run (.startRing 1#8) fresh).supervisor.state = .probing ∧
    (run (.startRing 1#8) fresh).ringOut = .frame .r10 (FrameBody.census.frame 0#8) ∧
    ((FrameBody.census.frame 0#8).take 5 = [0x02#8, 0x00#8, 0x00#8, 0x00#8, 0x00#8]) ∧
    onTxd (run (.startRing 1#8) fresh) = replied 1#8 [] := by decide +kernel

theorem test_stopRing :
    (run (.stopRing 1#8) calling).supervisor.state = .off ∧ (run (.stopRing 1#8) calling).slot = none ∧
    (run (.stopRing 1#8) calling).port.state = .disabled ∧
    (run (.stopRing 1#8) calling).notices.cycle = [.off] := by decide +kernel

theorem test_census :
    (run (.census 1#8) upFresh).slot = some .census ∧
    (run (.census 1#8) calling).supervisor.censusPending = true ∧
    onTxd (run (.census 1#8) fresh) = refusedWith 1#8 .badState := by decide +kernel

theorem test_clearPlan : (run (.clearPlan 1#8) upFresh).plan = [] := by decide +kernel

theorem test_addEntry :
    (run (.addEntry 1#8 12#8 1#8 5#8 0#8 32#8) upFresh).plan.length = 2 ∧
    onTxd (run (.addEntry 1#8 12#8 1#8 5#8 0#8 32#8) upFresh) = replied 1#8 [1#8] ∧
    onTxd (run (.addEntry 1#8 12#8 1#8 5#8 0#8 33#8) upFresh) = refusedWith 1#8 .range := by decide +kernel

theorem test_setEnable :
    (run (.setEnable 1#8 0#8 0#8) upFresh).plan = [{ readEntry with pendingEnable := false }] ∧
    onTxd (run (.setEnable 1#8 1#8 2#8) upFresh) = refusedWith 1#8 .noSuchEntry := by decide +kernel

theorem test_writeOutput :
    (run (.writeOutput 1#8 0#8 [7#8, 8#8]) (withPlan [writeEntry] fresh)).plan =
      [{ writeEntry with pendingOutput := [7#8, 8#8], writtenSinceLatch := true }] ∧
    onTxd (run (.writeOutput 1#8 0#8 [7#8]) (withPlan [writeEntry] fresh)) = refusedWith 1#8 .lengthMismatch := by
  decide +kernel

theorem test_readInput :
    onTxd (run (.readInput 1#8 0#8)
      (withPlan [{ readEntry with lastGoodValid := true, lastGoodCycle := 258#32, lastGoodData := [5#8, 6#8] }] fresh)) =
      replied 1#8 [1#8, 0#8, 0#8, 1#8, 2#8, 5#8, 6#8] := by decide +kernel

theorem test_configureCycle :
    (run (.configureCycle 1#8 1#8 500#32 1#8 15#8 0#8 1#8) fresh).cycle.config =
      ⟨.free, 500#32, .restart, 15, false, .lateStart⟩ ∧
    onTxd (run (.configureCycle 1#8 1#8 500#32 1#8 0#8 0#8 1#8) fresh) = refusedWith 1#8 .range ∧
    onTxd (run (.configureCycle 1#8 0#8 510#32 1#8 0#8 0#8 1#8) fresh) = refusedWith 1#8 .range := by decide +kernel

theorem test_startCycle :
    (run (.startCycle 1#8) upFresh).cycle.state = .running ∧ (run (.startCycle 1#8) upFresh).cycle.cycleNumber = 1#32 ∧
    (run (.startCycle 1#8) upFresh).slot = some .cycle ∧
    (run (.startCycle 1#8) upFresh).store.reservations = [⟨.cycle, 19⟩] ∧
    (run (.startCycle 1#8) (inRing .off upFresh)).cycle.holdReason = .ring := by decide +kernel

theorem test_stopCycle :
    (run (.stopCycle 1#8 0#8) calling).cycle.state = .stopped ∧
    (run (.stopCycle 1#8 0#8) calling).store.records.map (fun r => r.content) =
      [.event (.cycleAbandoned 1#32 .stopped 0), .event (.cycleStopped 1#32)] ∧
    (run (.stopCycle 1#8 1#8) calling).cycle.stopAtEnd = true := by decide +kernel

theorem test_triggerCycle :
    (run (.triggerCycle 1#8) (inMode .triggered (inCycle .armed upFresh))).cycle.state = .running ∧
    onTxd (run (.triggerCycle 1#8) (inCycle .armed upFresh)) = refusedWith 1#8 .badState := by decide +kernel

theorem test_urgent :
    (run (.urgent 1#8 12#8 1#8 5#8 2#8 1#8 100#16 []) upFresh).urgent =
      ⟨[], some { urgentRequest 1#8 with timerRunning := false }⟩ ∧
    (run (.urgent 1#8 12#8 1#8 5#8 2#8 1#8 100#16 []) upFresh).slot = some .urgent ∧
    onTxd (run (.urgent 1#8 13#8 1#8 5#8 2#8 1#8 100#16 []) upFresh) = refusedWith 1#8 .unknownStation := by
  decide +kernel

theorem test_cancel :
    (run (.cancel 7#8 31#8) (withUrgent [urgentRequest 30#8, urgentRequest 31#8] none calling)).urgent.queue =
      [urgentRequest 30#8] ∧
    onTxd (run (.cancel 7#8 31#8) (withUrgent [] (some (urgentRequest 31#8)) calling)) = refusedWith 7#8 .inFlight := by
  decide +kernel

theorem test_openWindow :
    (run (.openWindow 1#8) upFresh).window = { hostPending := true, record := some ⟨.hostWindow, 0#32⟩ } ∧
    (run (.openWindow 1#8) upFresh).ringOut = .frame .r10 ((FrameBody.window []).frame 0#8) ∧
    onTxd (run (.openWindow 1#8) (inRing .fault upFresh)) = refusedWith 1#8 .ringOff := by decide +kernel

/-- The reply goes on TXD before the delivery the grant allows (R144). -/
theorem test_grant :
    (run (.grant 1#8 255#8) (withStore (threeRecords 3) fresh)).store.credits = 255 ∧
    onTxd (run (.grant 1#8 2#8) (withStore (threeRecords 0) fresh)) = replied 1#8 [2#8] := by decide +kernel

theorem test_ackDeliveries :
    (run (.ackDeliveries 1#8 1#16) (withStore (threeRecords 0) fresh)).store.records = [⟨event0, 2#16, .unsent⟩] ∧
    (run (.ackDeliveries 1#8 1#16) (withStore (threeRecords 0) fresh)).notices.space = 1 ∧
    onTxd (run (.ackDeliveries 1#8 2#16) (withStore (threeRecords 0) fresh)) = refusedWith 1#8 .range := by
  decide +kernel

theorem test_rewind :
    (run (.rewind 1#8 1#16) (withStore (threeRecords 0) fresh)).store.records.map (fun r => r.region) =
      [.sentUnacknowledged, .unsent, .unsent] ∧
    onTxd (run (.rewind 1#8 1#16) (withStore (threeRecords 0) fresh)) = replied 1#8 [1#8] := by decide +kernel

theorem test_queryStatus :
    onTxd (run (.queryStatus 1#8) calling) =
      replied 1#8 [2#8, 1#8, 0#8, 3#8, 0#8, 0#8, 0#8, 0#8, 1#8, 1#8, 0#8, 2#8, 0#8, 0x0F#8, 0xED#8, 31#8, 0#8, 0#8,
        0#8, 0#8, 0#8, 0#8] := by decide +kernel

theorem test_queryStation :
    onTxd (run (.queryStation 1#8 12#8) upFresh) =
      replied 1#8 [12#8, 1#8, 1#8, 0#8, 0#8, 255#8, 0#8, 0#8, 0#8, 0#8] ∧
    onTxd (run (.queryStation 1#8 13#8) upFresh) = refusedWith 1#8 .notFound := by decide +kernel

theorem test_queryCounters :
    onTxd (run (.queryCounters 1#8 1#8) fresh) =
      replied 1#8 (List.replicate 32 0#8 ++ [0#8, 1#8] ++ List.replicate 12 0#8) ∧
    (run (.queryCounters 1#8 1#8) fresh).link.counters = {} := by decide +kernel

theorem test_reset :
    (run (.reset 1#8) upFresh).link.softResetPending = true ∧
    run .transmissionEnd (run (.reset 1#8) upFresh) =
      { link := { tx := some (.announcement (.started .soft 0#2)) } } := by decide +kernel

theorem test_hardReset :
    run .hardReset calling = { resetAsserted := true } ∧ (run .hardReset calling).attn = false := by decide +kernel

theorem test_hardResetRelease :
    run (.hardResetRelease false false .idle) (run .hardReset calling) = State.reset ∧
    onTxd (run (.hardResetRelease true false .idle) (run .hardReset calling)) =
      some (.announcement (.started .hard 2#2)) := by decide +kernel

/-- The CANCEL of section 10.7 completes with its last check byte, and finds request 31 in flight. -/
theorem test_linkMessageComplete :
    let m := frameMessage [0x31#8, 0x07#8, 0x1F#8]
    let s := withUrgent [] (some (urgentRequest 31#8)) fresh
    let s := { s with link := { s.link with receiver := .check, retained := m.take 7, gapTimer := true } }
    onTxd (run (.linkMessageComplete (m[7]?.getD 0#8)) s) = refusedWith 7#8 .inFlight ∧
    (run (.linkMessageComplete ((m[7]?.getD 0#8) ^^^ 1#8)) s).link.counters.checkErrors = 1#16 := by decide +kernel

/-- The rescan after a gap finds the good message behind a false start code (R156, R155). -/
theorem test_gapTimerExpiry :
    let s := { fresh with link :=
      { fresh.link with
        receiver := .body, retained := [0xA5#8, 0x01#8, 0x00#8] ++ frameMessage [0x50#8, 0x03#8], gapTimer := true } }
    (run .gapTimerExpiry s).link.counters = { gapDiscards := 1#16, requestsReceived := 1#16 } ∧
    (run .gapTimerExpiry s).link.receiver = .hunt := by decide +kernel

theorem test_characterError :
    (run .characterError fresh).link.counters.characterErrors = 1#16 ∧
    (run .characterError fresh).link.receiver = .hunt := by decide +kernel

theorem test_linkReset :
    (run .linkReset (withStore (threeRecords 4) fourWaiting)).link.receiver = .brk ∧
    (run .linkReset (withStore (threeRecords 4) fourWaiting)).link.inbox = [] ∧
    (run .linkReset (withStore (threeRecords 4) fourWaiting)).store.credits = 0 ∧
    (run .linkReset (withStore (threeRecords 4) fresh)).attn = true ∧
    onTxd (run .linkReset fresh) = some (.announcement .linkRestarted) := by decide +kernel

theorem test_breakEnd : (run .breakEnd (run .linkReset fresh)).link.receiver = .hunt := by decide +kernel

/-- The handler takes the oldest request when its reply has been sent (R160); a delivery follows the last reply. -/
theorem test_transmissionEnd :
    onTxd (run .transmissionEnd fourWaiting) = replied 2#8 (statusPayload fresh) ∧
    (run .transmissionEnd fourWaiting).link.inbox.length = 3 ∧
    onTxd (run .transmissionEnd (withStore (threeRecords 1) replying)) = some (.delivery ⟨event0, 2#16, .unsent⟩) ∧
    (run .transmissionEnd (withStore (threeRecords 1) replying)).store.credits = 0 := by decide +kernel

/-- The covered bytes of the READ returned with status OK and two bytes, after one hop. -/
def servedRead : List Byte :=
  [0x01#8, 0#8, 1#8, 12#8, 0x01#8, 5#8, 0#8, 2#8, 0x01#8, 0x00#8, 2#8, 9#8, 8#8]

/-- The READ comes back served: the entry is DONE, the walk has ended, and the cycle window is claimed. -/
theorem test_ringFrameComplete_call :
    let t := run (.ringFrameComplete (sealed servedRead)) calling
    t.cycle.outcomes = [⟨.done, some .ok, [9#8, 8#8]⟩] ∧ t.cycle.state = .closing ∧ t.slot = some .window ∧
    t.table = [{ station 12#8 (some 1) .active 0 none with callsServed := 1#16 }] := by decide +kernel

/-- The census returns in PROBING with station 12: the ring is UP. -/
theorem test_ringFrameComplete_census :
    let covered := [0x02#8, 0x00#8, 0x01#8, 0x01#8, 0x00#8, 12#8, 1#8]
    let t := run (.ringFrameComplete (covered ++ halfBytes (crc16 covered)))
      (awaitingReturn ⟨.census, .census, 1, 2, some 0#8⟩ (inRing .probing fresh))
    t.supervisor.state = .up ∧ t.table = [station 12#8 (some 1) .active 0 none] ∧
    t.store.records.map (fun r => r.content) =
      [.event (.topology 1 1 0), .event (.ringState .probing .up .censusValid 1 0#8)] := by decide +kernel

theorem test_attemptFrameSent :
    (run .attemptFrameSent { calling with port := { calling.port with state := .sending, returnTimer := none } }).port =
      calling.port := by decide +kernel

theorem test_returnTimerExpiry :
    (run .returnTimerExpiry calling).supervisor.state = .down ∧
    (run .returnTimerExpiry calling).cycle.state = .armed ∧
    (run .returnTimerExpiry calling).store.records.map (fun r => r.content) =
      [.event (.ringState .up .down .lostReturn 1 0#8), .event (.cycleAbandoned 1#32 .ringDown 0)] := by decide +kernel

theorem test_probeTimerExpiry :
    (run .probeTimerExpiry (inRing .down upFresh)).supervisor.state = .probing ∧
    (run .probeTimerExpiry (inRing .down upFresh)).slot = some .census := by decide +kernel

def noticed (r : RingState) (s : State) : State := { s with notices := ⟨[r], [r], [r], [r], 1⟩ }

theorem test_cycleRingReport :
    (run .cycleRingReport (noticed .up (inCycle .held upFresh))).cycle.state = .running ∧
    (run .cycleRingReport (noticed .fault (inRing .fault (inCycle .closing upFresh)))).store.records.map
      (fun r => r.content) = [.event (.cycleAbandoned 0#32 .ringFault 0)] := by decide +kernel

theorem test_urgentRingReport :
    (run .urgentRingReport (noticed .off (withUrgent [urgentRequest 2#8] (some (urgentRequest 1#8)) fresh))).store.records.map
      (fun r => r.content) =
      [.urgentResult ⟨1#8, .ringStopped, none, 0, []⟩, .urgentResult ⟨2#8, .ringStopped, none, 0, []⟩] := by
  decide +kernel

theorem test_windowRingReport :
    (run .windowRingReport (noticed .off { fresh with window :=
      { owed := [⟨12#8, 1#8⟩], hostPending := true, record := some ⟨.hostWindow, 0#32⟩ } })).window =
      { owed := [⟨12#8, 1#8⟩] } := by decide +kernel

theorem test_arbiterRingReport :
    (run .arbiterRingReport (noticed .up (withUrgent [urgentRequest 1#8] none upFresh))).slot = some .urgent := by
  decide +kernel

theorem test_periodTimerExpiry :
    (run .periodTimerExpiry (inCycle .armed upFresh)).cycle.state = .running ∧
    (run .periodTimerExpiry calling).cycle.overrunReported = true ∧
    (run .periodTimerExpiry (inCycle .held upFresh)).cycle.counters.skippedStarts = 1#16 := by decide +kernel

theorem test_spaceReleaseNotice :
    (run .spaceReleaseNotice (noticed .up (inCycle .held upFresh))).cycle.state = .running ∧
    (run .spaceReleaseNotice (noticed .up (inCycle .held upFresh))).notices.space = 0 := by decide +kernel

theorem test_deadlineTimerExpiry :
    (run (.deadlineTimerExpiry 1#8) (withUrgent [urgentRequest 1#8] none calling)).urgent.queue = [] ∧
    (run (.deadlineTimerExpiry 1#8) (withUrgent [urgentRequest 1#8] none calling)).store.records.map
      (fun r => r.content) = [.urgentResult ⟨1#8, .expired, none, 0, []⟩] := by decide +kernel

theorem test_rxdCharacterReceived :
    (run (.rxdCharacterReceived 0xA5#8) fresh).link.receiver = .length ∧
    run (.rxdCharacterReceived 0x00#8) fresh = fresh := by decide +kernel

/-! ### States and operands that meet the hypotheses of the obligations -/

theorem test_meets_StepTakesTheFrontCommand : State.reset.pending = [] := rfl

theorem test_meets_EveryCommandCompletes :
    Instr.linkReset ≠ .hardReset ∧ ∀ a b l, Instr.linkReset ≠ .hardResetRelease a b l := ⟨by decide, by simp⟩

theorem test_meets_HardResetHoldsEveryBlock : ∀ a b l, Instr.startRing 1#8 ≠ .hardResetRelease a b l := by simp

theorem test_meets_ReleaseSendsStarted : fresh.pending = [] ∧ fresh.resetAsserted = false := by decide

/-- A RESET reply on TXD with its soft reset pending. -/
def resetting : State :=
  { fresh with link :=
    { fresh.link with tx := some (.reply ⟨1#8, none, [], .handlerReset⟩), softResetPending := true } }

theorem test_meets_ResetRequestAndSoftReset :
    fresh.ready = true ∧ resetting.link.tx = some (.reply ⟨1#8, none, [], .handlerReset⟩) ∧
    (TxMessage.reply ⟨1#8, none, [], .handlerReset⟩).isResetReply = true ∧
    resetting.link.softResetPending = true := by decide

theorem test_meets_ConfigurationsAreReplaced :
    (fresh.ready = true ∧ upFresh.ready = true ∧ upFresh.supervisor.state ≠ .off) ∧
    (fresh.supervisor.state = .off ∧
      ¬((3#8).toNat ≤ 3 ∧ (20 ≤ (19#16).toNat ∧ (19#16).toNat ≤ 5000) ∧ (0#8).toNat ≤ 3 ∧
        (1 ≤ (1#8).toNat ∧ (1#8).toNat ≤ 7) ∧ 10 ≤ (10#16).toNat ∧ (10#16).toNat ≤ 1000)) ∧
    (bitRateOfCode 3#8 = some .r20 ∧ (20 ≤ (5000#16).toNat ∧ (5000#16).toNat ≤ 5000) ∧ (3#8).toNat ≤ 3 ∧
      (1 ≤ (7#8).toNat ∧ (7#8).toNat ≤ 7) ∧ 10 ≤ (1000#16).toNat ∧ (1000#16).toNat ≤ 1000) ∧
    (calling.ready = true ∧ calling.cycle.state ≠ .stopped) ∧
    (fresh.ready = true ∧ fresh.cycle.state = .stopped ∧ ¬((1#8).toNat ≤ 2 ∧ ¬(1#8 = 1#8 ∧ 0#8 = 0#8))) ∧
    (modeOfCode 2#8 = some .triggered ∧ policyOfCode 1#8 = some .restart ∧ overrunOfCode 0#8 = some .skip ∧
      (1#8).toNat ≤ 1 ∧ (500 ≤ (1000000#32).toNat ∧ (1000000#32).toNat ≤ 1000000 ∧ 50 ∣ (1000000#32).toNat) ∧
      (15#8).toNat ≤ 15 ∧ ¬(CycleMode.triggered = .free ∧ 15#8 = 0#8)) ∧
    (modeOfCode 1#8 = some .free ∧ ¬(CycleMode.free = .free ∧ 1#8 = 0#8)) := by decide +kernel

theorem test_meets_StartRingProbesTheRing :
    (upFresh.ready = true ∧ upFresh.supervisor.state = .up) ∧
    (fresh.ready = true ∧ fresh.supervisor.state = .off ∧ fresh.port.record = none) ∧
    ((inRing .fault fresh).supervisor.state = .fault ∧ (inRing .fault fresh).port.record = none) := by decide

theorem test_meets_StopRingEndsTheRing :
    (fresh.ready = true ∧ fresh.supervisor.state = .off) ∧ (calling.ready = true ∧ calling.supervisor.state ≠ .off) := by
  decide

theorem test_meets_CensusOnRequest :
    (fresh.ready = true ∧ fresh.supervisor.state ≠ .up) ∧
    (upFresh.ready = true ∧ upFresh.supervisor.state = .up ∧ upFresh.port.record = none) ∧
    (calling.ready = true ∧ calling.supervisor.state = .up ∧ calling.port.record ≠ none) := by decide

/-- A plan of 64 entries, and one of 32 SWAPs that fills both byte limits. -/
def fullPlan : List PlanEntry := List.replicate 64 readEntry

def heavyPlan : List PlanEntry := List.replicate 32 (newEntry 12#8 .swap 5#8 32 32)

theorem test_meets_ClearPlanAndAddEntry :
    (fresh.ready = true ∧ fresh.cycle.state = .stopped) ∧
    (calling.ready = true ∧ calling.cycle.state ≠ .stopped) ∧ operationOfCode 4#8 = none ∧
    (operationOfCode 1#8 = some .read ∧ lengthsAgree .read (0#8).toNat (33#8).toNat = false) ∧
    (lengthsAgree .read (0#8).toNat (32#8).toNat = true ∧ (254#8 ≠ 0#8 ∧ 254#8 ≠ 255#8)) ∧
    64 ≤ fullPlan.length ∧ 1024 < inSum heavyPlan + (1#8).toNat ∧
    (heavyPlan.length < 64 ∧ outSum heavyPlan + (0#8).toNat ≤ 1024) ∧
    (upFresh.plan.length < 64 ∧ outSum upFresh.plan + (0#8).toNat ≤ 1024 ∧
      inSum upFresh.plan + (32#8).toNat ≤ 1024) := by decide +kernel

theorem test_meets_EntriesAreEnabledWrittenAndRead :
    (fresh.ready = true ∧ fresh.plan[(0#8).toNat]? = none) ∧
    (upFresh.ready = true ∧ upFresh.plan[(0#8).toNat]? = some readEntry) ∧ (2#8 ≠ 0#8 ∧ 2#8 ≠ 1#8) ∧
    1#8 = (if true then 1#8 else 0#8) ∧
    (fresh.ready = true ∧ 32 < (List.replicate 33 0#8).length ∧ (List.replicate 32 0#8).length ≤ 32) ∧
    (fresh.plan[(0#8).toNat]? = none) ∧ (upFresh.plan[(0#8).toNat]? = some readEntry ∧ readEntry.operation = .read) ∧
    ((withPlan [writeEntry] fresh).plan[(0#8).toNat]? = some writeEntry ∧ writeEntry.operation ≠ .read ∧
      [7#8].length ≠ writeEntry.outLength ∧ [7#8, 8#8].length = writeEntry.outLength) ∧
    (fresh.ready = true ∧ fresh.plan[(0#8).toNat]? = none) ∧
    ((withPlan [writeEntry] fresh).plan[(0#8).toNat]? = some writeEntry ∧ writeEntry.inLength = 0) ∧
    (upFresh.plan[(0#8).toNat]? = some readEntry ∧ readEntry.inLength ≠ 0) := by decide

/-- The snapshot reservation of the plan, granted or refused. -/
def reserves (s : State) : Option Store := s.store.reserve .cycle (14 + 3 * s.plan.length + inSum s.plan)

theorem test_meets_CyclesStartOnRequest :
    let t := inMode .triggered (inCycle .armed upFresh)
    (calling.ready = true ∧ calling.cycle.state ≠ .stopped) ∧
    (fresh.cycle.state = .stopped ∧ fresh.plan = []) ∧
    (upFresh.cycle.state = .stopped ∧ upFresh.plan ≠ []) ∧
    ((inMode .triggered upFresh).cycle.config.mode = .triggered ∧ upFresh.cycle.config.mode ≠ .triggered) ∧
    (inRing .down upFresh).supervisor.state ≠ .up ∧
    ((withStore fullStore upFresh).ready = true ∧ reserves (withStore fullStore upFresh) = none) ∧
    (upFresh.supervisor.state = .up ∧ (reserves upFresh).isSome = true) ∧
    (fresh.cycle.state ≠ .armed ∧ (inCycle .armed upFresh).cycle.config.mode ≠ .triggered) ∧
    (t.ready = true ∧ t.cycle.state = .armed ∧ t.cycle.config.mode = .triggered ∧ t.supervisor.state = .up ∧
      (reserves t).isSome = true) ∧
    (inRing .fault t).supervisor.state ≠ .up ∧ reserves (withStore fullStore t) = none := by decide +kernel

theorem test_meets_StopCycleByStateAndChoice :
    (fresh.ready = true ∧ 2#8 ≠ 0#8 ∧ 2#8 ≠ 1#8) ∧ fresh.cycle.state = .stopped ∧
    (inCycle .held upFresh).cycle.state = .held ∧ (inCycle .armed upFresh).cycle.state = .armed ∧
    calling.cycle.state = .running ∧ (inCycle .closing upFresh).cycle.state = .closing := by decide

theorem test_meets_UrgentPassesSixTests :
    (upFresh.ready = true ∧ 32 < (List.replicate 33 0#8).length ∧ (List.replicate 32 0#8).length ≤ 32) ∧
    (fresh.supervisor.state = .off) ∧
    (6 ≤ (withUrgent (List.replicate 6 (urgentRequest 1#8)) none upFresh).urgent.queue.length) ∧
    (¬6 ≤ (withUrgent (List.replicate 5 (urgentRequest 1#8)) none upFresh).urgent.queue.length ∧
      urgentRequest 1#8 ∈ (withUrgent (List.replicate 5 (urgentRequest 1#8)) none upFresh).urgent.queue) ∧
    (callableForUrgent upFresh.table 13#8 = false ∧ callableForUrgent upFresh.table 12#8 = true) ∧
    (operationOfCode 4#8 = none ∧ 1 < (2#8).toNat ∧ 60000 < (60001#16).toNat) ∧
    (operationOfCode 1#8 = some .read ∧ (1#8).toNat ≤ 1 ∧ (60000#16).toNat ≤ 60000) ∧
    (lengthsAgree .read 0 (0#8).toNat = false ∧ lengthsAgree .read 0 (32#8).toNat = true) ∧
    fullStore.reserve (.urgent 1#8) (8 + (32#8).toNat) = none ∧
    (upFresh.store.reserve (.urgent 1#8) (8 + (32#8).toNat)).isSome = true := by decide +kernel

theorem test_meets_CancelByWhereTheTagStands :
    let s := withUrgent [urgentRequest 1#8] (some (urgentRequest 2#8)) calling
    s.ready = true ∧ queuedWith s.urgent 1#8 = some (urgentRequest 1#8) ∧
    (queuedWith s.urgent 2#8 = none ∧ s.urgent.inFlight = some (urgentRequest 2#8) ∧ (urgentRequest 2#8).tag = 2#8) ∧
    (queuedWith s.urgent 3#8 = none ∧ (urgentRequest 2#8).tag ≠ 3#8) := by decide

theorem test_meets_OpenWindowSetsHostWindowPending :
    (fresh.ready = true ∧ fresh.supervisor.state = .off) ∧ (inRing .down upFresh).supervisor.state = .down ∧
    (upFresh.supervisor.state = .up ∧ (inCycle .held upFresh).cycle.state = .held) ∧
    (upFresh.window.hostPending = false ∧ upFresh.cycle.state = .stopped) := by decide

theorem test_meets_CreditsAcknowledgementsAndRewinds :
    (fresh.ready = true ∧ 255#8 ≠ 0#8) ∧ (withStore (threeRecords 0) fresh).ready = true ∧ notSent (withStore (threeRecords 0) fresh) 2#16 ∧
    sentAt (withStore (threeRecords 0) fresh) 0#16 0 ∧ sentAt (withStore (threeRecords 0) fresh) 1#16 1 := by
  refine ⟨by decide, by decide, by unfold notSent; decide, ⟨⟨_, rfl, rfl, rfl⟩, ?_⟩, ⟨⟨_, rfl, rfl, rfl⟩, ?_⟩⟩
  · intro i r hi; omega
  · intro i r hi h
    obtain rfl : i = 0 := by omega
    cases h; decide

theorem test_meets_QueriesReport :
    fresh.ready = true ∧ (∀ e ∈ upFresh.table, e.address ≠ 13#8) ∧
    upFresh.table.find? (fun e => e.address == 12#8) = some (station 12#8 (some 1) .active 0 none) ∧
    (2#8 ≠ 0#8 ∧ 2#8 ≠ 1#8) := by decide

/-- The inbox full, and seven INBOX_FULL replies waiting. -/
def sevenAnswered : State :=
  { fourWaiting with link :=
    { fourWaiting.link with replies := List.replicate 7 ⟨1#8, some .inboxFull, [], .inboxFull⟩ } }

theorem test_meets_RequestsAreTakenInOrder :
    requestOf (.startRing 1#8) = some (.startRing, 1#8, []) ∧ (hardReset fresh).receiving = false ∧
    fresh.ready = true ∧
    (replying.receiving = true ∧ replying.link.handlerFree = false ∧ replying.link.inbox.length < 4) ∧
    (fourWaiting.receiving = true ∧ 4 ≤ fourWaiting.link.inbox.length ∧
      fourWaiting.link.replies.countP Reply.isInboxFull < 7) ∧
    (sevenAnswered.receiving = true ∧ 4 ≤ sevenAnswered.link.inbox.length ∧
      7 ≤ sevenAnswered.link.replies.countP Reply.isInboxFull) := by decide +kernel

theorem test_meets_FormChecksOfEveryRequest :
    (∀ t : RequestType, t.code ≠ 0x80#8) ∧ payloadFits .urgent (List.replicate 6 0#8) = false ∧
    payloadFits .urgent (List.replicate 40 0#8) = false ∧ payloadFits .urgent (List.replicate 39 0#8) = true ∧
    payloadFits .reset [] = true := ⟨fun t => by cases t <;> decide, by decide, by decide, by decide, by decide⟩

def receivingAs (st : RxState) (retained : List Byte) : State :=
  { fresh with link := { fresh.link with receiver := st, retained := retained, gapTimer := true } }

theorem test_meets_CharactersBuildMessages :
    (hardReset fresh).receiving = false ∧ (fresh.receiving = true ∧ fresh.link.receiver = .hunt) ∧
    ((receivingAs .length [0xA5#8]).receiving = true ∧ (receivingAs .length [0xA5#8]).link.receiver = .length) ∧
    ((receivingAs .body [0xA5#8, 0#8, 2#8]).receiving = true ∧ 2 ≤ (0#8 ++ 2#8).toNat ∧ (0#8 ++ 2#8).toNat ≤ 1400 ∧
      ([] : List Byte).length + 1 ≤ (0#8 ++ 2#8).toNat) ∧
    ((receivingAs .check [0xA5#8, 0#8, 2#8, 0x50#8, 1#8]).receiving = true ∧
      [0x50#8, 1#8].length = (0#8 ++ 2#8).toNat) := by decide

theorem test_meets_MessageCompleteIsTested :
    ((receivingAs .length [0xA5#8, 0#8]).receiving = true ∧ (0#8 ++ 1#8).toNat < 2) ∧
    1400 < (5#8 ++ 0x79#8).toNat ∧ (2 ≤ (5#8 ++ 0x78#8).toNat ∧ (5#8 ++ 0x78#8).toNat ≤ 1400) ∧
    ((receivingAs .check ([0xA5#8, 0#8, 2#8, 0x50#8, 1#8] ++ [0#8])).receiving = true ∧
      [0x50#8, 1#8].length = (0#8 ++ 2#8).toNat ∧ 2 ≤ [0x50#8, 1#8].length) ∧
    ∃ k1 c, [k1, c] = halfBytes (crc16 [0#8, 2#8, 0x50#8, 1#8]) ∧
      [k1, c ^^^ 1#8] ≠ halfBytes (crc16 [0#8, 2#8, 0x50#8, 1#8]) :=
  ⟨by decide, by decide, by decide, by decide, _, _, rfl, by decide +kernel⟩

theorem test_meets_RescanFindsMessages :
    (∀ b ∈ [1#8, 2#8], b ≠ 0xA5#8) ∧ (2 ≤ [0x50#8, 1#8].length ∧ [0x50#8, 1#8].length ≤ 1400) ∧
    ((0#8 ++ 1#8).toNat < 2 ∧ 1400 < (5#8 ++ 0x79#8).toNat) ∧
    ([0x50#8, 1#8].length = (0#8 ++ 2#8).toNat ∧
      [0#8, 0#8] ≠ halfBytes (crc16 (0#8 :: 2#8 :: [0x50#8, 1#8]))) ∧
    unfinished [0#8] .length ∧ unfinished [0#8, 2#8] .body ∧ unfinished [0#8, 2#8, 0x50#8, 1#8] .check ∧
    unfinished [0#8, 2#8, 0x50#8, 1#8, 0#8] .check := by
  refine ⟨by decide, by decide, by decide, by decide +kernel, .inl (by decide), .inr ⟨0#8, 2#8, [], rfl, by decide⟩,
    .inr ⟨0#8, 2#8, [0x50#8, 1#8], rfl, by decide⟩, .inr ⟨0#8, 2#8, [0x50#8, 1#8, 0#8], rfl, by decide⟩⟩

theorem test_meets_GapsAndCharacterErrorsDiscard :
    fresh.link.gapTimer = false ∧
    ((receivingAs .length [0xA5#8]).link.gapTimer = true ∧ (receivingAs .length [0xA5#8]).link.retained = [0xA5#8]) ∧
    ((hardReset fresh).resetAsserted = true ∧ fresh.resetAsserted = false ∧ fresh.link.receiver = .hunt) ∧
    ((receivingAs .check [0xA5#8]).resetAsserted = false ∧ (receivingAs .check [0xA5#8]).link.receiver = .check) := by
  decide

theorem test_meets_LinkResetRestartsTheLink :
    (fresh.resetAsserted = false ∧ fresh.link.receiver ≠ .brk) ∧ (hardReset fresh).resetAsserted = true ∧
    (linkReset fresh).link.receiver = .brk := by decide

theorem test_meets_TransmissionEndFreesTxd :
    fresh.link.tx = none ∧
    (replying.link.tx = replied 1#8 [] ∧ (TxMessage.reply (acceptedReply 1#8 [])).isResetReply = false ∧
      replying.link.inbox = []) ∧
    (fourWaiting.link.inbox = [0x50#8, 2#8] :: List.replicate 3 [0x50#8, 2#8] ∧
      { fourWaiting.link with tx := none }.handlerFree = true) := by decide

/-- TXD busy, and TXD free with an announcement, with a reply, with a delivery and no credit, and with one. -/
theorem test_meets_EventsEndWithTheNoticeAndTheNextMessage :
    (replying.link.tx ≠ none ∧ replying.resetAsserted = false ∧ replying.link.rateCode = 0#2 ∧
      (hardReset fresh).resetAsserted = true) ∧
    (fresh.link.tx = none ∧ { fresh.link with announcements := [.linkRestarted] }.announcements = [.linkRestarted]) ∧
    (fresh.link.announcements = [] ∧ sevenAnswered.link.replies ≠ []) ∧
    (fresh.link.replies = [] ∧ (threeRecords 0).credits = 0 ∧ ∀ r ∈ fresh.store.records, r.region = .sentUnacknowledged) ∧
    ((threeRecords 1).credits ≠ 0 ∧
      (threeRecords 1).records =
        [⟨event0, 0#16, .sentUnacknowledged⟩, ⟨event0, 1#16, .sentUnacknowledged⟩] ++ ⟨event0, 2#16, .unsent⟩ :: [] ∧
      ∀ x ∈ [Record.mk event0 0#16 .sentUnacknowledged, ⟨event0, 1#16, .sentUnacknowledged⟩],
        x.region = .sentUnacknowledged) := by decide

/-- TXD as characters at the link rate: STARTED's start code A5h in bits, and its 12 characters of 10 bits. -/
theorem test_txd_characters :
    (∃ bits, State.reset.txd = .characters 115200 bits ∧ bits.length = 120 ∧
      bits.take 10 = [.start, .data true, .data false, .data true, .data false, .data false, .data true, .data false,
        .data true, .stop]) ∧
    (hardReset State.reset).txd = .idle ∧ [0#2, 1#2, 2#2, 3#2].map lineBitRate = [115200, 460800, 1000000, 3000000] :=
  ⟨⟨_, rfl, by decide +kernel, by decide +kernel⟩, by decide, by decide⟩

/-- The order of TXD on one step: an announcement, then a reply, then a delivery that uses its credit. -/
theorem test_txd_order :
    let waiting := { fresh with
      link := { fresh.link with announcements := [.linkRestarted], replies := [acceptedReply 1#8 []] }
      store := threeRecords 1 }
    let second := finish { finish waiting with link := { (finish waiting).link with tx := none } }
    onTxd (finish waiting) = some (.announcement .linkRestarted) ∧ onTxd second = replied 1#8 [] ∧
    onTxd (finish { second with link := { second.link with tx := none } }) = some (.delivery ⟨event0, 2#16, .unsent⟩) :=
  by decide +kernel

/-- A CALL in its three forms, a CENSUS of 24 stations, and a WINDOW of 24 pairs sent with 6 reports of 12 bytes back,
which use the capacity whole. -/
theorem test_meets_GoodReturnsEndTheCirculation :
    (calling.port.state = .awaiting ∧ calling.port.record = some lastCall ∧ lastCall.tag = some 0#8) ∧
    frameInRange lastCall.frame ∧ wellFormedReturn lastCall.frame (servedRead.drop 3) (.served .ok [9#8, 8#8]) ∧
    wellFormedReturn lastCall.frame [12#8, 0x01#8, 5#8, 0#8, 2#8, 0x01#8, 0x02#8, 0#8] (.served .busy []) ∧
    wellFormedReturn lastCall.frame [12#8, 0x01#8, 5#8, 0#8, 2#8, 0x00#8, 0x00#8, 0#8] .missed ∧
    frameInRange .census ∧
    wellFormedReturn .census (24#8 :: 0#8 :: (List.replicate 24 (12#8, 1#8)).flatMap (fun e => [e.1, e.2]))
      (.census false (List.replicate 24 (12#8, 1#8))) ∧
    frameInRange (.window (List.replicate 24 ⟨12#8, 1#8⟩)) ∧
    wellFormedReturn (.window [⟨12#8, 1#8⟩])
      ([1#8, 12#8, 1#8] ++ [0#8, 6#8, 3#8] ++
        (List.replicate 6 (ReportItem.mk 12#8 7#8 1#8 (List.replicate 12 0#8))).flatMap
          (fun r => [r.address, r.sequence, r.code, natByte r.data.length] ++ r.data))
      (.window (List.replicate 6 ⟨12#8, 7#8, 1#8, List.replicate 12 0#8⟩) 3) := by
  refine ⟨by decide, by simp only [lastCall, frameInRange]; decide, .inl ⟨[9#8, 8#8], by decide, rfl, by decide⟩,
    .inr (.inl ⟨.busy, by decide, rfl, by decide⟩), .inr (.inr ⟨.ok, rfl, by decide⟩), trivial,
    ⟨false, List.replicate 24 (12#8, 1#8), by decide, rfl, rfl⟩, by simp only [frameInRange]; decide,
    ⟨0#8, List.replicate 6 ⟨12#8, 7#8, 1#8, List.replicate 12 0#8⟩, 3#8, rfl, by decide, by decide, rfl⟩⟩

/-- A broken frame, a frame of another tag, and with the attempt's own tag a frame of another kind and a CALL whose
capacity is not the one sent. -/
theorem test_meets_ReturnsAreJudged :
    fresh.port.state = .disabled ∧ upFresh.port.state = .idle ∧ goodFrame [0x01#8] = none ∧
    goodFrame (FrameBody.census.frame 0#8) ≠ none ∧
    (calling.port.state = .awaiting ∧ calling.port.record = some lastCall ∧ 1 + lastCall.allowance ≤ lastCall.attempts) ∧
    frameInRange lastCall.frame ∧
    (goodFrame (FrameBody.census.frame 1#8) = some [2#8, 1#8, 0#8, 0#8, 0#8] ∧
      [2#8, 1#8, 0#8, 0#8, 0#8][1]? ≠ lastCall.tag) ∧
    (goodFrame (FrameBody.census.frame 0#8) = some (2#8 :: 0#8 :: [0#8, 0#8, 0#8]) ∧ lastCall.tag = some 0#8 ∧
      2#8 ≠ lastCall.frame.kind) ∧
    (goodFrame (sealed (servedRead.set 7 3#8)) = some (1#8 :: 0#8 :: 1#8 :: (servedRead.set 7 3#8).drop 3) ∧
      ∀ res, ¬wellFormedReturn lastCall.frame ((servedRead.set 7 3#8).drop 3) res) ∧
    { lastCall with attempts := 2 }.attempts < 1 + lastCall.allowance := by
  refine ⟨by decide, by decide, by decide, by decide +kernel, by decide, by simp only [lastCall, frameInRange]; decide,
    by decide +kernel, by decide +kernel, ⟨by decide +kernel, ?_⟩, by decide⟩
  rintro res (⟨data, -, -, h⟩ | ⟨st, -, -, h⟩ | ⟨st, -, h⟩) <;>
    exact absurd (congrArg (fun l => l[4]?) h : some 3#8 = some 2#8) (by decide)

theorem test_meets_ReturnTimerRunsAndExpires :
    (let p := { calling.port with state := PortState.sending }
     p.state = .sending ∧ p.record = some lastCall ∧ lastCall.tag = some 0#8) ∧ fresh.port.state ≠ .sending ∧
    fresh.port.returnTimer = none ∧
    (calling.port.state = .awaiting ∧ calling.port.returnTimer ≠ none ∧ calling.port.record = some lastCall) ∧
    1 + lastCall.allowance ≤ lastCall.attempts ∧ 2 < 1 + lastCall.allowance := by decide

/-- A CENSUS, an URGENT and a WINDOW circulation on their last attempt. -/
def lastCensus : Circulation := ⟨.census, .census, 3, 2, some 0#8⟩
def lastUrgent : Circulation := { lastCall with requester := .urgent }
def lastWindow : Circulation := ⟨.window, .window [], 3, 2, some 0#8⟩

theorem test_meets_CirculationsEndInOrder :
    (lastCall.frame = .call readEntry.callBody ∧ lastCall.requester = .cycle ∧ lastUrgent.requester = .urgent) ∧
    (lastWindow.frame = .window [] ∧ lastWindow.requester = .window) ∧
    (lastCensus.requester = .census ∧ lastCensus.frame = .census ∧ upFresh.supervisor.state = .up ∧
      (inRing .probing fresh).supervisor.state = .probing) := by decide

/-- The order of R19 on one step: the station served before the cycle's outcome, the hop mismatch of the return counted,
and the census it makes pending claimed at the boundary. -/
theorem test_ends_in_order :
    let t := run (.ringFrameComplete (sealed (servedRead.set 2 3#8))) calling
    t.port.counters.hopMismatches = 1#16 ∧ t.slot = some .census ∧ t.supervisor.censusPending = false ∧
    t.cycle.state = .closing ∧ t.table.map (fun e => e.callsServed) = [1#16] := by decide +kernel

theorem test_meets_FinalLostTakesTheRingDown :
    (calling.supervisor.state = .up ∧ calling.port.state = .awaiting ∧ calling.port.returnTimer ≠ none ∧
      calling.port.record = some lastCall ∧ 1 + lastCall.allowance ≤ lastCall.attempts) ∧
    (lastCall.requester = .cycle ∧ calling.notices = {}) ∧
    ((withUrgent [] (some (urgentRequest 1#8)) calling).urgent.inFlight = some (urgentRequest 1#8) ∧
      lastUrgent.requester = .urgent) ∧
    ({ calling with window := { record := some ⟨.hostWindow, 0#32⟩, hostPending := true } }.window.record =
      some ⟨.hostWindow, 0#32⟩ ∧ lastWindow.requester = .window) := by decide

theorem test_meets_CensusDecidesTheRingState :
    ((inRing .probing fresh).supervisor.state = .probing ∧ upFresh.supervisor.state = .up) ∧
    ([(1#8, 0#8), (255#8, 0#8)] = [(1#8, 0#8)] ++ (255#8, 0#8) :: [] ∧
      ∀ e ∈ [(1#8, 0#8)], e.1 ≠ 0#8 ∧ e.1 ≠ (255#8 : Byte)) ∧
    ([(1#8, 0#8), (2#8, 0#8), (1#8, 0#8)] = [(1#8, 0#8), (2#8, 0#8)] ++ (1#8, 0#8) :: [] ∧
      ([(1#8, 0#8), (2#8, 0#8)].map (Prod.fst : Byte × Byte → Byte)).Nodup ∧
      1#8 ∈ [(1#8, 0#8), (2#8, 0#8)].map (Prod.fst : Byte × Byte → Byte)) ∧
    ([(1#8, 0#8), (254#8, 0#8)].map (Prod.fst : Byte × Byte → Byte)).Nodup ∧
    censusFault false ((List.range' 1 24).map (fun n => (natByte n, 0#8))) = none ∧
    censusFault true [] = some (.tooManyStations, 0#8) ∧
    censusFault false [(1#8, 0#8), (255#8, 0#8)] = some (.invalidAddress, 255#8) ∧
    censusFault false [(1#8, 0#8), (2#8, 0#8), (1#8, 0#8)] = some (.duplicateAddress, 1#8) :=
  ⟨by decide, ⟨rfl, by simp⟩, ⟨rfl, by simp, by simp⟩, by simp, by decide +kernel⟩

theorem test_meets_CensusReplacesTheMembership :
    (census5_9[1]? = some (7#8, 2#8) ∧
      table5_9.find? (fun e => e.address == 7#8) = some ⟨7#8, some 3, 2#8, .silent, 1, none, 0#16, 0#16⟩) ∧
    (census5_9[3]? = some (55#8, 5#8) ∧ ∀ e ∈ table5_9, e.address ≠ 55#8) ∧
    census5_9.map Prod.fst ≠ (table5_9.filter (fun e => e.position.isSome)).map (fun e => e.address) ∧
    [12#8] = (upFresh.table.filter (fun e => e.position.isSome)).map (fun e => e.address) := by decide

theorem test_meets_ProbeTimerProbesTheRing :
    fresh.supervisor.probeTimer = none ∧
    ((inRing .down fresh).supervisor.probeTimer ≠ none ∧ (inRing .down fresh).supervisor.state = .down ∧
      (inRing .down fresh).port.state = .idle ∧ (inRing .down fresh).port.record = none) := by decide

/-- The engine RUNNING with an entry awaited and the slot free, as STOP_RING, START_RING and a census leave it. -/
def stranded : State := { calling with port := { calling.port with state := .idle, record := none, returnTimer := none } }

theorem test_meets_ArbiterChoosesInOrder :
    calling.port.record ≠ none ∧ (fresh.supervisor.state ≠ .probing ∧ fresh.supervisor.state ≠ .up) ∧
    (upFresh.port.record = none ∧ upFresh.supervisor.state = .up ∧ upFresh.supervisor.censusPending = false) ∧
    ((withUrgent [urgentRequest 1#8] none upFresh).urgent.queue = [urgentRequest 1#8] ∧
      callableForUrgent upFresh.table (urgentRequest 1#8).station = true ∧ callableForUrgent [] 12#8 = false ∧
      (withUrgent [urgentRequest 1#8] none upFresh).urgent.inFlight = none ∧ upFresh.cycle.state = .stopped ∧
      .off ∉ upFresh.notices.urgent) ∧
    (noHead upFresh ∧ upFresh.window.record = none ∧ (inCycle .closing upFresh).cycle.state = .closing ∧
      noAbandonmentWaits upFresh ∧ .off ∉ upFresh.notices.window ∧ upFresh.window.hostPending = false) ∧
    (¬noAbandonmentWaits (noticed .off (inCycle .closing upFresh)) ∧ .off ∈ (noticed .off upFresh).notices.window ∧
      .off ∈ (noticed .off upFresh).notices.urgent) ∧
    ({ upFresh with window := { record := some ⟨.cycleWindow, 0#32⟩ } }.window.record ≠ none ∧
      { upFresh with window := { record := some ⟨.cycleWindow, 0#32⟩ } }.port.record = none) ∧
    (noHead stranded ∧ stranded.port.record = none ∧ stranded.supervisor.state = .up ∧
      stranded.cycle.state = .running ∧ stranded.cycle.awaiting ≠ none) ∧
    ((inRing .probing upFresh).supervisor.state = .probing ∧ (inRing .probing upFresh).port.record = none) ∧
    { upFresh.window with hostPending := true }.hostPending = true :=
  ⟨by decide, by decide, by decide, by decide,
    ⟨.inl rfl, by decide, by decide, by unfold noAbandonmentWaits; decide, by decide, by decide⟩,
    ⟨by unfold noAbandonmentWaits; decide, by decide, by decide⟩, by decide, ⟨.inl rfl, by decide⟩, by decide, rfl⟩

/-- With a report of OFF still to be taken and the ring UP again: no second cycle window, no host window, no urgent head;
the cycle window goes once the report is not there. -/
theorem test_late_off_waits :
    (boundary (noticed .off (inCycle .closing upFresh))).slot = none ∧
    (boundary { noticed .off upFresh with window := { hostPending := true } }).slot = none ∧
    (boundary (noticed .off (withUrgent [urgentRequest 1#8] none upFresh))).slot = none ∧
    (boundary (inCycle .closing upFresh)).slot = some .window := by decide +kernel

/-- A head whose station is unknown settles, and the same choice dispatches the next (R68). -/
theorem test_skipped_station :
    let skipped := { urgentRequest 1#8 with station := 13#8 }
    let t := boundary { withUrgent [skipped, urgentRequest 2#8] none upFresh with
      store := { reservations := [⟨.urgent 1#8, 10⟩, ⟨.urgent 2#8, 10⟩] } }
    t.store.records.map (fun r => r.content) = [.urgentResult ⟨1#8, .skippedStation, none, 0, []⟩] ∧
    t.slot = some .urgent ∧ t.urgent.inFlight = some { urgentRequest 2#8 with timerRunning := false } ∧
    t.store.reservations = [⟨.urgent 2#8, 10⟩] := by decide +kernel

/-- A RUNNING cycle at entry 0: a disabled entry, then the READ. -/
def walking : State := withPlan [writeEntry, readEntry] (inCycle .running upFresh)

theorem test_meets_WalkSettlesAndClaims :
    (writeEntry.latchedEnable = false ∧ readEntry.latchedEnable = true ∧
      callableForCycle [] readEntry.target = false ∧ callableForCycle upFresh.table readEntry.target = true) ∧
    (walking.supervisor.state = .up ∧ walking.supervisor.censusPending = false ∧ walking.port.record = none ∧
      walking.urgent.queue = [] ∧ walking.window.record = none ∧ walking.cycle.state = .running ∧ walking.cycle.awaiting = none ∧
      walking.notices.cycle = []) ∧
    settledOutcome walking.table writeEntry = some .skippedDisabled ∧
    walking.plan.drop walking.cycle.pointer = [(writeEntry, ExchangeOutcome.skippedDisabled)].map Prod.fst ++ [readEntry] ∧
    settledOutcome walking.table readEntry = none ∧
    (withPlan [writeEntry] walking).plan.drop walking.cycle.pointer =
      [(writeEntry, ExchangeOutcome.skippedDisabled)].map Prod.fst ++ [] ∧
    walking.cycle.config.window = true ∧
    { walking.cycle.config with window := false }.window = false := by decide

/-- The cycle of `calling` with its outcome taken, about to complete. -/
def completing : State :=
  { calling with cycle := { calling.cycle with outcomes := [⟨.missed, none, []⟩], pointer := 1, awaiting := none } }

theorem test_meets_CompletionCommitsTheSnapshot :
    completing.cycle.outcomes.length = completing.plan.length ∧
    (completing.cycle.stopAtEnd = false ∧ completing.cycle.config.mode ≠ .free ∧ completing.cycle.lateFlag = false) ∧
    { completing.cycle with stopAtEnd := true }.stopAtEnd = true ∧
    (inMode .free completing).cycle.config.mode = .free := by decide

theorem test_meets_CallOutcomesReachTheRequester :
    (calling.cycle.state = .running ∧ calling.cycle.awaiting ≠ none ∧
      calling.cycle.pointer + 1 = calling.plan.length ∧ calling.cycle.config.window = true) ∧
    walking.cycle.pointer + 1 ≠ walking.plan.length ∧ fresh.cycle.state ≠ .running ∧
    (withUrgent [] (some (urgentRequest 1#8)) fresh).urgent.inFlight = some (urgentRequest 1#8) ∧
    (CirculationResult.served .denied [] = .served .denied [] ∧ ReplyStatus.denied ≠ .ok ∧
      ReplyStatus.denied ≠ .busy) := by decide

/-- A cycle CLOSING with its window in flight. -/
def closingWindow : State :=
  { inCycle .closing upFresh with window := { record := some ⟨.cycleWindow, 0#32⟩ } }

theorem test_meets_WindowEndsReachTheCycle :
    (closingWindow.window.record = some ⟨.cycleWindow, 0#32⟩ ∧ closingWindow.cycle.state = .closing ∧
      0#32 = closingWindow.cycle.cycleNumber) ∧
    ({ closingWindow with window := { record := some ⟨.hostWindow, 0#32⟩ } }.window.record =
      some ⟨.hostWindow, 0#32⟩) ∧ 1#32 ≠ closingWindow.cycle.cycleNumber ∧ fresh.window.record = none := by decide

theorem test_meets_PeriodTimerRaisesAStartCause :
    fresh.cycle.periodTimer = none ∧
    ((inCycle .held upFresh).cycle.periodTimer ≠ none ∧ (inCycle .held upFresh).cycle.state = .held) ∧
    ((inCycle .running upFresh).cycle.state = .running ∧ upFresh.cycle.overrunReported = false ∧
      { upFresh.cycle with overrunReported := true }.overrunReported = true) ∧
    ((inCycle .armed upFresh).cycle.state = .armed ∧ (inRing .down upFresh).supervisor.state ≠ .up ∧
      upFresh.supervisor.state = .up) ∧
    reserves (withStore fullStore upFresh) = none ∧ (reserves upFresh).isSome = true := by decide +kernel

/-- A report taken while the ring is down, and one taken late, with the ring UP again. -/
theorem test_meets_CycleTakesRingReports :
    (noticed .down calling).notices.cycle = [.down] ∧ (noticed .probing calling).notices.cycle = [.probing] ∧
    (inCycle .armed upFresh).cycle.state = .armed ∧
    ((noticed .down (inRing .down calling)).cycle.state = .running ∧
      (noticed .down (inRing .down calling)).supervisor.state ≠ .up ∧ calling.cycle.config.mode ≠ .free ∧
      (inMode .free calling).cycle.config.mode = .free) ∧
    ((noticed .off (inMode .free calling)).supervisor.state = .up ∧
      (((inMode .free calling).store.release .cycle).commitEvent (.cycleAbandoned 1#32 .ringStopped 0)).reserve .cycle
        (14 + 3 * calling.plan.length + inSum calling.plan) ≠ none) ∧
    (calling.cycle.state ≠ .held ∧ (inCycle .held upFresh).cycle.state = .held ∧ upFresh.supervisor.state = .up ∧
      (inRing .fault upFresh).supervisor.state ≠ .up) ∧
    reserves (withStore fullStore upFresh) = none ∧ (reserves upFresh).isSome = true := by decide +kernel

theorem test_meets_OtherBlocksTakeRingReports :
    (noticed .off fresh).notices = ⟨[.off], [.off], [.off], [.off], 1⟩ ∧
    (noticed .up fresh).notices.arbiter = [.up] ∧ RingState.down ≠ .probing ∧ fresh.notices = {} ∧
    (fresh.port.record = none ∧ calling.port.record = some lastCall ∧ lastCall.requester ≠ .window) ∧
    ((run (.openWindow 1#8) upFresh).port.record.map (fun c => c.requester) = some .window ∧
      (run (.openWindow 1#8) upFresh).window.record = some ⟨.hostWindow, 0#32⟩) := by decide +kernel

theorem test_meets_SpaceNoticeRetriesAHeldStart :
    fresh.notices.space = 0 ∧ (noticed .up fresh).notices.space = 0 + 1 ∧ fresh.cycle.state ≠ .held ∧
    ((inCycle .held upFresh).cycle.state = .held ∧ (inRing .down upFresh).supervisor.state ≠ .up ∧
      upFresh.supervisor.state = .up) ∧
    reserves (withStore fullStore upFresh) = none ∧ (reserves upFresh).isSome = true := by decide +kernel

theorem test_meets_DeadlineEndsTheRequest :
    queuedWith fresh.urgent 1#8 = none ∧
    (queuedWith (withUrgent [urgentRequest 1#8] none fresh).urgent 1#8 = some (urgentRequest 1#8) ∧
      (urgentRequest 1#8).timerRunning = true) ∧
    { urgentRequest 1#8 with timerRunning := false }.timerRunning = false := by decide

/-- The limits of R136: a reservation that leaves exactly the margin and one that leaves a byte less; the last 16 bytes
and record for an event; a pair after losses. -/
theorem test_meets_StoreAdmitsByItsRoom :
    ([⟨.cycle, 19⟩, ⟨.urgent 1#8, 10⟩] = [Reservation.mk .cycle 19] ++ ⟨.urgent 1#8, 10⟩ :: [] ∧
      (Reservation.mk (.urgent 1#8) 10).owner = .urgent 1#8 ∧
      ∀ x ∈ [Reservation.mk .cycle 19], x.owner ≠ .urgent 1#8) ∧
    (64 + 64 ≤ (inUse 3968 27 {}).unusedBytes ∧ 5 ≤ (inUse 3968 27 {}).unusedRecords ∧
      ¬65 + 64 ≤ (inUse 3968 27 {}).unusedBytes) ∧
    (11 + [0#8].length + 64 ≤ (inUse 3968 27 {}).unusedBytes ∧ ¬11 + [0#8].length + 64 ≤ noRoom.unusedBytes) ∧
    (noRoom.lostEvents = 0#16 ∧ ¬(16 ≤ noRoom.unusedBytes ∧ 1 ≤ noRoom.unusedRecords)) ∧
    (16 ≤ (inUse 4080 31 {}).unusedBytes ∧ 1 ≤ (inUse 4080 31 {}).unusedRecords) ∧
    (32 ≤ (inUse 4064 30 {}).unusedBytes ∧ 2 ≤ (inUse 4064 30 {}).unusedRecords ∧
      ¬32 ≤ (inUse 4065 30 {}).unusedBytes) ∧
    ({ lostEvents := 65535#16 } : Store).lostEvents ≠ 0#16 := by decide +kernel

theorem test_meets_CallOutcomesReachTheStation :
    findStation fresh.table 12#8 = none ∧
    (findStation upFresh.table 12#8 = some (station 12#8 (some 1) .active 0 none) ∧ StationState.active ≠ .absent) ∧
    findStation [station 12#8 none .absent 7 none] 12#8 = some (station 12#8 none .absent 7 none) := by decide

theorem test_meets_ReportsAreDecided :
    let t := withTable table7_7 fresh
    findStation t.table 99#8 = none ∧
    (findStation t.table 7#8 = some (station 7#8 (some 3) .active 0 (some 2#8)) ∧
      (station 7#8 (some 3) .active 0 (some 2#8)).lastAccepted = some 2#8) ∧
    ((station 21#8 (some 4) .active 0 none).lastAccepted ≠ some 0#8 ∧
      fullStore.commitReport 1#32 ⟨21#8, 0#8, 0#8, []⟩ = none ∧
      (t.store.commitReport 1#32 ⟨21#8, 0#8, 0#8, []⟩).isSome = true) := by decide +kernel

/-! The invariants hold of State.reset, and of a state with a cycle, a circulation and records; a step is taken from
it. -/

theorem test_meets_StepKeepsTheLinkSound :
    State.reset.link.Bounded ∧ State.reset.TxdBusy ∧
    step { State.reset with pending := [.linkReset] } = .next (run .linkReset State.reset) := by
  refine ⟨⟨by decide, by decide, by decide, by decide, by decide, by decide⟩, fun h => ?_, rfl⟩
  cases h

theorem test_meets_StepKeepsTheRingSound :
    calling.RingSound ∧ step { calling with pending := [.returnTimerExpiry] } = .next (run .returnTimerExpiry calling) := by
  refine ⟨⟨⟨by decide, by decide, by decide, by decide⟩, by decide, by decide, by decide, by decide, by decide,
    by decide, by decide, ?_⟩, rfl⟩
  intro c h; cases h; exact ⟨by decide, by decide, by decide⟩

theorem test_meets_StepKeepsTheCycleSound : calling.CycleSound := by
  refine ⟨by decide, by decide, by decide, by decide, by decide, by decide, by decide, by decide, by decide, by decide⟩

/-- The READ called with its reservation held, and a request queued beside one in flight. -/
theorem test_meets_StepKeepsTheRoomAndItsOwners :
    calling.RoomSound ∧ calling.CycleSound ∧ PlanSound calling.plan ∧
    UrgentQueue.Sound ⟨[urgentRequest 2#8], some (urgentRequest 1#8)⟩ := by
  refine ⟨⟨⟨by decide, by decide, List.Perm.refl _⟩, ⟨by decide, by decide, by decide⟩, ?_, ?_⟩,
    test_meets_StepKeepsTheCycleSound, ⟨by decide, by decide, by decide, ?_⟩, ⟨by decide, by decide, by decide⟩⟩
  · intro i o e h; simp [calling, inCycle, upFresh, inRing, withTable, withPlan, fresh] at h
  · intro c h
    cases h
    refine ⟨?_, ?_, nofun, nofun⟩
    · intro b hb; cases hb; decide
    · intro _ _ e he; cases he; exact ⟨_, rfl, rfl⟩
  · intro e h
    rw [List.mem_singleton.mp h]
    exact ⟨by decide, by decide, by decide, by decide, by decide, by decide⟩

theorem test_meets_StepKeepsTheOwedListSound : OwedSound [⟨12#8, 7#8⟩, ⟨40#8, 0#8⟩] ∧ TableSound table5_9 :=
  ⟨⟨by decide, by decide, by decide⟩, ⟨by decide, by decide, by decide, by decide, by decide⟩⟩

theorem test_meets_StepKeepsTheTableAndThePlanSound : TableSound table5_9 ∧ PlanSound [readEntry, writeEntry] := by
  refine ⟨⟨by decide, by decide, by decide, by decide, by decide⟩, ⟨by decide, by decide, by decide, ?_⟩⟩
  intro e h
  rcases List.mem_cons.mp h with rfl | h
  · exact ⟨by decide, by decide, by decide, by decide, by decide, by decide⟩
  · rcases List.mem_cons.mp h with rfl | h
    · exact ⟨by decide, by decide, by decide, by decide, by decide, by decide⟩
    · cases h

theorem test_meets_StepKeepsTheStoreSound :
    (threeRecords 255).Sound ∧ (threeRecords 255).releasedInEvent = false := by
  refine ⟨⟨by decide, ?_, by decide⟩, rfl⟩
  intro i r h
  match i, h with
  | 0, h => cases h; rfl
  | 1, h => cases h; rfl
  | 2, h => cases h; rfl
  | n + 3, h => simp [threeRecords] at h

end Sys2Proof.Tests
end

/-!
PROOFS. The ring tag counter (R10): what an attempt does to it, what puts it back to 0, and what leaves it.
-/

namespace Sys2Proof.Machine

/-- The attempt carries the counter's value from before the advance. -/
@[simp] theorem RingPort.startAttempt_tag (c : Circulation) (p : RingPort) :
    (p.startAttempt c).record.map (fun c => c.tag) = some (some p.tagCounter) := rfl

@[simp] theorem RingPort.startAttempt_tagCounter (c : Circulation) (p : RingPort) :
    (p.startAttempt c).tagCounter = p.tagCounter + 1#8 := rfl

/-- Both resets put the whole Ring Port, counters included, back to its reset values (R168, R169). -/
@[simp] theorem hardReset_port (s : State) : (hardReset s).port = {} := rfl

@[simp] theorem softReset_port (s : State) : (softReset s).port = {} := rfl

/-- Giving up the circulation in flight (R20) is no attempt, and keeps the counter. -/
@[simp] theorem RingPort.abandon_tagCounter (p : RingPort) : p.abandon.tagCounter = p.tagCounter := rfl

/-- STOP_RING (R115) acts on the Ring Port only by abandoning the circulation (R20). -/
@[simp] theorem enterOff_port (s : State) : (enterOff s).port = s.port.abandon := by
  simp only [enterOff, giveReports_frame, changeRing_frame]

/-- Settles O29: the wrap from 255 to 0 is that of byte addition; a link reset and the entries into UP, DOWN and
FAULT leave the whole Ring Port, and STOP_RING leaves its counter. -/
theorem tagCounterRule : Obligations.TagCounterRule := by
  unfold Obligations.TagCounterRule
  refine ⟨fun c p => ⟨p.startAttempt_tag c, ?advance⟩, fun s => ⟨?hard, ?soft⟩,
    fun s => ⟨?link, ?off⟩, fun new cause a s => ⟨?change, ?up, ?down, ?fault⟩⟩
  case advance => rw [RingPort.startAttempt_tagCounter, BitVec.toNat_add, BitVec.toNat_ofNat]
  case hard => rw [hardReset_port]
  case soft => rw [softReset_port]
  case link => simp only [linkReset_frame]
  case off => rw [enterOff_port, RingPort.abandon_tagCounter]
  case change => simp only [changeRing_frame]
  case up => simp only [enterUp_frame]
  case down => simp only [enterDown_frame]
  case fault => simp only [enterFault_frame]

end Sys2Proof.Machine

/-!
PROOFS. The ATTN output (R148): what asserts it, and the resets, which leave no record to announce.
-/

namespace Sys2Proof.Machine

theorem Record.isUnsent_iff (r : Record) : r.isUnsent = true ↔ r.region = .unsent := beq_iff_eq

theorem State.attn_iff (s : State) :
    s.attn = true ↔ (∃ r ∈ s.store.records, r.region = .unsent) ∧ s.store.credits = 0 := by
  simp only [State.attn, Bool.and_eq_true, List.any_eq_true, beq_iff_eq, Record.isUnsent_iff]

/-- An empty store asks for no attention, whatever the credit count. -/
theorem State.attn_of_no_records {s : State} (h : s.store.records = []) : s.attn = false := by
  rw [State.attn, h, List.any_nil, Bool.false_and]

/-- Both resets empty the Delivery Store and clear its counts (R168, R169). -/
@[simp] theorem hardReset_store (s : State) : (hardReset s).store = {} := rfl

@[simp] theorem softReset_store (s : State) : (softReset s).store = {} := rfl

/-- The release of RESET_N acts on the pin and the host link alone. -/
@[simp] theorem hardResetRelease_store (rate1 rate0 : Bool) (rxd : LineLevel) (s : State) :
    (hardResetRelease rate1 rate0 rxd s).store = s.store := rfl

/-- Settles O49: the output computed is the rule's condition, and no record is held under RESET_N, at its release or
after a soft reset. -/
theorem attnRule : Obligations.AttnRule := by
  unfold Obligations.AttnRule
  refine ⟨State.attn_iff, fun s => ⟨State.attn_of_no_records ?hard, State.attn_of_no_records ?soft⟩,
    fun rate1 rate0 rxd s => State.attn_of_no_records ?release⟩
  case hard => rw [hardReset_store]
  case soft => rw [softReset_store]
  case release => rw [hardResetRelease_store, hardReset_store]

end Sys2Proof.Machine

/-!
PROOFS. The form checks of R161: the type of a request read from its code, the payload lengths each type allows, and the
owners, whose reasons never include the form checks' BAD_LENGTH.
-/

namespace Sys2Proof.Machine

/-! ### The type of a request -/

theorem mem_requestTypes (t : RequestType) : t ∈ requestTypes := by
  cases t <;> decide

theorem requestTypeOfCode_eq_none_iff {code : Byte} :
    requestTypeOfCode code = none ↔ ∀ t : RequestType, t.code ≠ code := by
  simp only [requestTypeOfCode, List.find?_eq_none, mem_requestTypes, forall_const, beq_iff_eq, ne_eq]

theorem handleRequest_unknownType {code : Byte} (h : ∀ t : RequestType, t.code ≠ code) (tag : Byte)
    (payload : List Byte) (s : State) :
    handleRequest (code :: tag :: payload) s = placeReply (refusedReply tag .unknownType) s := by
  rw [handleRequest, requestTypeOfCode_eq_none_iff.mpr h, refusedReply]

/-- Only an accepted RESET marks its reply (R168), so the reply to a refusal does not depend on the type. -/
theorem answer_refuse (type : RequestType) (tag : Byte) (r : Reason) (s : State) :
    answer type tag (refuse r s) = placeReply (refusedReply tag r) s := by
  simp [answer, replySource, refusedReply]

/-! ### The owners' reasons: no branch of an owner's decision refuses with BAD_LENGTH -/

@[simp] theorem decideConfigureRing_reason_ne (rate : Byte) (timeout : Half) (retry miss : Byte) (probe : Half)
    (s : State) : (decideConfigureRing rate timeout retry miss probe s).reason ≠ some .badLength := by
  fun_cases decideConfigureRing <;> simp

@[simp] theorem decideStartRing_reason_ne (s : State) : (decideStartRing s).reason ≠ some .badLength := by
  fun_cases decideStartRing <;> simp

@[simp] theorem decideStopRing_reason_ne (s : State) : (decideStopRing s).reason ≠ some .badLength := by
  fun_cases decideStopRing <;> simp

@[simp] theorem decideCensus_reason_ne (s : State) : (decideCensus s).reason ≠ some .badLength := by
  fun_cases decideCensus <;> simp

@[simp] theorem decideClearPlan_reason_ne (s : State) : (decideClearPlan s).reason ≠ some .badLength := by
  fun_cases decideClearPlan <;> simp

@[simp] theorem decideAddEntry_reason_ne (target op object outLength inLength : Byte) (s : State) :
    (decideAddEntry target op object outLength inLength s).reason ≠ some .badLength := by
  fun_cases decideAddEntry <;> simp

@[simp] theorem decideSetEnable_reason_ne (index setting : Byte) (s : State) :
    (decideSetEnable index setting s).reason ≠ some .badLength := by
  fun_cases decideSetEnable <;> simp

@[simp] theorem decideWriteOutput_reason_ne (index : Byte) (data : List Byte) (s : State) :
    (decideWriteOutput index data s).reason ≠ some .badLength := by
  fun_cases decideWriteOutput <;> simp

@[simp] theorem decideReadInput_reason_ne (index : Byte) (s : State) :
    (decideReadInput index s).reason ≠ some .badLength := by
  fun_cases decideReadInput <;> simp

@[simp] theorem decideConfigureCycle_reason_ne (mode : Byte) (period : Word) (policy budget window overrun : Byte)
    (s : State) : (decideConfigureCycle mode period policy budget window overrun s).reason ≠ some .badLength := by
  fun_cases decideConfigureCycle <;> simp

@[simp] theorem decideStartCycle_reason_ne (s : State) : (decideStartCycle s).reason ≠ some .badLength := by
  fun_cases decideStartCycle <;> simp

@[simp] theorem decideStopCycle_reason_ne (choice : Byte) (s : State) :
    (decideStopCycle choice s).reason ≠ some .badLength := by
  fun_cases decideStopCycle <;> simp

@[simp] theorem decideTriggerCycle_reason_ne (s : State) : (decideTriggerCycle s).reason ≠ some .badLength := by
  fun_cases decideTriggerCycle <;> simp

@[simp] theorem decideUrgent_reason_ne (tag station op object inLength retry : Byte) (deadline : Half)
    (outData : List Byte) (s : State) :
    (decideUrgent tag station op object inLength retry deadline outData s).reason ≠ some .badLength := by
  fun_cases decideUrgent <;> simp

@[simp] theorem decideCancel_reason_ne (urgentTag : Byte) (s : State) :
    (decideCancel urgentTag s).reason ≠ some .badLength := by
  fun_cases decideCancel <;> simp

@[simp] theorem decideOpenWindow_reason_ne (s : State) : (decideOpenWindow s).reason ≠ some .badLength := by
  fun_cases decideOpenWindow <;> simp

@[simp] theorem decideGrant_reason_ne (n : Byte) (s : State) : (decideGrant n s).reason ≠ some .badLength := by
  fun_cases decideGrant <;> simp

@[simp] theorem decideAckDeliveries_reason_ne (sequence : Half) (s : State) :
    (decideAckDeliveries sequence s).reason ≠ some .badLength := by
  fun_cases decideAckDeliveries <;> simp

@[simp] theorem decideRewind_reason_ne (sequence : Half) (s : State) :
    (decideRewind sequence s).reason ≠ some .badLength := by
  fun_cases decideRewind <;> simp

@[simp] theorem decideQueryStatus_reason (s : State) : (decideQueryStatus s).reason = none := rfl

@[simp] theorem decideQueryStation_reason_ne (address : Byte) (s : State) :
    (decideQueryStation address s).reason ≠ some .badLength := by
  fun_cases decideQueryStation <;> simp

@[simp] theorem decideQueryCounters_reason_ne (clear : Byte) (s : State) :
    (decideQueryCounters clear s).reason ≠ some .badLength := by
  fun_cases decideQueryCounters <;> simp

@[simp] theorem decideReset_reason (s : State) : (decideReset s).reason = none := rfl

/-! ### The lengths of payloads -/

theorem payloadFits_iff {type : RequestType} {payload : List Byte} :
    payloadFits type payload = true ↔
      (payloadRange type).1 ≤ payload.length ∧ payload.length ≤ (payloadRange type).2 := by
  rw [payloadFits, Bool.and_eq_true, decide_eq_true_iff, decide_eq_true_iff]

/-- The longest payload is that of an URGENT with 32 bytes of out data. -/
theorem payloadRange_le (type : RequestType) : (payloadRange type).2 ≤ 39 := by
  cases type <;> decide

/-- A payload reaches an owner only in a shape whose length the table allows. -/
theorem decideRequest_badLength_or_fits (type : RequestType) (tag : Byte) (payload : List Byte) (s : State) :
    decideRequest type tag payload s = refuse .badLength s ∨ payloadFits type payload = true := by
  rw [payloadFits_iff]
  fun_cases decideRequest <;> simp [payloadRange] <;> omega

theorem decideRequest_of_not_fits {type : RequestType} {payload : List Byte} (h : payloadFits type payload = false)
    (tag : Byte) (s : State) : decideRequest type tag payload s = refuse .badLength s :=
  (decideRequest_badLength_or_fits type tag payload s).resolve_right (ne_true_of_eq_false h)

/-- A payload of an allowed length has the fields of its type, and is then decided by the owner. The types are taken by
the length of their payload. -/
theorem decideRequest_reason_ne_of_fits {type : RequestType} {payload : List Byte}
    (h : payloadFits type payload = true) (tag : Byte) (s : State) :
    (decideRequest type tag payload s).reason ≠ some .badLength := by
  obtain ⟨least, most⟩ := payloadFits_iff.mp h
  cases type with
  | startRing | stopRing | census | clearPlan | startCycle | triggerCycle | openWindow | queryStatus | reset =>
    obtain rfl := List.length_eq_zero_iff.mp (Nat.le_antisymm most least)
    simp [decideRequest]
  | readInput | stopCycle | cancel | grant | queryStation | queryCounters =>
    obtain ⟨_, rfl⟩ := List.length_eq_one_iff.mp (Nat.le_antisymm most least)
    simp [decideRequest]
  | setEnable | ackDeliveries | rewind =>
    obtain ⟨_, _, rfl⟩ := List.length_eq_two.mp (Nat.le_antisymm most least)
    simp [decideRequest]
  | addEntry =>
    match payload, Nat.le_antisymm most least with
    | [_, _, _, _, _], _ => simp [decideRequest]
  | configureRing =>
    match payload, Nat.le_antisymm most least with
    | [_, _, _, _, _, _, _], _ => simp [decideRequest]
  | configureCycle =>
    match payload, Nat.le_antisymm most least with
    | [_, _, _, _, _, _, _, _, _], _ => simp [decideRequest]
  | writeOutput =>
    match payload, least with
    | _ :: data, _ =>
      have short : data.length ≤ 32 := Nat.le_of_succ_le_succ most
      simp [decideRequest, short]
  | urgent =>
    match payload, least with
    | _ :: _ :: _ :: _ :: _ :: _ :: _ :: outData, _ =>
      have short : outData.length ≤ 32 := Nat.le_of_add_le_add_right (b := 7) most
      simp [decideRequest, short]

/-- Settles O21: a code that is no request's is not read, a misfit payload is refused before any owner, and what fits
is at most a type, a tag and the longest payload. -/
theorem formChecksOfEveryRequest : Obligations.FormChecksOfEveryRequest := by
  unfold Obligations.FormChecksOfEveryRequest
  refine ⟨fun code tag payload s h => handleRequest_unknownType h tag payload s,
    fun type tag payload s h => ?misfit,
    fun type tag payload s h => ⟨?owner, decideRequest_reason_ne_of_fits h tag s⟩,
    fun type tag payload h => ?bound⟩
  case misfit =>
    calc handleRequest (type.code :: tag :: payload) s
      _ = answer type tag (decideRequest type tag payload s) := handleRequest_requestBody type tag payload s
      _ = answer type tag (refuse .badLength s) := by rw [decideRequest_of_not_fits h]
      _ = placeReply (refusedReply tag .badLength) s := answer_refuse type tag .badLength s
  case owner => exact handleRequest_requestBody type tag payload s
  case bound =>
    have most : payload.length ≤ (payloadRange type).2 := (payloadFits_iff.mp h).2
    exact Nat.add_le_add_right (most.trans (payloadRange_le type)) 2

end Sys2Proof.Machine

/-!
PROOFS. The invariants of the host link (R159, R160, R163, R165, R168): how an event ends, which commands it has that
reach the link, and what each leaves of the queues.
-/

namespace Sys2Proof.Machine

/-! ### How the event of a command ends -/

/-- A step idles on an empty queue, or is the front command on the rest. -/
theorem step_cases {s t : State} (h : step s = .next t) :
    t = s ∨ ∃ c rest, s.pending = c :: rest ∧ exec c { s with pending := rest } = .next t := by
  unfold step at h
  split at h
  · exact .inr ⟨_, _, ‹_›, h⟩
  · cases h; exact .inl rfl

/-- The store, and what the link holds for TXD, unchanged. -/
def SameTraffic (s t : State) : Prop :=
  t.store = s.store ∧ t.link.announcements = s.link.announcements ∧ t.link.replies = s.link.replies ∧
    t.link.tx = s.link.tx

theorem SameTraffic.refl (s : State) : SameTraffic s s := ⟨rfl, rfl, rfl, rfl⟩

/-- An event ends with the boundary on TXD (R163), unless it is a hard reset or hands nothing to the store and TXD. -/
theorem exec_ends {c : Instr} {s t : State} (h : exec c s = .next t) :
    (∃ u, t = finish u) ∨ t = hardReset s ∨ SameTraffic s t := by
  rcases hq : requestOf c with _ | ⟨type, tag, payload⟩
  · cases c <;> simp only [requestOf, reduceCtorEq] at hq
    case hardReset => cases h; exact .inr (.inl rfl)
    case ringFrameComplete bytes => cases h; exact .inl ⟨_, rfl⟩
    case breakEnd => cases h; split <;> exact .inr (.inr ⟨rfl, rfl, rfl, rfl⟩)
    case attemptFrameSent => cases h; split <;> exact .inr (.inr ⟨rfl, rfl, rfl, rfl⟩)
    all_goals
      cases h
      split <;> first | exact .inl ⟨_, rfl⟩ | exact .inr (.inr (.refl s))
  · rw [exec_requestOf hq] at h
    cases h
    unfold receiveRequest
    split
    · exact .inl ⟨_, rfl⟩
    · exact .inr (.inr (.refl s))

/-! ### TXD is idle only while nothing waits (R163) -/

theorem hardReset_txdBusy (s : State) : (hardReset s).TxdBusy := fun _ => ⟨rfl, rfl, rfl⟩

theorem State.TxdBusy.of_sameTraffic {s t : State} (h : s.TxdBusy) (e : SameTraffic s t) : t.TxdBusy := by
  obtain ⟨store, announcements, replies, tx⟩ := e
  unfold State.TxdBusy State.nothingWaits at h ⊢
  rwa [store, announcements, replies, tx]

theorem txdBusy_exec {c : Instr} {s t : State} (h : s.TxdBusy) (e : exec c s = .next t) : t.TxdBusy := by
  obtain ⟨u, rfl⟩ | rfl | same := exec_ends e
  · exact finish_txdBusy u
  · exact hardReset_txdBusy s
  · exact h.of_sameTraffic same

/-! ### The link's queues within their places (R159, R160, R165, R168) -/

/-- A link whose reply queue, inbox and TXD are empty is bounded by its one announcement at most. -/
theorem Link.Bounded.of_quiet {l : Link} (inbox : l.inbox = []) (replies : l.replies = []) (tx : l.tx = none)
    (pending : l.softResetPending = false) (announcements : l.announcements.length ≤ 1) : l.Bounded where
  inbox := by simp [inbox]
  handler := by simp [Link.handlerReplies, replies, tx]
  inboxFull := by simp [replies]
  started := List.countP_le_length.trans announcements
  restarted := List.countP_le_length.trans announcements
  softReset := by simp [pending, replies, tx]

theorem hardReset_bounded (s : State) : (hardReset s).link.Bounded :=
  .of_quiet rfl rfl rfl rfl (Nat.zero_le 1)

/-- Under RESET_N the link holds nothing for TXD. -/
theorem hardResetRelease_bounded (rate1 rate0 : Bool) (rxd : LineLevel) {s : State} (h : s.link.Bounded) :
    (hardResetRelease rate1 rate0 rxd s).link.Bounded where
  inbox := h.inbox
  handler := h.handler
  inboxFull := h.inboxFull
  started := by simp [hardResetRelease, Announcement.isStarted]
  restarted := by simp [hardResetRelease, Announcement.isStarted]
  softReset := h.softReset

theorem receiveRequest_bounded {s : State} (h : s.link.Bounded) (type : RequestType) (tag : Byte)
    (payload : List Byte) : (receiveRequest type tag payload s).link.Bounded := by
  unfold receiveRequest
  split
  · have heard : (lineIdle { s with link := s.link.hunt }).link.Bounded := h.of_eq rfl rfl rfl rfl rfl
    exact bounded_finish (bounded_takeGood heard _)
  · exact h

/-- The commands of the host link change the queues by the operations of the Link Controller; the events of the ring, of
the timers and between blocks leave the link to the end of the event. -/
theorem bounded_exec {c : Instr} {s t : State} (h : s.link.Bounded) (e : exec c s = .next t) : t.link.Bounded := by
  rcases hq : requestOf c with _ | ⟨type, tag, payload⟩
  · have lineIdle_bounded : (lineIdle s).link.Bounded := h.of_eq rfl rfl rfl rfl rfl
    cases c <;> simp only [requestOf, reduceCtorEq] at hq
    all_goals injection e with e; subst e
    case hardReset => exact hardReset_bounded s
    case hardResetRelease => split; exacts [bounded_finish (hardResetRelease_bounded _ _ _ h), h]
    case linkMessageComplete => split; exacts [bounded_finish (bounded_takeCharacter lineIdle_bounded _), h]
    case rxdCharacterReceived => split; exacts [bounded_finish (bounded_takeCharacter lineIdle_bounded _), h]
    case gapTimerExpiry => split; exacts [bounded_finish (bounded_gapDiscard h), h]
    case characterError => split; exacts [h, bounded_finish (bounded_takeCharacterError h)]
    case linkReset => split; exacts [h, bounded_finish (bounded_linkReset h)]
    case breakEnd => split; exacts [h.of_eq rfl rfl rfl rfl rfl, h]
    case transmissionEnd => split; exacts [bounded_finish (bounded_endTransmission h ‹_›), h]
    case ringFrameComplete => exact bounded_finish (by simpa using h)
    case attemptFrameSent => split <;> exact h
    all_goals split <;> first | exact h | exact bounded_finish (by simpa using h)
  · rw [exec_requestOf hq] at e
    cases e
    exact receiveRequest_bounded h type tag payload

/-- Settles O53: the queue of commands is none of the link's, and both halves are kept by every command. -/
theorem stepKeepsTheLinkSound : Obligations.StepKeepsTheLinkSound := by
  unfold Obligations.StepKeepsTheLinkSound
  intro s t bounded busy h
  obtain rfl | ⟨c, rest, -, e⟩ := step_cases h
  · exact ⟨bounded, busy⟩
  · exact ⟨bounded_exec (s := { s with pending := rest }) bounded e,
      txdBusy_exec (s := { s with pending := rest }) busy e⟩

end Sys2Proof.Machine

/-!
PROOFS. What a request does to the state it is decided in, said once: one constructor for each way an owner's decision
changes the state, with what the owner has tested.
-/

namespace Sys2Proof.Machine

/-- The effects of the host's requests (R30, R31, R40, R43, R44, R63, R73, R82, R104, R107, R114, R115, R122, R144 to
R146, R168, R172); a refused request and a query have none. -/
inductive Effect (s : State) : State → Prop
  | nothing : Effect s s
  | ringConfigured {c : RingConfig} : c.InRange →
      Effect s { s with supervisor := { s.supervisor with config := c } }
  | ringStarted : s.ringCarries = false → Effect s (enterProbing .hostStart s)
  | ringStopped : Effect s (enterOff s)
  | censusAsked : s.supervisor.state = .up →
      Effect s (boundary { s with supervisor := { s.supervisor with censusPending := true } })
  | planCleared : s.cycle.state = .stopped → Effect s { s with plan := [] }
  | entryAdded {e : PlanEntry} : s.cycle.state = .stopped → e.Sound →
      planHasRoom s.plan e.outLength e.inLength = true → Effect s { s with plan := s.plan ++ [e] }
  | entrySet {i : Nat} {e f : PlanEntry} : s.plan[i]? = some e → (e.Sound → f.Sound) →
      f.outLength = e.outLength → f.inLength = e.inLength → Effect s { s with plan := s.plan.set i f }
  | cycleConfigured {c : CycleConfig} : s.cycle.state = .stopped →
      Effect s { s with cycle := { s.cycle with config := c } }
  | cycleArmed : s.cycle.state = .stopped → Effect s (armFromStopped s)
  | cycleStarted : s.cycle.state = .stopped →
      Effect s (boundaryIfStarted s (startCause false (armFromStopped s)))
  | cycleTriggered : Effect s (boundaryIfStarted s (startCause false s))
  | cycleStopped : s.cycle.state = .armed ∨ s.cycle.state = .held → Effect s (enterStopped s)
  | cycleStopsAtEnd : s.cycle.inCycle = true → Effect s { s with cycle := { s.cycle with stopAtEnd := true } }
  | cycleAbandoned : s.cycle.inCycle = true → Effect s (boundary (abandonCycle .stopped s))
  | urgentQueued {tag : Byte} {r : UrgentRequest} {st : Store} :
      s.store.reserve (.urgent tag) (urgentReservation r.inLength) = some st →
      Effect s (boundary { s with store := st, urgent := { s.urgent with queue := s.urgent.queue ++ [r] } })
  | urgentCancelled {tag : Byte} :
      Effect s (boundaryIf (s.urgent.isHead tag)
        (releaseReservation (.urgent tag) { s with urgent := s.urgent.remove tag }))
  | windowOpened : Effect s (boundary { s with window := { s.window with hostPending := true } })
  | granted {n : Nat} : Effect s { s with store := s.store.grantCredits n }
  | acknowledged {place : Nat} : Effect s { s with store := s.store.releaseThrough place }
  | rewound {sequence : Half} {place : Nat} : s.store.sentPlace sequence = some place →
      Effect s { s with store := s.store.unsendFrom place }
  | cleared : Effect s (clearCounters s)
  | resetAsked : Effect s { s with link := { s.link with softResetPending := true } }

/-- A ring configuration is accepted only with every item in its range (R104). -/
theorem ringConfigOf_inRange {bitRate : Byte} {timeout : Half} {retry miss : Byte} {probe : Half} {c : RingConfig}
    (h : ringConfigOf bitRate timeout retry miss probe = some c) : c.InRange := by
  unfold ringConfigOf at h
  split at h
  · cases h
  · split at h
    · rename_i ranges
      obtain ⟨least, most, retries, misses, limit, shortest, longest⟩ := ranges
      cases h
      exact ⟨⟨least, most⟩, retries, ⟨misses, limit⟩, ⟨shortest, longest⟩⟩
    · cases h

/-- An entry is accepted only well formed (R23). -/
theorem entryOf_sound {target op object outLength inLength : Byte} {e : PlanEntry}
    (h : entryOf target op object outLength inLength = some e) : e.Sound := by
  unfold entryOf at h
  split at h
  · cases h
  · split at h
    · rename_i wellFormed
      cases h
      exact newEntry_sound object wellFormed.1 wellFormed.2
    · cases h

theorem ringCarries_eq_false {s : State} (h : s.supervisor.state = .off ∨ s.supervisor.state = .fault) :
    s.ringCarries = false := by
  rcases h with off | fault
  · simp [State.ringCarries, off]
  · simp [State.ringCarries, fault]

theorem CycleEngine.inCycle_iff (c : CycleEngine) : c.inCycle = true ↔ c.state = .running ∨ c.state = .closing := by
  simp [CycleEngine.inCycle]

/-! ### The owners, branch by branch -/

theorem decideConfigureRing_effect (rate : Byte) (timeout : Half) (retry miss : Byte) (probe : Half) (s : State) :
    Effect s (decideConfigureRing rate timeout retry miss probe s).state := by
  unfold decideConfigureRing
  split
  · exact .nothing
  · split
    · exact .nothing
    · exact .ringConfigured (ringConfigOf_inRange ‹_›)

theorem decideStartRing_effect (s : State) : Effect s (decideStartRing s).state := by
  unfold decideStartRing
  split
  · exact .ringStarted (ringCarries_eq_false ‹_›)
  · exact .nothing

theorem decideStopRing_effect (s : State) : Effect s (decideStopRing s).state := by
  unfold decideStopRing
  split
  · exact .nothing
  · exact .ringStopped

theorem decideCensus_effect (s : State) : Effect s (decideCensus s).state := by
  unfold decideCensus
  split
  · exact .censusAsked ‹_›
  · exact .nothing

theorem decideClearPlan_effect (s : State) : Effect s (decideClearPlan s).state := by
  unfold decideClearPlan
  split
  · exact .planCleared ‹_›
  · exact .nothing

theorem decideAddEntry_effect (target op object outLength inLength : Byte) (s : State) :
    Effect s (decideAddEntry target op object outLength inLength s).state := by
  unfold decideAddEntry
  split
  · exact .nothing
  · rename_i stopped
    split
    · exact .nothing
    · split
      · exact .entryAdded (not_not.mp stopped) (entryOf_sound ‹_›) ‹_›
      · exact .nothing

theorem decideSetEnable_effect (index setting : Byte) (s : State) :
    Effect s (decideSetEnable index setting s).state := by
  unfold decideSetEnable
  split
  · exact .nothing
  · split
    · exact .nothing
    · exact .entrySet ‹_› (fun sound => sound.enable _) rfl rfl

theorem decideWriteOutput_effect (index : Byte) (data : List Byte) (s : State) :
    Effect s (decideWriteOutput index data s).state := by
  unfold decideWriteOutput
  split
  · exact .nothing
  · split
    · exact .nothing
    · split
      · exact .nothing
      · rename_i writes length
        exact .entrySet ‹_› (fun sound => sound.write data writes (not_not.mp length)) rfl rfl

theorem decideReadInput_effect (index : Byte) (s : State) : Effect s (decideReadInput index s).state := by
  unfold decideReadInput
  split
  · exact .nothing
  · split <;> exact .nothing

theorem decideConfigureCycle_effect (mode : Byte) (period : Word) (policy budget window overrun : Byte) (s : State) :
    Effect s (decideConfigureCycle mode period policy budget window overrun s).state := by
  unfold decideConfigureCycle
  split
  · exact .nothing
  · rename_i stopped
    split
    · exact .nothing
    · exact .cycleConfigured (not_not.mp stopped)

theorem decideStartCycle_effect (s : State) : Effect s (decideStartCycle s).state := by
  unfold decideStartCycle
  split
  · exact .nothing
  · rename_i stopped
    split
    · exact .nothing
    · split
      · exact .cycleArmed (not_not.mp stopped)
      · exact .cycleStarted (not_not.mp stopped)

theorem decideStopCycle_effect (choice : Byte) (s : State) : Effect s (decideStopCycle choice s).state := by
  unfold decideStopCycle
  split
  · exact .nothing
  · rename_i atEnd _
    have whileInCycle (inCycle : s.cycle.inCycle = true) : Effect s (if atEnd then
        accept [] { s with cycle := { s.cycle with stopAtEnd := true } }
        else accept [] (boundary (abandonCycle .stopped s))).state := by
      split
      · exact .cycleStopsAtEnd inCycle
      · exact .cycleAbandoned inCycle
    split <;> rename_i state
    · exact .nothing
    · exact .cycleStopped (.inl state)
    · exact .cycleStopped (.inr state)
    · exact whileInCycle (s.cycle.inCycle_iff.mpr (.inl state))
    · exact whileInCycle (s.cycle.inCycle_iff.mpr (.inr state))

theorem decideTriggerCycle_effect (s : State) : Effect s (decideTriggerCycle s).state := by
  unfold decideTriggerCycle
  split
  · exact .cycleTriggered
  · exact .nothing

theorem decideUrgent_effect (tag station op object inLength retry : Byte) (deadline : Half) (outData : List Byte)
    (s : State) : Effect s (decideUrgent tag station op object inLength retry deadline outData s).state := by
  fun_cases decideUrgent
  case case7 granted => exact .urgentQueued granted
  all_goals exact .nothing

theorem decideCancel_effect (urgentTag : Byte) (s : State) : Effect s (decideCancel urgentTag s).state := by
  unfold decideCancel
  split
  · exact .urgentCancelled
  · split <;> exact .nothing

theorem decideOpenWindow_effect (s : State) : Effect s (decideOpenWindow s).state := by
  fun_cases decideOpenWindow
  case case5 => exact .windowOpened
  all_goals exact .nothing

theorem decideGrant_effect (n : Byte) (s : State) : Effect s (decideGrant n s).state := by
  unfold decideGrant
  split
  · exact .nothing
  · exact .granted

theorem decideAckDeliveries_effect (sequence : Half) (s : State) :
    Effect s (decideAckDeliveries sequence s).state := by
  unfold decideAckDeliveries
  split
  · exact .nothing
  · exact .acknowledged

theorem decideRewind_effect (sequence : Half) (s : State) : Effect s (decideRewind sequence s).state := by
  unfold decideRewind
  split
  · exact .nothing
  · exact .rewound ‹_›

theorem decideQueryStation_effect (address : Byte) (s : State) : Effect s (decideQueryStation address s).state := by
  unfold decideQueryStation
  split <;> exact .nothing

theorem decideQueryCounters_effect (clear : Byte) (s : State) : Effect s (decideQueryCounters clear s).state := by
  unfold decideQueryCounters
  split
  · exact .nothing
  · rename_i c _
    cases c
    · exact .nothing
    · exact .cleared

/-- Whatever the request, its decision has one of the effects. -/
theorem decideRequest_effect (type : RequestType) (tag : Byte) (payload : List Byte) (s : State) :
    Effect s (decideRequest type tag payload s).state := by
  cases type <;> simp only [decideRequest]
  case configureRing => split; exacts [decideConfigureRing_effect _ _ _ _ _ s, .nothing]
  case startRing => split; exacts [decideStartRing_effect s, .nothing]
  case stopRing => split; exacts [decideStopRing_effect s, .nothing]
  case census => split; exacts [decideCensus_effect s, .nothing]
  case clearPlan => split; exacts [decideClearPlan_effect s, .nothing]
  case addEntry => split; exacts [decideAddEntry_effect _ _ _ _ _ s, .nothing]
  case setEnable => split; exacts [decideSetEnable_effect _ _ s, .nothing]
  case writeOutput =>
    split
    · split
      exacts [decideWriteOutput_effect _ _ s, .nothing]
    · exact .nothing
  case readInput => split; exacts [decideReadInput_effect _ s, .nothing]
  case configureCycle => split; exacts [decideConfigureCycle_effect _ _ _ _ _ _ s, .nothing]
  case startCycle => split; exacts [decideStartCycle_effect s, .nothing]
  case stopCycle => split; exacts [decideStopCycle_effect _ s, .nothing]
  case triggerCycle => split; exacts [decideTriggerCycle_effect s, .nothing]
  case urgent =>
    split
    · split
      exacts [decideUrgent_effect _ _ _ _ _ _ _ _ s, .nothing]
    · exact .nothing
  case cancel => split; exacts [decideCancel_effect _ s, .nothing]
  case openWindow => split; exacts [decideOpenWindow_effect s, .nothing]
  case grant => split; exacts [decideGrant_effect _ s, .nothing]
  case ackDeliveries => split; exacts [decideAckDeliveries_effect _ s, .nothing]
  case rewind => split; exacts [decideRewind_effect _ s, .nothing]
  case queryStation => split; exacts [decideQueryStation_effect _ s, .nothing]
  case queryCounters => split; exacts [decideQueryCounters_effect _ s, .nothing]
  case queryStatus => split <;> exact .nothing
  case reset => split; exacts [.resetAsked, .nothing]

end Sys2Proof.Machine

/-!
PROOFS. The ring state, the Ring Port, the slot and the timers (R8, R65, R103, R106) agree after every step.
-/

namespace Sys2Proof.Machine

theorem RingConfig.inRange_default : ({} : RingConfig).InRange := ⟨by decide, by decide, by decide, by decide⟩

theorem ring_reset : State.RingSound {} where
  config := RingConfig.inRange_default
  disabled := by decide
  record := by decide
  timer := by decide
  carries := by decide
  probing := by decide
  probe := by decide
  pending := by decide
  claim := nofun

theorem ring_frameSent {s : State} (h : s.RingSound) (sending : s.port.state = .sending) :
    (frameSent s).RingSound where
  config := h.config
  disabled := by simpa [frameSent, sending] using h.disabled
  record := by simpa [frameSent, sending] using h.record
  timer := by simp [frameSent]
  carries := h.carries
  probing := h.probing
  probe := h.probe
  pending := h.pending
  claim := h.claim

theorem RingPort.timedCirculation_record {p : RingPort} {c : Circulation} (h : p.timedCirculation = some c) :
    p.record = some c := by
  unfold RingPort.timedCirculation at h
  split at h
  · exact h
  · cases h

/-- The probe timer runs in DOWN alone (R103), where no circulation may run. -/
theorem State.RingSound.not_carries_of_probeTimer {s : State} (h : s.RingSound)
    (running : s.supervisor.probeTimer.isSome = true) : s.ringCarries = false := by
  simp [State.ringCarries, h.probe.mp running]

theorem State.RingSound.boundary_of_eq {s t : State} (h : s.RingSound) (port : t.port = s.port)
    (supervisor : t.supervisor = s.supervisor) : (boundary t).RingSound :=
  ring_boundary (h.of_eq port supervisor).weak

theorem State.RingSound.boundaryIf_of_eq {s t : State} (b : Bool) (h : s.RingSound) (port : t.port = s.port)
    (supervisor : t.supervisor = s.supervisor) : (boundaryIf b t).RingSound :=
  ring_boundaryIf b (h.of_eq port supervisor)

theorem ring_effect {s t : State} (e : Effect s t) (h : s.RingSound) : t.RingSound := by
  cases e with
  | nothing => exact h
  | ringConfigured inRange =>
    exact ⟨inRange, h.disabled, h.record, h.timer, h.carries, h.probing, h.probe, h.pending, h.claim⟩
  | ringStarted free => exact ring_enterProbing _ h free
  | ringStopped => exact ring_enterOff h
  | censusAsked up =>
    refine ring_boundary (State.RingSound.weak ?_)
    exact ⟨h.config, h.disabled, h.record, h.timer, h.carries, h.probing, h.probe, fun _ => up, h.claim⟩
  | cycleStarted => exact h.boundaryIf_of_eq _ (by simp) (by simp)
  | cycleTriggered => exact h.boundaryIf_of_eq _ (by simp) (by simp)
  | cycleStopped => exact h.of_eq (by simp) (by simp)
  | cycleAbandoned => exact h.boundary_of_eq (by simp) (by simp)
  | urgentQueued => exact h.boundary_of_eq rfl rfl
  | urgentCancelled => exact h.boundaryIf_of_eq _ rfl rfl
  | windowOpened => exact h.boundary_of_eq rfl rfl
  | cleared => exact (h.of_port { s.port with counters := {} } rfl rfl rfl).of_eq rfl rfl
  | planCleared | entryAdded | entrySet | cycleConfigured | cycleArmed | cycleStopsAtEnd | granted | acknowledged
  | rewound | resetAsked => exact h.of_eq rfl rfl

theorem ring_cycleActsOnReport (r : RingState) {s : State} (h : s.RingSound) : (cycleActsOnReport r s).RingSound := by
  unfold cycleActsOnReport
  split
  · exact h.boundary_of_eq (by simp) (by simp)
  · exact h.boundaryIf_of_eq _ (by simp) (by simp)

theorem ringKept : Kept State.RingSound where
  link h port supervisor _ _ _ _ _ _ := h.of_eq port supervisor
  sent h := h.of_eq rfl rfl
  noted h := h.of_eq rfl rfl
  rewound h := h.of_eq rfl rfl
  initial := ring_reset
  decide type tag payload s h := ring_effect (decideRequest_effect type tag payload s) h
  frame bytes _ h := ring_judgeFrame bytes h
  gone sending h := ring_frameSent h sending
  lost {c _} timed h :=
    ring_retryOrEnd c _ (h.of_port _ rfl rfl rfl) (RingPort.timedCirculation_record timed)
  probe running h := ring_enterProbing _ h (h.not_carries_of_probeTimer running)
  cycle r _ h := ring_cycleActsOnReport r h
  urgent r _ h := h.of_eq (by simp) (by simp)
  window r _ h := h.of_eq (by simp) (by simp)
  arbiter r _ h := ring_boundaryIf _ h
  period _ h := h.boundaryIf_of_eq _ (by simp) (by simp)
  space h := h.boundaryIf_of_eq _ (by simp) (by simp)
  expire _ h := h.boundaryIf_of_eq _ rfl rfl

/-- Settles O54. -/
theorem stepKeepsTheRingSound : Obligations.StepKeepsTheRingSound := by
  unfold Obligations.StepKeepsTheRingSound
  exact fun _ _ sound step => kept_step ringKept sound step

end Sys2Proof.Machine

/-!
PROOFS. The Cycle Engine agrees with the plan it walks after every step (R41, R42, R45, R51, R53 to R55).
-/

namespace Sys2Proof.Machine

theorem cycle_reset : State.CycleSound {} :=
  ⟨by decide, by decide, by decide, by decide, by decide, by decide, by decide, by decide, by decide, by decide⟩

/-- Between cycles the walk is empty, and says nothing of the number of entries. -/
theorem CycleEngine.Sound.of_stopped {c : CycleEngine} {entries : Nat} (h : c.Sound entries)
    (stopped : c.state = .stopped) (more : Nat) : c.Sound more := by
  have walked : c.outcomes = [] := h.between (by simp [CycleEngine.inCycle, stopped])
  exact ⟨h.hold, h.timer, h.pointer, h.between, fun awaiting => absurd (h.awaiting awaiting).1 (by simp [stopped]),
    by simp [walked], fun closing => by simp [stopped] at closing, h.stopAtEnd, h.budget, h.restarts⟩

theorem cycle_cycleConfigured {s : State} (c : CycleConfig) (h : s.CycleSound) (stopped : s.cycle.state = .stopped) :
    State.CycleSound { s with cycle := { s.cycle with config := c } } := by
  have out : s.cycle.inCycle = false := by simp [CycleEngine.inCycle, stopped]
  have timer : s.cycle.periodTimer.isSome = false := Bool.eq_false_iff.mpr fun runs => (h.timer.mp runs).2 stopped
  exact ⟨h.hold, by simp [timer, stopped], h.pointer, h.between, h.awaiting, h.settled, h.closing, h.stopAtEnd,
    fun inCycle => absurd (out.symm.trans inCycle) (by decide), h.restarts⟩

theorem cycle_armFromStopped {s : State} (h : s.CycleSound) (stopped : s.cycle.state = .stopped) :
    (armFromStopped s).CycleSound := by
  have walked : s.cycle.outcomes = [] := h.between (by simp [CycleEngine.inCycle, stopped])
  have reason : s.cycle.holdReason = .none := h.hold.mpr (by simp [stopped])
  have quiet : s.cycle.awaiting = none := h.not_awaiting (by simp [stopped])
  constructor <;> simp [armFromStopped, CycleEngine.inCycle, walked, reason, quiet, h.pointer, h.restarts]

theorem cycle_stopsAtEnd {s : State} (h : s.CycleSound) (inCycle : s.cycle.inCycle = true) :
    State.CycleSound { s with cycle := { s.cycle with stopAtEnd := true } } := by
  have started : s.cycle.state ≠ .stopped := fun stopped => by simp [CycleEngine.inCycle, stopped] at inCycle
  exact ⟨h.hold, h.timer, h.pointer, h.between, h.awaiting, h.settled, h.closing,
    fun _ => started, h.budget, h.restarts⟩

theorem cycle_clearCounters {s : State} (h : s.CycleSound) : (clearCounters s).CycleSound :=
  ⟨h.hold, h.timer, h.pointer, h.between, h.awaiting, h.settled, h.closing, h.stopAtEnd, h.budget, h.restarts⟩

theorem cycle_enterProbing (cause : RingCause) {s : State} (h : s.CycleSound) : (enterProbing cause s).CycleSound :=
  cycle_boundary (h.of_eq rfl rfl)

theorem cycle_effect {s t : State} (e : Effect s t) (h : s.CycleSound) : t.CycleSound := by
  cases e with
  | nothing => exact h
  | ringStarted => exact cycle_enterProbing _ h
  | ringStopped => exact h.of_eq (by simp) (by simp)
  | censusAsked => exact cycle_boundary (h.of_eq rfl rfl)
  | planCleared stopped => exact CycleEngine.Sound.of_stopped h stopped _
  | entryAdded stopped => exact CycleEngine.Sound.of_stopped h stopped _
  | entrySet => exact h.of_eq rfl (List.length_set ..)
  | cycleConfigured stopped => exact cycle_cycleConfigured _ h stopped
  | cycleArmed stopped => exact cycle_armFromStopped h stopped
  | cycleStarted stopped => exact cycle_boundaryIf _ (cycle_startCause _ (cycle_armFromStopped h stopped))
  | cycleTriggered => exact cycle_boundaryIf _ (cycle_startCause _ h)
  | cycleStopped rested => exact cycle_enterStopped (CycleEngine.Sound.rested h rested)
  | cycleStopsAtEnd inCycle => exact cycle_stopsAtEnd h inCycle
  | cycleAbandoned inCycle => exact cycle_boundary (cycle_abandonCycle _ h inCycle)
  | urgentQueued | windowOpened => exact cycle_boundary (h.of_eq rfl rfl)
  | urgentCancelled => exact cycle_boundaryIf _ (h.of_eq rfl rfl)
  | cleared => exact cycle_clearCounters h
  | ringConfigured | granted | acknowledged | rewound | resetAsked => exact h.of_eq rfl rfl

theorem cycle_cycleActsOnReport (r : RingState) {s : State} (h : s.CycleSound) :
    (cycleActsOnReport r s).CycleSound := by
  unfold cycleActsOnReport
  split
  · exact cycle_boundary (cycle_cycleTakesReport r h)
  · exact cycle_boundaryIf _ (cycle_cycleTakesReport r h)

theorem cycleKept : Kept State.CycleSound where
  link h _ _ _ plan cycle _ _ _ := h.of_eq cycle (congrArg List.length plan)
  sent h := h.of_eq rfl rfl
  noted h := h.of_eq rfl rfl
  rewound h := h.of_eq rfl rfl
  initial := cycle_reset
  decide type tag payload s h := cycle_effect (decideRequest_effect type tag payload s) h
  frame bytes _ h := cycle_judgeFrame bytes h
  gone _ h := h.of_eq rfl rfl
  lost {c _} _ h := cycle_retryOrEnd c _ (h.of_eq rfl rfl)
  probe _ h := cycle_enterProbing _ h
  cycle r _ h := cycle_cycleActsOnReport r h
  urgent _ _ h := h.of_eq (by simp) (by simp)
  window _ _ h := h.of_eq (by simp) (by simp)
  arbiter _ _ h := cycle_boundaryIf _ h
  period _ h := cycle_boundaryIf _ (cycle_startCause _ h)
  space h := cycle_boundaryIf _ (cycle_retryHeldStart h)
  expire _ h := cycle_boundaryIf _ (h.of_eq rfl rfl)

/-- Settles O55. -/
theorem stepKeepsTheCycleSound : Obligations.StepKeepsTheCycleSound := by
  unfold Obligations.StepKeepsTheCycleSound
  exact fun _ _ sound step => kept_step cycleKept sound step

end Sys2Proof.Machine

/-!
PROOFS. The Delivery Store and the plan (R22 to R24, R29, R133, R135, R144): what the host's requests do to them beside
what the ring side does, and that the flag of the event in progress is clear between commands.
-/

namespace Sys2Proof.Machine

/-- What reaches the store and the plan beside the operations of the ring side: the host's requests to them and the
transmission of deliveries. -/
structure HostClosed (P : Store → List PlanEntry → Prop) : Prop where
  initial : P {} []
  sent    : ∀ {st pl}, P st pl → P st.beginTransmission pl
  noted   : ∀ {st pl}, P st pl → P { st with releasedInEvent := false } pl
  reset   : ∀ {st pl}, P st pl → P st.linkReset pl
  grant   : ∀ {st pl} n, P st pl → P (st.grantCredits n) pl
  acknowledge : ∀ {st pl} place, P st pl → P (st.releaseThrough place) pl
  rewind  : ∀ {st pl sequence place}, P st pl → st.sentPlace sequence = some place → P (st.unsendFrom place) pl
  clear   : ∀ {st pl}, P st pl → P st []
  add     : ∀ {st pl e}, P st pl → e.Sound → planHasRoom pl e.outLength e.inLength = true → P st (pl ++ [e])
  set     : ∀ {st pl i e f}, P st pl → pl[i]? = some e → (e.Sound → f.Sound) → f.outLength = e.outLength →
    f.inLength = e.inLength → P st (pl.set i f)

section
variable {P : Store → List PlanEntry → Prop} (ring : Closed P)
include ring

theorem closed_cycleActsOnReport (r : RingState) {s : State} (h : On P s) : On P (cycleActsOnReport r s) := by
  unfold cycleActsOnReport
  split
  · exact closed_boundary ring (closed_cycleTakesReport ring r h)
  · exact closed_boundaryIf ring _ (closed_cycleTakesReport ring r h)

theorem closed_retryHeldStart {s : State} (h : On P s) : On P (retryHeldStart s) := by
  unfold retryHeldStart
  split
  · exact closed_startAttempt ring _ h
  · exact h

variable (host : HostClosed P)
include host

theorem closed_effect {s t : State} (e : Effect s t) (h : On P s) : On P t := by
  cases e with
  | ringStarted => exact closed_enterProbing ring _ h
  | ringStopped => exact closed_changeRing ring _ _ _ (s := { s with
      port := s.port.abandon
      supervisor := { s.supervisor with censusPending := false, probeTimer := none } }) h
  | censusAsked => exact closed_boundary ring (s := { s with
      supervisor := { s.supervisor with censusPending := true } }) h
  | planCleared => exact host.clear h
  | entryAdded _ sound room => exact host.add h sound room
  | entrySet present sound outs ins => exact host.set h present sound outs ins
  | cycleStarted => exact closed_boundaryIf ring _ (closed_startCause ring _ (s := armFromStopped s) h)
  | cycleTriggered => exact closed_boundaryIf ring _ (closed_startCause ring _ h)
  | cycleStopped => exact ring.event _ h
  | cycleAbandoned => exact closed_boundary ring (closed_abandonCycle ring _ h)
  | urgentQueued granted => exact closed_boundary ring (ring.reserve _ _ h granted)
  | urgentCancelled => exact closed_boundaryIf ring _ (ring.release _ h)
  | windowOpened => exact closed_boundary ring (s := { s with window := { s.window with hostPending := true } }) h
  | granted => exact host.grant _ h
  | acknowledged => exact host.acknowledge _ h
  | rewound place => exact host.rewind h place
  | nothing | ringConfigured | cycleConfigured | cycleArmed | cycleStopsAtEnd | cleared | resetAsked => exact h

theorem Closed.kept : Kept (On P) where
  link h _ _ _ plan _ _ _ store := by rwa [On, plan, store]
  sent h := host.sent h
  noted h := host.noted h
  rewound h := host.reset h
  initial := host.initial
  decide type tag payload s h := closed_effect ring host (decideRequest_effect type tag payload s) h
  frame bytes _ h := closed_judgeFrame ring bytes h
  gone _ h := h
  lost {c s} _ h := closed_retryOrEnd ring c _ (s := { s with port :=
    { s.port with counters := { s.port.counters with lostReturns := satInc s.port.counters.lostReturns } } }) h
  probe _ h := closed_enterProbing ring _ h
  cycle r _ h := closed_cycleActsOnReport ring r h
  urgent r _ h := closed_urgentTakesReport ring r h
  window r s h := by
    unfold windowTakesReport
    split <;> exact h
  arbiter r _ h := closed_boundaryIf ring _ h
  period _ h := closed_boundaryIf ring _ (closed_startCause ring _ h)
  space h := closed_boundaryIf ring _ (closed_retryHeldStart ring h)
  expire {_ r s} _ h := closed_boundaryIf ring _ (closed_convert ring _ _ (s :=
    { s with urgent := s.urgent.remove r.tag }) h)

end

/-! ### The store (R133, R135, R143, R144) -/

theorem sound_reset : Store.Sound {} := .mk' ⟨[], [], rfl, nofun, nofun⟩ (fun i r h => by simp at h) (Nat.zero_le 255)

theorem soundHostClosed : HostClosed (fun st _ => st.Sound) where
  initial := sound_reset
  sent := sound_beginTransmission
  noted h := h.of_eq rfl rfl rfl
  reset := sound_linkReset
  grant n h := sound_grantCredits h n
  acknowledge place h := sound_releaseThrough h place
  rewind h place := sound_unsendFrom h place
  clear h := h
  add h _ _ := h
  set h _ _ _ _ := h

/-- The end of an event leaves the flag of its releases clear (log 10). -/
theorem finish_releasedInEvent (s : State) : (finish s).store.releasedInEvent = false := by
  have noted : (noteRelease s).store.releasedInEvent = false := by
    unfold noteRelease
    split
    · rfl
    · exact Bool.eq_false_of_not_eq_true ‹_›
  unfold finish arbitrate
  (repeat' split) <;> exact noted

theorem releasedInEvent_exec {c : Instr} {s t : State} (h : s.store.releasedInEvent = false)
    (e : exec c s = .next t) : t.store.releasedInEvent = false := by
  obtain ⟨u, rfl⟩ | rfl | ⟨store, -⟩ := exec_ends e
  · exact finish_releasedInEvent u
  · rfl
  · rw [store, h]

/-- Settles O57: the store's soundness is kept by every operation that reaches it, and the end of every event clears the
flag. -/
theorem stepKeepsTheStoreSound : Obligations.StepKeepsTheStoreSound := by
  unfold Obligations.StepKeepsTheStoreSound
  intro s t sound clear h
  refine ⟨kept_step (soundClosed.kept soundHostClosed) sound h, ?_⟩
  obtain rfl | ⟨c, rest, -, e⟩ := step_cases h
  · exact clear
  · exact releasedInEvent_exec (s := { s with pending := rest }) clear e

/-! ### The plan (R23, R24, R29) -/

theorem PlanSound.nil : PlanSound [] := ⟨by decide, by decide, by decide, nofun⟩

theorem planHostClosed : HostClosed (fun _ plan => PlanSound plan) where
  initial := .nil
  sent h := h
  noted h := h
  reset h := h
  grant _ h := h
  acknowledge _ h := h
  rewind h _ := h
  clear _ := .nil
  add h sound room := h.append sound room
  set h present sound outs ins :=
    h.set present (sound (h.entries _ (List.mem_of_getElem? present))) outs ins

end Sys2Proof.Machine

/-!
PROOFS. The Station Table keeps its order and limits (R87 to R89) in every step: outcomes and reports change entries in
place, and a census replaces the table only by a valid census of at most 24 entries.
-/

namespace Sys2Proof.Machine

theorem TableSound.nil : TableSound [] := ⟨by decide, by decide, by decide, nofun, nofun⟩

/-- A census result has at most the entries the table holds. -/
def CensusFits : CirculationResult → Prop
  | .census _ entries => entries.length ≤ tableCapacity
  | _ => True

theorem censusFits_readReturn {bytes body : List Byte} {kind tag hop : Byte} {sent : FrameBody}
    {res : CirculationResult} (good : goodFrame bytes = some (kind :: tag :: hop :: body))
    (read : readReturn sent kind body = some res) : CensusFits res := by
  cases res with
  | census overflow entries =>
    unfold readReturn at read
    split at read
    · cases read
    · rename_i kindSent
      obtain rfl := not_not.mp kindSent
      cases sent with
      | call b =>
        simp only [readCall] at read
        (repeat' split at read) <;> cases read
      | census => exact census_entries good read
      | window acks =>
        simp only [readWindow] at read
        (repeat' split at read) <;> cases read
  | _ => trivial

theorem table_handRequester {s : State} (r : Requester) {res : CirculationResult} (n : Nat) (h : TableSound s.table)
    (fits : CensusFits res) : TableSound (handRequester r res n s).table := by
  cases r with
  | census =>
    cases res with
    | census overflow entries => exact table_takeCensus overflow entries h fits
    | _ => simpa [handRequester, handCensus] using h
  | cycle | urgent => simpa [handRequester] using h
  | window =>
    cases res with
    | window reports deferred =>
      simp only [handRequester, handWindow, windowGoodReturn]
      split
      · exact h
      · simpa using table_decideReports _ reports (s := { s with window := { s.window with owed := [] } }) h
    | _ => simpa [handRequester, handWindow] using h

theorem table_endCirculation {s : State} (c : Circulation) {res : CirculationResult} (hop : Option Byte)
    (h : TableSound s.table) (fits : CensusFits res) : TableSound (endCirculation c res hop s).table := by
  have outcome : TableSound
      (handTable c.frame res (handHops c.frame hop { s with port := s.port.finish })).table :=
    table_handTable _ _ (by simpa using h)
  simpa [endCirculation] using table_handRequester c.requester c.attempts
    (s := handLost c.requester res (handTable c.frame res (handHops c.frame hop { s with port := s.port.finish })))
    (by simpa using outcome) fits

theorem table_retryOrEnd {s : State} (c : Circulation) {failure : CirculationResult} (h : TableSound s.table)
    (fits : CensusFits failure) : TableSound (retryOrEnd c failure s).table := by
  unfold retryOrEnd
  split
  · exact h
  · exact table_endCirculation c none h fits

theorem table_judgeFrame {s : State} (bytes : List Byte) (h : TableSound s.table) :
    TableSound (judgeFrame bytes s).table := by
  have corrupt (c : Circulation) : TableSound (corruptReturn c s).table :=
    table_retryOrEnd c (s := countCorrupt s) h trivial
  have awaited (c : Circulation) : TableSound (judgeAwaited c bytes s).table := by
    unfold judgeAwaited
    split
    · exact corrupt c
    · split
      · exact h
      · split
        · split
          · exact table_endCirculation _ _ h (censusFits_readReturn ‹_› ‹_›)
          · exact corrupt c
        · exact corrupt c
  have unawaited : TableSound (judgeUnawaited bytes s).table := by simpa using h
  unfold judgeFrame
  split
  · exact h
  · exact unawaited
  · exact unawaited
  · split
    · exact awaited _
    · exact unawaited

theorem table_effect {s t : State} (e : Effect s t) (h : TableSound s.table) : TableSound t.table := by
  cases e with
  | cleared => exact table_clearStationCounters h
  | _ => simpa using h

theorem tableKept : Kept (fun s => TableSound s.table) where
  link h _ _ table _ _ _ _ _ := by rwa [table]
  sent h := h
  noted h := h
  rewound h := h
  initial := .nil
  decide type tag payload s h := table_effect (decideRequest_effect type tag payload s) h
  frame bytes _ h := table_judgeFrame bytes h
  gone _ h := h
  lost {c s} _ h := table_retryOrEnd c (s := { s with port :=
    { s.port with counters := { s.port.counters with lostReturns := satInc s.port.counters.lostReturns } } }) h trivial
  probe _ h := by simpa using h
  cycle _ _ h := by simpa using h
  urgent _ _ h := by simpa using h
  window _ _ h := by simpa using h
  arbiter _ _ h := by simpa using h
  period _ h := by simpa using h
  space h := by simpa using h
  expire _ h := by simpa using h

/-- Settles O56. -/
theorem stepKeepsTheTableAndThePlanSound : Obligations.StepKeepsTheTableAndThePlanSound := by
  unfold Obligations.StepKeepsTheTableAndThePlanSound
  exact fun _ _ table plan step =>
    ⟨kept_step tableKept table step, kept_step (planClosed.kept planHostClosed) plan step⟩

end Sys2Proof.Machine

/-!
PROOFS. The room of the Delivery Store and its owners (R47, R71, R73, R133, R137, R138): kept together with the Cycle
Engine and the plan, whose soundness the sizes of the reservations rest on.
-/

namespace Sys2Proof.Machine

theorem housed_reset : State.Housed {} where
  room := ⟨⟨by decide, by decide, .refl _⟩, ⟨by decide, by decide, by decide⟩, .nil _, nofun⟩
  cycle := cycle_reset
  plan := .nil

theorem housed_cycleActsOnReport (r : RingState) {s : State} (h : s.Housed) : (cycleActsOnReport r s).Housed := by
  unfold cycleActsOnReport
  split
  · exact housed_boundary (housed_cycleTakesReport r h)
  · exact housed_boundaryIf _ (housed_cycleTakesReport r h)

theorem housed_retryHeldStart {s : State} (h : s.Housed) : (retryHeldStart s).Housed :=
  ⟨room_retryHeldStart h.room h.cycle, cycle_retryHeldStart h.cycle,
    closed_retryHeldStart planClosed h.plan⟩

theorem UrgentQueue.queuedWith_of_timed {q : UrgentQueue} {tag : Byte} {r : UrgentRequest}
    (h : q.timed tag = some r) : queuedWith q tag = some r := by
  unfold UrgentQueue.timed at h
  split at h
  · split at h
    · rwa [← h]
    · cases h
  · cases h

theorem housed_expireRequest {s : State} {tag : Byte} {r : UrgentRequest} (h : s.Housed)
    (timed : s.urgent.timed tag = some r) : (expireRequest r s).Housed :=
  housed_boundaryIf _
    ⟨room_expireRequest h.room (UrgentQueue.queuedWith_of_timed timed), h.cycle.of_eq rfl rfl, h.plan⟩

theorem housedKept : Kept State.Housed where
  link h port _ _ plan cycle urgent window store :=
    housed_same h store cycle plan urgent (congrArg RingPort.record port) (congrArg WindowUnit.record window)
  sent h := housed_store h h.room.store.sent rfl rfl rfl rfl rfl
  noted h := housed_store h (h.room.store.of_sizes rfl rfl) rfl rfl rfl rfl rfl
  rewound h := housed_store h h.room.store.rewound rfl rfl rfl rfl rfl
  initial := housed_reset
  decide type tag payload _ h := housed_decideRequest type tag payload h
  frame bytes _ h := housed_judgeFrame bytes h
  gone _ h := housed_same h rfl rfl rfl rfl rfl rfl
  lost timed h := housed_retryOrEnd (housed_same h rfl rfl rfl rfl rfl rfl) (RingPort.timedCirculation_record timed)
    (fun o outcome => by cases outcome)
  probe _ h := housed_enterProbing _ h
  cycle r _ h := housed_cycleActsOnReport r h
  urgent r _ h := housed_urgentTakesReport r h
  window r _ h := housed_windowTakesReport r h
  arbiter _ _ h := housed_boundaryIf _ h
  period _ h := housed_boundaryIf _ (housed_startCause _ h)
  space h := housed_boundaryIf _ (housed_retryHeldStart h)
  expire timed h := housed_expireRequest h timed

/-- Settles O58. -/
theorem stepKeepsTheRoomAndItsOwners : Obligations.StepKeepsTheRoomAndItsOwners := by
  unfold Obligations.StepKeepsTheRoomAndItsOwners
  exact fun _ _ room cycle plan step => (kept_step housedKept ⟨room, cycle, plan⟩ step).room

end Sys2Proof.Machine

/-!
PROOFS. The owed list (R119): kept together with the Station Table, whose addresses bound it.
-/

namespace Sys2Proof.Machine

theorem OwedSound.nil : OwedSound [] := ⟨by decide, by decide, nofun⟩

theorem owed_effect {s t : State} (e : Effect s t) (h : OwedSound s.window.owed) : OwedSound t.window.owed := by
  cases e with
  | ringStarted => simpa [enterProbing] using h
  | cleared => exact h
  | _ => simpa [boundaryIfStarted] using h

theorem cycleActsOnReport_owed (r : RingState) (s : State) : (cycleActsOnReport r s).window.owed = s.window.owed := by
  unfold cycleActsOnReport
  split <;> simp [boundaryIfStarted]

/-- The owed list and the table it answers to. -/
def State.OwedAndTable (s : State) : Prop := OwedSound s.window.owed ∧ TableSound s.table

theorem State.OwedAndTable.of_owed {s t : State} (h : s.OwedAndTable) (owed : t.window.owed = s.window.owed)
    (table : TableSound t.table) : t.OwedAndTable := ⟨by rw [owed]; exact h.1, table⟩

theorem owedKept : Kept State.OwedAndTable where
  link h _ _ table _ _ _ window _ := h.of_owed (by rw [window]) (by rw [table]; exact h.2)
  sent h := h
  noted h := h
  rewound h := h
  initial := ⟨.nil, .nil⟩
  decide type tag payload s h :=
    ⟨owed_effect (decideRequest_effect type tag payload s) h.1, tableKept.decide type tag payload h.2⟩
  frame bytes _ h := ⟨owed_judgeFrame bytes h.1 h.2.size, tableKept.frame bytes h.2⟩
  gone _ h := h
  lost {c s} timed h := ⟨owed_retryOrEnd c (s := { s with port :=
    { s.port with counters := { s.port.counters with lostReturns := satInc s.port.counters.lostReturns } } })
    h.1 h.2.size trivial, tableKept.lost timed h.2⟩
  probe running h := h.of_owed (by simp [enterProbing]) (tableKept.probe running h.2)
  cycle r s h := h.of_owed (cycleActsOnReport_owed r s) (tableKept.cycle r h.2)
  urgent r _ h := h.of_owed (by simp) (tableKept.urgent r h.2)
  window r _ h := h.of_owed (by simp) (tableKept.window r h.2)
  arbiter r _ h := h.of_owed (by simp [arbiterTakesReport]) (tableKept.arbiter r h.2)
  period running h := h.of_owed (by simp [boundaryIfStarted]) (tableKept.period running h.2)
  space h := h.of_owed (by simp [boundaryIfStarted]) (tableKept.space h.2)
  expire timed h := h.of_owed (by simp [expireRequest]) (tableKept.expire timed h.2)

/-- Settles O59. -/
theorem stepKeepsTheOwedListSound : Obligations.StepKeepsTheOwedListSound := by
  unfold Obligations.StepKeepsTheOwedListSound
  exact fun _ _ owed table step => (kept_step owedKept ⟨owed, table⟩ step).1

end Sys2Proof.Machine

/-!
PROOFS. Every invariant holds of State.reset: its blocks are at their defaults, and STARTED is on TXD (log 1).
-/

namespace Sys2Proof.Machine

/-- Settles O60. -/
theorem resetIsSound : Obligations.ResetIsSound := by
  unfold Obligations.ResetIsSound
  refine ⟨?link, ?busy, ring_reset.of_eq rfl rfl, cycle_reset.of_eq rfl rfl, .nil, .nil, sound_reset, rfl,
    housed_reset.room.of_same rfl rfl rfl rfl rfl rfl, .nil⟩
  case link => exact ⟨by decide, by decide, by decide, by decide, by decide, by decide⟩
  case busy => exact nofun

end Sys2Proof.Machine

/-!
PROOFS. Steps and resets: what a step takes (section 4 of spec/00_scope.md), what every command leaves of the pin
RESET_N and of the queue of commands, and what the hard and the soft reset do (R168, R169).
-/

namespace Sys2Proof.Machine

/-! ### A step is the front command on the rest of the queue -/

/-- Settles O1. -/
theorem stepTakesTheFrontCommand : Obligations.StepTakesTheFrontCommand := by
  unfold Obligations.StepTakesTheFrontCommand
  refine ⟨fun c s => rfl, fun s idle => ?_⟩
  rw [step, idle]

/-- Settles O3. -/
theorem resetValues : Obligations.ResetValues := ⟨rfl, rfl, rfl, rfl⟩

/-! ### What the Link Controller and the Request Handler leave of RESET_N and the queue of commands -/

/-- RESET_N and the queue of commands are in t as in s. -/
def SamePins (s t : State) : Prop := t.resetAsserted = s.resetAsserted ∧ t.pending = s.pending

theorem SamePins.refl (s : State) : SamePins s s := ⟨rfl, rfl⟩

theorem SamePins.trans {s t u : State} (h : SamePins s t) (k : SamePins t u) : SamePins s u :=
  ⟨k.1.trans h.1, k.2.trans h.2⟩

theorem finish_pins (s : State) : SamePins s (finish s) := by simp [SamePins]

theorem SamePins.finish {s t : State} (h : SamePins s t) : SamePins s (finish t) := h.trans (finish_pins t)

theorem handleRequest_pins (body : List Byte) (s : State) : SamePins s (handleRequest body s) := by
  unfold handleRequest
  split
  · split
    · exact .refl s
    · obtain ⟨asserted, pending, -⟩ := decideRequest_frame ‹_› ‹_› ‹_› s
      exact ⟨asserted, pending⟩
  · exact .refl s

theorem handlerTake_pins (s : State) : SamePins s (handlerTake s) := by
  unfold handlerTake
  split
  · exact .refl s
  · split
    · exact handleRequest_pins _ { s with link := { s.link with inbox := _ } }
    · exact .refl s

theorem takeGood_pins (body : List Byte) (s : State) : SamePins s (takeGood body s) := by
  unfold takeGood
  dsimp only
  split
  · exact .trans ⟨rfl, rfl⟩ (handlerTake_pins _)
  · split <;> exact ⟨rfl, rfl⟩

theorem rescan_pins (afterGap : Bool) (skip : Nat) (bytes : List Byte) (s : State) :
    SamePins s (rescan afterGap skip bytes s) := by
  induction bytes generalizing skip s with
  | nil => cases skip <;> exact ⟨rfl, rfl⟩
  | cons b rest ih =>
    cases skip with
    | succ skip => exact ih skip s
    | zero =>
      unfold rescan
      split
      · exact ih 0 s
      · split
        · split
          · exact ih 0 s
          · exact ⟨rfl, rfl⟩
        · exact .trans ⟨rfl, rfl⟩ (ih 0 _)
        · exact (takeGood_pins _ s).trans (ih _ _)

theorem joinMessage_pins (c : Byte) (s : State) : SamePins s (joinMessage c s) := by
  unfold joinMessage
  dsimp only
  split
  · exact ⟨rfl, rfl⟩
  · exact .trans ⟨rfl, rfl⟩ (rescan_pins _ _ _ (countCheckError s))
  · exact takeGood_pins _ { s with link := s.link.hunt }

theorem takeCharacter_pins (c : Byte) (s : State) : SamePins s (takeCharacter c s) := by
  unfold takeCharacter
  split
  · split <;> exact ⟨rfl, rfl⟩
  · exact joinMessage_pins c s
  · exact joinMessage_pins c s
  · exact joinMessage_pins c s
  · exact .refl s

theorem takeCharacterError_pins (s : State) : SamePins s (takeCharacterError s) := by
  unfold takeCharacterError
  dsimp only
  split
  · exact ⟨rfl, rfl⟩
  · exact .trans ⟨rfl, rfl⟩ (rescan_pins _ _ _ _)

theorem endTransmission_pins (m : TxMessage) (s : State) : SamePins s (endTransmission m s) := by
  unfold endTransmission
  dsimp only
  split
  · exact ⟨rfl, rfl⟩
  · exact handlerTake_pins { s with link := { s.link with tx := none } }

theorem receiveRequest_pins (type : RequestType) (tag : Byte) (payload : List Byte) (s : State) :
    SamePins s (receiveRequest type tag payload s) := by
  unfold receiveRequest
  split
  · exact SamePins.finish (.trans ⟨rfl, rfl⟩ (takeGood_pins _ (lineIdle { s with link := s.link.hunt })))
  · exact .refl s

/-- No command is refused or faults; only the two edges of RESET_N change it. -/
theorem exec_pins (c : Instr) (s : State) :
    ∃ t, exec c s = .next t ∧ t.pending = s.pending ∧
      (c ≠ .hardReset → (∀ a b l, c ≠ .hardResetRelease a b l) → t.resetAsserted = s.resetAsserted) := by
  have same {t : State} (pins : SamePins s t) : t.pending = s.pending ∧
      (c ≠ .hardReset → (∀ a b l, c ≠ .hardResetRelease a b l) → t.resetAsserted = s.resetAsserted) :=
    ⟨pins.2, fun _ _ => pins.1⟩
  rcases request : requestOf c with _ | ⟨type, tag, payload⟩
  · cases c <;> simp only [requestOf, reduceCtorEq] at request <;> refine ⟨_, rfl, ?_⟩
    case hardReset => exact ⟨rfl, fun edge => absurd rfl edge⟩
    case hardResetRelease =>
      split
      · exact ⟨(finish_pins _).2, fun _ edge => absurd rfl (edge _ _ _)⟩
      · exact same (.refl s)
    case linkMessageComplete character =>
      split
      exacts [same (SamePins.finish (takeCharacter_pins character (lineIdle s))), same (.refl s)]
    case rxdCharacterReceived character =>
      split
      exacts [same (SamePins.finish (takeCharacter_pins character (lineIdle s))), same (.refl s)]
    case gapTimerExpiry => split; exacts [same (SamePins.finish (rescan_pins _ _ _ _)), same (.refl s)]
    case characterError => split; exacts [same (.refl s), same (SamePins.finish (takeCharacterError_pins s))]
    case linkReset => split; exacts [same (.refl s), same (SamePins.finish ⟨rfl, rfl⟩)]
    case breakEnd => split; exacts [same ⟨rfl, rfl⟩, same (.refl s)]
    case transmissionEnd => split; exacts [same (SamePins.finish (endTransmission_pins _ s)), same (.refl s)]
    case ringFrameComplete => exact same (SamePins.finish (by simp [SamePins]))
    case attemptFrameSent => split; exacts [same ⟨rfl, rfl⟩, same (.refl s)]
    all_goals split <;> first | exact same (.refl s) | exact same (SamePins.finish (by simp [SamePins]))
  · exact ⟨_, exec_requestOf request s, same (receiveRequest_pins type tag payload s)⟩

/-- Settles O2. -/
theorem everyCommandCompletes : Obligations.EveryCommandCompletes := exec_pins

/-! ### RESET_N (R169) -/

theorem hardReset_eq_atReset (s : State) :
    hardReset s = atReset true s.link.rxd s.link.rateCode none s.pending := rfl

/-- Under RESET_N the part is deaf, no timer runs, nothing is sent and no report waits. -/
theorem exec_hardReset_of_ne_release {c : Instr} (h : ∀ a b l, c ≠ .hardResetRelease a b l) (s : State) :
    exec c (hardReset s) = .next (hardReset s) := by
  rcases request : requestOf c with _ | ⟨type, tag, payload⟩
  · cases c <;> simp only [requestOf, reduceCtorEq] at request
    case hardResetRelease rate1 rate0 rxd => exact absurd rfl (h rate1 rate0 rxd)
    all_goals rfl
  · rw [exec_requestOf request, receiveRequest_deaf rfl]

/-- Settles O4. -/
theorem hardResetHoldsEveryBlock : Obligations.HardResetHoldsEveryBlock :=
  ⟨fun s => congrArg Host.Outcome.next (hardReset_eq_atReset s), fun _ => ⟨rfl, rfl⟩,
    fun _ s h => exec_hardReset_of_ne_release h s⟩

theorem exec_release_hardReset (rate1 rate0 : Bool) (rxd : LineLevel) (s : State) :
    exec (.hardResetRelease rate1 rate0 rxd) (hardReset s) = .next
      (atReset false rxd (rateCodeOf rate1 rate0)
        (some (.announcement (.started .hard (rateCodeOf rate1 rate0)))) s.pending) := rfl

theorem exec_release_of_released {s : State} (h : s.resetAsserted = false) (rate1 rate0 : Bool) (rxd : LineLevel) :
    exec (.hardResetRelease rate1 rate0 rxd) s = .next s := by
  simp [exec, execHardResetRelease, h]

/-- Settles O5. -/
theorem releaseSendsStarted : Obligations.ReleaseSendsStarted := by
  unfold Obligations.ReleaseSendsStarted
  refine ⟨exec_release_hardReset, fun s idle => ?_, fun rate1 rate0 rxd s => ?_⟩
  · rw [exec_release_hardReset, idle]
    rfl
  · exact fun released => exec_release_of_released released rate1 rate0 rxd

/-! ### The soft reset (R168) -/

/-- RESET's reply is marked, so that its end starts the soft reset. -/
theorem answer_reset (tag : Byte) (s : State) :
    answer .reset tag (decideReset s) = placeReply ⟨tag, none, [], .handlerReset⟩
      { s with link := { s.link with softResetPending := true } } := rfl

theorem finish_softReset (s : State) :
    finish (softReset s) = atReset s.resetAsserted s.link.rxd s.link.rateCode
      (some (.announcement (.started .soft s.link.rateCode))) s.pending := rfl

/-- Settles O6. -/
theorem resetRequestAndSoftReset : Obligations.ResetRequestAndSoftReset := by
  unfold Obligations.ResetRequestAndSoftReset
  refine ⟨fun tag s ready => ?accepted, fun m s sending marked waits => ?taken⟩
  case accepted =>
    rw [exec_requestOf (c := .reset tag) rfl, receiveRequest_ready ready]
    exact congrArg (fun t => Host.Outcome.next (finish t)) (answer_reset tag s.arrived)
  case taken =>
    have ends : endTransmission m s = softReset { s with link := { s.link with tx := none } } :=
      if_pos ⟨marked, waits⟩
    calc exec .transmissionEnd s
      _ = .next (finish (endTransmission m s)) := by simp only [exec, execTransmissionEnd, sending]
      _ = _ := by rw [ends, finish_softReset]

end Sys2Proof.Machine

/-!
PROOFS. The requests of the host to the Ring Supervisor, Plan Memory and the configuration of the Cycle Engine (R23 to
R31, R39, R40, R104, R107, R114, R115). A request that arrives ready is decided in its event, so each statement is an
equation of its owner's decision, branch by branch.
-/

namespace Sys2Proof.Machine

/-! ### A request that arrives ready is refused or accepted (R160, R162, R163) -/

theorem answer_accept {type : RequestType} (other : type ≠ .reset) (tag : Byte) (payload : List Byte) (t : State) :
    answer type tag (accept payload t) = placeReply (acceptedReply tag payload) t := by
  simp [answer, replySource, acceptedReply, other]

/-- The arrival of a message is the host link's alone. -/
@[simp] theorem State.arrived_frame (s : State) :
    s.arrived.resetAsserted = s.resetAsserted ∧ s.arrived.port = s.port ∧ s.arrived.supervisor = s.supervisor ∧
    s.arrived.table = s.table ∧ s.arrived.plan = s.plan ∧ s.arrived.cycle = s.cycle ∧ s.arrived.urgent = s.urgent ∧
    s.arrived.window = s.window ∧ s.arrived.store = s.store ∧ s.arrived.notices = s.notices ∧
    s.arrived.pending = s.pending := ⟨rfl, rfl, rfl, rfl, rfl, rfl, rfl, rfl, rfl, rfl, rfl⟩

section
variable {c : Instr} {type : RequestType} {tag : Byte} {payload : List Byte} {s : State}

theorem exec_of_ready (ready : s.ready = true) (request : requestOf c = some (type, tag, payload)) :
    exec c s = .next (finish (answer type tag (decideRequest type tag payload s.arrived))) := by
  rw [exec_requestOf request, receiveRequest_ready ready]

theorem exec_refuses {reason : Reason} (ready : s.ready = true) (request : requestOf c = some (type, tag, payload))
    (decision : decideRequest type tag payload s.arrived = refuse reason s.arrived) :
    exec c s = .next (s.refusing tag reason) := by
  rw [exec_of_ready ready request, decision, answer_refuse]
  rfl

theorem exec_accepts {reply : List Byte} {t : State} (ready : s.ready = true)
    (request : requestOf c = some (type, tag, payload)) (other : type ≠ .reset)
    (decision : decideRequest type tag payload s.arrived = accept reply t) :
    exec c s = .next (t.accepting tag reply) := by
  rw [exec_of_ready ready request, decision, answer_accept other]
  rfl

end

/-! ### Codes that are ranges -/

theorem bitRateOfCode_eq_none_iff (b : Byte) : bitRateOfCode b = none ↔ ¬b.toNat ≤ 3 := by
  revert b; decide

theorem modeOfCode_eq_none_iff (b : Byte) : modeOfCode b = none ↔ ¬b.toNat ≤ 2 := by
  revert b; decide

theorem policyOfCode_eq_none_iff (b : Byte) : policyOfCode b = none ↔ ¬b.toNat ≤ 1 := by
  revert b; decide

theorem overrunOfCode_eq_none_iff (b : Byte) : overrunOfCode b = none ↔ ¬b.toNat ≤ 1 := by
  revert b; decide

theorem settingOfCode_eq_none_iff (b : Byte) : settingOfCode b = none ↔ ¬b.toNat ≤ 1 := by
  revert b; decide

end Sys2Proof.Machine

namespace Sys2Proof.Machine

/-! ### The configurations (R40, R104) -/

theorem decideRequest_configureRing (tag rate : Byte) (timeout : Half) (retry miss : Byte) (probe : Half) (s : State) :
    decideRequest .configureRing tag (rate :: halfBytes timeout ++ [retry, miss] ++ halfBytes probe) s =
      decideConfigureRing rate timeout retry miss probe s := by
  simp [decideRequest, halfBytes]

/-- The ranges of the items of a CONFIGURE_RING beside the bit rate's. -/
def RingItemsInRange (timeout : Half) (retry miss : Byte) (probe : Half) : Prop :=
  (20 ≤ timeout.toNat ∧ timeout.toNat ≤ 5000) ∧ retry.toNat ≤ 3 ∧
    (1 ≤ miss.toNat ∧ miss.toNat ≤ 7) ∧ 10 ≤ probe.toNat ∧ probe.toNat ≤ 1000

theorem ringConfigOf_of_inRange {rate : Byte} {timeout : Half} {retry miss : Byte} {probe : Half} {r : BitRate}
    (code : bitRateOfCode rate = some r) (inRange : RingItemsInRange timeout retry miss probe) :
    ringConfigOf rate timeout retry miss probe = some ⟨r, timeout, retry.toNat, miss.toNat, probe⟩ := by
  obtain ⟨⟨least, most⟩, retries, ⟨misses, limit⟩, shortest, longest⟩ := inRange
  simp only [ringConfigOf, code]
  exact if_pos ⟨least, most, retries, misses, limit, shortest, longest⟩

theorem ringConfigOf_eq_none {rate : Byte} {timeout : Half} {retry miss : Byte} {probe : Half}
    (out : ¬(rate.toNat ≤ 3 ∧ RingItemsInRange timeout retry miss probe)) :
    ringConfigOf rate timeout retry miss probe = none := by
  unfold ringConfigOf
  split
  · rfl
  · rename_i known
    refine if_neg fun ⟨least, most, retries, misses, limit, shortest, longest⟩ => out ⟨?_, ?_⟩
    · by_contra high
      rw [(bitRateOfCode_eq_none_iff rate).mpr high] at known
      cases known
    · exact ⟨⟨least, most⟩, retries, ⟨misses, limit⟩, shortest, longest⟩

theorem decideConfigureRing_of_out {rate : Byte} {timeout : Half} {retry miss : Byte} {probe : Half} {s : State}
    (off : s.supervisor.state = .off) (out : ¬(rate.toNat ≤ 3 ∧ RingItemsInRange timeout retry miss probe)) :
    decideConfigureRing rate timeout retry miss probe s = refuse .range s := by
  rw [decideConfigureRing, if_neg (not_not.mpr off), ringConfigOf_eq_none out]

theorem decideConfigureRing_of_inRange {rate : Byte} {timeout : Half} {retry miss : Byte} {probe : Half} {r : BitRate}
    {s : State} (off : s.supervisor.state = .off) (code : bitRateOfCode rate = some r)
    (inRange : RingItemsInRange timeout retry miss probe) :
    decideConfigureRing rate timeout retry miss probe s = accept [] { s with supervisor :=
      { s.supervisor with config := ⟨r, timeout, retry.toNat, miss.toNat, probe⟩ } } := by
  rw [decideConfigureRing, if_neg (not_not.mpr off), ringConfigOf_of_inRange code inRange]

theorem decideRequest_configureCycle (tag mode : Byte) (period : Word) (policy budget window overrun : Byte)
    (s : State) :
    decideRequest .configureCycle tag (mode :: wordBytes period ++ [policy, budget, window, overrun]) s =
      decideConfigureCycle mode period policy budget window overrun s := by
  simp [decideRequest, wordBytes]

theorem settingOfCode_of_le {b : Byte} (h : b.toNat ≤ 1) : settingOfCode b = some (b == 1#8) := by
  revert b; decide

theorem modeOfCode_eq_free_iff {b : Byte} : modeOfCode b = some .free ↔ b = 1#8 := by
  revert b; decide

theorem cycleConfigOf_of_inRange {mode : Byte} {period : Word} {policy budget window overrun : Byte} {m : CycleMode}
    {p : InterruptionPolicy} {o : OverrunPolicy} (modeCode : modeOfCode mode = some m)
    (policyCode : policyOfCode policy = some p) (overrunCode : overrunOfCode overrun = some o)
    (setting : window.toNat ≤ 1)
    (periods : 500 ≤ period.toNat ∧ period.toNat ≤ 1000000 ∧ 50 ∣ period.toNat) (budgets : budget.toNat ≤ 15)
    (free : ¬(m = .free ∧ budget = 0#8)) :
    cycleConfigOf mode period policy budget window overrun =
      some ⟨m, period, p, budget.toNat, window == 1#8, o⟩ := by
  obtain ⟨shortest, longest, steps⟩ := periods
  simp only [cycleConfigOf, modeCode, policyCode, overrunCode, settingOfCode_of_le setting]
  refine if_pos ⟨shortest, longest, Nat.mod_eq_zero_of_dvd steps, budgets, fun ⟨mode, zero⟩ => free ⟨mode, ?_⟩⟩
  exact BitVec.eq_of_toNat_eq zero

theorem cycleConfigOf_eq_none {mode : Byte} {period : Word} {policy budget window overrun : Byte}
    (out : ¬(mode.toNat ≤ 2 ∧ (500 ≤ period.toNat ∧ period.toNat ≤ 1000000 ∧ 50 ∣ period.toNat) ∧
        policy.toNat ≤ 1 ∧ budget.toNat ≤ 15 ∧ window.toNat ≤ 1 ∧ overrun.toNat ≤ 1 ∧
        ¬(mode = 1#8 ∧ budget = 0#8))) :
    cycleConfigOf mode period policy budget window overrun = none := by
  unfold cycleConfigOf
  split
  · rename_i m p w o modeCode policyCode windowCode overrunCode
    have known {α : Type} {code : Option α} {x : α} {inRange : Prop} [Decidable inRange]
        (none_iff : code = none ↔ ¬inRange) (some : code = some x) : inRange := by
      by_contra h
      rw [none_iff.mpr h] at some
      cases some
    refine if_neg fun ⟨shortest, longest, steps, budgets, free⟩ => out
      ⟨known (modeOfCode_eq_none_iff mode) modeCode, ⟨shortest, longest, Nat.dvd_of_mod_eq_zero steps⟩,
        known (policyOfCode_eq_none_iff policy) policyCode, budgets,
        known (settingOfCode_eq_none_iff window) windowCode,
        known (overrunOfCode_eq_none_iff overrun) overrunCode, fun ⟨one, zero⟩ => free ⟨?_, ?_⟩⟩
    · rw [modeOfCode_eq_free_iff.mpr one] at modeCode
      exact (Option.some.inj modeCode).symm
    · rw [zero]; rfl
  · rfl

theorem decideConfigureCycle_of_config_none {mode : Byte} {period : Word} {policy budget window overrun : Byte}
    {s : State} (stopped : s.cycle.state = .stopped)
    (none : cycleConfigOf mode period policy budget window overrun = none) :
    decideConfigureCycle mode period policy budget window overrun s = refuse .range s := by
  rw [decideConfigureCycle, if_neg (not_not.mpr stopped), none]

theorem decideConfigureCycle_of_config_some {mode : Byte} {period : Word} {policy budget window overrun : Byte}
    {s : State} {c : CycleConfig} (stopped : s.cycle.state = .stopped)
    (some : cycleConfigOf mode period policy budget window overrun = some c) :
    decideConfigureCycle mode period policy budget window overrun s =
      accept [] { s with cycle := { s.cycle with config := c } } := by
  rw [decideConfigureCycle, if_neg (not_not.mpr stopped), some]

/-- Settles O7. -/
theorem configurationsAreReplaced : Obligations.ConfigurationsAreReplaced := by
  unfold Obligations.ConfigurationsAreReplaced
  constructor
  · intro tag rate timeout retry miss probe s ready
    have decided := decideRequest_configureRing tag rate timeout retry miss probe s.arrived
    refine ⟨fun state => ?_, fun off out => ?_, fun r off code inRange => ?_⟩
    · exact exec_refuses ready rfl (decided.trans (if_pos state))
    · exact exec_refuses ready rfl (decided.trans (decideConfigureRing_of_out off out))
    · exact exec_accepts ready rfl (by decide) (decided.trans (decideConfigureRing_of_inRange off code inRange))
  · intro tag mode period policy budget window overrun s ready
    have decided := decideRequest_configureCycle tag mode period policy budget window overrun s.arrived
    refine ⟨fun state => ?_, fun stopped out => ?_,
      fun m p o stopped modeCode policyCode overrunCode setting periods budgets free => ?_⟩
    · exact exec_refuses ready rfl (decided.trans (if_pos state))
    · refine exec_refuses ready rfl (decided.trans (decideConfigureCycle_of_config_none stopped ?_))
      exact cycleConfigOf_eq_none out
    · refine exec_accepts ready rfl (by decide) (decided.trans (decideConfigureCycle_of_config_some stopped ?_))
      exact cycleConfigOf_of_inRange modeCode policyCode overrunCode setting periods budgets free

/-! ### START_RING, STOP_RING and CENSUS (R107, R114, R115) -/

/-- The claim of a census with the slot free in PROBING, or in UP with a census pending (R69). -/
theorem boundary_of_census {s : State} (free : s.port.record = none)
    (due : s.supervisor.state = .probing ∨ (s.supervisor.state = .up ∧ s.supervisor.censusPending = true)) :
    boundary s = claimCensus s := by
  have slot : s.port.record.isSome = false := by simp [free]
  rw [boundary, choiceBound, chooseWithin, if_neg (by simp [slot])]
  rcases due with probing | ⟨up, pending⟩
  · rw [if_pos probing]
  · rw [if_neg (by simp [up]), if_neg (by simp [up]), if_pos pending]

theorem claimCensus_eq (s : State) :
    claimCensus s = { s with
      supervisor := { s.supervisor with censusPending := false }, port := censusStarted s } := rfl

theorem boundary_of_record {s : State} (full : s.port.record ≠ none) : boundary s = s := by
  rw [boundary, choiceBound, chooseWithin, if_pos (Option.isSome_iff_ne_none.mpr full)]

/-- The entry into PROBING sends the census in its event (R107, log 6); that the port was DISABLED before is all the
difference there is to an IDLE one. -/
theorem enterProbing_eq {s : State} (cause : RingCause) (free : s.port.record = none) :
    enterProbing cause s = { s with
      supervisor := { s.supervisor with state := .probing, probeTimer := none, censusPending := false }
      port := censusStarted s
      store := s.store.commitEvent (.ringState s.supervisor.state .probing cause (presentCount s.table) 0#8)
      notices := reported s.notices .probing false } := by
  have enabled : s.port.enable.record = none := by
    unfold RingPort.enable
    split <;> exact free
  rw [enterProbing, boundary_of_census (s := giveBlockReports .probing (changeRing .probing cause 0#8
    { s with port := s.port.enable, supervisor := { s.supervisor with probeTimer := none } })) enabled (.inl rfl)]
  unfold RingPort.enable
  split <;> rfl

/-- Settles O8. -/
theorem startRingProbesTheRing : Obligations.StartRingProbesTheRing := by
  unfold Obligations.StartRingProbesTheRing
  refine fun tag s ready => ⟨fun running => ?_, fun still free => ?_⟩
  · refine exec_refuses (c := .startRing tag) ready rfl (if_neg ?_)
    simp only [State.arrived_frame]
    rcases running with state | state | state <;> simp [state]
  · refine exec_accepts (c := .startRing tag) ready rfl (by decide) ?_
    calc decideRequest .startRing tag [] s.arrived
      _ = accept [] (enterProbing .hostStart s.arrived) := if_pos still
      _ = _ := congrArg (accept []) (enterProbing_eq (s := s.arrived) .hostStart free)

/-- Settles O9. -/
theorem stopRingEndsTheRing : Obligations.StopRingEndsTheRing := by
  unfold Obligations.StopRingEndsTheRing
  refine fun tag s ready => ⟨fun off => ?_, fun on => ?_⟩
  · exact exec_refuses (c := .stopRing tag) ready rfl (if_pos off)
  · exact exec_accepts (c := .stopRing tag) ready rfl (by decide) (if_neg on)

/-- Settles O10. -/
theorem censusOnRequest : Obligations.CensusOnRequest := by
  unfold Obligations.CensusOnRequest
  intro tag s ready
  have accepted (up : s.supervisor.state = .up) : decideRequest .census tag [] s.arrived =
      accept [] (boundary { s.arrived with supervisor := { s.supervisor with censusPending := true } }) := if_pos up
  refine ⟨fun state => ?_, fun up free => ?_, fun up full => ?_⟩
  · exact exec_refuses (c := .census tag) ready rfl (if_neg state)
  · refine exec_accepts (c := .census tag) ready rfl (by decide) ((accepted up).trans ?_)
    rw [boundary_of_census (s := { s.arrived with supervisor := { s.supervisor with censusPending := true } })
      free (.inr ⟨up, rfl⟩)]
    rfl
  · refine exec_accepts (c := .census tag) ready rfl (by decide) ((accepted up).trans ?_)
    rw [boundary_of_record (s := { s.arrived with supervisor := { s.supervisor with censusPending := true } }) full]

end Sys2Proof.Machine

namespace Sys2Proof.Machine

/-! ### Plan Memory (R23 to R26, R30, R31, R39) -/

theorem isStationAddress_iff {a : Byte} : isStationAddress a = true ↔ a ≠ 0#8 ∧ a ≠ 255#8 := by
  simp [isStationAddress]

theorem entryOf_of_wellFormed {target op object outLength inLength : Byte} {o : Operation}
    (code : operationOfCode op = some o) (address : isStationAddress target = true)
    (lengths : lengthsAgree o outLength.toNat inLength.toNat = true) :
    entryOf target op object outLength inLength = some (newEntry target o object outLength.toNat inLength.toNat) := by
  simp [entryOf, code, address, lengths]

theorem entryOf_of_no_operation {op : Byte} (code : operationOfCode op = none)
    (target object outLength inLength : Byte) : entryOf target op object outLength inLength = none := by
  simp [entryOf, code]

theorem entryOf_of_misfit {target op object outLength inLength : Byte} {o : Operation}
    (code : operationOfCode op = some o)
    (misfit : target = 0#8 ∨ target = 255#8 ∨ lengthsAgree o outLength.toNat inLength.toNat = false) :
    entryOf target op object outLength inLength = none := by
  simp only [entryOf, code]
  refine if_neg fun ⟨address, lengths⟩ => ?_
  obtain ⟨notZero, notBroadcast⟩ := isStationAddress_iff.mp address
  rcases misfit with zero | broadcast | disagree
  · exact notZero zero
  · exact notBroadcast broadcast
  · simp [lengths] at disagree

theorem planHasRoom_iff {plan : List PlanEntry} {outLength inLength : Nat} :
    planHasRoom plan outLength inLength = true ↔
      plan.length < 64 ∧ outSum plan + outLength ≤ 1024 ∧ inSum plan + inLength ≤ 1024 := by
  rw [planHasRoom, Bool.and_eq_true, Bool.and_eq_true, decide_eq_true_iff, decide_eq_true_iff, decide_eq_true_iff,
    and_assoc]
  rfl

section
variable {target op object outLength inLength : Byte} {s : State}

theorem decideAddEntry_of_no_entry (stopped : s.cycle.state = .stopped)
    (none : entryOf target op object outLength inLength = none) :
    decideAddEntry target op object outLength inLength s = refuse .range s := by
  rw [decideAddEntry, if_neg (not_not.mpr stopped), none]

theorem decideAddEntry_of_entry {e : PlanEntry} (stopped : s.cycle.state = .stopped)
    (some : entryOf target op object outLength inLength = some e) :
    decideAddEntry target op object outLength inLength s =
      if planHasRoom s.plan e.outLength e.inLength then
        accept [natByte s.plan.length] { s with plan := s.plan ++ [e] }
      else refuse .noSpace s := by
  rw [decideAddEntry, if_neg (not_not.mpr stopped), some]

end

/-- Settles O11. -/
theorem clearPlanAndAddEntry : Obligations.ClearPlanAndAddEntry := by
  unfold Obligations.ClearPlanAndAddEntry
  refine ⟨fun tag s ready => ⟨fun stopped => ?_, fun state => ?_⟩,
    fun tag target op object outLength inLength s ready => ⟨fun state => ?_, fun stopped code => ?_,
      fun o stopped code misfit => ?_,
      fun o stopped code notZero notBroadcast lengths => ⟨fun full => ?_, fun entries outs ins => ?_⟩⟩⟩
  · exact exec_accepts (c := .clearPlan tag) ready rfl (by decide) (if_pos stopped)
  · exact exec_refuses (c := .clearPlan tag) ready rfl (if_neg state)
  · exact exec_refuses (c := .addEntry tag ..) ready rfl (if_pos state)
  · exact exec_refuses (c := .addEntry tag ..) ready rfl
      (decideAddEntry_of_no_entry stopped (entryOf_of_no_operation code ..))
  · exact exec_refuses (c := .addEntry tag ..) ready rfl
      (decideAddEntry_of_no_entry stopped (entryOf_of_misfit code misfit))
  · have entry := entryOf_of_wellFormed (object := object) code
      (isStationAddress_iff.mpr ⟨notZero, notBroadcast⟩) lengths
    refine exec_refuses (c := .addEntry tag ..) ready rfl
      ((decideAddEntry_of_entry (s := s.arrived) stopped entry).trans (if_neg fun room => ?_))
    obtain ⟨entries, outs, ins⟩ := planHasRoom_iff.mp room
    simp only [State.arrived_frame, newEntry] at entries outs ins
    omega
  · have entry := entryOf_of_wellFormed (object := object) code
      (isStationAddress_iff.mpr ⟨notZero, notBroadcast⟩) lengths
    exact exec_accepts (c := .addEntry tag ..) ready rfl (by decide)
      ((decideAddEntry_of_entry (s := s.arrived) stopped entry).trans
        (if_pos (planHasRoom_iff.mpr ⟨entries, outs, ins⟩)))

theorem settingOfCode_eq_none {b : Byte} (notOff : b ≠ 0#8) (notOn : b ≠ 1#8) : settingOfCode b = none := by
  simp [settingOfCode, notOff, notOn]

@[simp] theorem settingOfCode_flag (b : Bool) : settingOfCode (if b then 1#8 else 0#8) = some b := by
  cases b <;> rfl

section
variable {index : Byte} {s : State} {e : PlanEntry}

theorem decideSetEnable_of_no_setting {setting : Byte} (entry : s.plan[index.toNat]? = some e)
    (code : settingOfCode setting = none) : decideSetEnable index setting s = refuse .range s := by
  rw [decideSetEnable, entry]
  dsimp only
  rw [code]

theorem decideSetEnable_of_setting {setting : Byte} {enable : Bool} (entry : s.plan[index.toNat]? = some e)
    (code : settingOfCode setting = some enable) : decideSetEnable index setting s =
      accept [] { s with plan := s.plan.set index.toNat { e with pendingEnable := enable } } := by
  rw [decideSetEnable, entry]
  dsimp only
  rw [code]

theorem decideWriteOutput_of_entry (entry : s.plan[index.toNat]? = some e) (data : List Byte) :
    decideWriteOutput index data s =
      if e.operation = .read then refuse .range s
      else if data.length ≠ e.outLength then refuse .lengthMismatch s
      else accept [] { s with plan := s.plan.set index.toNat (e.write data) } := by
  simp only [decideWriteOutput, entry]

theorem decideReadInput_of_entry (entry : s.plan[index.toNat]? = some e) :
    decideReadInput index s =
      if e.inLength = 0 then refuse .range s
      else accept (flagByte e.lastGoodValid :: wordBytes e.lastGoodCycle ++ e.lastGoodData) s := by
  simp only [decideReadInput, entry]

end

theorem decideRequest_writeOutput {data : List Byte} (short : data.length ≤ 32) (tag index : Byte) (s : State) :
    decideRequest .writeOutput tag (index :: data) s = decideWriteOutput index data s := if_pos short

/-- Settles O12. -/
theorem entriesAreEnabledWrittenAndRead : Obligations.EntriesAreEnabledWrittenAndRead := by
  unfold Obligations.EntriesAreEnabledWrittenAndRead
  refine ⟨fun tag index setting s ready => ?enable, fun tag index data s ready => ?write,
    fun tag index s ready => ?read⟩
  case enable =>
    refine ⟨fun missing => ?_, fun e entry => ⟨fun notOff notOn => ?_, fun b flag => ?_⟩⟩
    · refine exec_refuses (c := .setEnable tag index setting) ready rfl ?_
      simp [decideRequest, decideSetEnable, missing]
    · exact exec_refuses (c := .setEnable tag index setting) ready rfl
        (decideSetEnable_of_no_setting (s := s.arrived) entry (settingOfCode_eq_none notOff notOn))
    · exact exec_accepts (c := .setEnable tag index setting) ready rfl (by decide)
        (decideSetEnable_of_setting (s := s.arrived) entry (by rw [flag, settingOfCode_flag]))
  case write =>
    refine ⟨fun long => ?_, fun short => ?_⟩
    · exact exec_refuses (c := .writeOutput tag index data) ready rfl (if_neg (Nat.not_le.mpr long))
    · have decided := decideRequest_writeOutput short tag index s.arrived
      refine ⟨fun missing => ?_, fun e entry => ?_⟩
      · refine exec_refuses (c := .writeOutput tag index data) ready rfl (decided.trans ?_)
        simp [decideWriteOutput, missing]
      · have byEntry := decided.trans (decideWriteOutput_of_entry (s := s.arrived) entry data)
        refine ⟨fun reads => ?_, fun writes misfit => ?_, fun writes fits => ?_⟩
        · exact exec_refuses (c := .writeOutput tag index data) ready rfl (byEntry.trans (if_pos reads))
        · refine exec_refuses (c := .writeOutput tag index data) ready rfl (byEntry.trans ?_)
          rw [if_neg writes, if_pos misfit]
        · refine exec_accepts (c := .writeOutput tag index data) ready rfl (by decide) (byEntry.trans ?_)
          rw [if_neg writes, if_neg (not_not.mpr fits)]
          rfl
  case read =>
    refine ⟨fun missing => ?_, fun e entry => ⟨fun none => ?_, fun some => ?_⟩⟩
    · refine exec_refuses (c := .readInput tag index) ready rfl ?_
      simp [decideRequest, decideReadInput, missing]
    · exact exec_refuses (c := .readInput tag index) ready rfl
        ((decideReadInput_of_entry (s := s.arrived) entry).trans (if_pos none))
    · exact exec_accepts (c := .readInput tag index) ready rfl (by decide)
        ((decideReadInput_of_entry (s := s.arrived) entry).trans (if_neg some))

end Sys2Proof.Machine

/-!
PROOFS. The Cycle Engine's starts and stops on request (R43, R44, R46 to R48, R61, R63): a start attempt by the ring and
the store, and the notice it gives.
-/

namespace Sys2Proof.Machine

/-! ### A start attempt (R47, R48) and its notice -/

section
variable {s : State} {mark : Bool}

theorem startAttempt_of_ring (ring : s.supervisor.state ≠ .up) :
    startAttempt mark s =
      { s with cycle := { s.cycle with state := .held, holdReason := .ring, heldMark := mark } } := if_pos ring

theorem startAttempt_of_refused (up : s.supervisor.state = .up)
    (refused : s.store.reserve .cycle (14 + 3 * s.plan.length + inSum s.plan) = none) :
    startAttempt mark s =
      { s with cycle := { s.cycle with state := .held, holdReason := .space, heldMark := mark } } := by
  rw [startAttempt, if_neg (not_not.mpr up), snapshotReservation, refused]
  rfl

theorem startAttempt_of_granted {st : Store} (up : s.supervisor.state = .up)
    (granted : s.store.reserve .cycle (14 + 3 * s.plan.length + inSum s.plan) = some st) :
    startAttempt mark s =
      { s with store := st, plan := s.plan.map PlanEntry.latch, cycle := started s.cycle mark } := by
  rw [startAttempt, if_neg (not_not.mpr up), snapshotReservation, granted]
  rfl

theorem boundaryIfStarted_of_not_running (before : State) (idle : s.cycle.state ≠ .running) :
    boundaryIfStarted before s = s := by
  rw [boundaryIfStarted, boundaryIf, if_neg (by simp [idle])]

theorem boundaryIfStarted_of_running {before : State} (idle : before.cycle.state ≠ .running)
    (running : s.cycle.state = .running) : boundaryIfStarted before s = boundary s := by
  rw [boundaryIfStarted, boundaryIf, if_pos (by simp [idle, running])]

/-- An attempt that fails is held, and the arbiter has no notice of it. -/
theorem noticed_attempt_of_ring (before : State) (ring : s.supervisor.state ≠ .up) :
    boundaryIfStarted before (startAttempt mark s) =
      { s with cycle := { s.cycle with state := .held, holdReason := .ring, heldMark := mark } } := by
  rw [startAttempt_of_ring ring, boundaryIfStarted_of_not_running before (by simp)]

theorem noticed_attempt_of_refused (before : State) (up : s.supervisor.state = .up)
    (refused : s.store.reserve .cycle (14 + 3 * s.plan.length + inSum s.plan) = none) :
    boundaryIfStarted before (startAttempt mark s) =
      { s with cycle := { s.cycle with state := .held, holdReason := .space, heldMark := mark } } := by
  rw [startAttempt_of_refused up refused, boundaryIfStarted_of_not_running before (by simp)]

/-- An attempt that succeeds gives the arbiter notice (R48). -/
theorem noticed_attempt_of_granted {before : State} {st : Store} (idle : before.cycle.state ≠ .running)
    (up : s.supervisor.state = .up)
    (granted : s.store.reserve .cycle (14 + 3 * s.plan.length + inSum s.plan) = some st) :
    boundaryIfStarted before (startAttempt mark s) =
      boundary { s with store := st, plan := s.plan.map PlanEntry.latch, cycle := started s.cycle mark } := by
  rw [startAttempt_of_granted up granted, boundaryIfStarted_of_running idle rfl]

theorem startCause_of_armed (armed : s.cycle.state = .armed) : startCause mark s = startAttempt mark s := by
  simp only [startCause, armed]

end

/-! ### START_CYCLE and TRIGGER_CYCLE (R43, R44) -/

theorem armFromStopped_eq (s : State) : armFromStopped s = { s with cycle := armed s } := rfl

/-- In TIMED and FREE modes START_CYCLE makes a start attempt of the engine armed. -/
theorem decideStartCycle_attempts {s : State} (stopped : s.cycle.state = .stopped) (entries : s.plan ≠ [])
    (mode : s.cycle.config.mode ≠ .triggered) :
    decideStartCycle s = accept [] (boundaryIfStarted s (startAttempt false { s with cycle := armed s })) := by
  rw [decideStartCycle, if_neg (not_not.mpr stopped), if_neg entries, if_neg mode, armFromStopped_eq,
    startCause_of_armed rfl]

theorem decideTriggerCycle_attempts {s : State} (armed : s.cycle.state = .armed)
    (mode : s.cycle.config.mode = .triggered) :
    decideTriggerCycle s = accept [] (boundaryIfStarted s (startAttempt false s)) := by
  rw [decideTriggerCycle, if_pos ⟨armed, mode⟩, startCause_of_armed armed]

/-- Settles O13. -/
theorem cyclesStartOnRequest : Obligations.CyclesStartOnRequest := by
  unfold Obligations.CyclesStartOnRequest
  refine ⟨fun tag s ready => ?start, fun tag s ready => ?trigger⟩
  case start =>
    refine ⟨fun state => ?_, fun stopped empty => ?_, fun stopped entries => ⟨fun mode => ?_, fun mode => ?_⟩⟩
    · exact exec_refuses (c := .startCycle tag) ready rfl (if_pos state)
    · refine exec_refuses (c := .startCycle tag) ready rfl ?_
      exact (if_neg (not_not.mpr stopped)).trans (if_pos empty)
    · refine exec_accepts (c := .startCycle tag) ready rfl (by decide) ?_
      exact ((if_neg (not_not.mpr stopped)).trans (if_neg entries)).trans (if_pos mode)
    · have attempts := decideStartCycle_attempts (s := s.arrived) stopped entries mode
      have idle : s.arrived.cycle.state ≠ .running := by simp [stopped]
      refine ⟨fun ring => ?_, fun up refused => ?_, fun st up granted => ?_⟩
      all_goals refine exec_accepts (c := .startCycle tag) ready rfl (by decide) (attempts.trans ?_)
      · rw [noticed_attempt_of_ring (s := { s.arrived with cycle := armed s.arrived }) _ ring]
        rfl
      · rw [noticed_attempt_of_refused (s := { s.arrived with cycle := armed s.arrived }) _ up refused]
        rfl
      · rw [noticed_attempt_of_granted (s := { s.arrived with cycle := armed s.arrived }) idle up granted]
        rfl
  case trigger =>
    refine ⟨fun out => ?_, fun armed mode => ?_⟩
    · exact exec_refuses (c := .triggerCycle tag) ready rfl (if_neg fun ⟨armed, mode⟩ =>
        out.elim (fun state => state armed) (fun other => other mode))
    · have attempts := decideTriggerCycle_attempts (s := s.arrived) armed mode
      have idle : s.arrived.cycle.state ≠ .running := by simp [armed]
      refine ⟨fun ring => ?_, fun up refused => ?_, fun st up granted => ?_⟩
      all_goals refine exec_accepts (c := .triggerCycle tag) ready rfl (by decide) (attempts.trans ?_)
      · rw [noticed_attempt_of_ring (s := s.arrived) _ ring]
        rfl
      · rw [noticed_attempt_of_refused (s := s.arrived) _ up refused]
        rfl
      · rw [noticed_attempt_of_granted (s := s.arrived) idle up granted]
        rfl

/-! ### STOP_CYCLE (R61, R63) -/

theorem enterStopped_eq (s : State) : enterStopped s = { s with
    cycle := stopped s.cycle, store := s.store.commitEvent (.cycleStopped s.cycle.cycleNumber) } := rfl

theorem abandonCycle_stopped (s : State) : abandonCycle .stopped s = enterStopped (dropCycle .stopped s) := if_pos rfl

section
variable {s : State}

theorem decideStopCycle_of_resting {choice : Byte} {atEnd : Bool} (code : settingOfCode choice = some atEnd)
    (resting : s.cycle.state = .armed ∨ s.cycle.state = .held) :
    decideStopCycle choice s = accept [] (enterStopped s) := by
  rcases resting with state | state <;> simp [decideStopCycle, code, state]

theorem decideStopCycle_of_inCycle {choice : Byte} {atEnd : Bool} (code : settingOfCode choice = some atEnd)
    (inCycle : s.cycle.state = .running ∨ s.cycle.state = .closing) :
    decideStopCycle choice s =
      if atEnd then accept [] { s with cycle := { s.cycle with stopAtEnd := true } }
      else accept [] (boundary (abandonCycle .stopped s)) := by
  rcases inCycle with state | state <;> simp only [decideStopCycle, code, state]

end

/-- Settles O14. -/
theorem stopCycleByStateAndChoice : Obligations.StopCycleByStateAndChoice := by
  unfold Obligations.StopCycleByStateAndChoice
  intro tag choice s ready
  refine ⟨fun notNow notAtEnd => ?range, fun known => ⟨fun stopped => ?stopped, fun resting => ?resting⟩,
    fun atEnd inCycle => ?atEnd, fun now inCycle => ?now⟩
  case range =>
    refine exec_refuses (c := .stopCycle tag choice) ready rfl ?_
    simp [decideRequest, decideStopCycle, settingOfCode_eq_none notNow notAtEnd]
  case stopped =>
    refine exec_refuses (c := .stopCycle tag choice) ready rfl ?_
    rcases known with rfl | rfl <;> simp [decideRequest, decideStopCycle, settingOfCode, stopped]
  case resting =>
    refine exec_accepts (c := .stopCycle tag choice) ready rfl (by decide) ?_
    obtain ⟨atEnd, code⟩ : ∃ atEnd, settingOfCode choice = some atEnd := by
      rcases known with rfl | rfl <;> exact ⟨_, rfl⟩
    exact decideStopCycle_of_resting (s := s.arrived) code resting
  case atEnd =>
    subst atEnd
    exact exec_accepts (c := .stopCycle tag 1#8) ready rfl (by decide)
      ((decideStopCycle_of_inCycle (s := s.arrived) (choice := 1#8) rfl inCycle).trans (if_pos rfl))
  case now =>
    subst now
    refine exec_accepts (c := .stopCycle tag 0#8) ready rfl (by decide)
      ((decideStopCycle_of_inCycle (s := s.arrived) (choice := 0#8) rfl inCycle).trans ?_)
    rw [if_neg (by decide), abandonCycle_stopped]
    rfl

end Sys2Proof.Machine

/-!
PROOFS. The requests to the Urgent Queue and the Report Window Unit (R72 to R76, R82, R122).
-/

namespace Sys2Proof.Machine

/-! ### URGENT (R72, R73) -/

theorem decideRequest_urgent {outData : List Byte} (short : outData.length ≤ 32)
    (tag station op object inLength retry : Byte) (deadline : Half) (s : State) :
    decideRequest .urgent tag ([station, op, object, inLength, retry] ++ halfBytes deadline ++ outData) s =
      decideUrgent tag station op object inLength retry deadline outData s := by
  simp [decideRequest, halfBytes, short]

theorem decideRequest_urgent_of_long {outData : List Byte} (long : 32 < outData.length)
    (tag station op object inLength retry : Byte) (deadline : Half) (s : State) :
    decideRequest .urgent tag ([station, op, object, inLength, retry] ++ halfBytes deadline ++ outData) s =
      refuse .badLength s := by
  simp [decideRequest, halfBytes, long]

theorem tagInUse_iff {q : UrgentQueue} {tag : Byte} :
    tagInUse q tag = true ↔ ∃ r, (r ∈ q.queue ∨ q.inFlight = some r) ∧ r.tag = tag := by
  simp only [tagInUse, List.any_eq_true, List.mem_append, Option.mem_toList, beq_iff_eq,
    or_comm (a := _ ∈ q.queue)]

section
variable {tag station op object inLength retry : Byte} {deadline : Half} {outData : List Byte} {s : State}

theorem urgentOf_eq_none (out : operationOfCode op = none ∨ 1 < retry.toNat ∨ 60000 < deadline.toNat) :
    urgentOf tag station op object inLength retry deadline outData = none := by
  unfold urgentOf
  split
  · rename_i o r code setting
    rcases out with unknown | high | long
    · simp [unknown] at code
    · simp [(settingOfCode_eq_none_iff retry).mpr (Nat.not_le.mpr high)] at setting
    · exact if_neg fun ⟨most, _⟩ => absurd most (Nat.not_le.mpr long)
  · rfl

theorem urgentOf_of_inRange {o : Operation} (code : operationOfCode op = some o) (setting : retry.toNat ≤ 1)
    (most : deadline.toNat ≤ 60000) :
    urgentOf tag station op object inLength retry deadline outData =
      if lengthsAgree o outData.length inLength.toNat = true then
        some ⟨tag, station, o, object, outData, inLength.toNat, retry == 1#8, deadline, deadline != 0#16⟩
      else none := by
  simp [urgentOf, code, settingOfCode_of_le setting, most]

/-- URGENT has passed the ring's, the queue's, the tag's and the station's test (R73, tests 1 to 4). -/
structure FourTestsPassed (tag station : Byte) (s : State) : Prop where
  ring    : ¬(s.supervisor.state = .off ∨ s.supervisor.state = .fault)
  place   : ¬urgentPlaces ≤ s.urgent.queue.length
  tag     : ¬∃ r, (r ∈ s.urgent.queue ∨ s.urgent.inFlight = some r) ∧ r.tag = tag
  station : ¬callableForUrgent s.table station = false

theorem decideUrgent_of_off (off : s.supervisor.state = .off ∨ s.supervisor.state = .fault) :
    decideUrgent tag station op object inLength retry deadline outData s = refuse .ringOff s := if_pos off

theorem decideUrgent_of_full (ring : ¬(s.supervisor.state = .off ∨ s.supervisor.state = .fault))
    (full : urgentPlaces ≤ s.urgent.queue.length) :
    decideUrgent tag station op object inLength retry deadline outData s = refuse .queueFull s :=
  (if_neg ring).trans (if_pos full)

theorem decideUrgent_of_used (ring : ¬(s.supervisor.state = .off ∨ s.supervisor.state = .fault))
    (place : ¬urgentPlaces ≤ s.urgent.queue.length)
    (used : ∃ r, (r ∈ s.urgent.queue ∨ s.urgent.inFlight = some r) ∧ r.tag = tag) :
    decideUrgent tag station op object inLength retry deadline outData s = refuse .tagInUse s :=
  ((if_neg ring).trans (if_neg place)).trans (if_pos (tagInUse_iff.mpr used))

theorem decideUrgent_of_unknown (ring : ¬(s.supervisor.state = .off ∨ s.supervisor.state = .fault))
    (place : ¬urgentPlaces ≤ s.urgent.queue.length)
    (unused : ¬∃ r, (r ∈ s.urgent.queue ∨ s.urgent.inFlight = some r) ∧ r.tag = tag)
    (unknown : callableForUrgent s.table station = false) :
    decideUrgent tag station op object inLength retry deadline outData s = refuse .unknownStation s := by
  rw [decideUrgent, if_neg ring, if_neg place, if_neg (tagInUse_iff.not.mpr unused), if_pos (by simp [unknown])]

theorem FourTestsPassed.unused (passed : FourTestsPassed tag station s) : ¬tagInUse s.urgent tag = true :=
  tagInUse_iff.not.mpr passed.tag

theorem FourTestsPassed.known (passed : FourTestsPassed tag station s) :
    ¬(!callableForUrgent s.table station) = true := by
  simpa using passed.station

theorem decideUrgent_of_no_request (passed : FourTestsPassed tag station s)
    (noRequest : urgentOf tag station op object inLength retry deadline outData = none) :
    decideUrgent tag station op object inLength retry deadline outData s = refuse .range s := by
  rw [decideUrgent, if_neg passed.ring, if_neg passed.place, if_neg passed.unused, if_neg passed.known, noRequest]

theorem decideUrgent_of_no_space {r : UrgentRequest} (passed : FourTestsPassed tag station s)
    (request : urgentOf tag station op object inLength retry deadline outData = some r)
    (refused : s.store.reserve (.urgent tag) (8 + r.inLength) = none) :
    decideUrgent tag station op object inLength retry deadline outData s = refuse .noSpace s := by
  rw [decideUrgent, if_neg passed.ring, if_neg passed.place, if_neg passed.unused, if_neg passed.known, request]
  dsimp only
  rw [urgentReservation, refused]

theorem decideUrgent_of_space {r : UrgentRequest} {st : Store} (passed : FourTestsPassed tag station s)
    (request : urgentOf tag station op object inLength retry deadline outData = some r)
    (granted : s.store.reserve (.urgent tag) (8 + r.inLength) = some st) :
    decideUrgent tag station op object inLength retry deadline outData s =
      accept [] (boundary
        { s with store := st, urgent := { s.urgent with queue := s.urgent.queue ++ [r] } }) := by
  rw [decideUrgent, if_neg passed.ring, if_neg passed.place, if_neg passed.unused, if_neg passed.known, request]
  dsimp only
  rw [urgentReservation, granted]

end

/-- Settles O15. -/
theorem urgentPassesSixTests : Obligations.UrgentPassesSixTests := by
  unfold Obligations.UrgentPassesSixTests
  intro tag station op object inLength retry deadline outData s ready i
  refine ⟨fun long => ?_, fun short => ?_⟩
  · exact exec_refuses (c := i) ready rfl (decideRequest_urgent_of_long long ..)
  have decided := decideRequest_urgent short tag station op object inLength retry deadline s.arrived
  have refuses {reason : Reason} (decision : decideUrgent tag station op object inLength retry deadline outData
      s.arrived = refuse reason s.arrived) : exec i s = .next (s.refusing tag reason) :=
    exec_refuses (c := i) ready rfl (decided.trans decision)
  refine ⟨fun off => refuses (decideUrgent_of_off off),
    fun on full => refuses (decideUrgent_of_full on full),
    fun on place used => refuses (decideUrgent_of_used on place used),
    fun on place unused unknown => refuses (decideUrgent_of_unknown on place unused unknown),
    fun on place unused known => ?_⟩
  have passed : FourTestsPassed tag station s.arrived := ⟨on, place, unused, known⟩
  refine ⟨fun out => refuses (decideUrgent_of_no_request passed (urgentOf_eq_none out)),
    fun o code setting most => ?_⟩
  have byLengths := urgentOf_of_inRange (tag := tag) (station := station) (object := object) (inLength := inLength)
    (outData := outData) code setting most
  refine ⟨fun disagree => ?_, fun agree => ?_⟩
  · exact refuses (decideUrgent_of_no_request passed (byLengths.trans (if_neg (by simp [disagree]))))
  · have request := byLengths.trans (if_pos agree)
    refine ⟨fun refused => refuses (decideUrgent_of_no_space passed request refused), fun st granted => ?_⟩
    exact exec_accepts (c := i) ready rfl (by decide)
      (decided.trans (decideUrgent_of_space passed request granted))

/-! ### CANCEL (R82) -/

theorem decideCancel_of_queued {s : State} {named : Byte} {r : UrgentRequest}
    (queued : queuedWith s.urgent named = some r) :
    decideCancel named s = accept [] (boundaryIf (s.urgent.isHead named)
      (releaseReservation (.urgent named) { s with urgent := s.urgent.remove named })) := by
  rw [decideCancel, queued]

theorem decideCancel_of_unqueued {s : State} {named : Byte} (unqueued : queuedWith s.urgent named = none) :
    decideCancel named s =
      if s.urgent.inFlight.any (fun r => r.tag == named) then refuse .inFlight s else refuse .notFound s := by
  rw [decideCancel, unqueued]

/-- Settles O16. -/
theorem cancelByWhereTheTagStands : Obligations.CancelByWhereTheTagStands := by
  unfold Obligations.CancelByWhereTheTagStands
  refine fun tag named s ready => ⟨fun r queued => ?_, fun unqueued r inFlight same => ?_, fun unqueued other => ?_⟩
  · refine exec_accepts (c := .cancel tag named) ready rfl (by decide) ?_
    exact decideCancel_of_queued (s := s.arrived) queued
  · refine exec_refuses (c := .cancel tag named) ready rfl
      ((decideCancel_of_unqueued (s := s.arrived) unqueued).trans (if_pos ?_))
    simp [inFlight, same]
  · refine exec_refuses (c := .cancel tag named) ready rfl
      ((decideCancel_of_unqueued (s := s.arrived) unqueued).trans (if_neg ?_))
    simpa [Option.any_eq_true] using other

/-! ### OPEN_WINDOW (R122) -/

/-- Settles O17. -/
theorem openWindowSetsHostWindowPending : Obligations.OpenWindowSetsHostWindowPending := by
  unfold Obligations.OpenWindowSetsHostWindowPending
  intro tag s ready
  refine ⟨fun off => ?_, fun down => ?_, fun up => ⟨fun busy => ?_, fun idle rests => ?_⟩⟩
  · exact exec_refuses (c := .openWindow tag) ready rfl (if_pos off)
  · refine exec_refuses (c := .openWindow tag) ready rfl ?_
    rcases down with state | state <;> simp [decideRequest, decideOpenWindow, state]
  · refine exec_refuses (c := .openWindow tag) ready rfl ?_
    rcases busy with pending | held | running | closing
    · simp [decideRequest, decideOpenWindow, up, pending]
    · simp [decideRequest, decideOpenWindow, up, held]
    · simp [decideRequest, decideOpenWindow, up, CycleEngine.inCycle, running]
    · simp [decideRequest, decideOpenWindow, up, CycleEngine.inCycle, closing]
  · refine exec_accepts (c := .openWindow tag) ready rfl (by decide) ?_
    rcases rests with state | state <;>
      simp [decideRequest, decideOpenWindow, up, idle, CycleEngine.inCycle, state]

end Sys2Proof.Machine

/-!
PROOFS. The requests to the Delivery Store and the queries (R101, R102, R144 to R146, R151, R171, R172), and the arrival
of every request (R158, R160).
-/

namespace Sys2Proof.Machine

/-! ### GRANT, ACK_DELIVERIES and REWIND (R144 to R146) -/

@[simp] theorem Record.not_isUnsent (r : Record) : (!r.isUnsent) = (r.region == .sentUnacknowledged) := by
  unfold Record.isUnsent
  cases r.region <;> rfl

theorem sentPlace_eq_some_iff {s : State} {q : Half} {place : Nat} :
    s.store.sentPlace q = some place ↔ sentAt s q place := by
  simp only [Store.sentPlace, Record.not_isUnsent, List.findIdx?_eq_some_iff_getElem, Bool.and_eq_true, beq_iff_eq,
    sentAt]
  constructor
  · rintro ⟨lt, here, before⟩
    refine ⟨⟨_, List.getElem?_eq_getElem lt, here⟩, fun i r earlier get => ?_⟩
    obtain ⟨_, rfl⟩ := List.getElem?_eq_some_iff.mp get
    exact before i earlier
  · rintro ⟨⟨r, get, here⟩, before⟩
    obtain ⟨lt, rfl⟩ := List.getElem?_eq_some_iff.mp get
    exact ⟨lt, here, fun j earlier => before j _ earlier (List.getElem?_eq_getElem (earlier.trans lt))⟩

theorem sentPlace_eq_none_iff {s : State} {q : Half} : s.store.sentPlace q = none ↔ notSent s q := by
  simp [Store.sentPlace, List.findIdx?_eq_none_iff, notSent]

theorem decideRequest_ackDeliveries (tag : Byte) (q : Half) (s : State) :
    decideRequest .ackDeliveries tag (halfBytes q) s = decideAckDeliveries q s := by
  simp [decideRequest, halfBytes]

theorem decideRequest_rewind (tag : Byte) (q : Half) (s : State) :
    decideRequest .rewind tag (halfBytes q) s = decideRewind q s := by
  simp [decideRequest, halfBytes]

section
variable {s : State} {q : Half} {place : Nat}

theorem decideAckDeliveries_of_notSent (none : notSent s q) : decideAckDeliveries q s = refuse .range s := by
  rw [decideAckDeliveries, sentPlace_eq_none_iff.mpr none]

theorem decideAckDeliveries_of_sentAt (here : sentAt s q place) :
    decideAckDeliveries q s = accept [natByte (place + 1)] { s with store := s.store.releaseThrough place } := by
  rw [decideAckDeliveries, sentPlace_eq_some_iff.mpr here]

theorem decideRewind_of_notSent (none : notSent s q) : decideRewind q s = refuse .range s := by
  rw [decideRewind, sentPlace_eq_none_iff.mpr none]

theorem decideRewind_of_sentAt (here : sentAt s q place) :
    decideRewind q s =
      accept [natByte (s.store.sentFrom place)] { s with store := s.store.unsendFrom place } := by
  rw [decideRewind, sentPlace_eq_some_iff.mpr here]

theorem sentFrom_eq (st : Store) (place : Nat) :
    st.sentFrom place = (st.records.drop place).countP (fun r => r.region == .sentUnacknowledged) := by
  simp only [Store.sentFrom, Record.not_isUnsent]

end

/-- Settles O18. -/
theorem creditsAcknowledgementsAndRewinds : Obligations.CreditsAcknowledgementsAndRewinds := by
  unfold Obligations.CreditsAcknowledgementsAndRewinds
  refine ⟨fun tag n s ready => ⟨fun zero => ?_, fun some => ?_⟩,
    fun tag q s ready => ⟨fun none => ?_, fun place here => ?_⟩,
    fun tag q s ready => ⟨fun none => ?_, fun place here => ?_⟩⟩
  · exact exec_refuses (c := .grant tag n) ready rfl (if_pos zero)
  · exact exec_accepts (c := .grant tag n) ready rfl (by decide) (if_neg some)
  · exact exec_refuses (c := .ackDeliveries tag q) ready rfl
      ((decideRequest_ackDeliveries tag q s.arrived).trans (decideAckDeliveries_of_notSent none))
  · exact exec_accepts (c := .ackDeliveries tag q) ready rfl (by decide)
      ((decideRequest_ackDeliveries tag q s.arrived).trans (decideAckDeliveries_of_sentAt here))
  · exact exec_refuses (c := .rewind tag q) ready rfl
      ((decideRequest_rewind tag q s.arrived).trans (decideRewind_of_notSent none))
  · refine exec_accepts (c := .rewind tag q) ready rfl (by decide)
      ((decideRequest_rewind tag q s.arrived).trans ((decideRewind_of_sentAt (s := s.arrived) here).trans ?_))
    rw [sentFrom_eq]
    rfl

/-! ### Queries (R101, R102, R151, R171, R172) -/

theorem decideQueryStation_of_unknown {s : State} {address : Byte} (unknown : ∀ e ∈ s.table, e.address ≠ address) :
    decideQueryStation address s = refuse .notFound s := by
  have none : findStation s.table address = none := by
    simpa [findStation, List.find?_eq_none] using unknown
  rw [decideQueryStation, none]

theorem decideQueryStation_of_found {s : State} {address : Byte} {e : StationEntry}
    (found : findStation s.table address = some e) : decideQueryStation address s = accept e.payload s := by
  rw [decideQueryStation, found]

theorem decideQueryCounters_of_setting {s : State} {clear : Byte} {c : Bool} (code : settingOfCode clear = some c) :
    decideQueryCounters clear s =
      accept ((blockCounters s).flatMap halfBytes) (if c then clearCounters s else s) := by
  rw [decideQueryCounters, code]

/-- Settles O19. -/
theorem queriesReport : Obligations.QueriesReport := by
  unfold Obligations.QueriesReport
  refine ⟨fun tag s ready => ?status, fun tag address s ready => ⟨fun unknown => ?missing, fun e found => ?station⟩,
    fun tag clear s ready => ⟨fun notOff notOn => ?range, fun keep => ?kept, fun clears => ?cleared⟩⟩
  case status => exact exec_accepts (c := .queryStatus tag) ready rfl (by decide) rfl
  case missing =>
    exact exec_refuses (c := .queryStation tag address) ready rfl
      (decideQueryStation_of_unknown (s := s.arrived) unknown)
  case station =>
    exact exec_accepts (c := .queryStation tag address) ready rfl (by decide)
      (decideQueryStation_of_found (s := s.arrived) found)
  case range =>
    refine exec_refuses (c := .queryCounters tag clear) ready rfl ?_
    simp [decideRequest, decideQueryCounters, settingOfCode_eq_none notOff notOn]
  case kept =>
    subst keep
    exact exec_accepts (c := .queryCounters tag 0#8) ready rfl (by decide)
      (decideQueryCounters_of_setting (s := s.arrived) (clear := 0#8) (c := false) rfl)
  case cleared =>
    subst clears
    exact exec_accepts (c := .queryCounters tag 1#8) ready rfl (by decide)
      (decideQueryCounters_of_setting (s := s.arrived) (clear := 1#8) (c := true) rfl)

/-! ### The arrival of a request (R158, R160) -/

theorem exec_of_receiving {c : Instr} {type : RequestType} {tag : Byte} {payload : List Byte} {s : State}
    (request : requestOf c = some (type, tag, payload)) (receiving : s.receiving = true) :
    exec c s = .next (finish (takeGood (requestBody type tag payload) (lineIdle { s with link := s.link.hunt }))) := by
  rw [exec_requestOf request, receiveRequest, if_pos receiving]

theorem handlerTake_of_busy {s : State} (busy : s.link.handlerFree = false) : handlerTake s = s := by
  unfold handlerTake
  split
  · rfl
  · exact if_neg (by simp [busy])

section
variable {body : List Byte} {s : State}

theorem takeGood_of_busy (busy : s.link.handlerFree = false) (place : s.link.inbox.length < inboxPlaces) :
    takeGood body s = { s with link :=
      { s.link with
        inbox := s.link.inbox ++ [body]
        counters := { s.link.counters with requestsReceived := satInc s.link.counters.requestsReceived } } } :=
  (if_pos place).trans (handlerTake_of_busy busy)

theorem takeGood_of_full (full : ¬s.link.inbox.length < inboxPlaces)
    (place : s.link.replies.countP Reply.isInboxFull < inboxFullPlaces) :
    takeGood body s = placeReply (inboxFullReply body) { s with link :=
      { s.link with counters :=
        { s.link.counters with
          requestsReceived := satInc s.link.counters.requestsReceived
          inboxFull := satInc s.link.counters.inboxFull } } } :=
  (if_neg full).trans (if_pos place)

theorem takeGood_of_overrun (full : ¬s.link.inbox.length < inboxPlaces)
    (none : ¬s.link.replies.countP Reply.isInboxFull < inboxFullPlaces) :
    takeGood body s = { s with link :=
      { s.link with counters :=
        { s.link.counters with
          requestsReceived := satInc s.link.counters.requestsReceived
          dropped := satInc s.link.counters.dropped } } } :=
  (if_neg full).trans (if_neg none)

end

/-- Settles O20. -/
theorem requestsAreTakenInOrder : Obligations.RequestsAreTakenInOrder := by
  unfold Obligations.RequestsAreTakenInOrder
  intro c type tag payload s request
  refine ⟨fun deaf => ?_, fun ready => exec_of_ready ready request, fun receiving busy place => ?_,
    fun receiving full place => ?_, fun receiving full none => ?_⟩
  · rw [exec_requestOf request, receiveRequest_deaf deaf]
  · rw [exec_of_receiving request receiving,
      takeGood_of_busy (s := lineIdle { s with link := s.link.hunt }) busy place]
    rfl
  · rw [exec_of_receiving request receiving,
      takeGood_of_full (s := lineIdle { s with link := s.link.hunt }) (Nat.not_lt.mpr full) place]
    rfl
  · rw [exec_of_receiving request receiving,
      takeGood_of_overrun (s := lineIdle { s with link := s.link.hunt }) (Nat.not_lt.mpr full) (Nat.not_lt.mpr none)]
    rfl

end Sys2Proof.Machine

/-!
PROOFS. The host link line (R149, R152 to R157, R160, R163 to R166, R168): what a character, a gap, a break and the end
of a transmission do, and how a rescan reads the bytes retained.
-/

namespace Sys2Proof.Machine

/-! ### What the bytes after a start code show (R153, R154) -/

section
variable {l1 l0 : Byte} {rest : List Byte}

theorem goodLength_iff {n : Nat} : goodLength n = true ↔ 2 ≤ n ∧ n ≤ 1400 := by
  rw [goodLength, Bool.and_eq_true, decide_eq_true_iff, decide_eq_true_iff]
  rfl

theorem readMessage_of_badLength (bad : (l1 ++ l0).toNat < 2 ∨ 1400 < (l1 ++ l0).toNat) :
    readMessage (l1 :: l0 :: rest) = .bad := by
  have length : goodLength (halfOf l1 l0).toNat = false := by
    rw [Bool.eq_false_iff, ne_eq, goodLength_iff, halfOf]
    omega
  simp [readMessage, length]

theorem readMessage_of_goodLength (least : 2 ≤ (l1 ++ l0).toNat) (most : (l1 ++ l0).toNat ≤ 1400) :
    readMessage (l1 :: l0 :: rest) =
      if rest.length < (l1 ++ l0).toNat then .inProgress .body
      else if rest.length < (l1 ++ l0).toNat + 2 then .inProgress .check
      else if halfBytes (crc16 (l1 :: l0 :: rest.take (l1 ++ l0).toNat)) = (rest.drop (l1 ++ l0).toNat).take 2 then
        .good (rest.take (l1 ++ l0).toNat)
      else .bad := by
  have length : goodLength (l1 ++ l0).toNat = true := goodLength_iff.mpr ⟨least, most⟩
  simp [readMessage, halfOf, length] <;> rfl

/-- A message in full: length, body and the two bytes of a check. -/
theorem readMessage_of_whole {k1 k0 : Byte} {body : List Byte} (length : body.length = (l1 ++ l0).toNat)
    (least : 2 ≤ body.length) (most : body.length ≤ 1400) :
    readMessage (l1 :: l0 :: (body ++ k1 :: k0 :: rest)) =
      if halfBytes (crc16 (l1 :: l0 :: body)) = [k1, k0] then .good body else .bad := by
  rw [readMessage_of_goodLength (length ▸ least) (length ▸ most), ← length]
  simp

/-- The bytes leave a message incomplete exactly as the statements say it. -/
theorem readMessage_of_unfinished {bytes : List Byte} {st : RxState} (h : unfinished bytes st) :
    readMessage bytes = .inProgress st := by
  rcases h with ⟨short, rfl⟩ | ⟨l1, l0, rest, rfl, least, most, state⟩
  · match bytes, short with
    | [], _ => rfl
    | [_], _ => rfl
  · rw [readMessage_of_goodLength least most]
    rcases state with ⟨inBody, rfl⟩ | ⟨whole, inCheck, rfl⟩
    · rw [if_pos inBody]
    · rw [if_neg (Nat.not_lt.mpr whole), if_pos inCheck]

end

/-! ### A character in a message in progress (R153, R154) -/

section
variable {c : Byte} {s : State}

theorem joinMessage_of_inProgress {st : RxState} (h : readMessage (s.link.retained ++ [c]).tail = .inProgress st) :
    joinMessage c s = { s with link := s.link.goOn st (s.link.retained ++ [c]) } := by
  simp only [joinMessage, h]

theorem joinMessage_of_bad (h : readMessage (s.link.retained ++ [c]).tail = .bad) :
    joinMessage c s = rescan false 0 (s.link.retained ++ [c]).tail (countCheckError s) := by
  simp only [joinMessage, h, resume]

theorem joinMessage_of_good {body : List Byte} (h : readMessage (s.link.retained ++ [c]).tail = .good body) :
    joinMessage c s = takeGood body { s with link := s.link.hunt } := by
  simp only [joinMessage, h]

theorem takeCharacter_of_message
    (h : s.link.receiver = .length ∨ s.link.receiver = .body ∨ s.link.receiver = .check) :
    takeCharacter c s = joinMessage c s := by
  rcases h with state | state | state <;> simp only [takeCharacter, state]

theorem exec_rxdCharacterReceived (receiving : s.receiving = true) :
    exec (.rxdCharacterReceived c) s = .next (finish (takeCharacter c (heard s))) :=
  congrArg Host.Outcome.next (if_pos receiving)

theorem exec_linkMessageComplete (receiving : s.receiving = true) :
    exec (.linkMessageComplete c) s = .next (finish (takeCharacter c (heard s))) :=
  congrArg Host.Outcome.next (if_pos receiving)

end

/-- Settles O22. -/
theorem charactersBuildMessages : Obligations.CharactersBuildMessages := by
  unfold Obligations.CharactersBuildMessages
  refine fun c s => ⟨fun deaf => ?deaf, fun receiving hunt => ⟨fun start => ?start, fun other => ?other⟩,
    fun receiving state retained => ?length, fun l1 l0 body receiving state least most retained within => ?body,
    fun l1 l0 body receiving state least most retained whole => ?check⟩
  case deaf => exact congrArg Host.Outcome.next (if_neg (by simp [deaf]))
  case start =>
    have taken : takeCharacter c (heard s) = { heard s with link := (heard s).link.goOn .length [c] } := by
      simp only [takeCharacter, heard, hunt]
      exact if_pos start
    rw [exec_rxdCharacterReceived receiving, taken, start]
    rfl
  case other =>
    have taken : takeCharacter c (heard s) = heard s := by
      simp only [takeCharacter, heard, hunt]
      exact if_neg other
    rw [exec_rxdCharacterReceived receiving, taken]
  case length =>
    have reading : readMessage ((heard s).link.retained ++ [c]).tail = .inProgress .length := by
      simp [heard, retained, readMessage]
    rw [exec_rxdCharacterReceived receiving, takeCharacter_of_message (s := heard s) (.inl state),
      joinMessage_of_inProgress reading, ← state]
    simp [heard, retained, Link.goOn]
  case body =>
    have reading : readMessage ((heard s).link.retained ++ [c]).tail =
        .inProgress (if body.length + 1 = (l1 ++ l0).toNat then .check else .body) := by
      refine readMessage_of_unfinished (.inr ⟨l1, l0, body ++ [c], by simp [heard, retained], least, most, ?_⟩)
      split <;> simp <;> omega
    rw [exec_rxdCharacterReceived receiving, takeCharacter_of_message (s := heard s) (.inr (.inl state)),
      joinMessage_of_inProgress reading]
    rfl
  case check =>
    have reading : readMessage ((heard s).link.retained ++ [c]).tail = .inProgress .check := by
      refine readMessage_of_unfinished (.inr ⟨l1, l0, body ++ [c], by simp [heard, retained], least, most, .inr ?_⟩)
      simp [whole]
    rw [exec_rxdCharacterReceived receiving, takeCharacter_of_message (s := heard s) (.inr (.inr state)),
      joinMessage_of_inProgress reading, ← state]
    rfl

/-- Settles O23. -/
theorem messageCompleteIsTested : Obligations.MessageCompleteIsTested := by
  unfold Obligations.MessageCompleteIsTested
  intro c l1 s receiving h
  refine ⟨fun state retained => ⟨fun bad => ?badLength, fun least most => ?goodLength⟩,
    fun l0 body k1 state retained length least most => ?tested⟩
  case badLength =>
    have tail : (h.link.retained ++ [c]).tail = [l1, c] := by simp [h, heard, retained]
    have reading : readMessage (h.link.retained ++ [c]).tail = .bad := by
      rw [tail, readMessage_of_badLength bad]
    rw [exec_linkMessageComplete receiving, takeCharacter_of_message (s := h) (.inl state),
      joinMessage_of_bad reading, tail]
    rfl
  case goodLength =>
    have reading : readMessage (h.link.retained ++ [c]).tail = .inProgress .body := by
      refine readMessage_of_unfinished (.inr ⟨l1, c, [], by simp [h, heard, retained], least, most, .inl ⟨?_, rfl⟩⟩)
      simp only [List.length_nil]
      omega
    rw [exec_linkMessageComplete receiving, takeCharacter_of_message (s := h) (.inl state),
      joinMessage_of_inProgress reading]
    simp [h, heard, retained, Link.goOn]
  case tested =>
    have tail : (h.link.retained ++ [c]).tail = l1 :: l0 :: body ++ [k1, c] := by simp [h, heard, retained]
    have read := readMessage_of_whole (rest := []) (k1 := k1) (k0 := c) length least most
    have joined : exec (.linkMessageComplete c) s = .next (finish (joinMessage c h)) := by
      rw [exec_linkMessageComplete receiving, takeCharacter_of_message (s := h) (.inr (.inr state))]
    refine ⟨fun agrees => ?_, fun differs => ?_⟩
    · rw [joined, joinMessage_of_good (body := body) (by rw [tail]; exact read.trans (if_pos agrees.symm))]
      rfl
    · rw [joined, joinMessage_of_bad (by rw [tail]; exact read.trans (if_neg differs.symm)), tail]
      rfl

/-! ### The rescan (R155, R156) -/

theorem rescan_cons_of_ne {b : Byte} (other : b ≠ startCode) (gap : Bool) (rest : List Byte) (s : State) :
    rescan gap 0 (b :: rest) s = rescan gap 0 rest s := by
  rw [rescan, if_pos other]

theorem rescan_nil (gap : Bool) (skip : Nat) (s : State) :
    rescan gap skip [] s = { s with link := s.link.hunt } := by
  rw [rescan]

theorem rescan_junk {junk : List Byte} (none : ∀ b ∈ junk, b ≠ startCode) (gap : Bool) (rest : List Byte) (s : State) :
    rescan gap 0 (junk ++ rest) s = rescan gap 0 rest s := by
  induction junk with
  | nil => rfl
  | cons b junk ih =>
    obtain ⟨other, none⟩ := List.forall_mem_cons.mp none
    rw [List.cons_append, rescan_cons_of_ne other, ih none]

/-- The bytes of a message already taken are passed over. -/
theorem rescan_skip (gap : Bool) (taken rest : List Byte) (s : State) :
    rescan gap taken.length (taken ++ rest) s = rescan gap 0 rest s := by
  induction taken with
  | nil => rfl
  | cons b taken ih => rw [List.length_cons, List.cons_append, rescan, ih]

section
variable {gap : Bool} {rest : List Byte} {s : State}

theorem rescan_of_bad (reading : readMessage rest = .bad) :
    rescan gap 0 (startCode :: rest) s = rescan gap 0 rest (countCheckError s) := by
  rw [rescan, if_neg (not_not.mpr rfl), reading]

theorem rescan_of_good {body : List Byte} (reading : readMessage rest = .good body) :
    rescan gap 0 (startCode :: rest) s = rescan gap (body.length + 4) rest (takeGood body s) := by
  rw [rescan, if_neg (not_not.mpr rfl), reading]

theorem rescan_of_inProgress {st : RxState} (reading : readMessage rest = .inProgress st) :
    rescan gap 0 (startCode :: rest) s =
      if gap then rescan gap 0 rest s else { s with link := s.link.goOn st (startCode :: rest) } := by
  rw [rescan, if_neg (not_not.mpr rfl), reading]

end

/-- A framed body is its length, itself and its check, after the start code. -/
theorem frameMessage_append (body rest : List Byte) : ∃ l1 l0 k1 k0,
    (l1 ++ l0 : Half) = natHalf body.length ∧ [k1, k0] = halfBytes (crc16 (l1 :: l0 :: body)) ∧
    frameMessage body ++ rest = startCode :: l1 :: l0 :: (body ++ k1 :: k0 :: rest) := by
  refine ⟨(natHalf body.length).extractLsb' 8 8, (natHalf body.length).extractLsb' 0 8, _, _,
    halfOf_extract _, rfl, ?_⟩
  simp [frameMessage, halfBytes]

theorem rescan_frameMessage {body : List Byte} (least : 2 ≤ body.length) (most : body.length ≤ 1400) (gap : Bool)
    (rest : List Byte) (s : State) :
    rescan gap 0 (frameMessage body ++ rest) s = rescan gap 0 rest (takeGood body s) := by
  obtain ⟨l1, l0, k1, k0, length, check, framed⟩ := frameMessage_append body rest
  have lengthNat : body.length = (l1 ++ l0).toNat := by
    rw [length, natHalf, BitVec.toNat_ofNat]
    omega
  have reading := readMessage_of_whole (rest := rest) (k1 := k1) (k0 := k0) lengthNat least most
  rw [framed, rescan_of_good (reading.trans (if_pos check.symm))]
  have passed : body.length + 4 = (l1 :: l0 :: (body ++ [k1, k0])).length := by simp
  rw [passed, ← rescan_skip gap (l1 :: l0 :: (body ++ [k1, k0])) rest]
  simp

/-- Settles O24. -/
theorem rescanFindsMessages : Obligations.RescanFindsMessages := by
  unfold Obligations.RescanFindsMessages
  refine ⟨fun gap bytes s none => ?none, fun gap junk rest s none => rescan_junk none gap rest s,
    fun gap body rest s least most => rescan_frameMessage least most gap rest s,
    fun gap l1 l0 rest s bad => rescan_of_bad (readMessage_of_badLength bad),
    fun gap l1 l0 k1 k0 body rest s length least most differs => ?badCheck,
    fun rest st s incomplete => ⟨?goesOn, ?discarded⟩⟩
  case none =>
    calc rescan gap 0 bytes s
      _ = rescan gap 0 (bytes ++ []) s := by rw [List.append_nil]
      _ = rescan gap 0 [] s := rescan_junk none gap [] s
      _ = _ := rescan_nil gap 0 s
  case badCheck =>
    have reading := readMessage_of_whole (rest := rest) (k1 := k1) (k0 := k0) length least most
    exact rescan_of_bad (reading.trans (if_neg differs.symm))
  case goesOn => exact rescan_of_inProgress (readMessage_of_unfinished incomplete)
  case discarded => exact rescan_of_inProgress (readMessage_of_unfinished incomplete)

end Sys2Proof.Machine

namespace Sys2Proof.Machine

/-! ### Gaps, character errors and breaks (R156, R157, R166) -/

theorem takeCharacterError_of_hunt {s : State} (hunt : s.link.receiver = .hunt) :
    takeCharacterError s =
      countLink (fun c => { c with characterErrors := satInc c.characterErrors }) (lineIdle s) := if_pos hunt

theorem takeCharacterError_of_message {s : State} (message : s.link.receiver ≠ .hunt) :
    takeCharacterError s = rescan false 0 s.link.retained.tail
      (countLink (fun c => { c with characterErrors := satInc c.characterErrors }) (lineIdle s)) := if_neg message

theorem exec_characterError {s : State} (released : s.resetAsserted = false) (line : s.link.receiver ≠ .brk) :
    exec .characterError s = .next (finish (takeCharacterError s)) :=
  congrArg Host.Outcome.next (if_neg (by simp [released, line]))

/-- Settles O25. -/
theorem gapsAndCharacterErrorsDiscard : Obligations.GapsAndCharacterErrorsDiscard := by
  unfold Obligations.GapsAndCharacterErrorsDiscard
  refine ⟨fun s => ⟨fun still => ?still, fun b rest runs retained => ?gap⟩,
    fun s => ⟨fun deaf => ?deaf, fun released hunt => ?hunt, fun b rest released message retained => ?message⟩⟩
  case still => exact congrArg Host.Outcome.next (if_neg (by simp [still]))
  case gap =>
    calc exec .gapTimerExpiry s
      _ = .next (finish (gapDiscard s)) := congrArg Host.Outcome.next (if_pos runs)
      _ = _ := by rw [gapDiscard, resume, retained]; rfl
  case deaf => exact congrArg Host.Outcome.next (if_pos deaf)
  case hunt =>
    rw [exec_characterError released (by simp [hunt]), takeCharacterError_of_hunt hunt]
    rfl
  case message =>
    have line : s.link.receiver ≠ .brk ∧ s.link.receiver ≠ .hunt := by
      rcases message with state | state | state <;> simp [state]
    rw [exec_characterError released line.1, takeCharacterError_of_message line.2, retained]
    rfl

theorem addRestarted_eq (l : List Announcement) :
    addRestarted l = if .linkRestarted ∈ l then l else l ++ [.linkRestarted] := by
  simp only [addRestarted, List.contains_iff_mem]

/-- Settles O26. -/
theorem linkResetRestartsTheLink : Obligations.LinkResetRestartsTheLink := by
  unfold Obligations.LinkResetRestartsTheLink
  refine ⟨fun s released line => ?reset, fun s still => congrArg Host.Outcome.next (if_pos still),
    fun s broken => congrArg Host.Outcome.next (if_pos broken),
    fun s line => congrArg Host.Outcome.next (if_neg line)⟩
  rw [← addRestarted_eq]
  exact congrArg Host.Outcome.next (if_neg (by simp [released, line]))

/-! ### The end of a transmission (R160, R164) -/

theorem handlerTake_of_empty {s : State} (empty : s.link.inbox = []) : handlerTake s = s := by
  rw [handlerTake, empty]

theorem handlerTake_of_free {s : State} {body : List Byte} {rest : List (List Byte)}
    (waits : s.link.inbox = body :: rest) (free : s.link.handlerFree = true) :
    handlerTake s = handleRequest body { s with link := { s.link with inbox := rest } } := by
  rw [handlerTake, waits]
  exact if_pos free

theorem exec_transmissionEnd {s : State} {m : TxMessage} (sending : s.link.tx = some m)
    (other : m.isResetReply = false ∨ s.link.softResetPending = false) :
    exec .transmissionEnd s = .next (finish (handlerTake { s with link := { s.link with tx := none } })) := by
  have ends : endTransmission m s = handlerTake { s with link := { s.link with tx := none } } :=
    if_neg fun ⟨marked, pending⟩ => by simp [marked, pending] at other
  rw [← ends]
  simp only [exec, execTransmissionEnd, sending]

/-- Settles O27. -/
theorem transmissionEndFreesTxd : Obligations.TransmissionEndFreesTxd := by
  unfold Obligations.TransmissionEndFreesTxd
  refine ⟨fun s idle => ?idle, fun m s sending other => ⟨fun waits => ?waits, fun body rest waiting free => ?free⟩⟩
  case idle => simp only [exec, execTransmissionEnd, idle]
  case waits =>
    rw [exec_transmissionEnd sending other]
    rcases waits with empty | busy
    · rw [handlerTake_of_empty (s := { s with link := { s.link with tx := none } }) empty]
    · rw [handlerTake_of_busy (s := { s with link := { s.link with tx := none } }) busy]
  case free =>
    rw [exec_transmissionEnd sending other,
      handlerTake_of_free (s := { s with link := { s.link with tx := none } }) waiting free]

/-! ### The end of an event, and TXD (R140, R143, R152, R163, R164) -/

theorem noteRelease_eq (s : State) : noteRelease s = { s with
    store := { s.store with releasedInEvent := false }
    notices := { s.notices with
      space := if s.store.releasedInEvent then s.notices.space + 1 else s.notices.space } } := by
  unfold noteRelease
  split
  · rfl
  · rename_i clear
    rw [← Bool.eq_false_of_not_eq_true clear]

section
variable {s : State}

theorem arbitrate_of_sending (sending : s.link.tx ≠ none) : arbitrate s = s := by
  obtain ⟨m, sending⟩ := Option.ne_none_iff_exists'.mp sending
  rw [arbitrate, sending]

theorem arbitrate_announces {a : Announcement} {rest : List Announcement} (free : s.link.tx = none)
    (announcements : s.link.announcements = a :: rest) : arbitrate s =
      { s with link := { s.link with announcements := rest, tx := some (.announcement a) } } := by
  simp only [arbitrate, free, announcements]

theorem arbitrate_replies {r : Reply} {rest : List Reply} (free : s.link.tx = none)
    (announcements : s.link.announcements = []) (replies : s.link.replies = r :: rest) : arbitrate s =
      { s with link := { s.link with replies := rest, tx := some (.reply r) } } := by
  simp only [arbitrate, free, announcements, replies]

theorem arbitrate_of_no_offer (free : s.link.tx = none) (announcements : s.link.announcements = [])
    (replies : s.link.replies = []) (offer : s.store.offer = none) : arbitrate s = s := by
  simp only [arbitrate, free, announcements, replies, offer]

theorem arbitrate_delivers {r : Record} (free : s.link.tx = none) (announcements : s.link.announcements = [])
    (replies : s.link.replies = []) (offer : s.store.offer = some r) : arbitrate s =
      { s with link := { s.link with tx := some (.delivery r) }, store := s.store.beginTransmission } := by
  simp only [arbitrate, free, announcements, replies, offer]

end

theorem Record.isUnsent_eq_false_iff (r : Record) : r.isUnsent = false ↔ r.region = .sentUnacknowledged := by
  unfold Record.isUnsent
  cases r.region <;> decide

theorem offer_eq_none {st : Store}
    (h : st.credits = 0 ∨ ∀ r ∈ st.records, r.region = .sentUnacknowledged) : st.offer = none := by
  unfold Store.offer
  split
  · rfl
  · rename_i credit
    have sent := h.resolve_left credit
    exact List.find?_eq_none.mpr fun r mem => by simp [(Record.isUnsent_eq_false_iff r).mpr (sent r mem)]

theorem offer_eq_some {st : Store} {older younger : List Record} {r : Record} (credit : st.credits ≠ 0)
    (records : st.records = older ++ r :: younger) (sent : ∀ x ∈ older, x.region = .sentUnacknowledged)
    (unsent : r.region = .unsent) : st.offer = some r := by
  rw [Store.offer, if_neg credit, records, List.find?_append, List.find?_eq_none.mpr fun x mem => by
    simp [(Record.isUnsent_eq_false_iff x).mpr (sent x mem)]]
  simp [(Record.isUnsent_iff r).mpr unsent]

theorem beginTransmission_eq {st : Store} {older younger : List Record} {r : Record}
    (records : st.records = older ++ r :: younger) (sent : ∀ x ∈ older, x.region = .sentUnacknowledged)
    (unsent : r.region = .unsent) : st.beginTransmission = { st with
      records := older ++ { r with region := .sentUnacknowledged } :: younger, credits := st.credits - 1 } := by
  rw [Store.beginTransmission, records,
    sendOldest_append_sent fun x mem => (Record.isUnsent_eq_false_iff x).mpr (sent x mem), sendOldest,
    if_pos ((Record.isUnsent_iff r).mpr unsent)]

theorem txd_of_sending {s : State} {m : TxMessage} (released : s.resetAsserted = false) (sending : s.link.tx = some m) :
    s.txd = .characters (lineBitRate s.link.rateCode) ((frameMessage m.body).flatMap characterBits) := by
  simp [State.txd, released, sending]

/-- Settles O28. -/
theorem eventsEndWithTheNoticeAndTheNextMessage : Obligations.EventsEndWithTheNoticeAndTheNextMessage := by
  unfold Obligations.EventsEndWithTheNoticeAndTheNextMessage
  refine ⟨fun s quiet => ?idle, fun m s released sending => ⟨?bits, ?rate0, ?rate1, ?rate2, ?rate3⟩, fun s => ?ends⟩
  case idle => rcases quiet with asserted | idle <;> simp [State.txd, *]
  case bits =>
    simp only [List.length_flatMap, List.length_cons, List.length_nil, List.map_const', List.sum_replicate,
      smul_eq_mul, Nat.zero_add, Nat.reduceAdd, Nat.mul_comm]
  case rate0 => intro rate; rw [txd_of_sending released sending, rate]; rfl
  case rate1 => intro rate; rw [txd_of_sending released sending, rate]; rfl
  case rate2 => intro rate; rw [txd_of_sending released sending, rate]; rfl
  case rate3 => intro rate; rw [txd_of_sending released sending, rate]; rfl
  case ends =>
    intro u
    have noted : noteRelease s = u := noteRelease_eq s
    have ends : finish s = arbitrate u := congrArg arbitrate noted
    rw [ends]
    refine ⟨fun sending => arbitrate_of_sending (s := u) sending, fun free => ⟨fun a rest announcements => ?_,
      fun announcements => ⟨fun r rest replies => ?_, fun replies => ⟨fun none => ?_, ?_⟩⟩⟩⟩
    · exact arbitrate_announces (s := u) free announcements
    · exact arbitrate_replies (s := u) free announcements replies
    · exact arbitrate_of_no_offer (s := u) free announcements replies (offer_eq_none (st := u.store) none)
    · intro older r younger credit records sent unsent
      rw [arbitrate_delivers (s := u) free announcements replies
        (offer_eq_some (st := u.store) credit records sent unsent),
        beginTransmission_eq (st := u.store) records sent unsent]

end Sys2Proof.Machine

/-!
PROOFS. The ring (O30 to O34): what a good return is, how an attempt ends, and how a circulation's end is handed on.
-/

namespace Sys2Proof.Machine

/-! ### The bytes of a return (R12, R14, R174) -/

theorem natByte_toNat {n : Nat} (h : n < 256) : (natByte n).toNat = n := by
  rw [natByte, BitVec.toNat_ofNat]
  exact Nat.mod_eq_of_lt h

theorem natByte_of_toNat (b : Byte) : natByte b.toNat = b := by simp [natByte]

theorem statusOfCode_code (st : ReplyStatus) : statusOfCode st.code = some st := by cases st <;> rfl

theorem code_of_statusOfCode {b : Byte} {st : ReplyStatus} (h : statusOfCode b = some st) : b = st.code := by
  unfold statusOfCode at h
  (repeat' split at h) <;> cases h <;> assumption

theorem eq_of_settingOfCode {b : Byte} {flag : Bool} (h : settingOfCode b = some flag) :
    b = if flag then 0x01#8 else 0x00#8 := by
  unfold settingOfCode at h
  (repeat' split at h) <;> cases h <;> assumption

/-- The CALL body a return carries for the body sent, with what the station filled in. -/
def callReturn (b : CallBody) (served status : Byte) (data : List Byte) : List Byte :=
  ([b.target, b.operation.code, b.object, natByte b.outData.length] ++ b.outData ++ [natByte b.capacity]) ++
    [served, status, natByte data.length] ++ data

def reportBytes (r : ReportItem) : List Byte := [r.address, r.sequence, r.code, natByte r.data.length] ++ r.data

/-- The WINDOW body a return carries for the acknowledgement list sent, with what the stations filled in. -/
def windowReturn (acks : List AckPair) (remaining : Byte) (items : List ReportItem) (deferred : Byte) : List Byte :=
  natByte acks.length :: (ackBytes acks ++ remaining :: natByte items.length :: deferred :: items.flatMap reportBytes)

theorem wellFormedReturn_window (acks : List AckPair) (body : List Byte) (res : CirculationResult) :
    wellFormedReturn (.window acks) body res ↔ ∃ remaining items deferred, res = .window items deferred.toNat ∧
      (∀ r ∈ items, r.sequence.toNat ≤ 7 ∧ r.data.length ≤ 16) ∧ remaining.toNat + reportsSize items = 96 ∧
      body = windowReturn acks remaining items deferred := by
  simp only [wellFormedReturn, windowReturn, List.cons_append, List.nil_append, List.append_assoc]
  exact Iff.rfl

theorem wellFormedReturn_call (b : CallBody) (body : List Byte) (res : CirculationResult) :
    wellFormedReturn (.call b) body res ↔
      (∃ data, data.length = b.capacity ∧ res = .served .ok data ∧
        body = callReturn b 0x01#8 ReplyStatus.ok.code data) ∨
      (∃ st, st ≠ .ok ∧ res = .served st [] ∧ body = callReturn b 0x01#8 st.code []) ∨
      (∃ st : ReplyStatus, res = .missed ∧ body = callReturn b 0x00#8 st.code []) := by
  have none : natByte 0 = 0#8 := rfl
  simp only [wellFormedReturn, callReturn, List.length_nil, List.append_nil, none]

/-! The fields of the kinds, read back from the bytes. -/

theorem readCall_callReturn {b : CallBody} (served status : Byte) (data : List Byte) :
    (settingOfCode served = some false → statusOfCode status ≠ none → data = [] →
      readCall b (callReturn b served status data) = some .missed) ∧
    (settingOfCode served = some true → status = ReplyStatus.ok.code → data.length = b.capacity →
      readCall b (callReturn b served status data) = some (.served .ok data)) ∧
    ∀ st, settingOfCode served = some true → statusOfCode status = some st → st ≠ .ok → data = [] →
      readCall b (callReturn b served status data) = some (.served st []) := by
  refine ⟨fun clear known empty => ?_, fun set ok length => ?_, fun st set known other empty => ?_⟩
  · obtain ⟨st, known⟩ := Option.ne_none_iff_exists'.mp known
    subst empty
    simp [readCall, callReturn, clear, known, natByte]
  · subst ok
    simp [readCall, callReturn, set, statusOfCode_code, length]
  · subst empty
    cases st <;> simp_all [readCall, callReturn, natByte]

theorem callExtent_callReturn {b : CallBody} (range : b.outData.length ≤ 32) (served status : Byte) {data : List Byte}
    (length : data.length ≤ 32) (kind tag hop : Byte) (tail : List Byte) :
    callExtent (kind :: tag :: hop :: callReturn b served status data ++ tail) =
      some ((callReturn b served status data).length + 5) := by
  have out : (natByte b.outData.length).toNat = b.outData.length := natByte_toNat (by omega)
  have reply : (natByte data.length).toNat = data.length := natByte_toNat (by omega)
  simp only [callExtent, callReturn, List.cons_append, List.append_assoc, List.getElem?_cons_succ, List.nil_append,
    List.getElem?_cons_zero, out, show 10 + b.outData.length = (b.outData.length + 3) + 7 by omega]
  rw [List.getElem?_append_right (by omega), show b.outData.length + 3 - b.outData.length = 3 by omega]
  simp only [List.getElem?_cons_succ, List.getElem?_cons_zero, reply, List.length_cons, List.length_append]
  congr 1
  omega

theorem readEntries_flatMap (entries : List (Byte × Byte)) :
    readEntries (entries.flatMap (fun e => [e.1, e.2])) = entries := by
  induction entries with
  | nil => rfl
  | cons e rest ih => simp [readEntries, ih]

theorem flatMap_readEntries {l : List Byte} (even : l.length % 2 = 0) :
    (readEntries l).flatMap (fun e => [e.1, e.2]) = l := by
  induction l using readEntries.induct with
  | case1 a k rest ih =>
    simp only [List.length_cons] at even
    simp [readEntries, ih (by omega)]
  | case2 l other =>
    match l, other, even with
    | [], _, _ => rfl
    | [_], _, even => simp at even
    | a :: k :: rest, other, _ => exact absurd rfl (other a k rest)

theorem length_flatMap_pair {α : Type} (f g : α → Byte) (l : List α) :
    (l.flatMap (fun e => [f e, g e])).length = 2 * l.length := by
  simp only [List.length_flatMap, List.length_cons, List.length_nil, List.map_const', List.sum_replicate,
    smul_eq_mul, Nat.zero_add, Nat.reduceAdd, Nat.mul_comm]

theorem length_flatMap_reportBytes (items : List ReportItem) :
    (items.flatMap reportBytes).length = reportsSize items := by
  simp only [List.length_flatMap, reportsSize, reportBytes, List.length_append, List.length_cons, List.length_nil]

theorem reportsSize_cons (r : ReportItem) (rest : List ReportItem) :
    reportsSize (r :: rest) = 4 + r.data.length + reportsSize rest := rfl

theorem readReports_cons {n : Nat} (a s c len : Byte) (l : List Byte) :
    readReports (n + 1) (a :: s :: c :: len :: l) =
      ⟨a, s, c, l.take len.toNat⟩ :: readReports n (l.drop len.toNat) := rfl

theorem reportsExtent_cons {n : Nat} (a s c len : Byte) (l : List Byte) :
    reportsExtent (n + 1) (a :: s :: c :: len :: l) =
      (reportsExtent n (l.drop len.toNat)).map (fun rest => 4 + len.toNat + rest) := by
  have skip : (a :: s :: c :: len :: l).drop (4 + len.toNat) = l.drop len.toNat := by
    rw [Nat.add_comm]
    rfl
  simp only [reportsExtent, List.getElem?_cons_succ, List.getElem?_cons_zero, skip]
  cases reportsExtent n (l.drop len.toNat) <;> rfl

theorem reportBytes_append (r : ReportItem) (l : List Byte) :
    reportBytes r ++ l = r.address :: r.sequence :: r.code :: natByte r.data.length :: (r.data ++ l) := rfl

section
variable {items : List ReportItem} (short : ∀ r ∈ items, r.data.length ≤ 16)
include short

theorem readReports_flatMap (tail : List Byte) :
    readReports items.length (items.flatMap reportBytes ++ tail) = items := by
  induction items with
  | nil => rfl
  | cons r rest ih =>
    obtain ⟨first, others⟩ := List.forall_mem_cons.mp short
    have length : (natByte r.data.length).toNat = r.data.length := natByte_toNat (by omega)
    rw [List.flatMap_cons, List.append_assoc, reportBytes_append, List.length_cons, readReports_cons, length,
      List.take_left, List.drop_left, ih others]

theorem reportsExtent_flatMap (tail : List Byte) :
    reportsExtent items.length (items.flatMap reportBytes ++ tail) = some (reportsSize items) := by
  induction items with
  | nil => rfl
  | cons r rest ih =>
    obtain ⟨first, others⟩ := List.forall_mem_cons.mp short
    have length : (natByte r.data.length).toNat = r.data.length := natByte_toNat (by omega)
    rw [List.flatMap_cons, List.append_assoc, reportBytes_append, List.length_cons, reportsExtent_cons, length,
      List.drop_left, ih others, reportsSize_cons]
    rfl

end

theorem eq_cons_of_four_le {l : List Byte} (h : 4 ≤ l.length) : ∃ a b c d rest, l = a :: b :: c :: d :: rest := by
  match l, h with
  | a :: b :: c :: d :: rest, _ => exact ⟨a, b, c, d, rest, rfl⟩

theorem four_le_of_reportsExtent {k n : Nat} {l : List Byte} (h : reportsExtent (k + 1) l = some n) : 4 ≤ n := by
  unfold reportsExtent at h
  (repeat' split at h) <;> cases h
  omega

/-- The records whose extent lies within the bytes are read whole, and give those bytes back. -/
theorem readReports_of_extent {k n : Nat} {records tail : List Byte}
    (extent : reportsExtent k (records ++ tail) = some n) (within : n ≤ records.length) :
    (readReports k records).length = k ∧ (readReports k records).flatMap reportBytes = records.take n := by
  induction k generalizing records n with
  | zero =>
    cases extent
    exact ⟨rfl, rfl⟩
  | succ k ih =>
    obtain ⟨a, s, c, len, more, rfl⟩ := eq_cons_of_four_le ((four_le_of_reportsExtent extent).trans within)
    simp only [List.cons_append, reportsExtent_cons, Option.map_eq_some_iff] at extent
    obtain ⟨rest, extent, rfl⟩ := extent
    simp only [List.length_cons] at within
    rw [List.drop_append_of_le_length (by omega)] at extent
    obtain ⟨count, bytes⟩ := ih extent (by rw [List.length_drop]; omega)
    have data : (more.take len.toNat).length = len.toNat := by rw [List.length_take]; omega
    rw [readReports_cons, List.length_cons, count, List.flatMap_cons, bytes, reportBytes_append]
    refine ⟨rfl, ?_⟩
    simp only [data, natByte_of_toNat]
    rw [show 4 + len.toNat + rest = len.toNat + rest + 4 by omega]
    simp only [List.take_succ_cons, List.take_add]

/-! ### Good frames -/

theorem length_halfBytes (h : Half) : (halfBytes h).length = 2 := rfl

/-- A frame of the extent its fields give, no longer than the longest of its kind, with its check: a good one (R12). -/
theorem goodFrame_sealed {kind : Byte} {rest : List Byte}
    (extent : frameExtent kind (sealed (kind :: rest)) = some (rest.length + 3))
    (short : rest.length + 3 ≤ longestFrame kind) : goodFrame (sealed (kind :: rest)) = some (kind :: rest) := by
  have length : (sealed (kind :: rest)).length = rest.length + 3 := by
    simp [sealed, length_halfBytes]
  have covered : (sealed (kind :: rest)).take (rest.length + 3 - 2) = kind :: rest := by
    rw [sealed, List.take_append_of_le_length (by simp)]
    exact List.take_of_length_le (by simp)
  have check : ((sealed (kind :: rest)).take (rest.length + 3)).drop (rest.length + 3 - 2) =
      halfBytes (crc16 (kind :: rest)) := by
    rw [List.take_of_length_le length.le, sealed]
    exact List.drop_left' (by simp)
  have bytes : sealed (kind :: rest) = kind :: (rest ++ halfBytes (crc16 (kind :: rest))) := rfl
  unfold goodFrame
  rw [bytes]
  simp only
  rw [← bytes, extent]
  simp only
  rw [if_neg (by omega), if_pos (by rw [covered, check]), covered]

/-! ### Well-formed returns are read with their result, and only they -/

theorem length_ackBytes (acks : List AckPair) : (ackBytes acks).length = 2 * acks.length := length_flatMap_pair _ _ acks

theorem four_mul_length_le_reportsSize (items : List ReportItem) : 4 * items.length ≤ reportsSize items := by
  induction items with
  | nil => exact Nat.zero_le _
  | cons r rest ih =>
    rw [List.length_cons, reportsSize_cons]
    omega

theorem length_windowReturn (acks : List AckPair) (remaining : Byte) (items : List ReportItem) (deferred : Byte) :
    (windowReturn acks remaining items deferred).length = 4 + 2 * acks.length + reportsSize items := by
  simp only [windowReturn, List.length_cons, List.length_append, length_ackBytes, length_flatMap_reportBytes]
  omega

theorem windowExtent_append {count : Byte} {acknowledged : List Byte} (length : acknowledged.length = 2 * count.toNat)
    (kind tag hop remaining reportCount deferred : Byte) (more : List Byte) :
    windowExtent (kind :: tag :: hop :: count :: (acknowledged ++ remaining :: reportCount :: deferred :: more)) =
      (reportsExtent reportCount.toNat more).map (fun n => 9 + 2 * count.toNat + n) := by
  have skip : (kind :: tag :: hop :: count :: (acknowledged ++ remaining :: reportCount :: deferred :: more)).drop
      (7 + 2 * count.toNat) = more := by
    rw [show 7 + 2 * count.toNat = 2 * count.toNat + 3 + 4 by omega]
    simp only [List.drop_succ_cons]
    rw [← List.drop_drop, List.drop_left' length]
    rfl
  simp only [windowExtent, List.getElem?_cons_succ, List.getElem?_cons_zero, skip,
    show 5 + 2 * count.toNat = (2 * count.toNat + 1) + 4 by omega]
  rw [List.getElem?_append_right (by omega), length, show 2 * count.toNat + 1 - 2 * count.toNat = 1 by omega]
  simp only [List.getElem?_cons_succ, List.getElem?_cons_zero]
  cases reportsExtent reportCount.toNat more <;> rfl

section
variable {acks : List AckPair} {items : List ReportItem} (few : items.length ≤ 24) (remaining deferred : Byte)
include few

theorem windowExtent_windowReturn (range : acks.length ≤ 24) (short : ∀ r ∈ items, r.data.length ≤ 16)
    (kind tag hop : Byte) (tail : List Byte) :
    windowExtent (kind :: tag :: hop :: windowReturn acks remaining items deferred ++ tail) =
      some (9 + 2 * acks.length + reportsSize items) := by
  have acknowledged : (natByte acks.length).toNat = acks.length := natByte_toNat (by omega)
  have reported : (natByte items.length).toNat = items.length := natByte_toNat (by omega)
  simp only [windowReturn, List.cons_append, List.append_assoc]
  rw [windowExtent_append (by rw [acknowledged, length_ackBytes]), reported, reportsExtent_flatMap short, acknowledged]
  rfl

theorem readWindow_windowReturn (short : ∀ r ∈ items, r.sequence.toNat ≤ 7 ∧ r.data.length ≤ 16)
    (capacity : remaining.toNat + reportsSize items = 96) :
    readWindow acks (windowReturn acks remaining items deferred) = some (.window items deferred.toNat) := by
  have reported : (natByte items.length).toNat = items.length := natByte_toNat (by omega)
  have read : readReports items.length (items.flatMap reportBytes) = items := by
    simpa using readReports_flatMap (fun r mem => (short r mem).2) []
  simp only [windowReturn, readWindow, List.take_left' (length_ackBytes acks), and_self, if_true,
    List.drop_left' (length_ackBytes acks), reported, read]
  refine if_pos ⟨trivial, ?_, capacity⟩
  simpa using short

end

end Sys2Proof.Machine

namespace Sys2Proof.Machine

section
variable {tag hop : Byte} {body : List Byte} {res : CirculationResult}

/-- A well-formed body makes a good frame under the kind sent, whatever its tag and hop count, and is read with the
result it gives. -/
theorem good_of_wellFormed_call {b : CallBody} (range : frameInRange (.call b))
    (wellFormed : wellFormedReturn (.call b) body res) :
    goodFrame (sealed (kindCall :: tag :: hop :: body)) = some (kindCall :: tag :: hop :: body) ∧
      readCall b body = some res := by
  obtain ⟨out, capacity⟩ := range
  have good (served status : Byte) {data : List Byte} (short : data.length ≤ 32) :
      goodFrame (sealed (kindCall :: tag :: hop :: callReturn b served status data)) =
        some (kindCall :: tag :: hop :: callReturn b served status data) := by
    refine goodFrame_sealed (callExtent_callReturn out served status short kindCall tag hop _) ?_
    rw [show longestFrame kindCall = 77 from rfl]
    simp only [callReturn, List.length_append, List.length_cons, List.length_nil]
    omega
  rcases (wellFormedReturn_call b body res).mp wellFormed with
    ⟨data, length, rfl, rfl⟩ | ⟨st, other, rfl, rfl⟩ | ⟨st, rfl, rfl⟩
  · exact ⟨good _ _ (length ▸ capacity), (readCall_callReturn _ _ data).2.1 rfl rfl length⟩
  · exact ⟨good _ _ (Nat.zero_le _), (readCall_callReturn _ _ []).2.2 st rfl (statusOfCode_code st) other rfl⟩
  · exact ⟨good _ _ (Nat.zero_le _), (readCall_callReturn _ _ []).1 rfl (by simp [statusOfCode_code]) rfl⟩

theorem good_of_wellFormed_census (wellFormed : wellFormedReturn .census body res) :
    goodFrame (sealed (kindCensus :: tag :: hop :: body)) = some (kindCensus :: tag :: hop :: body) ∧
      readCensus body = some res := by
  obtain ⟨overflow, entries, few, rfl, rfl⟩ := wellFormed
  have count : (natByte entries.length).toNat = entries.length := natByte_toNat (by omega)
  have length := length_flatMap_pair Prod.fst Prod.snd entries
  refine ⟨goodFrame_sealed ?_ ?_, ?_⟩
  · have extent (bytes : List Byte) : frameExtent kindCensus bytes = censusExtent bytes := rfl
    simp only [extent, sealed, censusExtent, List.cons_append, List.getElem?_cons_succ, List.getElem?_cons_zero, count,
      List.length_cons, length]
    congr 1
    omega
  · rw [show longestFrame kindCensus = 55 from rfl]
    simp only [List.length_cons, length]
    omega
  · cases overflow <;> simp [readCensus, settingOfCode, count, few, readEntries_flatMap]

theorem good_of_wellFormed_window {acks : List AckPair} (range : frameInRange (.window acks))
    (wellFormed : wellFormedReturn (.window acks) body res) :
    goodFrame (sealed (kindWindow :: tag :: hop :: body)) = some (kindWindow :: tag :: hop :: body) ∧
      readWindow acks body = some res := by
  obtain ⟨remaining, items, deferred, rfl, short, capacity, rfl⟩ :=
    (wellFormedReturn_window acks body res).mp wellFormed
  have acknowledged : acks.length ≤ 24 := range
  have few : items.length ≤ 24 := by have := four_mul_length_le_reportsSize items; omega
  refine ⟨goodFrame_sealed ?_ ?_, readWindow_windowReturn few remaining deferred short capacity⟩
  · refine (windowExtent_windowReturn few remaining deferred acknowledged (fun r mem => (short r mem).2)
      kindWindow tag hop _).trans ?_
    simp only [List.length_cons, length_windowReturn]
    congr 1
    omega
  · rw [show longestFrame kindWindow = 153 from rfl]
    simp only [List.length_cons, length_windowReturn]
    omega

theorem good_of_wellFormed {sent : FrameBody} (range : frameInRange sent)
    (wellFormed : wellFormedReturn sent body res) :
    goodFrame (sealed (sent.kind :: tag :: hop :: body)) = some (sent.kind :: tag :: hop :: body) ∧
      readReturn sent sent.kind body = some res := by
  cases sent with
  | call b => exact good_of_wellFormed_call range wellFormed
  | census => exact good_of_wellFormed_census wellFormed
  | window acks => exact good_of_wellFormed_window range wellFormed

/-! Only well-formed bodies are read. -/

theorem wellFormed_of_readCall {b : CallBody} {bytes : List Byte} (range : frameInRange (.call b))
    (good : goodFrame bytes = some (kindCall :: tag :: hop :: body)) (read : readCall b body = some res) :
    wellFormedReturn (.call b) body res := by
  unfold readCall at read
  split at read <;> [skip; cases read]
  next target op object outLen rest =>
  split at read <;> [skip; cases read]
  next echo =>
  obtain ⟨rfl, rfl, rfl, rfl, out⟩ := echo
  split at read <;> [skip; cases read]
  next capacity served status replyLen data fields =>
  split at read <;> [cases read; skip]
  next same =>
  obtain rfl := not_not.mp same
  have outLength : (natByte b.outData.length).toNat = b.outData.length := natByte_toNat (by have := range.1; omega)
  have capacityLength : (natByte b.capacity).toNat = b.capacity := natByte_toNat (by have := range.2; omega)
  have length : data.length = replyLen.toNat := call_data good (by rw [outLength]; exact fields)
  have body_eq : rest = b.outData ++ natByte b.capacity :: served :: status :: replyLen :: data := by
    calc rest
      _ = rest.take b.outData.length ++ rest.drop b.outData.length := (List.take_append_drop _ rest).symm
      _ = _ := by rw [out, fields]
  have replied : replyLen = natByte data.length := by rw [length, natByte_of_toNat]
  have shape : b.target :: b.operation.code :: b.object :: natByte b.outData.length :: rest =
      callReturn b served status data := by
    rw [body_eq, replied]
    simp [callReturn]
  rw [shape, wellFormedReturn_call]
  have empty (zero : replyLen = 0#8) : data = [] := List.eq_nil_of_length_eq_zero (by rw [length, zero]; rfl)
  split at read
  next st clear known =>
    split at read <;> cases read
    next zero =>
      refine .inr (.inr ⟨st, rfl, ?_⟩)
      rw [empty zero, eq_of_settingOfCode clear, code_of_statusOfCode known]
      rfl
  next set known =>
    split at read <;> cases read
    next full =>
      refine .inl ⟨data, by rw [length, full, capacityLength], rfl, ?_⟩
      rw [eq_of_settingOfCode set, code_of_statusOfCode known]
      rfl
  next st other set known =>
    split at read <;> cases read
    next zero =>
      have none := empty zero
      subst none
      refine .inr (.inl ⟨st, fun ok => other (ok ▸ rfl), rfl, ?_⟩)
      rw [eq_of_settingOfCode set, code_of_statusOfCode known]
      rfl
  next => cases read

theorem wellFormed_of_readCensus {bytes : List Byte}
    (good : goodFrame bytes = some (kindCensus :: tag :: hop :: body)) (read : readCensus body = some res) :
    wellFormedReturn .census body res := by
  unfold readCensus at read
  split at read <;> [skip; cases read]
  next count flag rest =>
  split at read <;> [skip; cases read]
  next overflow known =>
  split at read <;> cases read
  next few =>
  obtain ⟨extent, tail, rfl⟩ := goodFrame_covered good
  have length : rest.length = 2 * count.toNat := by
    have extent : 7 + 2 * count.toNat = rest.length + 4 + 3 := Option.some.inj extent
    omega
  have entries := flatMap_readEntries (l := rest) (by omega)
  have number : (readEntries rest).length = count.toNat := by
    have := length_flatMap_pair Prod.fst Prod.snd (readEntries rest)
    rw [entries] at this
    omega
  refine ⟨overflow, readEntries rest, by omega, rfl, ?_⟩
  rw [entries, number, natByte_of_toNat, eq_of_settingOfCode known]

theorem wellFormed_of_readWindow {acks : List AckPair} {bytes : List Byte} (range : frameInRange (.window acks))
    (good : goodFrame bytes = some (kindWindow :: tag :: hop :: body)) (read : readWindow acks body = some res) :
    wellFormedReturn (.window acks) body res := by
  unfold readWindow at read
  split at read <;> [skip; cases read]
  next count rest =>
  split at read <;> [skip; cases read]
  next echo =>
  obtain ⟨rfl, acknowledged⟩ := echo
  split at read <;> [skip; cases read]
  next remaining reportCount deferred records fields =>
  dsimp only at read
  split at read <;> cases read
  next sound =>
  obtain ⟨number, short, capacity⟩ := sound
  have counted : (natByte acks.length).toNat = acks.length := natByte_toNat (Nat.lt_of_le_of_lt range (by decide))
  have body_eq : rest = ackBytes acks ++ remaining :: reportCount :: deferred :: records := by
    rw [← fields, ← acknowledged, List.take_append_drop]
  subst body_eq
  obtain ⟨extent, tail, rfl⟩ := goodFrame_covered good
  have extent : windowExtent (kindWindow :: tag :: hop :: natByte acks.length ::
      (ackBytes acks ++ remaining :: reportCount :: deferred :: (records ++ tail))) =
      some ((tag :: hop :: natByte acks.length ::
        (ackBytes acks ++ remaining :: reportCount :: deferred :: records)).length + 3) := by
    simpa [frameExtent, FrameBody.kind, kindCall, kindCensus, kindWindow] using extent
  rw [windowExtent_append (by rw [counted, length_ackBytes]), Option.map_eq_some_iff] at extent
  obtain ⟨n, extent, total⟩ := extent
  simp only [List.length_cons, List.length_append, length_ackBytes, counted] at total
  obtain ⟨_, bytes⟩ := readReports_of_extent extent (by omega)
  rw [List.take_of_length_le (by omega)] at bytes
  refine (wellFormedReturn_window acks _ _).mpr ⟨remaining, _, deferred, rfl, ?_, capacity, ?_⟩
  · simpa using short
  · rw [windowReturn, bytes, number, natByte_of_toNat]

/-- Under a good check only a well-formed body is read. -/
theorem wellFormed_of_readReturn {sent : FrameBody} {bytes : List Byte} {kind : Byte} (range : frameInRange sent)
    (good : goodFrame bytes = some (kind :: tag :: hop :: body)) (read : readReturn sent kind body = some res) :
    kind = sent.kind ∧ wellFormedReturn sent body res := by
  unfold readReturn at read
  split at read
  · cases read
  · rename_i same
    obtain rfl := not_not.mp same
    refine ⟨rfl, ?_⟩
    cases sent with
    | call b => exact wellFormed_of_readCall range good read
    | census => exact wellFormed_of_readCensus good read
    | window acks => exact wellFormed_of_readWindow range good read

end

end Sys2Proof.Machine

namespace Sys2Proof.Machine

/-! ### A completed frame is judged (R8, R13, R16) -/

section
variable {s : State} {c : Circulation}

theorem judgeFrame_of_disabled (disabled : s.port.state = .disabled) (bytes : List Byte) : judgeFrame bytes s = s := by
  rw [judgeFrame, disabled]

theorem judgeFrame_of_unawaited (state : s.port.state = .idle ∨ s.port.state = .sending) (bytes : List Byte) :
    judgeFrame bytes s = judgeUnawaited bytes s := by
  rcases state with state | state <;> rw [judgeFrame, state]

theorem judgeUnawaited_of_bad {bytes : List Byte} (bad : goodFrame bytes = none) :
    judgeUnawaited bytes s = countCorrupt s := by
  rw [judgeUnawaited, bad]

theorem judgeUnawaited_of_good {bytes : List Byte} (good : goodFrame bytes ≠ none) :
    judgeUnawaited bytes s = countStray s := by
  obtain ⟨covered, good⟩ := Option.ne_none_iff_exists'.mp good
  rw [judgeUnawaited, good]

theorem judgeFrame_of_awaiting (awaiting : s.port.state = .awaiting) (record : s.port.record = some c)
    (bytes : List Byte) : judgeFrame bytes s = judgeAwaited c bytes s := by
  rw [judgeFrame, awaiting]
  simp only [record]

theorem judgeAwaited_of_stray {bytes covered : List Byte} (good : goodFrame bytes = some covered)
    (other : covered[1]? ≠ c.tag) : judgeAwaited c bytes s = countStray s := by
  rw [judgeAwaited, good]
  exact if_pos other

theorem judgeAwaited_of_read {bytes body : List Byte} {kind tag hop : Byte} {res : CirculationResult}
    (good : goodFrame bytes = some (kind :: tag :: hop :: body)) (current : c.tag = some tag)
    (read : readReturn c.frame kind body = some res) : judgeAwaited c bytes s = endCirculation c res (some hop) s := by
  simp [judgeAwaited, good, current, read]

theorem judgeAwaited_of_bad {bytes : List Byte} (bad : goodFrame bytes = none) :
    judgeAwaited c bytes s = corruptReturn c s := by
  rw [judgeAwaited, bad]

theorem judgeAwaited_of_unread {bytes rest : List Byte} {kind tag : Byte}
    (good : goodFrame bytes = some (kind :: tag :: rest)) (current : c.tag = some tag)
    (unread : ∀ hop body, rest = hop :: body → readReturn c.frame kind body = none) :
    judgeAwaited c bytes s = corruptReturn c s := by
  cases rest with
  | nil => simp [judgeAwaited, good, current]
  | cons hop body => simp [judgeAwaited, good, current, unread hop body rfl]

end

/-- Settles O30. -/
theorem goodReturnsEndTheCirculation : Obligations.GoodReturnsEndTheCirculation := by
  unfold Obligations.GoodReturnsEndTheCirculation
  intro c tag hop body res s awaiting record current range wellFormed
  obtain ⟨good, read⟩ := good_of_wellFormed (tag := tag) (hop := hop) range wellFormed
  have judged := (judgeFrame_of_awaiting awaiting record _).trans (judgeAwaited_of_read (s := s) good current read)
  exact congrArg (fun t => Host.Outcome.next (finish t)) judged

/-- What makes a return CORRUPT (R13): a bad check, or the current tag on another kind or on a body not well formed. -/
def judgedCorrupt (c : Circulation) (bytes : List Byte) : Prop :=
  goodFrame bytes = none ∨
    ∃ kind tag rest, goodFrame bytes = some (kind :: tag :: rest) ∧ c.tag = some tag ∧
      (kind ≠ c.frame.kind ∨ ∀ hop body res, rest = hop :: body → ¬wellFormedReturn c.frame body res)

theorem judgeAwaited_of_corrupt {c : Circulation} {bytes : List Byte} (range : frameInRange c.frame)
    (corrupt : judgedCorrupt c bytes) (s : State) : judgeAwaited c bytes s = corruptReturn c s := by
  rcases corrupt with bad | ⟨kind, tag, rest, good, current, wrong⟩
  · exact judgeAwaited_of_bad bad
  · refine judgeAwaited_of_unread good current fun hop body shape => ?_
    subst shape
    refine Option.eq_none_iff_forall_ne_some.mpr fun res read => ?_
    obtain ⟨same, wellFormed⟩ := wellFormed_of_readReturn range good read
    rcases wrong with kinds | bodies
    · exact kinds same
    · exact bodies hop body res rfl wellFormed

/-- Settles O31. -/
theorem returnsAreJudged : Obligations.ReturnsAreJudged := by
  unfold Obligations.ReturnsAreJudged
  intro bytes s corrupt stray
  have judged {t : State} (e : judgeFrame bytes s = t) : exec (.ringFrameComplete bytes) s = .next (finish t) :=
    congrArg (fun t => Host.Outcome.next (finish t)) e
  refine ⟨fun disabled => judged (judgeFrame_of_disabled disabled bytes),
    fun state => ⟨fun bad => ?bad, fun good => ?good⟩, fun c awaiting record range => ?awaited⟩
  case bad => exact judged ((judgeFrame_of_unawaited state bytes).trans (judgeUnawaited_of_bad bad))
  case good => exact judged ((judgeFrame_of_unawaited state bytes).trans (judgeUnawaited_of_good good))
  case awaited =>
    have awaited := judgeFrame_of_awaiting awaiting record bytes
    refine ⟨fun covered good other => judged (awaited.trans (judgeAwaited_of_stray good other)),
      fun wrong retries => judged (awaited.trans ((judgeAwaited_of_corrupt range wrong s).trans (if_pos retries))),
      fun wrong exhausted => judged (awaited.trans ((judgeAwaited_of_corrupt range wrong s).trans ?_))⟩
    exact if_neg (Nat.not_lt.mpr exhausted)

/-! ### The return timer (R11, R15, R16) -/

theorem exec_returnTimerExpiry_of_timed {s : State} {c : Circulation} (timed : s.port.timedCirculation = some c) :
    exec .returnTimerExpiry s = .next (finish (loseAttempt c s)) := by
  simp only [exec, execReturnTimerExpiry, timed]

theorem exec_returnTimerExpiry_of_stopped {s : State} (stopped : s.port.timedCirculation = none) :
    exec .returnTimerExpiry s = .next s := by
  simp only [exec, execReturnTimerExpiry, stopped]

theorem timedCirculation_of_awaiting {p : RingPort} (awaiting : p.state = .awaiting) (runs : p.returnTimer ≠ none) :
    p.timedCirculation = p.record := if_pos ⟨awaiting, Option.isSome_iff_ne_none.mpr runs⟩

theorem ringOut_of_not_sending {s : State} (still : s.port.state ≠ .sending) :
    s.ringOut = .idleFill s.supervisor.config.bitRate := by
  unfold State.ringOut
  split
  · contradiction
  · rfl

/-- Settles O32. -/
theorem returnTimerRunsAndExpires : Obligations.ReturnTimerRunsAndExpires := by
  unfold Obligations.ReturnTimerRunsAndExpires
  refine ⟨fun s => ⟨fun c tag sending record current => ?frame, ringOut_of_not_sending,
      fun sending => congrArg Host.Outcome.next (if_pos sending),
      fun still => congrArg Host.Outcome.next (if_neg still)⟩,
    fun s => ⟨fun stopped => ?stopped, fun c awaiting runs record => ?expires⟩⟩
  case frame =>
    rw [State.ringOut, sending, record]
    simp only [current]
    rfl
  case stopped => exact exec_returnTimerExpiry_of_stopped (if_neg (by simp [stopped]))
  case expires =>
    rw [exec_returnTimerExpiry_of_timed ((timedCirculation_of_awaiting awaiting runs).trans record)]
    exact ⟨fun retries => congrArg (fun t => Host.Outcome.next (finish t)) (if_pos retries),
      fun exhausted => congrArg (fun t => Host.Outcome.next (finish t)) (if_neg (Nat.not_lt.mpr exhausted))⟩

end Sys2Proof.Machine

namespace Sys2Proof.Machine

/-! ### The end of a circulation (R18, R19) -/

section
variable {c : Circulation} {res : CirculationResult} {hop : Option Byte} {s : State}

/-- The ring with the result handed to table and supervisor, before the requester has it. -/
def beforeRequester (c : Circulation) (res : CirculationResult) (hop : Option Byte) (s : State) : State :=
  handLost c.requester res (handTable c.frame res (handHops c.frame hop (portEnded s)))

theorem endCirculation_eq : endCirculation c res hop s =
    boundaryIf (!((beforeRequester c res hop s).supervisor.state == .probing &&
      (handRequester c.requester res c.attempts (beforeRequester c res hop s)).supervisor.state == .up))
      (handRequester c.requester res c.attempts (beforeRequester c res hop s)) := rfl

/-- Unless the end takes the ring UP, the arbiter has notice of it. -/
theorem endCirculation_of_kept
    (kept : (handRequester c.requester res c.attempts (beforeRequester c res hop s)).supervisor.state =
      (beforeRequester c res hop s).supervisor.state) :
    endCirculation c res hop s = boundary (handRequester c.requester res c.attempts (beforeRequester c res hop s)) := by
  rw [endCirculation_eq, kept, boundaryIf, if_pos]
  cases (beforeRequester c res hop s).supervisor.state <;> rfl

theorem endCirculation_cycle (requester : c.requester = .cycle) :
    endCirculation c res hop s = boundary (handCycle res (beforeRequester c res hop s)) := by
  have handed (t : State) : handRequester c.requester res c.attempts t = handCycle res t := by rw [requester]; rfl
  rw [endCirculation_of_kept (by simp [handed]), handed]

theorem endCirculation_urgent (requester : c.requester = .urgent) :
    endCirculation c res hop s = boundary (handUrgent res c.attempts (beforeRequester c res hop s)) := by
  have handed (t : State) : handRequester c.requester res c.attempts t = handUrgent res c.attempts t := by
    rw [requester]; rfl
  rw [endCirculation_of_kept (by simp [handed]), handed]

theorem endCirculation_window (requester : c.requester = .window) :
    endCirculation c res hop s = boundary (handWindow res (beforeRequester c res hop s)) := by
  have handed (t : State) : handRequester c.requester res c.attempts t = handWindow res t := by rw [requester]; rfl
  rw [endCirculation_of_kept (by simp [handed]), handed]

theorem handLost_of_not_lost {requester : Requester} (other : res ≠ .lost) : handLost requester res s = s :=
  if_neg fun lost => other lost.1

theorem handLost_of_lost {requester : Requester} (other : requester ≠ .census) :
    handLost requester .lost s = takeLostReturn s := if_pos ⟨rfl, other⟩

theorem handLost_of_census : handLost .census res s = s := if_neg fun other => other.2 rfl

theorem handHops_none {frame : FrameBody} : handHops frame none s = s := by cases frame <;> rfl

theorem handTable_of_failure {frame : FrameBody} (failure : res = .failedCheck ∨ res = .lost) :
    handTable frame res s = s := by
  rcases failure with rfl | rfl <;> cases frame <;> rfl

theorem beforeRequester_of_call {b : CallBody} {hop : Byte} (frame : c.frame = .call b) (other : res ≠ .lost) :
    beforeRequester c res (some hop) s = handTable (.call b) res (hopsCompared hop (portEnded s)) := by
  rw [beforeRequester, frame, handLost_of_not_lost other]
  rfl

theorem beforeRequester_of_window {acks : List AckPair} {hop : Byte} (frame : c.frame = .window acks)
    (other : res ≠ .lost) :
    beforeRequester c res (some hop) s = hopsCompared hop (portEnded s) := by
  rw [beforeRequester, frame, handLost_of_not_lost other]
  cases res <;> rfl

theorem beforeRequester_of_census (requester : c.requester = .census) (frame : c.frame = .census) :
    beforeRequester c res hop s = portEnded s := by
  rw [beforeRequester, requester, frame, handLost_of_census]
  cases res <;> cases hop <;> rfl

theorem beforeRequester_of_failedCheck : beforeRequester c .failedCheck none s = portEnded s := by
  rw [beforeRequester, handHops_none, handTable_of_failure (.inl rfl), handLost_of_not_lost (res := .failedCheck) nofun]

theorem beforeRequester_of_lost (other : c.requester ≠ .census) :
    beforeRequester c .lost none s = takeLostReturn (portEnded s) := by
  rw [beforeRequester, handHops_none, handTable_of_failure (.inr rfl), handLost_of_lost other]

theorem endCirculation_census_of_up (requester : c.requester = .census) (frame : c.frame = .census)
    (up : s.supervisor.state = .up) : endCirculation c res hop s = boundary (handCensus res (portEnded s)) := by
  rw [endCirculation_eq, beforeRequester_of_census requester frame, requester,
    show (portEnded s).supervisor.state = .up from up]
  rfl

/-- From PROBING the end of a census is no boundary: it takes the ring UP, or to a state in which no choice is made. -/
theorem endCirculation_census_of_probing (requester : c.requester = .census) (frame : c.frame = .census)
    (probing : s.supervisor.state = .probing) (leaves : (handCensus res (portEnded s)).supervisor.state ≠ .probing) :
    endCirculation c res hop s = handCensus res (portEnded s) := by
  rw [endCirculation_eq, beforeRequester_of_census requester frame, requester,
    show (portEnded s).supervisor.state = .probing from probing,
    show handRequester .census res c.attempts = handCensus res from rfl, boundaryIf]
  split
  · rename_i notUp
    exact boundary_of_not_carries (by simpa [State.ringCarries, leaves] using notUp)
  · rfl

end

theorem takeCensus_leaves_probing {s : State} (probing : s.supervisor.state = .probing) (overflow : Bool)
    (entries : List (Byte × Byte)) : (takeCensus overflow entries s).supervisor.state ≠ .probing := by
  unfold takeCensus
  split
  · simp [enterFault, changeRing]
  · simp [probing, enterUp, changeRing]

/-- Settles O33. -/
theorem circulationsEndInOrder : Obligations.CirculationsEndInOrder := by
  unfold Obligations.CirculationsEndInOrder
  intro c res hop s idle
  refine ⟨fun b data st frame served => ?served, fun b frame missed => ?missed,
    fun acks reports deferred frame requester window => ?window,
    fun requester frame up => ⟨fun _ _ _ => ?_, fun _ => ?_⟩,
    fun requester frame probing => ?probing, fun failed => ?failed, fun lost => ?lost⟩
  case served =>
    subst served
    have before := beforeRequester_of_call (s := s) (hop := hop) (res := .served st data) frame nofun
    exact ⟨fun requester => by rw [endCirculation_cycle requester, before]; rfl,
      fun requester => by rw [endCirculation_urgent requester, before]; rfl⟩
  case missed =>
    subst missed
    have before := beforeRequester_of_call (s := s) (hop := hop) (res := .missed) frame nofun
    exact ⟨fun requester => by rw [endCirculation_cycle requester, before]; rfl,
      fun requester => by rw [endCirculation_urgent requester, before]; rfl⟩
  case window =>
    subst window
    rw [endCirculation_window requester, beforeRequester_of_window (res := .window reports deferred) frame nofun]
  · exact endCirculation_census_of_up requester frame up
  · exact endCirculation_census_of_up requester frame up
  case probing =>
    refine ⟨fun overflow entries census => ?_, fun failure => ?_⟩
    · subst census
      exact endCirculation_census_of_probing requester frame probing
        (takeCensus_leaves_probing (s := portEnded s) probing overflow entries)
    · refine endCirculation_census_of_probing requester frame probing ?_
      rcases failure with rfl | rfl <;> simp [handCensus, enterDown, changeRing]
  case failed =>
    subst failed
    have before := beforeRequester_of_failedCheck (c := c) (s := s)
    exact ⟨fun requester => by rw [endCirculation_cycle requester, before],
      fun requester => by rw [endCirculation_urgent requester, before],
      fun requester => by rw [endCirculation_window requester, before]⟩
  case lost =>
    subst lost
    have before (other : c.requester ≠ .census) := beforeRequester_of_lost (s := s) other
    exact ⟨fun requester => by rw [endCirculation_cycle requester, before (by simp [requester])],
      fun requester => by rw [endCirculation_urgent requester, before (by simp [requester])],
      fun requester => by rw [endCirculation_window requester, before (by simp [requester])]⟩

end Sys2Proof.Machine

namespace Sys2Proof.Machine

/-! ### A cycle abandoned (R60, R61) -/

/-- The store with the cycle's reservation released and CYCLE_ABANDONED committed. -/
def abandonedStore (reason : AbandonReason) (s : State) : Store :=
  (s.store.release .cycle).commitEvent (.cycleAbandoned s.cycle.cycleNumber reason s.cycle.outcomes.length)

/-- The engine ARMED with its cycle abandoned. -/
def abandoned (reason : AbandonReason) (s : State) : State := { s with
  store := abandonedStore reason s, cycle := { dropped s.cycle with state := .armed, holdReason := .none } }

section
variable {s : State} {reason : AbandonReason}

theorem abandonCycle_of_not_free (other : reason ≠ .stopped) (mode : s.cycle.config.mode ≠ .free) :
    abandonCycle reason s = abandoned reason s := by
  rw [abandonCycle, if_neg other, armAfterCycle, if_neg (by simpa using mode)]
  rfl

theorem abandonCycle_of_free (other : reason ≠ .stopped) (mode : s.cycle.config.mode = .free) :
    abandonCycle reason s = startAttempt false (abandoned reason s) := by
  rw [abandonCycle, if_neg other, armAfterCycle, if_pos (by simpa using mode), startCause_of_armed rfl]
  rfl

theorem CycleEngine.inCycle_eq_false {c : CycleEngine} (out : ¬(c.state = .running ∨ c.state = .closing)) :
    c.inCycle = false := by
  rw [← Bool.not_eq_true, CycleEngine.inCycle_iff]
  exact out

variable {r : RingState}

theorem cycleTakesReport_abandons (abandons : abandonReasonFor r = some reason)
    (inCycle : s.cycle.state = .running ∨ s.cycle.state = .closing) :
    cycleTakesReport r s = abandonCycle reason s := by
  have notUp : r ≠ .up := by rintro rfl; cases abandons
  rw [cycleTakesReport, if_neg notUp, abandons]
  exact if_pos ((CycleEngine.inCycle_iff _).mpr inCycle)

theorem cycleTakesReport_of_resting (notUp : r ≠ .up) (out : ¬(s.cycle.state = .running ∨ s.cycle.state = .closing)) :
    cycleTakesReport r s = s := by
  rw [cycleTakesReport, if_neg notUp]
  split
  · exact if_neg (by simp [CycleEngine.inCycle_eq_false out])
  · rfl

end

/-! ### A final LOST (R111, R112, R113, R117) -/

/-- The cycle engine after a report of DOWN taken with the ring DOWN. -/
def cycleAfterDown (c : CycleEngine) : CycleEngine :=
  if ¬(c.state = .running ∨ c.state = .closing) then c
  else if c.config.mode = .free then { dropped c with state := .held, holdReason := .ring, heldMark := false }
  else { dropped c with state := .armed, holdReason := .none }

def storeAfterDown (s : State) : Store :=
  if s.cycle.state = .running ∨ s.cycle.state = .closing then abandonedStore .ringDown s else s.store

theorem cycleTakesReport_down {s : State} (down : s.supervisor.state ≠ .up) :
    cycleTakesReport .down s = { s with store := storeAfterDown s, cycle := cycleAfterDown s.cycle } := by
  by_cases walking : s.cycle.state = .running ∨ s.cycle.state = .closing
  · rw [cycleTakesReport_abandons rfl walking, storeAfterDown, if_pos walking, cycleAfterDown,
      if_neg (not_not.mpr walking)]
    by_cases mode : s.cycle.config.mode = .free
    · rw [abandonCycle_of_free (by decide) mode, startAttempt_of_ring (s := abandoned .ringDown s) down, if_pos mode]
      rfl
    · rw [abandonCycle_of_not_free (by decide) mode, if_neg mode]
      rfl
  · rw [cycleTakesReport_of_resting (by decide) walking, storeAfterDown, if_neg walking, cycleAfterDown, if_pos walking]

/-- The supervisor in DOWN with the probe timer started (R112). -/
def supervisorDown (v : Supervisor) : Supervisor :=
  { v with state := .down, censusPending := false, probeTimer := some v.config.probeInterval }

theorem enterDown_eq (cause : RingCause) (s : State) : enterDown cause s = { s with
    supervisor := supervisorDown s.supervisor
    store := s.store.commitEvent (.ringState s.supervisor.state .down cause (presentCount s.table) 0#8)
    notices := reported s.notices .down true } := rfl

theorem Notices.emptied_eq {n : Notices} (cycle : n.cycle = []) (urgent : n.urgent = []) (window : n.window = [])
    (arbiter : n.arbiter = []) : { n with cycle := [], urgent := [], window := [], arbiter := [] } = n := by
  cases n
  simp_all

/-- With no older report waiting, a final LOST leaves none waiting either: each block takes its own in the event. -/
theorem takeLostReturn_of_no_reports {s : State} (up : s.supervisor.state = .up) (cycle : s.notices.cycle = [])
    (urgent : s.notices.urgent = []) (window : s.notices.window = []) (arbiter : s.notices.arbiter = []) :
    takeLostReturn s = cycleTakesReport .down { s with
      supervisor := supervisorDown s.supervisor
      store := s.store.commitEvent (.ringState .up .down .lostReturn (presentCount s.table) 0#8) } := by
  have emptied := Notices.emptied_eq cycle urgent window arbiter
  rw [takeLostReturn, if_pos up, takeWaitingReports, enterDown_eq, up]
  simp only [reported, cycle, urgent, window, arbiter, List.nil_append, if_true, takeAll, emptied]
  generalize cycleTakesReport .down _ = t
  rfl

section
variable {s : State} {c : Circulation}

theorem beforeRequester_lost : beforeRequester c .lost none s = handLost c.requester .lost (portEnded s) := by
  rw [beforeRequester, handHops_none, handTable_of_failure (.inr rfl)]

/-- A final LOST takes a ring in UP to DOWN, whoever asked for the circulation; a census's takes it there at the
requester's step. -/
theorem endCirculation_lost_down (up : s.supervisor.state = .up) :
    (endCirculation c .lost none s).supervisor = supervisorDown s.supervisor ∧
      (endCirculation c .lost none s).port = (portEnded s).port ∧ (endCirculation c .lost none s).table = s.table := by
  have kept {t : State} (down : t.supervisor = supervisorDown s.supervisor ∧ t.port = (portEnded s).port ∧
      t.table = s.table) : (boundary t).supervisor = supervisorDown s.supervisor ∧
        (boundary t).port = (portEnded s).port ∧ (boundary t).table = s.table := by
    rwa [boundary_of_not_carries (by rw [State.ringCarries, down.1]; rfl)]
  have returned : (takeLostReturn (portEnded s)).supervisor = supervisorDown s.supervisor ∧
      (takeLostReturn (portEnded s)).port = (portEnded s).port ∧ (takeLostReturn (portEnded s)).table = s.table := by
    refine ⟨?_, ?_, by simp [portEnded]⟩
    all_goals
      rw [takeLostReturn, if_pos (show (portEnded s).supervisor.state = .up from up)]
      obtain ⟨port, supervisor⟩ := takeWaitingReports_ring (s := enterDown .lostReturn (portEnded s)) rfl
    · exact supervisor
    · exact port
  cases requester : c.requester with
  | census =>
    rw [endCirculation_eq, beforeRequester_lost, requester, handLost_of_census,
      show (portEnded s).supervisor.state = .up from up]
    exact kept (t := enterDown .censusFailed (portEnded s)) ⟨rfl, rfl, rfl⟩
  | cycle =>
    rw [endCirculation_cycle requester, beforeRequester_of_lost (by simp [requester])]
    exact kept (by simpa using returned)
  | urgent =>
    rw [endCirculation_urgent requester, beforeRequester_of_lost (by simp [requester])]
    exact kept (by simpa using returned)
  | window =>
    rw [endCirculation_window requester, beforeRequester_of_lost (by simp [requester])]
    exact kept (by simpa [handWindow] using returned)

/-- The state a final LOST leaves with no older report waiting, before the requester is handed it. -/
def lostDown (s : State) : State :=
  let told := s.store.commitEvent (.ringState .up .down .lostReturn (presentCount s.table) 0#8)
  { s with
    port := (portEnded s).port
    supervisor := supervisorDown s.supervisor
    store := storeAfterDown { s with store := told }
    cycle := cycleAfterDown s.cycle }

theorem takeLostReturn_eq_lostDown (up : s.supervisor.state = .up) (cycle : s.notices.cycle = [])
    (urgent : s.notices.urgent = []) (window : s.notices.window = []) (arbiter : s.notices.arbiter = []) :
    takeLostReturn (portEnded s) = lostDown s := by
  rw [takeLostReturn_of_no_reports (s := portEnded s) up cycle urgent window arbiter,
    cycleTakesReport_down (by simp [supervisorDown])]
  rfl

theorem boundary_of_down {t : State} (down : t.supervisor.state = .down) : boundary t = t :=
  boundary_of_not_carries (by rw [State.ringCarries, down]; rfl)

theorem endWindow_lost {t : State} {w : WindowRecord} (record : t.window.record = some w) :
    endWindow .lost t = { t with window :=
      { t.window with record := none, hostPending := t.window.hostPending && w.kind == .cycleWindow } } := by
  obtain ⟨kind, n⟩ := w
  cases kind with
  | cycleWindow =>
    simp only [endWindow, record, takeWindowEnd, ite_self, beq_self_eq_true, Bool.and_true]
  | hostWindow =>
    simp only [endWindow, record]
    congr
    simp

end

/-- An attempt counted as LOST (R15). -/
def lostCounted (s : State) : State :=
  { s with port :=
    { s.port with counters := { s.port.counters with lostReturns := satInc s.port.counters.lostReturns } } }

theorem exec_returnTimerExpiry_exhausted {s : State} {c : Circulation} (awaiting : s.port.state = .awaiting)
    (runs : s.port.returnTimer ≠ none) (record : s.port.record = some c) (exhausted : 1 + c.allowance ≤ c.attempts) :
    exec .returnTimerExpiry s = .next (finish (endCirculation c .lost none (lostCounted s))) :=
  ((returnTimerRunsAndExpires.2 s).2 c awaiting runs record).2 exhausted

/-- Settles O34. -/
theorem finalLostTakesTheRingDown : Obligations.FinalLostTakesTheRingDown := by
  unfold Obligations.FinalLostTakesTheRingDown
  intro c s up awaiting runs record exhausted down port
  rw [exec_returnTimerExpiry_exhausted awaiting runs record exhausted]
  constructor
  · obtain ⟨supervisor, ended, table⟩ := endCirculation_lost_down (s := lostCounted s) (c := c) up
    refine ⟨_, rfl, ?_⟩
    simp only [finish_frame, endCirculation_frame, supervisor, ended, table, State.slot]
    exact ⟨rfl, rfl, rfl, rfl, rfl⟩
  · intro other cycle urgent window arbiter walking told abandoned engine t
    have taken : takeLostReturn (portEnded (lostCounted s)) = t :=
      takeLostReturn_eq_lostDown (s := lostCounted s) up cycle urgent window arbiter
    have before := (beforeRequester_of_lost (s := lostCounted s) other).trans taken
    refine ⟨fun requester => ?cycle, fun r requester inFlight => ?urgent, fun w requester full => ?window⟩
    all_goals refine congrArg (fun t => Host.Outcome.next (finish t)) ?_
    case cycle => rw [endCirculation_cycle requester, before]; exact boundary_of_down (t := t) rfl
    case urgent =>
      have ended : handUrgent .lost c.attempts t = endInFlight .ringDown none c.attempts [] t := rfl
      rw [endCirculation_urgent requester, before, boundary_of_down (by simp [t, down]), ended]
      simp only [endInFlight, t, inFlight]
      rfl
    case window =>
      rw [endCirculation_window requester, before, boundary_of_down (by simp [t, down])]
      exact endWindow_lost (t := t) full

end Sys2Proof.Machine

/-! PROOFS. The Ring Supervisor (O35 to O37): what a census decides, the membership it writes, and the probe timer. -/

namespace Sys2Proof.Machine

/-! ### The judgment of a census (R108) -/

theorem isStationAddress_eq_false {a : Byte} (h : a = 0#8 ∨ a = 255#8) : isStationAddress a = false := by
  rcases h with rfl | rfl <;> rfl

theorem firstDuplicate_append {seen older : List Byte} (fresh : (seen ++ older).Nodup) (rest : List Byte) :
    firstDuplicate seen (older ++ rest) = firstDuplicate (seen ++ older) rest := by
  induction older generalizing seen with
  | nil => simp
  | cons a older ih =>
    have new : seen.contains a = false := by
      rw [List.contains_eq_mem, decide_eq_false_iff_not]
      exact fun mem => (List.nodup_append.mp fresh).2.2 a mem a (List.mem_cons_self ..) rfl
    rw [List.cons_append, firstDuplicate, new, if_neg Bool.false_ne_true, ih (by simpa using fresh)]
    simp

theorem censusFault_of_overflow (entries : List (Byte × Byte)) :
    censusFault true entries = some (.tooManyStations, 0#8) := if_pos rfl

theorem censusFault_of_address {older younger : List (Byte × Byte)} {a kind : Byte}
    (valid : ∀ e ∈ older, e.1 ≠ 0#8 ∧ e.1 ≠ 255#8) (invalid : a = 0#8 ∨ a = 255#8) :
    censusFault false (older ++ (a, kind) :: younger) = some (.invalidAddress, a) := by
  have first : ((older ++ (a, kind) :: younger).map Prod.fst).find? (fun a => !isStationAddress a) = some a := by
    rw [List.map_append, List.find?_append, List.find?_eq_none.mpr (by simpa [isStationAddress_iff] using valid)]
    simp [isStationAddress_eq_false invalid]
  rw [censusFault, if_neg Bool.false_ne_true, first]

theorem censusFault_of_addresses {entries : List (Byte × Byte)} (valid : ∀ e ∈ entries, e.1 ≠ 0#8 ∧ e.1 ≠ 255#8) :
    censusFault false entries = (firstDuplicate [] (entries.map Prod.fst)).map (fun a => (.duplicateAddress, a)) := by
  rw [censusFault, if_neg Bool.false_ne_true, List.find?_eq_none.mpr (by simpa [isStationAddress_iff] using valid)]
  cases firstDuplicate [] (entries.map Prod.fst) <;> rfl

theorem firstDuplicate_of_mem {older younger : List Byte} {a : Byte} (fresh : older.Nodup) (mem : a ∈ older) :
    firstDuplicate [] (older ++ a :: younger) = some a := by
  rw [firstDuplicate_append (by simpa using fresh), firstDuplicate, if_pos (by simpa using mem)]

theorem firstDuplicate_of_nodup {l : List Byte} (fresh : l.Nodup) : firstDuplicate [] l = none := by
  simpa [firstDuplicate] using firstDuplicate_append (seen := []) (older := l) (by simpa using fresh) []

/-! ### The end of a census (R109 to R112) -/

theorem takeCensus_of_fault {s : State} {overflow : Bool} {entries : List (Byte × Byte)} {cause : RingCause}
    {address : Byte} (fault : censusFault overflow entries = some (cause, address)) :
    takeCensus overflow entries s = enterFault cause address s := by
  rw [takeCensus, fault]

theorem takeCensus_of_valid {s : State} {entries : List (Byte × Byte)} (valid : censusFault false entries = none) :
    takeCensus false entries s = if s.supervisor.state = .probing then enterUp (replaceCensus entries s)
      else replaceCensus entries s := by
  rw [takeCensus, valid]
  simp

/-- Settles O35. -/
theorem censusDecidesTheRingState : Obligations.CensusDecidesTheRingState := by
  unfold Obligations.CensusDecidesTheRingState
  constructor
  · refine fun entries => ⟨censusFault_of_overflow entries, fun older a kind younger shape valid invalid => ?address,
      fun valid => ⟨fun older a kind younger shape fresh again => ?duplicate, fun fresh => ?valid⟩⟩
    case address => rw [shape, censusFault_of_address valid invalid]
    case duplicate =>
      rw [censusFault_of_addresses valid, shape, List.map_append, List.map_cons, firstDuplicate_of_mem fresh again]
      rfl
    case valid =>
      rw [censusFault_of_addresses valid, firstDuplicate_of_nodup fresh]
      rfl
  · intro s carries event
    refine ⟨fun entries valid => ⟨fun up => ?up, fun probing => ?probing⟩,
      fun overflow entries cause address fault => takeCensus_of_fault fault, fun res failure => ?failed⟩
    case up => exact (takeCensus_of_valid valid).trans (if_neg (by simp [up]))
    case probing =>
      refine ((takeCensus_of_valid valid).trans (if_pos probing)).trans ?_
      simp [enterUp, giveReports, giveBlockReports, giveArbiterReport, changeRing, commitEvent, reported, event]
    case failed => rcases failure with rfl | rfl <;> rfl

/-! ### The census replacement (R90 to R92) -/

theorem presentPart_getElem? (old : List StationEntry) (p j : Nat) (census : List (Byte × Byte)) :
    (presentPart old p census)[j]? = census[j]?.map (fun e => presentEntry old (p + j) e.1 e.2) := by
  induction census generalizing p j with
  | nil => rfl
  | cons e rest ih =>
    cases j with
    | zero => rfl
    | succ j => simp [presentPart, ih, Nat.add_right_comm, Nat.add_assoc]

theorem presentPart_length (old : List StationEntry) (p : Nat) (census : List (Byte × Byte)) :
    (presentPart old p census).length = census.length := by
  simpa using congrArg List.length (presentPart_addresses old p census)

theorem replaceCensus_table (census : List (Byte × Byte)) (s : State) :
    (replaceCensus census s).table = replaceTable s.table census := by
  unfold replaceCensus
  dsimp only
  split <;> rfl

theorem presentEntry_of_known {old : List StationEntry} {p : Nat} {a kind : Byte} {e : StationEntry}
    (known : old.find? (fun e => e.address == a) = some e) : presentEntry old p a kind =
      { e with position := some p, kind := kind, state := .active, missCount := 0 } := by
  rw [presentEntry, findStation, known]

theorem presentEntry_of_new {old : List StationEntry} {p : Nat} {a kind : Byte} (new : ∀ e ∈ old, e.address ≠ a) :
    presentEntry old p a kind = ⟨a, some p, kind, .active, 0, none, 0#16, 0#16⟩ := by
  rw [presentEntry, findStation, List.find?_eq_none.mpr (by simpa using new)]

/-- Every candidate for the ABSENT part is without a position. -/
theorem absentCandidates_not_present {old : List StationEntry} {census : List (Byte × Byte)} {e : StationEntry}
    (mem : e ∈ absentCandidates old census) : e.isPresent = false := by
  rcases List.mem_append.mp mem with mem | mem
  · simpa using (List.mem_filter.mp mem).2
  · obtain ⟨x, _, rfl⟩ := List.mem_map.mp mem
    rfl

theorem presentPart_all_present {old : List StationEntry} {p : Nat} {census : List (Byte × Byte)} :
    ∀ e ∈ presentPart old p census, e.isPresent = true := fun e mem => by
  simpa [StationEntry.isPresent, Option.isSome_iff_ne_none] using (presentPart_mem mem).2.1

/-- The present entries of the new table are those of the census. -/
theorem replaceTable_filter_present (old : List StationEntry) (census : List (Byte × Byte)) :
    (replaceTable old census).filter StationEntry.isPresent = presentPart old 1 census := by
  rw [replaceTable, List.filter_append, List.filter_eq_self.mpr presentPart_all_present,
    List.filter_eq_nil_iff.mpr fun e mem => by simp [absentCandidates_not_present (List.mem_of_mem_drop mem)],
    List.append_nil]

theorem presentAddresses_replaceTable (old : List StationEntry) (census : List (Byte × Byte)) :
    presentAddresses (replaceTable old census) = census.map Prod.fst := by
  rw [presentAddresses, replaceTable_filter_present, presentPart_addresses]

theorem presentCount_replaceTable (old : List StationEntry) (census : List (Byte × Byte)) :
    presentCount (replaceTable old census) = census.length := by
  rw [presentCount, List.countP_eq_length_filter, replaceTable_filter_present, presentPart_length]

theorem absentCount_eq (table : List StationEntry) : absentCount table = table.length - presentCount table := by
  have all := List.length_eq_countP_add_countP StationEntry.isPresent (l := table)
  have other : absentCount table = table.countP (fun e => decide ¬e.isPresent = true) := by
    rw [absentCount]
    congr 1
    funext e
    cases e.isPresent <;> rfl
  rw [other, presentCount]
  omega

theorem absentCandidates_eq (old : List StationEntry) (census : List (Byte × Byte)) :
    absentCandidates old census =
      (old.filter (fun e => !(census.map Prod.fst).contains e.address)).filter (fun e => e.position.isNone) ++
        ((old.filter (fun e => !(census.map Prod.fst).contains e.address)).filter StationEntry.isPresent).map
          StationEntry.makeAbsent := by
  have absent (e : StationEntry) : (!e.isPresent) = e.position.isNone := Option.not_isSome e.position
  simp only [absentCandidates, absent]

theorem replaceCensus_of_same {census : List (Byte × Byte)} {s : State}
    (same : census.map Prod.fst = presentAddresses s.table) :
    replaceCensus census s = { s with table := replaceTable s.table census } := by
  rw [replaceCensus]
  exact if_pos ((presentAddresses_replaceTable _ _).trans same)

theorem replaceCensus_of_changed {census : List (Byte × Byte)} {s : State}
    (changed : census.map Prod.fst ≠ presentAddresses s.table) :
    replaceCensus census s = { s with
      table := replaceTable s.table census
      store := s.store.commitEvent (.topology census.length
        ((census.map Prod.fst).countP (fun a => !(presentAddresses s.table).contains a))
        ((replaceTable s.table census).length - census.length)) } := by
  rw [replaceCensus]
  refine (if_neg (by rwa [presentAddresses_replaceTable])).trans ?_
  rw [newCount, presentAddresses_replaceTable, absentCount_eq, presentCount_replaceTable]
  rfl

/-- Settles O36. -/
theorem censusReplacesTheMembership : Obligations.CensusReplacesTheMembership := by
  unfold Obligations.CensusReplacesTheMembership
  intro census s missing candidates new before after
  have table : new = replaceTable s.table census := replaceCensus_table census s
  have split : new = presentPart s.table 1 census ++
      candidates.drop (census.length + candidates.length - 24) := by
    rw [table, replaceTable, absentCandidates_eq]
    rfl
  have length := presentPart_length s.table 1 census
  refine ⟨fun j a kind place => ?entries, ?absent, ?present, fun same => ?same, fun changed => ?changed⟩
  case entries =>
    have entry : new[j]? = some (presentEntry s.table (j + 1) a kind) := by
      have within : j < census.length := (List.getElem?_eq_some_iff.mp place).1
      rw [split, List.getElem?_append_left (by omega), presentPart_getElem?, place, Nat.add_comm 1 j]
      rfl
    exact ⟨fun e known => by rw [entry, presentEntry_of_known known],
      fun fresh => by rw [entry, presentEntry_of_new fresh]⟩
  case absent => rw [split, List.drop_left' length]
  case present => rw [split, List.length_append]; omega
  case same => rw [table]; exact replaceCensus_of_same same
  case changed => rw [table]; exact replaceCensus_of_changed changed

/-- Settles O37. -/
theorem probeTimerProbesTheRing : Obligations.ProbeTimerProbesTheRing := by
  unfold Obligations.ProbeTimerProbesTheRing
  refine fun s => ⟨fun stopped => congrArg Host.Outcome.next (if_neg (by simp [stopped])), fun runs down _ free => ?_⟩
  calc exec .probeTimerExpiry s
    _ = .next (finish (enterProbing .probeTimer s)) :=
        congrArg Host.Outcome.next (if_pos (Option.isSome_iff_ne_none.mpr runs))
    _ = _ := by rw [enterProbing_eq .probeTimer free, down]

end Sys2Proof.Machine

/-! PROOFS. The arbiter and the walk (O38 to O42): the choice at a boundary, the cycle step, and what the end of a
circulation does to its requester. -/

namespace Sys2Proof.Machine

/-! ### The choice at a boundary (R65 to R70, R77, R78) -/

theorem countDispatch_eq (s : State) : countDispatch s = { s with cycle := told s.cycle } := by
  unfold countDispatch told
  dsimp only
  by_cases inCycle : s.cycle.state = .running ∨ s.cycle.state = .closing
  · rw [if_pos ((CycleEngine.inCycle_iff _).mpr inCycle), if_pos inCycle]
    split <;> rfl
  · rw [if_neg (by simp [CycleEngine.inCycle_eq_false inCycle]), if_neg inCycle,
      if_neg fun ⟨running, _⟩ => inCycle (.inl running)]

theorem headDispatchable_of_noHead {s : State} (none : noHead s) : headDispatchable s = false := by
  unfold headDispatchable
  rcases none with empty | inFlight | off | ⟨inCycle, spent⟩
  · simp [empty]
  · simp [Option.isNone_eq_false_iff.mpr (Option.isSome_iff_ne_none.mpr inFlight)]
  · simp [off]
  · simp [(CycleEngine.inCycle_iff _).mpr inCycle, Nat.not_lt.mpr spent]

theorem headDispatchable_of_head {s : State} {r : UrgentRequest} {rest : List UrgentRequest}
    (queue : s.urgent.queue = r :: rest) (place : s.urgent.inFlight = none) (off : .off ∉ s.notices.urgent)
    (budget : s.cycle.state = .running ∨ s.cycle.state = .closing → s.cycle.interleaved < s.cycle.config.budget) :
    headDispatchable s = true := by
  unfold headDispatchable
  by_cases inCycle : s.cycle.state = .running ∨ s.cycle.state = .closing
  · simp [queue, place, off, budget inCycle]
  · simp [queue, place, off, CycleEngine.inCycle_eq_false inCycle]

theorem abandonmentWaits_eq_true_iff (s : State) : s.abandonmentWaits = true ↔ ¬noAbandonmentWaits s := by
  unfold State.abandonmentWaits noAbandonmentWaits
  rw [List.any_eq_true]
  constructor
  · rintro ⟨r, mem, abandons⟩ ⟨down, fault, off⟩
    cases r with
    | down => exact down mem
    | fault => exact fault mem
    | off => exact off mem
    | probing => simp [abandonReasonFor] at abandons
    | up => simp [abandonReasonFor] at abandons
  · intro waits
    by_cases down : .down ∈ s.notices.cycle
    · exact ⟨_, down, rfl⟩
    by_cases fault : .fault ∈ s.notices.cycle
    · exact ⟨_, fault, rfl⟩
    by_cases off : .off ∈ s.notices.cycle
    · exact ⟨_, off, rfl⟩
    exact absurd ⟨down, fault, off⟩ waits

section
variable {s : State}

theorem lowerOrdersWait_of_record (full : s.window.record ≠ none) : lowerOrdersWait s = true := by
  simp [lowerOrdersWait, Option.isSome_iff_ne_none.mpr full]

theorem lowerOrdersWait_of_awaiting (running : s.cycle.state = .running) (awaits : s.cycle.awaiting ≠ none) :
    lowerOrdersWait s = true := by
  simp [lowerOrdersWait, cycleClaimWaits, running, Option.isSome_iff_ne_none.mpr awaits]

theorem lowerOrdersWait_of_abandonment (inCycle : s.cycle.state = .running ∨ s.cycle.state = .closing)
    (waits : ¬noAbandonmentWaits s) : lowerOrdersWait s = true := by
  simp [lowerOrdersWait, cycleClaimWaits, (CycleEngine.inCycle_iff _).mpr inCycle,
    (abandonmentWaits_eq_true_iff s).mpr waits]

theorem lowerOrdersWait_eq_false (empty : s.window.record = none)
    (awaits : s.cycle.state = .running → s.cycle.awaiting = none)
    (cycle : ¬(s.cycle.state = .running ∨ s.cycle.state = .closing) ∨ noAbandonmentWaits s) :
    lowerOrdersWait s = false := by
  have notAwaited : (s.cycle.state == .running && s.cycle.awaiting.isSome) = false := by
    by_cases running : s.cycle.state = .running
    · simp [awaits running]
    · simp [running]
  have notAbandoned : (s.cycle.inCycle && s.abandonmentWaits) = false := by
    rcases cycle with out | none
    · simp [CycleEngine.inCycle_eq_false out]
    · rw [Bool.eq_false_iff.mpr fun waits => (abandonmentWaits_eq_true_iff s).mp waits none, Bool.and_false]
  simp [lowerOrdersWait, cycleClaimWaits, empty, notAwaited, notAbandoned]

variable (up : s.supervisor.state = .up) (settled : s.supervisor.censusPending = false) (free : s.port.record = none)
include up settled free

/-- The choice past order 1. -/
theorem chooseWithin_past_census (fuel : Nat) : chooseWithin (fuel + 1) s =
    if headDispatchable s then
      (s.urgent.queue.head?.map fun r => chooseWithin fuel (dispatchUrgent r s.urgent.queue.tail s)).getD s
    else if lowerOrdersWait s then s
    else if s.cycle.state = .running then chooseWithin fuel (cycleStep s)
    else if s.cycle.state = .closing then claimWindow .cycleWindow s.cycle.cycleNumber s
    else if hostWindowClaimed s then claimWindow .hostWindow 0#32 s
    else s := by
  rw [chooseWithin, if_neg (by simp [free]), if_neg (by simp [up]), if_neg (by simp [up]), if_neg (by simp [settled])]
  cases s.urgent.queue <;> rfl

/-- A dispatch, and the choice made again within what the queue that is left allows. -/
theorem boundary_of_head {r : UrgentRequest} {rest : List UrgentRequest} (queue : s.urgent.queue = r :: rest)
    (head : headDispatchable s = true) : boundary s = chooseWithin (rest.length + 36) (dispatchUrgent r rest s) := by
  rw [boundary, choiceBound, chooseWithin_past_census up settled free, if_pos head, queue,
    List.length_cons, show rest.length + 1 + 35 = rest.length + 36 by omega]
  simp only [List.head?_cons, Option.map_some, Option.getD_some, List.tail_cons]

theorem boundary_of_noHead (none : noHead s) : boundary s =
    if lowerOrdersWait s then s
    else if s.cycle.state = .running then chooseWithin (s.urgent.queue.length + 35) (cycleStep s)
    else if s.cycle.state = .closing then claimWindow .cycleWindow s.cycle.cycleNumber s
    else if hostWindowClaimed s then claimWindow .hostWindow 0#32 s
    else s := by
  rw [boundary, choiceBound, chooseWithin_past_census up settled free, headDispatchable_of_noHead none,
    if_neg Bool.false_ne_true]

end

theorem chooseWithin_of_record {s : State} (full : s.port.record ≠ none) (fuel : Nat) : chooseWithin fuel s = s := by
  cases fuel with
  | zero => rfl
  | succ fuel => rw [chooseWithin, if_pos (Option.isSome_iff_ne_none.mpr full)]

theorem dispatchUrgent_of_callable {s : State} {r : UrgentRequest} (rest : List UrgentRequest)
    (callable : callableForUrgent s.table r.station = true) : dispatchUrgent r rest s = { s with
      urgent := ⟨rest, some { r with timerRunning := false }⟩
      cycle := told s.cycle
      port := s.port.startAttempt
        ⟨.urgent, .call ⟨r.station, r.operation, r.object, r.outData, r.inLength⟩, 0,
         if r.retry then s.supervisor.config.retryLimit else 0, none⟩ } := by
  simp only [dispatchUrgent, countDispatch_eq]
  exact if_pos callable

theorem dispatchUrgent_of_absent {s : State} {r : UrgentRequest} (rest : List UrgentRequest)
    (absent : callableForUrgent s.table r.station = false) : dispatchUrgent r rest s = { s with
      urgent := ⟨rest, none⟩
      cycle := told s.cycle
      store := s.store.convert (.urgent r.tag) (.urgentResult ⟨r.tag, .skippedStation, none, 0, []⟩) } := by
  simp only [dispatchUrgent, countDispatch_eq]
  exact if_neg (by simp [absent])

theorem claimWindow_eq (kind : WindowKind) (n : Word) (s : State) : claimWindow kind n s = { s with
    window := { s.window with record := some ⟨kind, n⟩ }
    port := s.port.startAttempt ⟨.window, .window s.window.owed, 0, s.supervisor.config.retryLimit, none⟩ } := rfl

theorem hostWindowClaimed_iff {s : State} (empty : s.window.record = none) :
    hostWindowClaimed s = true ↔ s.window.hostPending = true ∧ .off ∉ s.notices.window := by
  simp [hostWindowClaimed, empty]

/-- Settles O38. -/
theorem arbiterChoosesInOrder : Obligations.ArbiterChoosesInOrder := by
  unfold Obligations.ArbiterChoosesInOrder
  intro s retry windowClaimed
  refine ⟨boundary_of_record, fun notProbing notUp => boundary_of_not_carries ?_, fun free =>
    ⟨fun due => (boundary_of_census free due).trans (claimCensus_eq s), fun up settled =>
      ⟨fun r rest queue place off budget => ?head, fun none => ?lower⟩⟩⟩
  · simp [State.ringCarries, notProbing, notUp]
  case head =>
    have dispatched := boundary_of_head up settled free queue (headDispatchable_of_head queue place off budget)
    refine ⟨fun callable => ?_, fun absent => ?_⟩
    · rw [dispatched, dispatchUrgent_of_callable rest callable]
      exact chooseWithin_of_record (by simp [RingPort.startAttempt]) _
    · rw [dispatched, dispatchUrgent_of_absent rest absent]
      rfl
  case lower =>
    have choice := boundary_of_noHead up settled free none
    have waits (wait : lowerOrdersWait s = true) : boundary s = s := choice.trans (if_pos wait)
    refine ⟨fun full => waits (lowerOrdersWait_of_record full),
      fun running awaits => waits (lowerOrdersWait_of_awaiting running awaits),
      fun inCycle abandons => waits (lowerOrdersWait_of_abandonment inCycle abandons),
      fun empty => ⟨fun closing stands => ?closing, fun resting => ?resting⟩⟩
    case closing =>
      rw [choice, lowerOrdersWait_eq_false empty (by simp [closing]) (.inr stands), if_neg Bool.false_ne_true,
        if_neg (by simp [closing]), if_pos closing]
      rfl
    case resting =>
      have out : ¬(s.cycle.state = .running ∨ s.cycle.state = .closing) := by
        rcases resting with state | state | state <;> simp [state]
      rw [choice, lowerOrdersWait_eq_false empty (fun running => absurd (.inl running) out) (.inl out),
        if_neg Bool.false_ne_true, if_neg fun running => out (.inl running), if_neg fun closing => out (.inr closing)]
      refine ⟨fun pending off => if_pos ((hostWindowClaimed_iff empty).mpr ⟨pending, off⟩), fun withdrawn => if_neg ?_⟩
      rw [hostWindowClaimed_iff empty]
      rintro ⟨pending, off⟩
      rcases withdrawn with clear | off'
      · simp [clear] at pending
      · exact off off'

end Sys2Proof.Machine

namespace Sys2Proof.Machine

/-! ### The walk (R50, R51, R53) -/

theorem settledOutcome_of_disabled (table : List StationEntry) {e : PlanEntry} (disabled : e.latchedEnable = false) :
    settledOutcome table e = some .skippedDisabled := if_pos (by simp [disabled])

theorem settledOutcome_of_station {table : List StationEntry} {e : PlanEntry} (enabled : e.latchedEnable = true)
    (absent : callableForCycle table e.target = false) : settledOutcome table e = some .skippedStation :=
  (if_neg (by simp [enabled])).trans (if_pos (by simp [absent]))

theorem settledOutcome_of_callable {table : List StationEntry} {e : PlanEntry} (enabled : e.latchedEnable = true)
    (callable : callableForCycle table e.target = true) : settledOutcome table e =
      if e.operation ≠ .read ∧ e.latchedOutput = [] then some .noOutput else none :=
  (if_neg (by simp [enabled])).trans (if_neg (by simp [callable]))

theorem walk_append {table : List StationEntry} {settled : List (PlanEntry × ExchangeOutcome)}
    (tests : ∀ x ∈ settled, settledOutcome table x.1 = some x.2) (rest : List PlanEntry) :
    walk table (settled.map Prod.fst ++ rest) =
      (settled.map (fun x => ⟨x.2, none, []⟩) ++ (walk table rest).1, (walk table rest).2) := by
  induction settled with
  | nil => rfl
  | cons x settled ih =>
    obtain ⟨first, others⟩ := List.forall_mem_cons.mp tests
    rw [List.map_cons, List.cons_append, walk, first, ih others]
    rfl

theorem walk_of_callable {table : List StationEntry} {e : PlanEntry} (callable : settledOutcome table e = none)
    (more : List PlanEntry) : walk table (e :: more) = ([], some e) := by
  rw [walk, callable]

section
variable {s : State} {outcomes : List EntryOutcome}

theorem cycleStep_of_callable {e : PlanEntry}
    (walked : walk s.table (s.plan.drop s.cycle.pointer) = (outcomes, some e)) : cycleStep s = { s with
      cycle := { s.cycle with
        outcomes := s.cycle.outcomes ++ outcomes, pointer := s.cycle.pointer + outcomes.length
        awaiting := some (s.cycle.pointer + outcomes.length) }
      port := s.port.startAttempt
        ⟨.cycle,
         .call ⟨e.target, e.operation, e.object, if e.operation = .read then [] else e.latchedOutput, e.inLength⟩,
         0, s.supervisor.config.retryLimit, none⟩ } := by
  rw [cycleStep, walked]
  rfl

/-- The state at the end of a walk. -/
def walkedOut (s : State) (outcomes : List EntryOutcome) : State := { s with
  cycle := { s.cycle with
    outcomes := s.cycle.outcomes ++ outcomes, pointer := s.cycle.pointer + outcomes.length } }

theorem cycleStep_of_end (walked : walk s.table (s.plan.drop s.cycle.pointer) = (outcomes, none)) :
    cycleStep s = if s.cycle.config.window then
      claimWindow .cycleWindow s.cycle.cycleNumber (endWalk (walkedOut s outcomes))
    else endWalk (walkedOut s outcomes) := by
  rw [cycleStep, walked]
  rfl

theorem endWalk_of_window (window : s.cycle.config.window = true) :
    endWalk s = { s with cycle := { s.cycle with state := .closing } } := if_pos window

theorem endWalk_of_no_window (window : s.cycle.config.window = false) : endWalk s = completeCycle s :=
  if_neg (by simp [window])

end

/-- Settles O39. -/
theorem walkSettlesAndClaims : Obligations.WalkSettlesAndClaims := by
  unfold Obligations.WalkSettlesAndClaims
  refine ⟨fun table e => ⟨settledOutcome_of_disabled table, fun enabled =>
    ⟨settledOutcome_of_station enabled, settledOutcome_of_callable enabled⟩⟩, ?_⟩
  intro settled rest s up noCensus free noHead empty running notAwaited stands tests plan outcomes pointer
  have walked := (congrArg (walk s.table) plan).trans (walk_append tests rest)
  have length : (settled.map (fun x => (⟨x.2, none, []⟩ : EntryOutcome))).length = settled.length := List.length_map _
  have step : boundary s = chooseWithin (s.urgent.queue.length + 35) (cycleStep s) := by
    rw [boundary_of_noHead up noCensus free noHead,
      lowerOrdersWait_eq_false empty (fun _ => notAwaited) (.inr stands), if_neg Bool.false_ne_true, if_pos running]
  refine ⟨fun e more shape callable => ?_, fun shape => ?_⟩
  · subst shape
    rw [walk_of_callable callable, List.append_nil] at walked
    rw [step, cycleStep_of_callable walked, chooseWithin_of_record (by simp [RingPort.startAttempt]), length]
  · subst shape
    rw [walk, List.append_nil] at walked
    have ended := cycleStep_of_end walked
    rw [walkedOut, length] at ended
    refine ⟨fun window => ?_, fun window => ?_⟩
    · rw [step, ended, if_pos window, endWalk_of_window (by exact window), claimWindow_eq,
        chooseWithin_of_record (by simp [RingPort.startAttempt])]
    · rw [ended, if_neg (by simp [window]), endWalk_of_no_window (by exact window)]

/-! ### The completion of a cycle (R38, R57, R58) -/

theorem publishPlan_eq_zipWith (n : Word) {plan : List PlanEntry} {outcomes : List EntryOutcome}
    (length : outcomes.length = plan.length) :
    publishPlan n plan outcomes = List.zipWith (fun e o => e.publish o n) plan outcomes := by
  induction plan generalizing outcomes with
  | nil => rfl
  | cons e plan ih =>
    cases outcomes with
    | nil => cases length
    | cons o outcomes => rw [publishPlan, List.zipWith_cons_cons, ih (Nat.succ.inj length)]

theorem completeCycle_of_stop {s : State} (stop : s.cycle.stopAtEnd = true) :
    completeCycle s = enterStopped (settleCycle s) := if_pos stop

theorem completeCycle_of_rest {s : State} (goesOn : s.cycle.stopAtEnd = false) :
    completeCycle s =
      armAfterCycle (s.cycle.config.mode == .free || s.cycle.lateFlag) s.cycle.lateFlag (settleCycle s) :=
  if_neg (by simp [goesOn])

theorem armAfterCycle_raised (mark : Bool) (s : State) : armAfterCycle true mark s =
    startAttempt mark { s with cycle := { s.cycle with state := .armed, holdReason := .none, lateFlag := false } } := by
  rw [armAfterCycle, if_pos rfl, startCause_of_armed rfl]

/-- Settles O40. -/
theorem completionCommitsTheSnapshot : Obligations.CompletionCommitsTheSnapshot := by
  unfold Obligations.CompletionCommitsTheSnapshot
  intro s c settled rearmed length
  have steps : settleCycle s = settled := by
    rw [settleCycle, publishPlan_eq_zipWith _ length]
    rfl
  refine ⟨fun stop => ?_, fun goesOn mode flag => ?_, fun goesOn raised => ?_⟩
  · rw [completeCycle_of_stop stop, steps, enterStopped_eq]
  · have quiet : (s.cycle.config.mode == .free || s.cycle.lateFlag) = false :=
      Bool.or_eq_false_iff.mpr ⟨beq_eq_false_iff_ne.mpr mode, flag⟩
    rw [completeCycle_of_rest goesOn, steps, quiet]
    rfl
  · have raises : (s.cycle.config.mode == .free || s.cycle.lateFlag) = true := by simpa using raised
    rw [completeCycle_of_rest goesOn, steps, raises, armAfterCycle_raised]

/-! ### The outcome of a CALL, to its requester (R52, R79, R80) -/

section
variable {s : State} {o : EntryOutcome}

theorem takeEntryOutcome_of_awaited (running : s.cycle.state = .running) (awaits : s.cycle.awaiting ≠ none) :
    takeEntryOutcome o s =
      let t := { s with cycle :=
        { s.cycle with outcomes := s.cycle.outcomes ++ [o], pointer := s.cycle.pointer + 1, awaiting := none } }
      if s.cycle.pointer + 1 = s.plan.length then endWalk t else t := if_pos ⟨running, awaits⟩

theorem takeEntryOutcome_of_not_awaited (dropped : s.cycle.state ≠ .running ∨ s.cycle.awaiting = none) :
    takeEntryOutcome o s = s := if_neg fun ⟨running, awaits⟩ => dropped.elim (· running) awaits

theorem endInFlight_of_some {r : UrgentRequest} (place : s.urgent.inFlight = some r) (outcome : ExchangeOutcome)
    (status : Option ReplyStatus) (attempts : Nat) (data : List Byte) :
    endInFlight outcome status attempts data s = { s with
      urgent := { s.urgent with inFlight := none }
      store := s.store.convert (.urgent r.tag) (.urgentResult ⟨r.tag, outcome, status, attempts, data⟩) } := by
  rw [endInFlight, place]
  rfl

end

theorem callOutcome_of_refused {st : ReplyStatus} (notOk : st ≠ .ok) (notBusy : st ≠ .busy) (data : List Byte) :
    callOutcome (.served st data) = some ⟨.refusedByStation, some st, []⟩ := by
  cases st with
  | ok => exact absurd rfl notOk
  | busy => exact absurd rfl notBusy
  | noObject => rfl
  | denied => rfl
  | size => rfl

/-- Settles O41. -/
theorem callOutcomesReachTheRequester : Obligations.CallOutcomesReachTheRequester := by
  unfold Obligations.CallOutcomesReachTheRequester
  intro res o status data s outcome taken
  have known : callOutcome res = some ⟨o, status, data⟩ := by
    rcases outcome with ⟨d, rfl, rfl, rfl, rfl⟩ | ⟨d, rfl, rfl, rfl, rfl⟩ |
      ⟨st, d, notOk, notBusy, rfl, rfl, rfl, rfl⟩ | ⟨rfl, rfl, rfl, rfl⟩ | ⟨rfl, rfl, rfl, rfl⟩
    case inr.inr.inl => exact callOutcome_of_refused notOk notBusy d
    all_goals rfl
  have cycle (t : State) : handCycle res t = takeEntryOutcome ⟨o, status, data⟩ t := by rw [handCycle, known]
  have urgent (n : Nat) (t : State) : handUrgent res n t = endInFlight o status n data t := by rw [handUrgent, known]
  refine ⟨fun running awaits => ?_, fun dropped => ?_, rfl, fun r n place => ⟨?_, ?_⟩⟩
  · rw [cycle, takeEntryOutcome_of_awaited running awaits]
    refine ⟨fun more => if_neg more, fun last => ⟨fun window => ?_, fun window => ?_⟩⟩
    · exact (if_pos last).trans (endWalk_of_window (s := taken) window)
    · exact (if_pos last).trans (endWalk_of_no_window (s := taken) window)
  · rw [cycle, takeEntryOutcome_of_not_awaited dropped]
  · rw [urgent, endInFlight_of_some place]
  · exact endInFlight_of_some place ..

/-! ### The end of a window (R56, R124, R128 to R131) -/

section
variable {s : State} {e : WindowEnd} {n : Word}

theorem endWindow_of_none (empty : s.window.record = none) : endWindow e s = s := by
  rw [endWindow, empty]

theorem endWindow_of_host (record : s.window.record = some ⟨.hostWindow, n⟩) :
    endWindow e s = { s with window := { s.window with record := none, hostPending := false } } := by
  rw [endWindow, record]

theorem endWindow_of_cycle (record : s.window.record = some ⟨.cycleWindow, n⟩) :
    endWindow e s = takeWindowEnd n e { s with window := { s.window with record := none } } := by
  rw [endWindow, record]

theorem takeWindowEnd_of_other (other : s.cycle.state ≠ .closing ∨ n ≠ s.cycle.cycleNumber) : takeWindowEnd n e s = s :=
  if_neg fun ⟨closing, number⟩ => other.elim (· closing) (· number)

end

/-- Settles O42. -/
theorem windowEndsReachTheCycle : Obligations.WindowEndsReachTheCycle := by
  unfold Obligations.WindowEndsReachTheCycle
  refine ⟨fun n s => ⟨rfl, fun r rest => rfl⟩, fun reports deferred s =>
    ⟨fun empty => ?none, fun r record => ?good, rfl, rfl, fun e => ⟨fun n record => endWindow_of_host record, ?cycle⟩⟩⟩
  case none => exact ⟨by simp [handWindow, windowGoodReturn, empty], endWindow_of_none empty, endWindow_of_none empty⟩
  case good =>
    simp only [handWindow, windowGoodReturn, record]
    rfl
  case cycle =>
    intro n record ended
    have cycle := endWindow_of_cycle (e := e) record
    refine ⟨fun other => cycle.trans (takeWindowEnd_of_other (s := ended) other), fun closing number => ?_⟩
    have taken : s.cycle.state = .closing ∧ n = s.cycle.cycleNumber := ⟨closing, number⟩
    refine ⟨fun lost => ?_, fun failed => ?_, fun a d good => ?_⟩
    · subst lost; exact cycle.trans (if_pos taken)
    · subst failed; exact cycle.trans (if_pos taken)
    · subst good; exact cycle.trans (if_pos taken)

end Sys2Proof.Machine

/-!
PROOFS. Timers and the reports between blocks (O43 to O47): each event named by what its owner does, then cut into the
cases of the owner's state.
-/

namespace Sys2Proof.Machine

/-! ### Start causes (R46, R59) -/

section
variable {s : State} {mark : Bool}

theorem startCause_of_held (held : s.cycle.state = .held) : startCause mark s = { s with cycle :=
    { s.cycle with counters :=
      { s.cycle.counters with skippedStarts := satInc s.cycle.counters.skippedStarts } } } := by
  rw [startCause, held]

theorem startCause_of_inCycle (inCycle : s.cycle.state = .running ∨ s.cycle.state = .closing) :
    startCause mark s = overrun s := by
  rcases inCycle with state | state <;> rw [startCause, state]

/-- An overrun counted, with the late flag set under LATE_START (R59). -/
def overran (c : CycleEngine) : CycleEngine :=
  { c with
    counters := { c.counters with overruns := satInc c.counters.overruns }
    lateFlag := c.lateFlag || c.config.overrun == .lateStart }

theorem overrun_of_reported (reported : s.cycle.overrunReported = true) :
    overrun s = { s with cycle := overran s.cycle } := by
  unfold overrun overran
  by_cases late : s.cycle.config.overrun = .lateStart <;> simp [reported, late]

theorem overrun_of_unreported (unreported : s.cycle.overrunReported = false) : overrun s = { s with
    cycle := { overran s.cycle with overrunReported := true }
    store := s.store.commitEvent (.cycleOverrun s.cycle.cycleNumber) } := by
  unfold overrun overran
  by_cases late : s.cycle.config.overrun = .lateStart <;> simp [unreported, late, commitEvent]

theorem overrun_state : (overrun s).cycle.state = s.cycle.state := by
  cases reported : s.cycle.overrunReported with
  | true => rw [overrun_of_reported reported]; rfl
  | false => rw [overrun_of_unreported reported]; rfl

/-- A block that started no cycle gives no notice. -/
theorem boundaryIfStarted_of_same_state {before : State} (same : s.cycle.state = before.cycle.state) :
    boundaryIfStarted before s = s := by
  rw [boundaryIfStarted, boundaryIf, same]
  cases before.cycle.state <;> rfl

theorem exec_periodTimerExpiry (runs : s.cycle.periodTimer ≠ none) :
    exec .periodTimerExpiry s = .next (finish (boundaryIfStarted s (startCause false s))) :=
  congrArg Host.Outcome.next (if_pos (Option.isSome_iff_ne_none.mpr runs))

end

/-- Settles O43. -/
theorem periodTimerRaisesAStartCause : Obligations.PeriodTimerRaisesAStartCause := by
  unfold Obligations.PeriodTimerRaisesAStartCause
  intro s counted late
  refine ⟨fun still => congrArg Host.Outcome.next (if_neg (by simp [still])), fun runs => ?_⟩
  rw [exec_periodTimerExpiry runs]
  have inCycle (walking : s.cycle.state = .running ∨ s.cycle.state = .closing) :
      boundaryIfStarted s (startCause false s) = overrun s := by
    rw [startCause_of_inCycle walking, boundaryIfStarted_of_same_state overrun_state]
  refine ⟨fun held => ?_, fun walking reported => ?_, fun walking unreported => ?_, fun armed ring => ?_,
    fun armed up refused => ?_, fun st armed up granted => ?_⟩
  · rw [startCause_of_held held]
    exact congrArg (fun t => Host.Outcome.next (finish t)) (boundaryIfStarted_of_same_state rfl)
  · rw [inCycle walking, overrun_of_reported reported]
    rfl
  · rw [inCycle walking, overrun_of_unreported unreported]
    rfl
  · rw [startCause_of_armed armed, noticed_attempt_of_ring s ring]
  · rw [startCause_of_armed armed, noticed_attempt_of_refused s up refused]
  · rw [startCause_of_armed armed, noticed_attempt_of_granted (by simp [armed]) up granted]

/-! ### The Cycle Engine takes a report, or a notice of space (R49, R60, R61, R140) -/

section
variable {s : State} {r : RingState} {rest : List RingState}

theorem exec_cycleRingReport (waits : s.notices.cycle = r :: rest) : exec .cycleRingReport s =
    .next (finish (cycleActsOnReport r { s with notices := { s.notices with cycle := rest } })) := by
  simp only [exec, execCycleRingReport, waits]

theorem cycleActsOnReport_of_kept (kept : cycleTakesReport r s = s) (stands : abandonsCycle r s = false) :
    cycleActsOnReport r s = s := by
  simp only [cycleActsOnReport, kept, stands]
  exact boundaryIfStarted_of_same_state rfl

theorem cycleActsOnReport_abandons {reason : AbandonReason} (abandons : abandonReasonFor r = some reason)
    (inCycle : s.cycle.state = .running ∨ s.cycle.state = .closing) :
    cycleActsOnReport r s = boundary (abandonCycle reason s) := by
  have acts : abandonsCycle r s = true := by simp [abandonsCycle, abandons, (CycleEngine.inCycle_iff _).mpr inCycle]
  simp only [cycleActsOnReport, acts, cycleTakesReport_abandons abandons inCycle, if_true]

theorem cycleActsOnReport_of_resting (notUp : r ≠ .up) (out : ¬(s.cycle.state = .running ∨ s.cycle.state = .closing)) :
    cycleActsOnReport r s = s :=
  cycleActsOnReport_of_kept (cycleTakesReport_of_resting notUp out)
    (by rw [abandonsCycle, CycleEngine.inCycle_eq_false out, Bool.and_false])

theorem cycleActsOnReport_up : cycleActsOnReport .up s = boundaryIfStarted s (retryHeldStart s) := rfl

theorem retryHeldStart_of_held (held : s.cycle.state = .held) :
    retryHeldStart s = startAttempt s.cycle.heldMark s := if_pos held

theorem retryHeldStart_of_not_held (other : s.cycle.state ≠ .held) : retryHeldStart s = s := if_neg other

/-- A held start retried, with the notice of a start that succeeds (R49). -/
theorem noticed_retry_of_ring (held : s.cycle.state = .held) (ring : s.supervisor.state ≠ .up) :
    boundaryIfStarted s (retryHeldStart s) =
      { s with cycle := { s.cycle with state := .held, holdReason := .ring } } := by
  rw [retryHeldStart_of_held held, noticed_attempt_of_ring s ring]

theorem noticed_retry_of_refused (held : s.cycle.state = .held) (up : s.supervisor.state = .up)
    (refused : s.store.reserve .cycle (14 + 3 * s.plan.length + inSum s.plan) = none) :
    boundaryIfStarted s (retryHeldStart s) =
      { s with cycle := { s.cycle with state := .held, holdReason := .space } } := by
  rw [retryHeldStart_of_held held, noticed_attempt_of_refused s up refused]

theorem noticed_retry_of_granted {st : Store} (held : s.cycle.state = .held) (up : s.supervisor.state = .up)
    (granted : s.store.reserve .cycle (14 + 3 * s.plan.length + inSum s.plan) = some st) :
    boundaryIfStarted s (retryHeldStart s) = boundary { s with
      store := st, plan := s.plan.map PlanEntry.latch, cycle := started s.cycle s.cycle.heldMark } := by
  rw [retryHeldStart_of_held held, noticed_attempt_of_granted (by simp [held]) up granted]

end

theorem abandonReasonFor_of_cases {r : RingState} {reason : AbandonReason}
    (h : (r, reason) = (.down, .ringDown) ∨ (r, reason) = (.fault, .ringFault) ∨ (r, reason) = (.off, .ringStopped)) :
    abandonReasonFor r = some reason ∧ reason ≠ .stopped := by
  rcases h with e | e | e <;> cases e <;> exact ⟨rfl, by decide⟩

/-- Settles O44. -/
theorem cycleTakesRingReports : Obligations.CycleTakesRingReports := by
  unfold Obligations.CycleTakesRingReports
  intro r rest s waits u event
  have acts {t : State} (e : cycleActsOnReport r u = t) : exec .cycleRingReport s = .next (finish t) :=
    (exec_cycleRingReport waits).trans (congrArg (fun t => Host.Outcome.next (finish t)) e)
  refine ⟨fun probing => acts ?probing, fun leaves resting => acts ?resting, fun reason cause inCycle => ?abandons,
    fun up other => acts ?other, fun up held ring => ?held, fun up held ring => acts ?ring⟩
  case probing =>
    subst probing
    exact cycleActsOnReport_of_kept rfl rfl
  case resting =>
    refine cycleActsOnReport_of_resting (s := u) ?_ ?_
    · rcases leaves with rfl | rfl | rfl <;> decide
    · rcases resting with state | state | state <;> simp [u, state]
  case abandons =>
    obtain ⟨abandons, running⟩ := abandonReasonFor_of_cases cause
    have told := cycleActsOnReport_abandons (s := u) abandons inCycle
    refine ⟨fun mode => acts ?_, fun mode => ?_⟩
    · rw [told, abandonCycle_of_not_free (s := u) running mode]
      rfl
    · rw [abandonCycle_of_free (s := u) running mode] at told
      refine ⟨fun ring => acts ?_, fun ring => ⟨fun refused => acts ?_, fun st granted => acts ?_⟩⟩
      · rw [told, startAttempt_of_ring (s := abandoned reason u) ring]
        rfl
      · rw [told, startAttempt_of_refused (s := abandoned reason u) ring refused]
        rfl
      · rw [told, startAttempt_of_granted (s := abandoned reason u) ring granted]
        rfl
  case other =>
    subst up
    rw [cycleActsOnReport_up, retryHeldStart_of_not_held (s := u) other, boundaryIfStarted_of_same_state rfl]
  case held =>
    subst up
    exact ⟨fun refused => acts (noticed_retry_of_refused (s := u) held ring refused),
      fun st granted => acts (noticed_retry_of_granted (s := u) held ring granted)⟩
  case ring =>
    subst up
    exact noticed_retry_of_ring (s := u) held ring

theorem CycleEngine.held_eq {c : CycleEngine} (held : c.state = .held) (reason : HoldReason) :
    { c with state := .held, holdReason := reason } = { c with holdReason := reason } := by rw [← held]

/-- Settles O46. -/
theorem spaceNoticeRetriesAHeldStart : Obligations.SpaceNoticeRetriesAHeldStart := by
  unfold Obligations.SpaceNoticeRetriesAHeldStart
  refine fun s => ⟨fun none => ?none, fun n waits => ?waits⟩
  case none => simp only [exec, execSpaceReleaseNotice, none]
  case waits =>
    intro u
    have acts {t : State} (e : boundaryIfStarted u (retryHeldStart u) = t) :
        exec .spaceReleaseNotice s = .next (finish t) := by
      simp only [exec, execSpaceReleaseNotice, waits]
      exact congrArg (fun t => Host.Outcome.next (finish t)) e
    refine ⟨fun other => acts ?_, fun held => ⟨fun ring => acts ?_, fun up refused => acts ?_,
      fun st up granted => acts (noticed_retry_of_granted (s := u) held up granted)⟩⟩
    · rw [retryHeldStart_of_not_held (s := u) other, boundaryIfStarted_of_same_state rfl]
    · rw [noticed_retry_of_ring (s := u) held ring, CycleEngine.held_eq (c := u.cycle) held]
    · rw [noticed_retry_of_refused (s := u) held up refused, CycleEngine.held_eq (c := u.cycle) held]

/-! ### The other blocks take a report (R66, R85, R117, R123) -/

theorem stopRequests_eq (requests : List UrgentRequest) (s : State) : stopRequests requests s = { s with
    store := requests.foldl (fun st q =>
      st.convert (.urgent q.tag) (.urgentResult ⟨q.tag, .ringStopped, none, 0, []⟩)) s.store } := by
  induction requests generalizing s with
  | nil => rfl
  | cons r rest ih =>
    rw [stopRequests, ih]
    rfl

section
variable {s : State} {r : RingState} {rest : List RingState}

theorem exec_urgentRingReport (waits : s.notices.urgent = r :: rest) : exec .urgentRingReport s =
    .next (finish (urgentTakesReport r { s with notices := { s.notices with urgent := rest } })) := by
  simp only [exec, execUrgentRingReport, waits]

theorem exec_windowRingReport (waits : s.notices.window = r :: rest) : exec .windowRingReport s =
    .next (finish (windowTakesReport r { s with notices := { s.notices with window := rest } })) := by
  simp only [exec, execWindowRingReport, waits]

theorem exec_arbiterRingReport (waits : s.notices.arbiter = r :: rest) : exec .arbiterRingReport s =
    .next (finish (arbiterTakesReport r { s with notices := { s.notices with arbiter := rest } })) := by
  simp only [exec, execArbiterRingReport, waits]

theorem windowInFlight_of_other (other : ∀ c, s.port.record = some c → c.requester ≠ .window) :
    s.windowInFlight = none := by
  refine if_neg ?_
  rw [State.slot, Option.map_eq_some_iff]
  rintro ⟨c, record, window⟩
  exact other c record window

theorem windowInFlight_of_window {c : Circulation} (record : s.port.record = some c) (window : c.requester = .window) :
    s.windowInFlight = s.window.record := if_pos (by rw [State.slot, record, Option.map_some, window])

end

/-- Settles O45. -/
theorem otherBlocksTakeRingReports : Obligations.OtherBlocksTakeRingReports := by
  unfold Obligations.OtherBlocksTakeRingReports
  refine ⟨fun r rest s waits => ?urgent, fun r rest s waits => ?window, fun r rest s waits => ?arbiter, fun s => ?none⟩
  case urgent =>
    rw [exec_urgentRingReport waits]
    refine ⟨fun other => congrArg (fun t => Host.Outcome.next (finish t)) (if_neg other), fun off => ?_⟩
    rw [urgentTakesReport, if_pos off, stopRequests_eq]
  case window =>
    rw [exec_windowRingReport waits]
    refine ⟨fun other => congrArg (fun t => Host.Outcome.next (finish t)) (if_neg other), fun off free => ?_,
      fun c off record window => ?_⟩
    · rw [windowTakesReport, if_pos off,
        windowInFlight_of_other (s := { s with notices := { s.notices with window := rest } }) free]
    · rw [windowTakesReport, if_pos off,
        windowInFlight_of_window (s := { s with notices := { s.notices with window := rest } }) record window]
  case arbiter =>
    rw [exec_arbiterRingReport waits]
    refine ⟨fun carries => ?_, fun notProbing notUp => ?_⟩
    · rw [arbiterTakesReport, boundaryIf, if_pos (by simpa using carries)]
    · rw [arbiterTakesReport, boundaryIf, if_neg (by simp [notProbing, notUp])]
  case none =>
    refine ⟨fun none => ?_, fun none => ?_, fun none => ?_, fun none => ?_⟩
    · simp only [exec, execCycleRingReport, none]
    · simp only [exec, execUrgentRingReport, none]
    · simp only [exec, execWindowRingReport, none]
    · simp only [exec, execArbiterRingReport, none]

/-! ### A deadline (R81) -/

section
variable {s : State} {tag : Byte}

theorem exec_deadlineTimerExpiry_of_timed {r : UrgentRequest} (timed : s.urgent.timed tag = some r) :
    exec (.deadlineTimerExpiry tag) s = .next (finish (expireRequest r s)) := by
  simp only [exec, execDeadlineTimerExpiry, timed]

theorem exec_deadlineTimerExpiry_of_still (still : s.urgent.timed tag = none) :
    exec (.deadlineTimerExpiry tag) s = .next s := by
  simp only [exec, execDeadlineTimerExpiry, still]

theorem timed_of_unqueued (unqueued : queuedWith s.urgent tag = none) : s.urgent.timed tag = none := by
  rw [UrgentQueue.timed, unqueued]

theorem timed_of_queued {r : UrgentRequest} (queued : queuedWith s.urgent tag = some r) :
    s.urgent.timed tag = if r.timerRunning then some r else none := by
  rw [UrgentQueue.timed, queued]

end

/-- Settles O47. -/
theorem deadlineEndsTheRequest : Obligations.DeadlineEndsTheRequest := by
  unfold Obligations.DeadlineEndsTheRequest
  refine fun tag s => ⟨fun unqueued => exec_deadlineTimerExpiry_of_still (timed_of_unqueued unqueued),
    fun r queued => ⟨fun still => exec_deadlineTimerExpiry_of_still ?_, fun runs => ?_⟩⟩
  · rw [timed_of_queued queued, if_neg (by simp [still])]
  · have named : r.tag = tag := by simpa using List.find?_some queued
    rw [exec_deadlineTimerExpiry_of_timed ((timed_of_queued queued).trans (if_pos runs)), expireRequest, named,
      commitResult, named]
    rfl

end Sys2Proof.Machine

/-! PROOFS. Accounting, the table, the reports and the records (O48, O50 to O52). -/

namespace Sys2Proof.Machine

/-! ### What the store admits, and how reservations end (R136 to R142) -/

section
variable {st : Store}

theorem roomBesideMargin_iff {size : Nat} :
    st.roomBesideMargin size = true ↔ size + 64 ≤ st.unusedBytes ∧ 5 ≤ st.unusedRecords := by
  rw [Store.roomBesideMargin, Bool.and_eq_true, decide_eq_true_iff, decide_eq_true_iff]
  exact Iff.rfl

theorem roomForEvents_iff {n : Nat} :
    st.roomForEvents n = true ↔ 16 * n ≤ st.unusedBytes ∧ n ≤ st.unusedRecords := by
  simp [Store.roomForEvents]

theorem satInc_eq (c : Half) : satInc c = if c = 65535#16 then 65535#16 else c + 1#16 := by
  unfold satInc
  split
  · assumption
  · rfl

theorem loseEvent_eq : st.loseEvent =
    { st with lostEvents := if st.lostEvents = 65535#16 then 65535#16 else st.lostEvents + 1#16 } := by
  rw [Store.loseEvent, satInc_eq]

section
variable {owner : ReservationOwner} {older younger : List Reservation} {q : Reservation}

theorem eraseP_owner (owned : q.owner = owner) (others : ∀ x ∈ older, x.owner ≠ owner) :
    (older ++ q :: younger).eraseP (fun r => r.owner == owner) = older ++ younger := by
  rw [List.eraseP_append_right _ fun x mem => by simpa using others x mem,
    List.eraseP_cons_of_pos (by simpa using owned)]

theorem reservedFor_of_owner (reservations : st.reservations = older ++ q :: younger) (owned : q.owner = owner)
    (others : ∀ x ∈ older, x.owner ≠ owner) : st.reservedFor owner = q.size := by
  have found : st.reservations.find? (fun r => r.owner == owner) = some q := by
    rw [reservations, List.find?_append, List.find?_eq_none.mpr fun x mem => by simpa using others x mem]
    simp [owned]
  rw [Store.reservedFor, found]

theorem reservedFor_of_none (none : ∀ x ∈ st.reservations, x.owner ≠ owner) : st.reservedFor owner = 0 := by
  rw [Store.reservedFor, List.find?_eq_none.mpr fun x mem => by simpa using none x mem]

theorem endReservation_of_owner (reservations : st.reservations = older ++ q :: younger) (owned : q.owner = owner)
    (others : ∀ x ∈ older, x.owner ≠ owner) :
    st.endReservation owner = { st with reservations := older ++ younger } := by
  rw [Store.endReservation, reservations, eraseP_owner owned others]

theorem endReservation_of_none (none : ∀ x ∈ st.reservations, x.owner ≠ owner) : st.endReservation owner = st := by
  rw [Store.endReservation, List.eraseP_of_forall_not fun x mem => by simpa using none x mem]

theorem any_owner (reservations : st.reservations = older ++ q :: younger) (owned : q.owner = owner) :
    st.reservations.any (fun r => r.owner == owner) = true := by
  simp [reservations, owned]

theorem any_owner_of_none (none : ∀ x ∈ st.reservations, x.owner ≠ owner) :
    st.reservations.any (fun r => r.owner == owner) = false := by
  simpa using none

end
end

/-- Settles O48. -/
theorem storeAdmitsByItsRoom : Obligations.StoreAdmitsByItsRoom := by
  unfold Obligations.StoreAdmitsByItsRoom
  intro st bytes slots lost commit
  have refused {size : Nat} (full : ¬(size + 64 ≤ bytes ∧ 5 ≤ slots)) : ¬st.roomBesideMargin size = true :=
    fun room => full (roomBesideMargin_iff.mp room)
  have counted : st.loseEvent = lost := loseEvent_eq
  refine ⟨fun owner size => ⟨fun room => if_pos (roomBesideMargin_iff.mpr room), fun full => if_neg (refused full)⟩,
    fun n item => ⟨fun room => if_pos (roomBesideMargin_iff.mpr room), fun full => if_neg (refused full)⟩,
    fun owner content older q younger reservations owned others => ⟨?_, ?_⟩,
    fun owner content none => ⟨?_, ?_⟩, fun e => ⟨fun quiet room => ?_, fun quiet full => ?_, fun losing room => ?_,
      fun losing full => ?_⟩⟩
  · rw [Store.convert, endReservation_of_owner reservations owned others,
      reservedFor_of_owner reservations owned others]
    rfl
  · rw [Store.release, endReservation_of_owner reservations owned others, any_owner reservations owned, Bool.or_true]
  · rw [Store.convert, endReservation_of_none none, reservedFor_of_none none, decide_eq_false (Nat.not_lt_zero _),
      Bool.or_false]
    rfl
  · rw [Store.release, endReservation_of_none none, any_owner_of_none none, Bool.or_false]
  · rw [Store.commitEvent, if_pos quiet, if_pos (roomForEvents_iff.mpr room)]
    rfl
  · rw [Store.commitEvent, if_pos quiet, if_neg fun room => full (roomForEvents_iff.mp room), counted]
  · rw [Store.commitEvent, if_neg losing, if_pos (roomForEvents_iff.mpr room)]
    rfl
  · rw [Store.commitEvent, if_neg losing, if_neg fun room => full (roomForEvents_iff.mp room), counted]

/-! ### The Station Table takes a CALL's outcome (R94 to R96) -/

section
variable {s : State} {a : Byte} {e : StationEntry}

theorem stationServed_of_unknown (unknown : findStation s.table a = none) : stationServed a s = s := by
  rw [stationServed, unknown]

theorem stationMissed_of_unknown (unknown : findStation s.table a = none) : stationMissed a s = s := by
  rw [stationMissed, unknown]

theorem stationServed_of_absent (known : findStation s.table a = some e) (absent : e.state = .absent) :
    stationServed a s = s := by
  rw [stationServed, known]
  exact if_pos absent

theorem stationMissed_of_absent (known : findStation s.table a = some e) (absent : e.state = .absent) :
    stationMissed a s = s := by
  rw [stationMissed, known]
  exact if_pos absent

theorem stationServed_of_known (known : findStation s.table a = some e) (present : e.state ≠ .absent) :
    stationServed a s = { s with
      table := updateStation s.table a
        (fun x => { x with state := .active, missCount := 0, callsServed := satInc x.callsServed })
      store := if e.state = .active then s.store else s.store.commitEvent
        (.stationState a (e.position.getD 0) e.state .active 0 .served) } := by
  have named : e.address = a := (findStation_mem known).2
  rw [stationServed, known]
  refine (if_neg present).trans ?_
  by_cases active : e.state = .active
  · simp [active]
  · simp [active, commitStationState, commitEvent, named]

theorem stationMissed_of_known (known : findStation s.table a = some e) (present : e.state ≠ .absent) {n : Nat}
    (count : n = min 7 (e.missCount + 1)) {new : StationState}
    (health : new = healthAfterMiss e.state n s.supervisor.config.missLimit) :
    stationMissed a s = { s with
      table := updateStation s.table a (fun x => { x with state := new, missCount := n, misses := satInc x.misses })
      store := if e.state = new then s.store else s.store.commitEvent
        (.stationState a (e.position.getD 0) e.state new n .missed) } := by
  have named : e.address = a := (findStation_mem known).2
  subst count health
  rw [stationMissed, known]
  refine (if_neg present).trans ?_
  dsimp only
  split
  · rfl
  · rw [commitStationState, commitEvent, named]

end

/-- Settles O50. -/
theorem callOutcomesReachTheStation : Obligations.CallOutcomesReachTheStation := by
  unfold Obligations.CallOutcomesReachTheStation
  refine fun a s => ⟨fun unknown => ⟨stationServed_of_unknown unknown, stationMissed_of_unknown unknown⟩,
    fun e known => ⟨fun absent => ⟨stationServed_of_absent known absent, stationMissed_of_absent known absent⟩,
      fun present => ⟨?_, ?_, fun n new count health => ?_⟩⟩⟩
  · rw [stationServed_of_known known present]
    rfl
  · rw [stationServed_of_known known present]
  · rw [stationMissed_of_known known present count health]
    exact ⟨rfl, rfl⟩

/-! ### A report record decided (R99, R100, R119, R125 to R127) -/

theorem owePair_eq (p : AckPair) (owed : List AckPair) : owePair p owed =
    if ∃ q ∈ owed, q.address = p.address then owed.map (fun q => if q.address = p.address then p else q)
    else owed ++ [p] := by
  simp only [owePair, List.any_eq_true, beq_iff_eq]

theorem findStation_updateStation {table : List StationEntry} {a : Byte} {e : StationEntry}
    {f : StationEntry → StationEntry} (kept : ∀ x, (f x).address = x.address) (known : findStation table a = some e) :
    findStation (updateStation table a f) a = some (f e) := by
  have address : ((fun x : StationEntry => x.address == a) ∘ fun x => if x.address = a then f x else x) =
      fun x => x.address == a := by
    funext x
    by_cases named : x.address = a <;> simp [named, kept]
  have found : table.find? (fun x => x.address == a) = some e := known
  rw [findStation, updateStation, List.find?_map, address, found, Option.map_some, if_pos (findStation_mem known).2]

/-- The state with a LOST or SILENT station made ACTIVE by its report (R100). -/
def revived (a : Byte) (e : StationEntry) (s : State) : State :=
  if e.state = .lost ∨ e.state = .silent then
    { s with
      table := s.table.map (fun x => if x.address = a then { x with state := .active, missCount := 0 } else x)
      store := s.store.commitEvent (.stationState a (e.position.getD 0) e.state .active 0 .report) }
  else s

section
variable {n : Word} {item : ReportItem} {s : State} {e : StationEntry}

theorem stationReported_of_known {a : Byte} (known : findStation s.table a = some e) :
    stationReported a s = revived a e s := by
  have named : e.address = a := (findStation_mem known).2
  rw [stationReported, known, revived]
  simp only [commitStationState, named]
  rfl

theorem isDuplicate_revived (known : findStation s.table item.address = some e) :
    isDuplicate (revived item.address e s).table item = (e.lastAccepted == some item.sequence) := by
  obtain ⟨e', found, last⟩ : ∃ e', findStation (revived item.address e s).table item.address = some e' ∧
      e'.lastAccepted = e.lastAccepted := by
    unfold revived
    split
    · exact ⟨_, findStation_updateStation (f := fun x => { x with state := .active, missCount := 0 }) (fun _ => rfl)
        known, rfl⟩
    · exact ⟨e, known, rfl⟩
  rw [isDuplicate, found, ← last]

theorem revived_window {a : Byte} : (revived a e s).window = s.window := by
  unfold revived
  split <;> rfl

theorem decideReport_of_unknown (unknown : findStation s.table item.address = none) : decideReport n item s =
    countReport (fun c => { c with unknownReporter := satInc c.unknownReporter }) s := if_pos (by simp [unknown])

theorem decideReport_of_known (known : findStation s.table item.address = some e) : decideReport n item s =
    if e.lastAccepted = some item.sequence then
      owe item (countReport (fun c => { c with duplicates := satInc c.duplicates }) (revived item.address e s))
    else takeReport n item (revived item.address e s) := by
  rw [decideReport, if_neg (by simp [known]), stationReported_of_known known]
  simp only [isDuplicate_revived known, beq_iff_eq]

theorem takeReport_of_refused (refused : s.store.commitReport n item = none) : takeReport n item s =
    countReport (fun c => { c with refusedForSpace := satInc c.refusedForSpace }) s := by
  rw [takeReport, refused]

theorem takeReport_of_granted {st : Store} (granted : s.store.commitReport n item = some st) : takeReport n item s =
    owe item (setLastAccepted item.address item.sequence
      (countReport (fun c => { c with accepted := satInc c.accepted }) { s with store := st })) := by
  rw [takeReport, granted]

end

/-- Settles O51. -/
theorem reportsAreDecided : Obligations.ReportsAreDecided := by
  unfold Obligations.ReportsAreDecided
  intro n item s count owed
  refine ⟨fun unknown => decideReport_of_unknown unknown, fun e v known revival => ?_⟩
  have reached : revived item.address e s = v := revival.symm
  have window : v.window = s.window := by rw [← reached, revived_window]
  have joined : owePair ⟨item.address, item.sequence⟩ s.window.owed = owed := owePair_eq _ _
  have decided := decideReport_of_known (n := n) known
  rw [reached] at decided
  refine ⟨fun again => ?_, fun new refused => ?_, fun st new granted => ?_⟩
  · rw [decided, if_pos again, owe, countReport]
    simp only [window, joined]
    rfl
  · rw [decided, if_neg new, takeReport_of_refused refused, countReport, window]
  · rw [decided, if_neg new, takeReport_of_granted granted, owe, setLastAccepted, countReport]
    simp only [window, joined]
    rfl

/-! ### The size of a record (R133, R134, R177) -/

theorem length_wordBytes (w : Word) : (wordBytes w).length = 4 := rfl

theorem length_contentBytes (e : Event) : e.contentBytes.length = 12 := by
  have short : e.fields.length ≤ 12 := by
    cases e <;> simp [Event.fields, length_wordBytes, length_halfBytes]
  rw [Event.contentBytes, List.length_append, List.length_replicate]
  omega

theorem length_entryBytes (entries : List EntryOutcome) : (entries.flatMap EntryOutcome.bytes).length =
    3 * entries.length + (entries.map (fun e => e.data.length)).sum := by
  induction entries with
  | nil => rfl
  | cons e rest ih =>
    simp only [List.flatMap_cons, List.length_append, ih, EntryOutcome.bytes, List.length_cons, List.length_nil,
      List.map_cons, List.sum_cons]
    omega

/-- A body is four bytes longer than the fields of its content. -/
theorem length_fields (c : RecordContent) : c.fields.length + 4 = c.size := by
  cases c with
  | snapshot c =>
    simp only [RecordContent.fields, RecordContent.size, List.length_append, length_wordBytes, length_entryBytes,
      List.length_cons, List.length_nil]
    omega
  | urgentResult c =>
    simp only [RecordContent.fields, RecordContent.size, List.length_append, List.length_cons, List.length_nil]
    omega
  | report n item =>
    simp only [RecordContent.fields, RecordContent.size, List.length_append, length_wordBytes, List.length_cons,
      List.length_nil]
    omega
  | event e => rw [RecordContent.fields, length_contentBytes, RecordContent.size]

/-- Settles O52. -/
theorem recordSizeIsItsBodyLength : Obligations.RecordSizeIsItsBodyLength := fun r => by
  rw [Record.size, ← length_fields]
  simp only [Record.body, List.length_cons, List.length_append, length_halfBytes]
  omega

end Sys2Proof.Machine
